-- ==== Sys2Proof/Word.lean ====
section
/-!
DEFINITION. The words of the part: 32-bit link words, bytes, 16-bit status words, page numbers (R153, R165, R36).
-/

namespace Sys2Proof

/-- A word of either link (R153). -/
abbrev Word := BitVec 32

/-- A tone, or any 8-bit field (R36, R153). -/
abbrev Byte := BitVec 8

/-- The sixteen status bits, or an enable mask over them (R165, R166). -/
abbrev StatusWord := BitVec 16

/-- A page number of the page memory, 0 to 32,767 (R36). -/
abbrev Page := Fin 32768

/-- A head number, and the number of its channel (introduction, "Numbering of objects"). -/
abbrev Head := Fin 4

end Sys2Proof
end

