-- ==== Sys2Proof/Syntax.lean ====
section
/-!
DEFINITION. The commands of the part: one constructor for each row of spec/opcode_table.json, in its order.
-/

namespace Sys2Proof

/-- The two serial links: the production link and the service link (chapter 9). -/
inductive Link where
  | p
  | s
deriving DecidableEq, Repr

/-- The edge of an input line. A rise is an event of R116; a fall of HDOWNn, HUPn, HFLTn or HTAKENn is none. -/
inductive Edge where
  | rise
  | fall
deriving DecidableEq, Repr

/-- How the reception of a frame ended (R153, R156): by its END, or by a START before any END. -/
inductive FrameEnd where
  | byEnd
  | byStart
deriving DecidableEq, Repr

/-- What a link's transmitter does (R159): an idle one begins the frame at the head of its queue, or the END of the
frame at the head has been sent. -/
inductive Sending where
  | begun
  | ended
deriving DecidableEq, Repr

/-- The commands. A request, ROW or MARKER command names the link that takes the frame; the frame itself is the one at
the head of that link's input buffer (R158, R160; log 1). -/
inductive Instr where
  | powerOnReset (straps : BitVec 2)
  | jopen (l : Link)
  | jstart (l : Link)
  | jhold (l : Link)
  | jresume (l : Link)
  | jabort (l : Link)
  | jclose (l : Link)
  | jquery (l : Link)
  | sdef (l : Link)
  | srel (l : Link)
  | squery (l : Link)
  | wset (l : Link)
  | wread (l : Link)
  | tload (l : Link)
  | tread (l : Link)
  | mload (l : Link)
  | htrim (l : Link)
  | hreset (l : Link)
  | hquery (l : Link)
  | evset (l : Link)
  | evclr (l : Link)
  | evack (l : Link)
  | evread (l : Link)
  | ident (l : Link)
  | dreset (l : Link)
  | dresetTakesEffect
  | row (l : Link)
  | marker (l : Link)
  | unknownRequest (l : Link)
  | frameReceived (l : Link) (words : List Word) (fin : FrameEnd)
  | frameSent (l : Link) (what : Sending)
  | indexEvent
  | settleComplete
  | holdLimit
  | indexAtChannel (h : Head)
  | lowerTimeout (h : Head)
  | liftTimeout (h : Head)
  | downAck (h : Head) (e : Edge)
  | upAck (h : Head) (e : Edge)
  | presenceGained (h : Head)
  | presenceLost (h : Head)
  | driveFault (h : Head) (e : Edge)
  | lineTakenReport (h : Head) (e : Edge)
  | faultReport (h : Head)
  | buildChoice
  | buildCompletion
deriving DecidableEq, Repr

end Sys2Proof
end

