-- ==== Sys2Proof/Config.lean ====
section
/-!
DEFINITION. What the part fixes (R163 and the bounds the rules name) and the one value the model leaves free.
-/

namespace Sys2Proof.Config

/-- R163: the vendor code IDENT returns. -/
def vendorCode : Nat := 0x0F31

/-- R163: the part code IDENT returns. -/
def partCode : Nat := 0x0460

/-- R163: the revision IDENT returns. -/
def revision : Nat := 3

/-- R36, R163: pages of the page memory. -/
def pageCount : Nat := 32768

/-- R36: tones in a page. -/
def tonesPerPage : Nat := 256

/-- R58, R163: entries of the placement table. -/
def windowCount : Nat := 32

/-- R39: image slots. -/
def slotCount : Nat := 16

/-- R81, R163: tone tables. -/
def toneTableCount : Nat := 16

/-- R83, R163: mark patterns. -/
def markPatternCount : Nat := 8

/-- R38: the free count below which STORELOW is raised. -/
def storeLowMark : Nat := 2048

/-- R98, R126: lines a head's queue can hold. -/
def queueDepth : Nat := 4

/-- R30: records the damage list can hold. -/
def damageDepth : Nat := 8

/-- R149: entries the marker list can hold. -/
def markerDepth : Nat := 16

/-- R121: the Index events a moving head is given. -/
def timeoutLimit : Nat := 8

/-- R157: frames an input buffer can hold. -/
def inputDepth : Nat := 2

/-- R158, R159: unsent replies at which a link takes no further frame. -/
def replyDepth : Nat := 2

/-- R6: the signature of a job header. -/
def signature : Word := 0x6E47B2D9#32

/-- The tone BUILD would read of a row that STORE does not hold, by slot, row and column. R57 keeps every row a
build reads in its slot's directory, so no build of the part reads one: a FREE VALUE (log 13). -/
opaque unheldTone : Nat → Nat → Nat → Byte

end Sys2Proof.Config
end

