-- ==== Sys2Proof/Machine/Records.lean ====
section
/-!
DEFINITION. The records of the eight blocks (RUN, STORE, PLACE, TABLES, BUILD, HC0-HC3, EVENT, LINK) and their reset values.
-/

namespace Sys2Proof.Machine

/-! ### RUN: the job record and the carriage -/

/-- R16. -/
inductive JobState where
  | none | prepared | lowering | running | held | done | aborted
deriving DecidableEq, Repr

/-- R18. -/
inductive HoldReason where
  | none | request | fault | starved
deriving DecidableEq, Repr

/-- R136. -/
inductive Phase where
  | idle | settle | cut | slip
deriving DecidableEq, Repr

/-- The causes of R114 and R30, which share one encoding (11.4). -/
inductive Cause where
  | none | drive | presence | lowerTimeout | liftTimeout | lifted | dropped | short | abort
deriving DecidableEq, Repr

/-- The job header (R4). The masks keep the eight bits of their header fields (11.5). -/
structure JobHeader where
  signature : Word
  jobNumber : Word
  cellsPerRev : Nat
  tracksPerBand : Nat
  headMask : BitVec 8
  shiftMode : Nat
  settleCount : Nat
  holdSteps : Nat
  holdUnit : Nat
  declaredWindows : Nat
  declaredSlots : Nat
  pGrants : BitVec 8
  sGrants : BitVec 8
  locked : List Word
deriving DecidableEq, Repr

/-- R4, R5: the header while none is loaded. -/
def JobHeader.cleared : JobHeader where
  signature := 0
  jobNumber := 0
  cellsPerRev := 512
  tracksPerBand := 1
  headMask := 0
  shiftMode := 0
  settleCount := 1
  holdSteps := 0
  holdUnit := 0
  declaredWindows := 0
  declaredSlots := 0
  pGrants := 0
  sGrants := 0
  locked := []

/-- A damage record (R30). The head sets are masks, bit n for head n. -/
structure DamageRecord where
  track : Nat
  usedHeads : BitVec 4
  cause : Cause
  faultingHeads : BitVec 4
deriving DecidableEq, Repr

/-- A marker entry (R149). -/
structure Marker where
  bit : Fin 4
  track : Nat
deriving DecidableEq, Repr

/-- A fault report that a channel has sent and RUN has not yet taken (R124, R147; log 7). -/
structure FaultReport where
  head : Head
  cause : Cause
deriving DecidableEq, Repr

/-- RUN: the job record (chapter 2), the carriage (R135), the marker list (R149) and the fault reports under way. -/
structure Run where
  header : JobHeader
  jobState : JobState
  holdReason : HoldReason
  damage : List DamageRecord
  totalSlips : Nat
  retiredTracks : Nat
  t : Nat
  phase : Phase
  settleCounter : Nat
  holdCounter : Nat
  pendingHold : Bool
  markers : List Marker
  reports : List FaultReport
deriving DecidableEq, Repr

/-- RUN after power-on reset (R5, R16, R135, R149). -/
def Run.reset : Run where
  header := .cleared
  jobState := .none
  holdReason := .none
  damage := []
  totalSlips := 0
  retiredTracks := 0
  t := 0
  phase := .idle
  settleCounter := 0
  holdCounter := 0
  pendingHold := false
  markers := []
  reports := []

/-! ### STORE -/

/-- R39. `opened` is OPEN. -/
inductive SlotState where
  | empty | opened | full
deriving DecidableEq, Repr

/-- A row record (R41). -/
structure RowRecord where
  rowIndex : Nat
  useCount : Nat
  pages : List Page
deriving DecidableEq, Repr

/-- An image slot (R39). -/
structure Slot where
  state : SlotState
  width : Nat
  height : Nat
  pagesPerRow : Nat
  rowsReceived : Nat
  directory : List RowRecord
deriving DecidableEq, Repr

/-- R39: every field of a slot at its reset value. -/
def Slot.reset : Slot where
  state := .empty
  width := 0
  height := 0
  pagesPerRow := 0
  rowsReceived := 0
  directory := []

/-- Pages `first`, `first + 1`, … (`n` of them) in ascending order. -/
def pagesFrom : Nat → Nat → List Page
  | _, 0 => []
  | first, n + 1 => Fin.ofNat 32768 first :: pagesFrom (first + 1) n

/-- R37: pages 0 to 32,767 in ascending order, page 0 at the head. -/
def allPages : List Page := pagesFrom 0 Config.pageCount

/-- STORE (chapter 3): the free-page list, head first; the slots; the page memory as cells in canonical form, the
byte address of position x of page p being 256 p + x. -/
structure Store where
  freePages : List Page
  slots : Vector Slot 16
  memory : List Host.Cell
deriving DecidableEq, Repr

/-- R55. Nothing is listed in the page memory. -/
def Store.reset : Store where
  freePages := allPages
  slots := Vector.replicate 16 Slot.reset
  memory := []

/-! ### PLACE -/

/-- R58. -/
inductive WindowKind where
  | image | mark | keepout
deriving DecidableEq, Repr

/-- A window entry (R58). -/
structure Window where
  firstTrack : Nat
  lastTrack : Nat
  firstCell : Nat
  lastCell : Nat
  kind : WindowKind
  source : Nat
  rowOffset : Nat
  cellOffset : Nat
  table : Nat
deriving DecidableEq, Repr

/-- R58: a window entry at its reset values. -/
def Window.reset : Window where
  firstTrack := 65535
  lastTrack := 0
  firstCell := 0
  lastCell := 0
  kind := .keepout
  source := 0
  rowOffset := 0
  cellOffset := 0
  table := 0

/-! ### TABLES -/

/-- A tone table (R81): 256 depth codes and the valid flag. -/
structure ToneTable where
  entries : List Nat
  valid : Bool
deriving DecidableEq, Repr

/-- R81: a tone table after power-on reset. -/
def ToneTable.reset : ToneTable where
  entries := List.replicate 256 0
  valid := false

/-- A mark pattern (R83). Row r of the map is a 16-bit value with column c in bit 15 - c (11.5). -/
structure MarkPattern where
  width : Nat
  height : Nat
  map : List (BitVec 16)
  depth : Nat
  valid : Bool
deriving DecidableEq, Repr

/-- R83: a mark pattern after power-on reset. -/
def MarkPattern.reset : MarkPattern where
  width := 0
  height := 0
  map := List.replicate 16 0
  depth := 0
  valid := false

/-- A head's trim record (R85). -/
structure Trim where
  gain : Nat
  offset : Int
  clamp : Nat
  wearLimit : Nat
deriving DecidableEq, Repr

/-- R85: a trim record after power-on reset. -/
def Trim.reset : Trim where
  gain := 1000
  offset := 0
  clamp := 1023
  wearLimit := 0

/-- An accepted write of TABLES with its operands (R89). -/
inductive TableWrite where
  | tone (n : Fin 16) (entries : List Nat)
  | pattern (n : Fin 8) (contents : MarkPattern)
  | trim (h : Head) (record : Trim) (clearCount : Bool)
deriving DecidableEq, Repr

/-- An entry of the write queue (R89). -/
structure QueuedWrite where
  link : Link
  tag : Byte
  write : TableWrite
deriving DecidableEq, Repr

/-- TABLES (chapter 5). The write queue is oldest first. -/
structure Tables where
  tones : Vector ToneTable 16
  patterns : Vector MarkPattern 8
  trims : Vector Trim 4
  writeQueue : List QueuedWrite
deriving DecidableEq, Repr

/-- R95, power-on reset. -/
def Tables.reset : Tables where
  tones := Vector.replicate 16 ToneTable.reset
  patterns := Vector.replicate 8 MarkPattern.reset
  trims := Vector.replicate 4 Trim.reset
  writeQueue := []

/-! ### BUILD -/

/-- A track line (R103). -/
structure Line where
  head : Head
  localTrack : Nat
  globalTrack : Nat
  phase : Bool
  cellCount : Nat
  driveValues : List Nat
  nonzeroCells : Nat
deriving DecidableEq, Repr

/-- The build in flight (R96, R101). The row list holds pairs of slot and row (R66). -/
structure BuildRecord where
  head : Head
  localTrack : Nat
  globalTrack : Nat
  phase : Bool
  rowList : List (Nat × Nat)
  cells : List Nat
deriving DecidableEq, Repr

/-- BUILD (R96). -/
structure Builder where
  nextTrack : Vector Nat 4
  lastServed : Head
  inFlight : Option BuildRecord
deriving DecidableEq, Repr

/-- R96. -/
def Builder.reset : Builder where
  nextTrack := Vector.replicate 4 0
  lastServed := 3
  inFlight := none

/-! ### HC0-HC3 -/

/-- R114. -/
inductive HeadState where
  | absent | parked | lowering | down | lifting | faulted
deriving DecidableEq, Repr

/-- A head channel's record (R114). `transferring`: the channel is sending its head line to the drive (R115, R127). -/
structure Channel where
  state : HeadState
  faultCause : Cause
  faultTrack : Nat
  timeoutCount : Nat
  queue : List Line
  inCut : Bool
  taken : Bool
  transferring : Bool
  linesCut : Nat
  cellsCut : Nat
  damagedLines : Nat
deriving DecidableEq, Repr

/-- R114, R134: a channel after power-on reset whose head is not present. -/
def Channel.reset : Channel where
  state := .absent
  faultCause := .none
  faultTrack := 0
  timeoutCount := 0
  queue := []
  inCut := false
  taken := false
  transferring := false
  linesCut := 0
  cellsCut := 0
  damagedLines := 0

/-- The levels of one head's input lines (R116); `true` is high. -/
structure Pins where
  hpres : Bool
  hdown : Bool
  hup : Bool
  hflt : Bool
  htaken : Bool
deriving DecidableEq, Repr

/-- The levels State.reset has (log 4, DESIGN CHOICE). -/
def Pins.low : Pins where
  hpres := false
  hdown := false
  hup := false
  hflt := false
  htaken := false

/-! ### EVENT -/

/-- EVENT's status word and the enable mask of each link (R165, R166). -/
structure EventUnit where
  status : StatusWord
  pMask : StatusWord
  sMask : StatusWord
deriving DecidableEq, Repr

/-- R172. -/
def EventUnit.reset : EventUnit where
  status := 0
  pMask := 0
  sMask := 0

/-! ### LINK -/

/-- The completion codes (R161). -/
inductive CC where
  | accepted | state | range | zone | locked | room | sequence | conflict | referenced | absent | unknown | passed
  | signature | count
deriving DecidableEq, Repr

/-- The inbound frame kinds (R155). -/
inductive FrameKind where
  | row | marker | request
deriving DecidableEq, Repr

/-- A checked inbound frame in an input buffer (R157). -/
structure InFrame where
  kind : FrameKind
  tag : Byte
  payload : List Word
deriving DecidableEq, Repr

/-- A reply (R155, R175): the kind and code word of the frame answered, its tag, the completion code and the returned
words. -/
structure Reply where
  kind : FrameKind
  tag : Byte
  code : Word
  cc : CC
  returned : List Word
deriving DecidableEq, Repr

/-- The five values of a notice (R171). -/
structure Notice where
  jobNumber : Word
  jobState : JobState
  t : Nat
  raw : StatusWord
  masked : StatusWord
deriving DecidableEq, Repr

/-- A frame of an outbound queue (R159). -/
inductive OutFrame where
  | reply (r : Reply)
  | notice (n : Notice)
deriving DecidableEq, Repr

/-- R158. -/
inductive Handling where
  | ready | waiting | closing
deriving DecidableEq, Repr

/-- One link's port (chapter 9). `receiving`: the words so far of the frame being received. `sending`: whether the
sending of the head of the outbound queue has begun (R159, R170). -/
structure Port where
  receiving : Option (List Word)
  input : List InFrame
  handling : Handling
  out : List OutFrame
  sending : Bool
  errors : Nat
deriving DecidableEq, Repr

/-- R156 to R159, after power-on reset. -/
def Port.reset : Port where
  receiving := none
  input := []
  handling := .ready
  out := []
  sending := false
  errors := 0

end Sys2Proof.Machine
end

