-- ==== Sys2Proof/Machine/State.lean ====
section
/-!
DEFINITION. The state of the part, all of it plain data, the ways a command can stop, and the state after reset.
-/

namespace Sys2Proof.Machine

/-- Everything the spec gives the part, block by block, and the queue of commands waiting. -/
structure State where
  /-- RUN (chapters 2 and 8). -/
  run : Run
  /-- STORE (chapter 3). -/
  store : Store
  /-- PLACE: windows 0 to 31 (R58). -/
  place : Vector Window 32
  /-- TABLES (chapter 5). -/
  tables : Tables
  /-- BUILD (chapter 6). -/
  build : Builder
  /-- HC0 to HC3 (chapter 7). -/
  heads : Vector Channel 4
  /-- The input lines of heads 0 to 3 (R116). -/
  pins : Vector Pins 4
  /-- EVENT (chapter 10). -/
  event : EventUnit
  /-- LINK's port of the P-link (chapter 9). -/
  pLink : Port
  /-- LINK's port of the S-link (chapter 9). -/
  sLink : Port
  /-- The HEADS_FITTED straps as sampled at power-on (R113). -/
  straps : BitVec 2
  /-- Pulses of the STEP line since the last power-on reset or DRESET; the line is low between steps (R145, log 16). -/
  stepPulses : Nat
  /-- The commands waiting, first in, first out (the model's own). -/
  pending : List Instr
deriving DecidableEq, Repr

/-- No behaviour the spec gives this part stops it, so nothing raises a fault: the type has no constructor (safe). -/
inductive Fault where
deriving DecidableEq, Repr

/-- Why a command has no next state. -/
inductive Refusal where
  /-- Raised only by an arm of exec whose command has no meaning yet; safe, since no claim about a next state follows. -/
  | notModelled (mnemonic : String)
deriving DecidableEq, Repr

/-- The part after power-on reset with four heads fitted and every input line low (log 4): each field at the value
its block's chapter gives it. -/
def State.reset : State where
  run := .reset
  store := .reset
  place := Vector.replicate 32 Window.reset
  tables := .reset
  build := .reset
  heads := Vector.replicate 4 Channel.reset
  pins := Vector.replicate 4 Pins.low
  event := .reset
  pLink := .reset
  sLink := .reset
  straps := 3
  stepPulses := 0
  pending := []

end Sys2Proof.Machine
end

