-- ==== Sys2Proof/Machine/Operands.lean ====
section
/-!
DEFINITION. The layouts of chapter 11: bit fields, encodings, the check word, the reading of request operands and the
making of replies and notices.
-/

namespace Sys2Proof.Machine

/-! ### Bit fields and packing (R173) -/

/-- Bits hi..lo of a word as an unsigned number. -/
def bits (w : Word) (hi lo : Nat) : Nat := w.toNat / 2 ^ lo % 2 ^ (hi - lo + 1)

/-- A word whose bits hi..lo hold v; every other bit is 0. -/
def put (hi lo : Nat) (v : Nat) : Word := BitVec.ofNat 32 (v % 2 ^ (hi - lo + 1) * 2 ^ lo)

/-- A yes/no field of one bit. -/
def putBit (n : Nat) (b : Bool) : Word := put n n b.toNat

/-- Word n of a payload, 0 where the payload is shorter (only read where a length check has found it present). -/
def word (p : List Word) (n : Nat) : Word := p.getD n 0

/-- A 48-bit value over two words: value bits 47-32 in bits 15-0 of the first (R173). -/
def read48 (hi lo : Word) : Nat := bits hi 15 0 * 2 ^ 32 + lo.toNat

/-- R173. -/
def words48 (v : Nat) : List Word := [put 15 0 (v / 2 ^ 32), put 31 0 v]

/-- Four tones of a word, the first in bits 31-24 (R173). -/
def tonesOfWord (w : Word) : List Byte :=
  [BitVec.ofNat 8 (bits w 31 24), BitVec.ofNat 8 (bits w 23 16), BitVec.ofNat 8 (bits w 15 8), BitVec.ofNat 8 (bits w 7 0)]

/-- Two 16-bit values of a word, the first in bits 31-16 (R173). -/
def halvesOfWord (w : Word) : List Nat := [bits w 31 16, bits w 15 0]

/-- A list of 16-bit values, two to a word, the last word padded with 0 (R173). -/
def packHalves : List Nat → List Word
  | [] => []
  | [a] => [put 31 16 a]
  | a :: b :: rest => (put 31 16 a ||| put 15 0 b) :: packHalves rest

/-- Words that n tones fill: n / 4 rounded up (11.2). -/
def toneWords (n : Nat) : Nat := (n + 3) / 4

/-- The first n tones of packed words; the padding is not read (R173). -/
def readTones (n : Nat) (ws : List Word) : List Byte := (ws.flatMap tonesOfWord).take n

/-! ### The check word (R154) -/

/-- One data bit taken into the register. -/
def crcBit (reg : Word) (b : Bool) : Word :=
  if reg.msb ^^ b then (reg <<< 1) ^^^ 0x04C11DB7#32 else reg <<< 1

/-- Bits n-1 down to 0 of a word taken into the register. -/
def crcBits (w : Word) : Nat → Word → Word
  | 0, reg => reg
  | n + 1, reg => crcBits w n (crcBit reg (w.getLsbD n))

/-- A whole word taken into the register, bit 31 first. -/
def crcWord (reg w : Word) : Word := crcBits w 32 reg

/-- The check word of a header and payload. -/
def crc (ws : List Word) : Word := ws.foldl crcWord 0xFFFFFFFF#32

/-! ### Encodings (11.4) -/

/-- 11.4, window kind. -/
def WindowKind.code : WindowKind → Nat
  | .image => 0
  | .mark => 1
  | .keepout => 2

/-- 11.4, window kind; any other code is out of range (R173). -/
def WindowKind.ofCode : Nat → Option WindowKind
  | 0 => some .image
  | 1 => some .mark
  | 2 => some .keepout
  | _ => none

/-- 11.4, job state. -/
def JobState.code : JobState → Nat
  | .none => 0
  | .prepared => 1
  | .lowering => 2
  | .running => 3
  | .held => 4
  | .done => 5
  | .aborted => 6

/-- 11.4, hold reason. -/
def HoldReason.code : HoldReason → Nat
  | .none => 0
  | .request => 1
  | .fault => 2
  | .starved => 3

/-- 11.4, carriage phase. -/
def Phase.code : Phase → Nat
  | .idle => 0
  | .settle => 1
  | .cut => 2
  | .slip => 3

/-- 11.4, cause. -/
def Cause.code : Cause → Nat
  | .none => 0
  | .drive => 1
  | .presence => 2
  | .lowerTimeout => 3
  | .liftTimeout => 4
  | .lifted => 5
  | .dropped => 6
  | .short => 7
  | .abort => 8

/-- 11.4, head state. -/
def HeadState.code : HeadState → Nat
  | .absent => 0
  | .parked => 1
  | .lowering => 2
  | .down => 3
  | .lifting => 4
  | .faulted => 5

/-- 11.4, slot state. -/
def SlotState.code : SlotState → Nat
  | .empty => 0
  | .opened => 1
  | .full => 2

/-- R161. -/
def CC.code : CC → Nat
  | .accepted => 0
  | .state => 1
  | .range => 2
  | .zone => 3
  | .locked => 4
  | .room => 5
  | .sequence => 6
  | .conflict => 7
  | .referenced => 8
  | .absent => 9
  | .unknown => 10
  | .passed => 11
  | .signature => 12
  | .count => 13

/-- R155, the kind byte of an inbound frame. -/
def FrameKind.code : FrameKind → Nat
  | .row => 0x01
  | .marker => 0x02
  | .request => 0x03

/-- R155: every other kind is unknown. -/
def FrameKind.ofCode : Nat → Option FrameKind
  | 0x01 => some .row
  | 0x02 => some .marker
  | 0x03 => some .request
  | _ => none

/-- The twenty-four request codes (R160, R174). -/
inductive ReqCode where
  | jopen | jstart | jhold | jresume | jabort | jclose | jquery
  | sdef | srel | squery | wset | wread
  | tload | tread | mload | htrim | hreset | hquery
  | evset | evclr | evack | evread | ident | dreset
deriving DecidableEq, Repr

/-- R174, the code word of a request. -/
def ReqCode.word : ReqCode → Word
  | .jopen => 0x10
  | .jstart => 0x11
  | .jhold => 0x12
  | .jresume => 0x13
  | .jabort => 0x14
  | .jclose => 0x15
  | .jquery => 0x16
  | .sdef => 0x20
  | .srel => 0x21
  | .squery => 0x22
  | .wset => 0x30
  | .wread => 0x31
  | .tload => 0x40
  | .tread => 0x41
  | .mload => 0x42
  | .htrim => 0x50
  | .hreset => 0x51
  | .hquery => 0x52
  | .evset => 0x60
  | .evclr => 0x61
  | .evack => 0x62
  | .evread => 0x63
  | .ident => 0x70
  | .dreset => 0x7F

/-- The known codes (R160). -/
def ReqCode.all : List ReqCode :=
  [.jopen, .jstart, .jhold, .jresume, .jabort, .jclose, .jquery, .sdef, .srel, .squery, .wset, .wread, .tload, .tread,
   .mload, .htrim, .hreset, .hquery, .evset, .evclr, .evack, .evread, .ident, .dreset]

/-- R174: the code word is read whole; any other value is no known code. -/
def ReqCode.ofWord (w : Word) : Option ReqCode := ReqCode.all.find? fun c => c.word == w

/-- R174, step 5 of dispatch: whether a payload of n words holds the request's fixed part, and for a request without a
list nothing more. -/
def ReqCode.fixedPart (c : ReqCode) (n : Nat) : Bool :=
  match c with
  | .jopen => 7 ≤ n
  | .tload => 2 ≤ n
  | .mload => 3 ≤ n
  | .sdef | .tread => n == 3
  | .srel | .wread | .hreset | .hquery | .evset | .evclr | .evack => n == 2
  | .wset | .htrim => n == 6
  | .jstart | .jhold | .jresume | .jabort | .jclose | .jquery | .squery | .evread | .ident | .dreset => n == 1

/-! ### Records (11.5) -/

/-- The header a JOPEN payload carries (11.5), word 0 being the code word. -/
def JobHeader.ofWords (p : List Word) : JobHeader where
  signature := word p 1
  jobNumber := word p 2
  cellsPerRev := bits (word p 3) 31 16
  tracksPerBand := bits (word p 3) 15 0
  headMask := BitVec.ofNat 8 (bits (word p 4) 31 24)
  shiftMode := bits (word p 4) 17 16
  settleCount := bits (word p 4) 15 8
  holdSteps := bits (word p 4) 7 0
  holdUnit := bits (word p 5) 31 24
  declaredWindows := bits (word p 5) 23 16
  declaredSlots := bits (word p 5) 15 8
  pGrants := BitVec.ofNat 8 (bits (word p 6) 15 8)
  sGrants := BitVec.ofNat 8 (bits (word p 6) 7 0)
  locked := p.drop 7

/-- The locked count a JOPEN payload carries (11.5). -/
def lockedCount (p : List Word) : Nat := bits (word p 5) 7 0

/-- Header words 1 to 6 and the locked codes (11.5, 11.6). -/
def JobHeader.words (h : JobHeader) : List Word :=
  [h.signature, h.jobNumber, put 31 16 h.cellsPerRev ||| put 15 0 h.tracksPerBand,
   put 31 24 h.headMask.toNat ||| put 17 16 h.shiftMode ||| put 15 8 h.settleCount ||| put 7 0 h.holdSteps,
   put 31 24 h.holdUnit ||| put 23 16 h.declaredWindows ||| put 15 8 h.declaredSlots ||| put 7 0 h.locked.length,
   put 15 8 h.pGrants.toNat ||| put 7 0 h.sGrants.toNat] ++ h.locked

/-- The window entry of entry words e0 to e3 (11.5); none where the kind code is no kind. -/
def Window.ofWords (e0 e1 e2 e3 : Word) : Option Window :=
  (WindowKind.ofCode (bits e2 31 24)).map fun kind =>
    { firstTrack := bits e0 31 16, lastTrack := bits e0 15 0, firstCell := bits e1 31 16, lastCell := bits e1 15 0,
      kind := kind, source := bits e2 23 16, table := bits e2 15 8, rowOffset := bits e3 31 16,
      cellOffset := bits e3 15 0 }

/-- Entry words e0 to e3 (11.5). -/
def Window.words (w : Window) : List Word :=
  [put 31 16 w.firstTrack ||| put 15 0 w.lastTrack, put 31 16 w.firstCell ||| put 15 0 w.lastCell,
   put 31 24 w.kind.code ||| put 23 16 w.source ||| put 15 8 w.table, put 31 16 w.rowOffset ||| put 15 0 w.cellOffset]

/-- The trim record of words t0 to t3 (11.5); the offset is signed. -/
def Trim.ofWords (t0 t1 t2 t3 : Word) : Trim where
  gain := bits t0 31 16
  offset := (BitVec.ofNat 16 (bits t0 15 0)).toInt
  clamp := bits t1 31 16
  wearLimit := read48 t2 t3

/-- Words t0 to t3 as HQUERY returns them, clear_count 0 (11.5). -/
def Trim.words (r : Trim) : List Word :=
  [put 31 16 r.gain ||| put 15 0 (BitVec.ofInt 16 r.offset).toNat, put 31 16 r.clamp] ++ words48 r.wearLimit

/-- The tone table entries of a TLOAD payload (11.5). -/
def toneEntries (p : List Word) : List Nat := (p.drop 2).flatMap halvesOfWord

/-- The map rows of an MLOAD payload (11.5). -/
def mapRows (p : List Word) : List (BitVec 16) := ((p.drop 3).flatMap halvesOfWord).map (BitVec.ofNat 16)

/-- The columns 0 to width - 1 of a map row: column c is bit 15 - c (11.5). -/
def columnMask (width : Nat) : BitVec 16 := ~~~(0xFFFF#16 >>> width)

/-- R84: the entries inside the width and height as sent, every other entry off. -/
def maskMap (width height : Nat) (rows : List (BitVec 16)) : List (BitVec 16) :=
  rows.mapIdx fun r row => if r < height then row &&& columnMask width else 0

/-- The pattern of an MLOAD payload as it is stored (R84, 11.3). -/
def MarkPattern.ofWords (p : List Word) : MarkPattern where
  width := bits (word p 2) 31 24
  height := bits (word p 2) 23 16
  map := maskMap (bits (word p 2) 31 24) (bits (word p 2) 23 16) (mapRows p)
  depth := bits (word p 2) 15 0
  valid := true

/-- Whether the map is on at a row and column. -/
def MarkPattern.isOn (m : MarkPattern) (row col : Nat) : Bool := (m.map.getD row 0).getLsbD (15 - col)

/-! ### Replies and notices (R175) -/

/-- 11.6: a damage record word. -/
def DamageRecord.word (r : DamageRecord) : Word :=
  put 31 16 r.track ||| put 15 8 r.cause.code ||| put 7 4 r.usedHeads.toNat ||| put 3 0 r.faultingHeads.toNat

/-- 11.6: the two words of a queued line. -/
def Line.words (x : Line) : List Word :=
  [put 31 16 x.localTrack ||| put 15 0 x.globalTrack, put 31 16 x.nonzeroCells ||| putBit 0 x.phase]

/-- R175: the two words every reply payload opens with, and the returned words. -/
def Reply.payload (r : Reply) : List Word := [put 31 24 r.kind.code ||| put 7 0 r.cc.code, r.code] ++ r.returned

/-- R175: a notice's payload. -/
def Notice.payload (n : Notice) : List Word :=
  [n.jobNumber, put 31 24 n.jobState.code ||| put 15 0 n.t, put 31 16 n.raw.toNat ||| put 15 0 n.masked.toNat]

/-- R155: an outbound frame's kind, tag and payload. -/
def OutFrame.parts : OutFrame → Nat × Nat × List Word
  | .reply r => (0x81, r.tag.toNat, r.payload)
  | .notice n => (0x82, 0, n.payload)

/-- The words of an outbound frame between its START and its END: header, payload, check word (R153, R154). -/
def OutFrame.words (f : OutFrame) : List Word :=
  let body := (put 31 24 f.parts.1 ||| put 23 16 f.parts.2.1 ||| put 15 0 f.parts.2.2.length) :: f.parts.2.2
  body ++ [crc body]

/-- The words of an inbound frame of a kind, tag and payload, as a sender makes them (R153, R154). -/
def InFrame.words (f : InFrame) : List Word :=
  let body := (put 31 24 f.kind.code ||| put 23 16 f.tag.toNat ||| put 15 0 f.payload.length) :: f.payload
  body ++ [crc body]

end Sys2Proof.Machine
end

