-- ==== Sys2Proof/Machine/Flags.lean ====
section
/-!
DEFINITION. EVENT: the status bits, the enable masks, and the notices a raise or an EVSET makes due (chapter 10).
-/

namespace Sys2Proof.Machine

/-- The sixteen status bits by name (R165). -/
inductive StatusBit where
  | done | held | aborted | slip | damage | storelow | linkerr | wear
  | hfault (h : Head)
  | mark (n : Fin 4)
deriving DecidableEq, Repr

/-- R165: the bit number. -/
def StatusBit.index : StatusBit → Nat
  | .done => 0
  | .held => 1
  | .aborted => 2
  | .slip => 3
  | .damage => 4
  | .storelow => 5
  | .linkerr => 6
  | .wear => 7
  | .hfault h => 8 + h.val
  | .mark n => 12 + n.val

/-- The status word with only this bit set. -/
def StatusBit.word (b : StatusBit) : StatusWord := BitVec.ofNat 16 (2 ^ b.index)

/-- The port of a link. -/
def State.port (s : State) : Link → Port
  | .p => s.pLink
  | .s => s.sLink

/-- The state with a link's port replaced. -/
def State.setPort (s : State) (l : Link) (x : Port) : State :=
  match l with
  | .p => { s with pLink := x }
  | .s => { s with sLink := x }

/-- The enable mask of a link (R166). -/
def EventUnit.mask (e : EventUnit) : Link → StatusWord
  | .p => e.pMask
  | .s => e.sMask

/-- The event unit with a link's enable mask replaced. -/
def EventUnit.setMask (e : EventUnit) (l : Link) (m : StatusWord) : EventUnit :=
  match l with
  | .p => { e with pMask := m }
  | .s => { e with sMask := m }

/-- R166: the masked status of a link. -/
def EventUnit.masked (e : EventUnit) (l : Link) : StatusWord := e.status &&& e.mask l

/-- R171: the content a notice to a link takes. -/
def State.noticeContent (s : State) (l : Link) : Notice where
  jobNumber := s.run.header.jobNumber
  jobState := s.run.jobState
  t := s.run.t
  raw := s.event.status
  masked := s.event.masked l

/-- Whether an outbound frame is a notice. -/
def OutFrame.isNotice : OutFrame → Bool
  | .notice _ => true
  | .reply _ => false

/-- The frame whose sending has begun, if any (R159). -/
def Port.begun (x : Port) : List OutFrame := if x.sending then x.out.take 1 else []

/-- The frames whose sending has not begun, oldest first (R159). -/
def Port.waiting (x : Port) : List OutFrame := if x.sending then x.out.drop 1 else x.out

/-- R170: whether the link has a pending notice. -/
def Port.hasNotice (x : Port) : Bool := x.waiting.any OutFrame.isNotice

/-- R170: a pending notice's content taken anew where it stands. -/
def OutFrame.retake (n : Notice) : OutFrame → OutFrame
  | .notice _ => .notice n
  | .reply r => .reply r

/-- R170: the port with its pending notice, if any, taken anew; it keeps its place. -/
def Port.takeAnew (n : Notice) (x : Port) : Port := { x with out := x.begun ++ x.waiting.map (OutFrame.retake n) }

/-- R170: a notice due to the link: its pending notice is taken anew, or one is made at the tail. -/
def Port.noticeDue (n : Notice) (x : Port) : Port :=
  if x.hasNotice then x.takeAnew n else { x with out := x.out ++ [.notice n] }

/-- R165, R170: what a raise of bit b does to one link's port; `was`: the bit was set before. -/
def Port.hearRaise (b : StatusBit) (was : Bool) (mask : StatusWord) (n : Notice) (x : Port) : Port :=
  if mask.getLsbD b.index then if was then (if x.hasNotice then x.takeAnew n else x) else x.noticeDue n else x

/-- R165, R170: a block raises a status bit at EVENT. -/
def State.raise (b : StatusBit) (s : State) : State :=
  let was := s.event.status.getLsbD b.index
  let s1 := { s with event := { s.event with status := s.event.status ||| b.word } }
  { s1 with
    pLink := s1.pLink.hearRaise b was s1.event.pMask (s1.noticeContent .p)
    sLink := s1.sLink.hearRaise b was s1.event.sMask (s1.noticeContent .s) }

/-- Raises made one after the other. -/
def State.raiseAll (bs : List StatusBit) (s : State) : State := bs.foldl (fun s b => s.raise b) s

/-- R167: the bits of an EVSET set in the link's mask, and the notice that is due when the masked status gains a bit. -/
def State.enable (l : Link) (m : StatusWord) (s : State) : State :=
  let gained := s.event.status &&& m &&& ~~~(s.event.mask l)
  let s1 := { s with event := s.event.setMask l (s.event.mask l ||| m) }
  if gained = 0 then s1 else s1.setPort l ((s1.port l).noticeDue (s1.noticeContent l))

/-- R167: the bits of an EVCLR cleared in the link's mask. -/
def State.disable (l : Link) (m : StatusWord) (s : State) : State :=
  { s with event := s.event.setMask l (s.event.mask l &&& ~~~m) }

/-- R168: the bits of an EVACK cleared in the status word. -/
def State.acknowledge (m : StatusWord) (s : State) : State :=
  { s with event := { s.event with status := s.event.status &&& ~~~m } }

end Sys2Proof.Machine
end

