-- ==== Sys2Proof/Machine/Ops.lean ====
section
/-!
DEFINITION. The named operations of the blocks: page memory and free-page list, placement table, head channels, the
run-control moves and the build, each written once and shared by the commands' meanings.
-/

namespace Sys2Proof.Machine

/-! ### Heads: accessors -/

/-- Head numbers 0 to 3 in order. -/
def allHeads : List Head := [0, 1, 2, 3]

/-- The record of head channel h (R114). -/
def State.chan (s : State) (h : Head) : Channel := s.heads[h.val]

/-- The state with head channel h's record replaced. -/
def State.setChan (s : State) (h : Head) (c : Channel) : State := { s with heads := s.heads.set h.val c }

/-- Every channel's record replaced by a function of its number and itself. -/
def State.mapChans (f : Head → Channel → Channel) (s : State) : State :=
  { s with heads := #v[f 0 (s.chan 0), f 1 (s.chan 1), f 2 (s.chan 2), f 3 (s.chan 3)] }

/-- The input levels of head h (R116). -/
def State.pin (s : State) (h : Head) : Pins := s.pins[h.val]

/-- The state with head h's input levels replaced. -/
def State.setPin (s : State) (h : Head) (x : Pins) : State := { s with pins := s.pins.set h.val x }

/-- The trim record of head h (R85). -/
def State.trim (s : State) (h : Head) : Trim := s.tables.trims[h.val]

/-- R113: the fitted count, the sampled strap value plus one. -/
def State.fittedCount (s : State) : Nat := s.straps.toNat + 1

/-- R113: whether head channel h is fitted. -/
def State.fitted (s : State) (h : Head) : Bool := h.val < s.fittedCount

/-- A used head: a head in the job's head mask (R8). -/
def JobHeader.used (hd : JobHeader) (h : Head) : Bool := hd.headMask.getLsbD h.val

/-- Whether head h is a used head of the loaded header. -/
def State.used (s : State) (h : Head) : Bool := s.run.header.used h

/-- The used heads in ascending order. -/
def State.usedHeads (s : State) : List Head := allHeads.filter s.used

/-- An operation made for every used head in ascending order (log 8). -/
def State.forUsed (f : Head → State → State) (s : State) : State := s.usedHeads.foldl (fun s h => f h s) s

/-- A set of heads as a mask, bit n for head n (11.4). -/
def headMaskOf (hs : List Head) : BitVec 4 := hs.foldl (fun m h => m ||| BitVec.ofNat 4 (2 ^ h.val)) 0

/-- R11: the job states of an open job. -/
def JobState.isOpen : JobState → Bool
  | .prepared | .lowering | .running | .held => true
  | .none | .done | .aborted => false

/-- R16: the states in which the heads are on the copper or may be; in these BUILD works (R97) and locks apply (R13). -/
def JobState.onCopper : JobState → Bool
  | .lowering | .running | .held => true
  | .none | .prepared | .done | .aborted => false

/-- R115: the level of HLOWERn. -/
def State.hlower (s : State) (h : Head) : Bool :=
  match (s.chan h).state with
  | .lowering | .down => s.fitted h
  | .absent | .parked | .lifting | .faulted => false

/-- R115: the level of HLIFTn. -/
def State.hlift (s : State) (h : Head) : Bool :=
  match (s.chan h).state with
  | .lifting | .faulted => s.fitted h
  | .absent | .parked | .lowering | .down => false

/-- R115, R127: what HDATAn carries: while a transfer is under way, the phase flag and the drive values, cell 0 first. -/
def State.hdata (s : State) (h : Head) : Option (Bool × List Nat) :=
  if (s.chan h).transferring then (s.chan h).queue.head?.map fun x => (x.phase, x.driveValues) else none

/-! ### STORE: the page memory -/

/-- What a byte of the page memory that nothing has written reads as (log 5). -/
def Memory.unlisted : Byte := 0

/-- Bytes of the page memory (R36). -/
def Memory.size : Nat := Config.pageCount * Config.tonesPerPage

/-- The canonical form: addresses strictly rising and inside the page memory, no entry equal to an unlisted byte. -/
abbrev Memory.wf (m : List Host.Cell) : Prop :=
  m.Pairwise (fun a b => a.1 < b.1) ∧ ∀ c ∈ m, c.2 ≠ Memory.unlisted ∧ c.1 < Memory.size

/-- The byte at an address. -/
def Memory.read (m : List Host.Cell) (a : Nat) : Byte :=
  match m.find? (fun c => c.1 == a) with
  | some c => c.2
  | none => Memory.unlisted

/-- The cells of bytes laid from an address on, those equal to an unlisted byte left out. -/
def Memory.cells : Nat → List Byte → List Host.Cell
  | _, [] => []
  | a, b :: bs => if b = Memory.unlisted then Memory.cells (a + 1) bs else (a, b) :: Memory.cells (a + 1) bs

/-- The first address of a page. -/
def Memory.base (p : Page) : Nat := p.val * Config.tonesPerPage

/-- R36: a page written in full; positions after the given tones are written 0. -/
def Memory.writePage (m : List Host.Cell) (p : Page) (tones : List Byte) : List Host.Cell :=
  m.filter (fun c => c.1 < Memory.base p) ++ Memory.cells (Memory.base p) (tones.take Config.tonesPerPage) ++
    m.filter (fun c => Memory.base p + Config.tonesPerPage ≤ c.1)

/-- R45 step 2: tone group j of a row written into the j-th page taken. -/
def Memory.writeRow (m : List Host.Cell) : List Page → List Byte → List Host.Cell
  | [], _ => m
  | p :: ps, tones =>
    Memory.writeRow (Memory.writePage m p tones) ps (tones.drop Config.tonesPerPage)

/-- R57: tone x of a row held in a page list; the free value where the row has no such page (log 13). -/
def Memory.tone (m : List Host.Cell) (slot row : Nat) (pages : List Page) (x : Nat) : Byte :=
  match pages[x / Config.tonesPerPage]? with
  | some p => Memory.read m (Memory.base p + x % Config.tonesPerPage)
  | none => Config.unheldTone slot row x

/-! ### STORE: slots, directories and the free-page list -/

/-- Slot n, an EMPTY one past the last. -/
def Store.slot (st : Store) (n : Nat) : Slot := (st.slots[n]?).getD Slot.reset

/-- The store with slot n replaced. -/
def Store.setSlot (st : Store) (n : Nat) (x : Slot) : Store := { st with slots := st.slots.setIfInBounds n x }

/-- R37: the free count. -/
def Store.freeCount (st : Store) : Nat := st.freePages.length

/-- R37: a list of pages released, joining at the tail. -/
def Store.release (ps : List Page) (st : Store) : Store := { st with freePages := st.freePages ++ ps }

/-- Pages a directory's records hold, in directory order. -/
def directoryPages (d : List RowRecord) : List Page := d.flatMap RowRecord.pages

/-- Pages held by the records of every slot, slots 0 to 15. -/
def Store.heldPages (st : Store) : List Page := st.slots.toList.flatMap fun x => directoryPages x.directory

/-- R50, R51: one use taken from the record of a row: the directory after it, and the pages it releases. A row that the
directory does not hold changes nothing. -/
def takeUse (row : Nat) : List RowRecord → List RowRecord × List Page
  | [] => ([], [])
  | r :: rest =>
    if r.rowIndex = row then
      if r.useCount ≤ 1 then (rest, r.pages) else ({ r with useCount := r.useCount - 1 } :: rest, [])
    else (r :: (takeUse row rest).1, (takeUse row rest).2)

/-- R50, R51: one decrement of a completion, with its release. -/
def Store.decrement (e : Nat × Nat) (st : Store) : Store :=
  let x := st.slot e.1
  let r := takeUse e.2 x.directory
  (st.setSlot e.1 { x with directory := r.1 }).release r.2

/-- R50: the decrements of a completion, in row-list order. -/
def Store.decrementAll (rows : List (Nat × Nat)) (st : Store) : Store := rows.foldl (fun st e => st.decrement e) st

/-- R54: every record of every slot freed, slots in order and records in directory order. -/
def Store.abortRelease (st : Store) : Store :=
  { st with freePages := st.freePages ++ st.heldPages, slots := st.slots.map fun x => { x with directory := [] } }

/-- R55: STORE as a reset, an accepted JOPEN or an accepted JCLOSE leaves it; the page memory is not cleared. -/
def Store.cleared (st : Store) : Store := { Store.reset with memory := st.memory }

/-! ### PLACE (R59 to R66) -/

/-- R59. -/
def Window.enabled (w : Window) : Bool := w.firstTrack ≤ w.lastTrack

/-- An enabled window of kind IMAGE. -/
def Window.isImage (w : Window) : Bool := w.enabled && w.kind == .image

/-- An enabled window of kind IMAGE or MARK, the ones R73 compares. -/
def Window.cuts (w : Window) : Bool := w.enabled && w.kind != .keepout

/-- R60: whether the window covers a global track. -/
def Window.coversTrack (w : Window) (g : Nat) : Bool := w.firstTrack ≤ g && g ≤ w.lastTrack

/-- R61: whether the around range wraps. -/
def Window.wraps (w : Window) : Bool := w.lastCell < w.firstCell

/-- R61: whether a cell lies in the around range. -/
def Window.coversCell (w : Window) (c : Nat) : Bool :=
  if w.wraps then w.firstCell ≤ c || c ≤ w.lastCell else w.firstCell ≤ c && c ≤ w.lastCell

/-- R62: whether the window covers cell (g, c). -/
def Window.covers (w : Window) (g c : Nat) : Bool := w.coversTrack g && w.coversCell c

/-- R61: the span. -/
def Window.span (n : Nat) (w : Window) : Nat :=
  if w.wraps then n - w.firstCell + w.lastCell + 1 else w.lastCell - w.firstCell + 1

/-- R62: the around distance of a covered cell. -/
def Window.aroundDistance (n : Nat) (w : Window) (c : Nat) : Nat := (c + n - w.firstCell) % n

/-- R73: the around range as runs of cells. -/
def Window.runs (n : Nat) (w : Window) : List (Nat × Nat) :=
  if w.wraps then [(w.firstCell, n - 1), (0, w.lastCell)] else [(w.firstCell, w.lastCell)]

/-- Whether two runs have a cell in common. -/
def runsMeet (a b : Nat × Nat) : Bool := a.1 ≤ b.2 && b.1 ≤ a.2

/-- R73: whether two windows share a track and a cell. -/
def Window.overlaps (n : Nat) (a b : Window) : Bool :=
  runsMeet (a.firstTrack, a.lastTrack) (b.firstTrack, b.lastTrack) &&
    (a.runs n).any fun x => (b.runs n).any fun y => runsMeet x y

/-- Window n of the table, a disabled one past the last. -/
def State.window (s : State) (n : Nat) : Window := (s.place[n]?).getD Window.reset

/-- R19, R80: the number of enabled windows. -/
def State.enabledWindows (s : State) : Nat := s.place.toList.countP Window.enabled

/-- R19: the number of slots OPEN or FULL. -/
def State.slotsInUse (s : State) : Nat := s.store.slots.toList.countP fun x => x.state != .empty

/-- R42: the row of its slot that the window reads on global track g. -/
def Window.rowAt (w : Window) (g : Nat) : Nat := g - w.firstTrack + w.rowOffset

/-- R42: whether the window gives row r of a slot a use. -/
def Window.uses (slot r : Nat) (w : Window) : Bool :=
  w.isImage && w.source == slot && w.rowOffset ≤ r && w.firstTrack + (r - w.rowOffset) ≤ w.lastTrack

/-- R42: the use count of row r of a slot. -/
def State.useCount (s : State) (slot r : Nat) : Nat := s.place.toList.countP (Window.uses slot r)

/-- R66: the row list of global track g, ascending window index. -/
def State.rowList (s : State) (g : Nat) : List (Nat × Nat) :=
  (s.place.toList.filter fun w => w.isImage && w.coversTrack g).map fun w => (w.source, w.rowAt g)

/-- R79: every window disabled. -/
def clearedPlace : Vector Window 32 := Vector.replicate 32 Window.reset

/-! ### TABLES (R87, R89, R90) -/

/-- Tone table n, an invalid one past the last. -/
def Tables.tone (x : Tables) (n : Nat) : ToneTable := (x.tones[n]?).getD ToneTable.reset

/-- Mark pattern n, an invalid one past the last. -/
def Tables.pattern (x : Tables) (n : Nat) : MarkPattern := (x.patterns[n]?).getD MarkPattern.reset

/-- R87: the trim function. -/
def Trim.drive (r : Trim) (d : Nat) : Nat :=
  if d = 0 then 0
  else
    let v : Int := (d * r.gain / 1000 : Nat) + r.offset
    if v < 1 then 1 else if (r.clamp : Int) < v then r.clamp else v.toNat

/-- R88: the depth code of a tone. -/
def ToneTable.depth (x : ToneTable) (tone : Byte) : Nat := x.entries.getD tone.toNat 0

/-- R88: the depth code of a pattern position given by its offset track and around distances. -/
def MarkPattern.depthAt (m : MarkPattern) (track around : Nat) : Nat :=
  if m.isOn (track % m.height) (around % m.width) then m.depth else 0

/-- R90: the whole effect of an accepted write. -/
def State.applyWrite (w : TableWrite) (s : State) : State :=
  match w with
  | .tone n es => { s with tables := { s.tables with tones := s.tables.tones.set n.val ⟨es, true⟩ } }
  | .pattern n m => { s with tables := { s.tables with patterns := s.tables.patterns.set n.val m } }
  | .trim h r clear =>
    let s1 := { s with tables := { s.tables with trims := s.tables.trims.set h.val r } }
    if clear then s1.setChan h { s1.chan h with cellsCut := 0 } else s1

/-- The code word of the request that made a write. -/
def TableWrite.code : TableWrite → Word
  | .tone .. => ReqCode.tload.word
  | .pattern .. => ReqCode.mload.word
  | .trim .. => ReqCode.htrim.word

/-- R158, R159: a reply joins the tail of its link's outbound queue and the link returns to READY. -/
def State.queueReply (l : Link) (r : Reply) (s : State) : State :=
  s.setPort l { s.port l with out := (s.port l).out ++ [.reply r], handling := .ready }

/-- R90: one waiting write takes effect and is answered. -/
def State.finishWrite (q : QueuedWrite) (s : State) : State :=
  (s.applyWrite q.write).queueReply q.link ⟨.request, q.tag, q.write.code, .accepted, []⟩

/-- R90: the waiting writes take effect and are answered, oldest first; the queue is then empty. -/
def State.finishWrites (s : State) : State :=
  let s1 := s.tables.writeQueue.foldl (fun s q => s.finishWrite q) s
  { s1 with tables := { s1.tables with writeQueue := [] } }

/-! ### Head channels -/

/-- R124: a channel enters FAULTED. -/
def State.enterFaulted (h : Head) (cause : Cause) (s : State) : State :=
  let c := s.chan h
  let s1 := s.setChan h { c with state := .faulted, faultCause := cause, faultTrack := s.run.t, transferring := false }
  let s2 := s1.raise (.hfault h)
  if s2.used h && (s2.run.jobState == .lowering || s2.run.jobState == .running) && cause != .short then
    { s2 with run := { s2.run with reports := s2.run.reports ++ [⟨h, cause⟩] } }
  else s2

/-- R116: a channel enters LIFTING, by any cause, and makes the entry check. -/
def State.enterLifting (h : Head) (s : State) : State :=
  let c := { s.chan h with state := .lifting, timeoutCount := 0, transferring := false }
  let s1 := s.setChan h c
  if (s.pin h).hflt then s1.enterFaulted h .drive
  else if (s.pin h).hup then s1.setChan h { c with state := .parked }
  else s1

/-- R119: the lift command at a channel. -/
def State.liftCommand (h : Head) (s : State) : State :=
  match (s.chan h).state with
  | .lowering | .down => s.enterLifting h
  | .absent | .parked | .lifting | .faulted => s

/-- R117: the lower command at a channel. -/
def Channel.lower (c : Channel) : Channel :=
  match c.state with
  | .parked => { c with state := .lowering, timeoutCount := 0 }
  | .absent | .lowering | .down | .lifting | .faulted => c

/-- R127: the cut command at a channel. -/
def Channel.cut (c : Channel) : Channel :=
  { c with inCut := true, taken := false, transferring := c.state == .down }

/-- A counter of R114 advanced by n, saturating at its greatest value. -/
def saturate (greatest v n : Nat) : Nat := min greatest (v + n)

/-- The greatest value of lines_cut, damaged_lines and total slips. -/
def max32 : Nat := 4294967295

/-- The greatest value of cells_cut and wear_limit. -/
def max48 : Nat := 281474976710655

/-- R129: the head line's nonzero_cells, 0 for an empty queue. -/
def Channel.headCells (c : Channel) : Nat := (c.queue.head?.map Line.nonzeroCells).getD 0

/-- R129: the retire command at a channel. -/
def Channel.retire (c : Channel) : Channel :=
  { c with queue := c.queue.tail, linesCut := saturate max32 c.linesCut 1,
           cellsCut := saturate max48 c.cellsCut c.headCells, inCut := false, taken := false, transferring := false }

/-- R129: the damage command at a channel. -/
def Channel.damage (c : Channel) : Channel :=
  { c with queue := c.queue.tail, damagedLines := saturate max32 c.damagedLines 1, inCut := false, taken := false,
           transferring := false }

/-- R129: the empty command at a channel. -/
def Channel.empty (c : Channel) : Channel :=
  { c with queue := [], inCut := false, taken := false, transferring := false }

/-- A channel command given to every used head. -/
def State.command (f : Channel → Channel) (s : State) : State := s.mapChans fun h c => if s.used h then f c else c

/-- R131: the wear comparison of head h after its retire command. -/
def State.wearCheck (h : Head) (s : State) : State :=
  if (s.trim h).wearLimit ≠ 0 ∧ (s.trim h).wearLimit ≤ (s.chan h).cellsCut then s.raise .wear else s

/-- R125: the short command at channel h. -/
def State.shortCommand (h : Head) (s : State) : State :=
  match (s.chan h).state with
  | .down => s.enterFaulted h .short
  | .absent | .parked | .lowering | .lifting | .faulted => s

/-- R121: an Index event at channel h. -/
def State.indexAtChannel (h : Head) (s : State) : State :=
  let c := s.chan h
  let counted := s.setChan h { c with timeoutCount := c.timeoutCount + 1 }
  if s.fitted h then
    match c.state with
    | .lowering => if Config.timeoutLimit ≤ c.timeoutCount + 1 then counted.enterFaulted h .lowerTimeout else counted
    | .lifting => if Config.timeoutLimit ≤ c.timeoutCount + 1 then counted.enterFaulted h .liftTimeout else counted
    | .absent | .parked | .down | .faulted => s
  else s

/-! ### RUN: the moves of the job -/

/-- R145: one pulse of STEP. -/
def State.pulseStep (s : State) : State := { s with stepPulses := s.stepPulses + 1 }

/-- R151: the markers of track t removed from the head of the list and their bits raised in list order. -/
def State.fireMarkers (s : State) : State :=
  let fired := s.run.markers.takeWhile fun m => m.track == s.run.t
  let s1 := { s with run := { s.run with markers := s.run.markers.dropWhile fun m => m.track == s.run.t } }
  s1.raiseAll (fired.map fun m => .mark m.bit)

/-- R141 step 4, R146 step 6: t and retired tracks advance. -/
def State.advanceTrack (s : State) : State :=
  { s with run := { s.run with t := s.run.t + 1, retiredTracks := s.run.retiredTracks + 1 } }

/-- R25, R29, R31, R32: RUN's record as a job enters HELD, DONE or ABORTED. A fault report still under way has no effect on
the job from then on (R26, R124, R147), so none stays (log 7). -/
def Run.stop (j : JobState) (reason : HoldReason) (r : Run) : Run :=
  { r with jobState := j, holdReason := reason, pendingHold := false, phase := .idle, reports := [] }

/-- R25: entry to HELD. -/
def State.enterHeld (reason : HoldReason) (s : State) : State :=
  let s1 := { s with run := s.run.stop .held reason }
  (s1.forUsed State.liftCommand).raise .held

/-- R29: entry to DONE. -/
def State.enterDone (s : State) : State :=
  let s1 := { s with run := s.run.stop .done .none }
  (s1.forUsed State.liftCommand).raise .done

/-- R107: a build in flight is abandoned; the writes waiting behind it take effect and are answered. -/
def State.abandonBuild (s : State) : State :=
  ({ s with build := { s.build with inFlight := none } }).finishWrites

/-- R32 outside CUT, R31: the job becomes ABORTED, with the effects on each block in R32's order. -/
def State.enterAborted (s : State) : State :=
  let s1 := { s with run := { s.run.stop .aborted .none with markers := [] } }
  let s2 := s1.abandonBuild
  let s3 := (s2.mapChans fun _ c => c.empty).forUsed State.liftCommand
  ({ s3 with store := s3.store.abortRelease }).raise .aborted

/-- R30: the record of the track in cut. -/
def State.damageRecord (cause : Cause) (heads : BitVec 4) (s : State) : DamageRecord :=
  ⟨s.run.t, headMaskOf s.usedHeads, cause, heads⟩

/-- R30: a damage record appended if the list has room. -/
def State.appendDamage (r : DamageRecord) (s : State) : State :=
  if s.run.damage.length < Config.damageDepth then { s with run := { s.run with damage := s.run.damage ++ [r] } } else s

/-- R30: the lines in cut removed from every used head's queue as damaged, and DAMAGE raised. -/
def State.removeDamaged (s : State) : State := (s.command Channel.damage).raise .damage

/-- R146: the track in cut retired as damaged, or the ninth damage. -/
def State.retireDamaged (cause : Cause) (heads : BitVec 4) (s : State) : State :=
  if s.run.damage.length < Config.damageDepth then
    let s1 := (s.appendDamage (s.damageRecord cause heads)).removeDamaged.pulseStep.fireMarkers.advanceTrack
    if s1.run.t = s1.run.header.tracksPerBand then s1.enterDone else s1.enterHeld .fault
  else s.removeDamaged.enterAborted

/-- R4: the hold limit of the header in revolutions; 0 disables it. -/
def JobHeader.holdLimit (hd : JobHeader) : Nat := hd.holdSteps * (if hd.holdUnit = 0 then 16 else 64)

/-- R143: whether head h's queue holds the line for t at its head. -/
def State.lineReady (s : State) (h : Head) : Bool :=
  match (s.chan h).queue with
  | [] => false
  | x :: _ => x.localTrack == s.run.t

/-- R143: every used head holds its line for t. -/
def State.allReady (s : State) : Bool := s.usedHeads.all s.lineReady

/-- R143: a cut starts. -/
def State.startCut (s : State) : State :=
  ({ s with run := { s.run with phase := .cut, holdCounter := 0 } }).command Channel.cut

/-- R144: the carriage slips, without the hold limit. -/
def State.slip (s : State) : State :=
  ({ s with run := { s.run with phase := .slip, holdCounter := saturate 65535 s.run.holdCounter 1,
                                totalSlips := saturate max32 s.run.totalSlips 1 } }).raise .slip

/-- R143, R144: the readiness step. -/
def State.readiness (s : State) : State :=
  if s.allReady then s.startCut
  else
    let s1 := s.slip
    if s1.run.header.holdLimit ≠ 0 ∧ s1.run.holdCounter = s1.run.header.holdLimit then s1.enterHeld .starved else s1

/-- R140: the used heads whose channels have not taken their line. -/
def State.shortHeads (s : State) : List Head := s.usedHeads.filter fun h => !(s.chan h).taken

/-- R141: the track in cut retired normally, up to the advance of t. -/
def State.retireTrack (s : State) : State :=
  ((s.command Channel.retire).forUsed State.wearCheck).pulseStep.fireMarkers.advanceTrack

/-- R139 to R142: an Index event in phase CUT. -/
def State.closeCut (s : State) : State :=
  if s.shortHeads ≠ [] then
    (s.shortHeads.foldl (fun s h => s.shortCommand h) s).retireDamaged .short (headMaskOf s.shortHeads)
  else
    let s1 := s.retireTrack
    if s1.run.t = s1.run.header.tracksPerBand then s1.enterDone
    else if s1.run.pendingHold then s1.enterHeld .request
    else s1.readiness

/-- R138: every used head channel is DOWN. -/
def State.allDown (s : State) : Bool := s.usedHeads.all fun h => (s.chan h).state == .down

/-- R138: an Index event in LOWERING. -/
def State.settle (s : State) : State :=
  if s.allDown then
    let n := s.run.settleCounter + 1
    if n = s.run.header.settleCount then
      ({ s with run := { s.run with settleCounter := n, jobState := .running, holdCounter := 0 } }).readiness
    else { s with run := { s.run with settleCounter := n } }
  else { s with run := { s.run with settleCounter := 0 } }

/-- R137 to R144: RUN's handling of one Index event. -/
def State.indexEvent (s : State) : State :=
  match s.run.jobState with
  | .lowering => s.settle
  | .running => if s.run.phase = .cut then s.closeCut else s.readiness
  | .none | .prepared | .held | .done | .aborted => s

/-- R26: RUN takes a fault report. -/
def State.takeReport (r : FaultReport) (s : State) : State :=
  if s.used r.head then
    match s.run.jobState with
    | .lowering => s.enterHeld .fault
    | .running => if s.run.phase = .cut then s.retireDamaged r.cause (headMaskOf [r.head]) else s.enterHeld .fault
    | .none | .prepared | .held | .done | .aborted => s
  else s

/-! ### BUILD -/

/-- R63: the first entry of the table, in index order, that covers (g, c) and has a kind. -/
def State.covering (s : State) (k : WindowKind) (g c : Nat) : Option Window :=
  s.place.toList.find? fun w => w.kind == k && w.covers g c

/-- R57: tone x of row r of a slot, as BUILD reads it. -/
def State.toneAt (s : State) (slot r x : Nat) : Byte :=
  match (s.store.slot slot).directory.find? (fun d => d.rowIndex == r) with
  | some d => Memory.tone s.store.memory slot r d.pages x
  | none => Config.unheldTone slot r x

/-- R64: the drive value of a cell of an IMAGE window. -/
def State.imageCell (s : State) (h : Head) (w : Window) (g c : Nat) : Nat :=
  let col := w.aroundDistance s.run.header.cellsPerRev c + w.cellOffset
  (s.trim h).drive ((s.tables.tone w.table).depth (s.toneAt w.source (w.rowAt g) col))

/-- R65: the drive value of a cell of a MARK window. -/
def State.markCell (s : State) (h : Head) (w : Window) (g c : Nat) : Nat :=
  let around := w.aroundDistance s.run.header.cellsPerRev c + w.cellOffset
  (s.trim h).drive ((s.tables.pattern w.source).depthAt (w.rowAt g) around)

/-- R63: the drive value of cell (g, c) for head h. -/
def State.resolveCell (s : State) (h : Head) (g c : Nat) : Nat :=
  if (s.covering .keepout g c).isSome then 0
  else
    match s.covering .image g c with
    | some w => s.imageCell h w g c
    | none =>
      match s.covering .mark g c with
      | some w => s.markCell h w g c
      | none => 0

/-- R98: head h is eligible for a build. -/
def State.eligible (s : State) (h : Head) : Bool :=
  s.used h && (s.chan h).queue.length < Config.queueDepth && s.build.nextTrack[h.val] < s.run.header.tracksPerBand &&
    (s.rowList (h.val * s.run.header.tracksPerBand + s.build.nextTrack[h.val])).all fun e =>
      e.2 < (s.store.slot e.1).rowsReceived

/-- R100: the heads in the order a choice takes them. -/
def choiceOrder (last : Head) : List Head := [last + 1, last + 2, last + 3, last]

/-- R101, R102: the build record of a build begun for head h, its cells as BUILD computes them (log 12). -/
def State.buildRecord (s : State) (h : Head) : BuildRecord :=
  let p := s.build.nextTrack[h.val]
  let g := h.val * s.run.header.tracksPerBand + p
  { head := h, localTrack := p, globalTrack := g, phase := s.run.header.shiftMode == 1 && g % 2 == 1,
    rowList := s.rowList g, cells := (List.range s.run.header.cellsPerRev).map (s.resolveCell h g) }

/-- R103: the line a build produces. -/
def BuildRecord.line (b : BuildRecord) : Line where
  head := b.head
  localTrack := b.localTrack
  globalTrack := b.globalTrack
  phase := b.phase
  cellCount := b.cells.length
  driveValues := b.cells
  nonzeroCells := b.cells.countP fun v => v != 0

/-- R100: BUILD may make a choice: nothing in flight, the write queue empty, the job LOWERING, RUNNING or HELD. -/
def State.mayChoose (s : State) : Bool :=
  s.build.inFlight.isNone && s.tables.writeQueue.isEmpty && s.run.jobState.onCopper

/-- R100, R101: a build begun for head h. -/
def State.beginBuild (h : Head) (s : State) : State :=
  { s with build := { s.build with lastServed := h, inFlight := some (s.buildRecord h) } }

/-- R104: the completion of a build, its four steps in order. -/
def State.completeBuild (b : BuildRecord) (s : State) : State :=
  let c := s.chan b.head
  let s1 := s.setChan b.head { c with queue := c.queue ++ [b.line] }
  let s2 := { s1 with build := { s1.build with nextTrack := s1.build.nextTrack.set b.head.val
                                                              (s1.build.nextTrack[b.head.val] + 1) } }
  let s3 := { s2 with store := s2.store.decrementAll b.rowList }
  ({ s3 with build := { s3.build with inFlight := none } }).finishWrites

end Sys2Proof.Machine
end

