-- ==== Sys2Proof/Machine/Requests.lean ====
section
/-!
DEFINITION. LINK's taking of a frame and its dispatch (chapter 9, with the zones and locks of chapter 1 and the states of
R17), shared by every request, ROW and MARKER.
-/

namespace Sys2Proof.Machine

/-! ### Taking a frame (R158) -/

/-- Whether an outbound frame is a reply. -/
def OutFrame.isReply : OutFrame → Bool
  | .reply _ => true
  | .notice _ => false

/-- R158: the replies whose sending has not begun. -/
def Port.unsentReplies (x : Port) : Nat := x.waiting.countP OutFrame.isReply

/-- R158: the frame a link takes next, with its port once it is taken; none where the conditions do not hold. -/
def Port.take (x : Port) : Option (InFrame × Port) :=
  match x.input with
  | [] => none
  | f :: rest =>
    if x.handling = .ready ∧ x.unsentReplies < Config.replyDepth then
      some (f, { x with input := rest, handling := .waiting })
    else none

/-- The frame that link l takes, if it can take one and the frame is of the sort a command names, with the state in
which the link handles it. -/
def State.takeFrame (s : State) (l : Link) (sort : InFrame → Bool) : Option (InFrame × State) :=
  match (s.port l).take with
  | none => none
  | some (f, x) => if sort f then some (f, s.setPort l x) else none

/-- R160, R174: the request code word of a frame's payload, none for a payload of length 0. -/
def InFrame.codeWord (f : InFrame) : Option Word := f.payload.head?

/-- A REQUEST frame with a given known code. -/
def InFrame.isRequest (c : ReqCode) (f : InFrame) : Bool := f.kind == .request && f.codeWord == some c.word

/-- R160 step 1: a REQUEST frame with no known code. -/
def InFrame.isUnknown (f : InFrame) : Bool := f.kind == .request && (f.codeWord.bind ReqCode.ofWord).isNone

/-- A ROW frame. -/
def InFrame.isRow (f : InFrame) : Bool := f.kind == .row

/-- A MARKER frame. -/
def InFrame.isMarker (f : InFrame) : Bool := f.kind == .marker

/-! ### Zones (R10, R11) -/

/-- R10. -/
inductive Zone where
  | place | tone | mark | trim | run
deriving DecidableEq, Repr

/-- 11.4: the zone's bit in a grant mask. -/
def Zone.index : Zone → Nat
  | .place => 0
  | .tone => 1
  | .mark => 2
  | .trim => 3
  | .run => 4

/-- R10: the zone of a request, none for a request in no zone. DRESET stands outside (R12). -/
def ReqCode.zone : ReqCode → Option Zone
  | .sdef | .srel | .wset => some .place
  | .tload => some .tone
  | .mload => some .mark
  | .htrim | .hreset => some .trim
  | .jstart | .jhold | .jresume | .jabort | .jclose => some .run
  | .jopen | .ident | .wread | .tread | .squery | .jquery | .hquery | .evset | .evclr | .evack | .evread | .dreset => none

/-- R11: the zones fixed to a link. -/
def Zone.fixedTo : Link → Zone → Bool
  | .p, .place | .p, .run | .s, .trim | .s, .run => true
  | .p, .tone | .p, .mark | .p, .trim | .s, .place | .s, .tone | .s, .mark => false

/-- R11: the grant mask of a link. -/
def JobHeader.grants (hd : JobHeader) : Link → BitVec 8
  | .p => hd.pGrants
  | .s => hd.sGrants

/-- R11: whether link l holds a zone. -/
def State.holdsZone (s : State) (l : Link) (z : Zone) : Bool :=
  !s.run.jobState.isOpen || z.fixedTo l || (s.run.header.grants l).getLsbD z.index

/-- R11, R12: the zone step for a request. -/
def State.zonePasses (s : State) (l : Link) (c : ReqCode) : Bool :=
  if c = .dreset then l = .s
  else
    match c.zone with
    | none => true
    | some z => s.holdsZone l z

/-! ### Locks and states (R13, R17) -/

/-- R13: the lock step. -/
def State.lockPasses (s : State) (c : ReqCode) : Bool :=
  !(s.run.jobState.onCopper && s.run.header.locked.contains c.word)

/-- R17: the job states in which a request is accepted. -/
def ReqCode.acceptedIn (c : ReqCode) (j : JobState) : Bool :=
  match c with
  | .jopen => j == .none || j == .done || j == .aborted
  | .jstart => j == .prepared
  | .jhold => j == .lowering || j == .running
  | .jresume => j == .held
  | .jabort => j.isOpen
  | .jclose => j == .done || j == .aborted
  | .sdef | .srel | .wset => j == .prepared
  | .tload | .mload | .htrim | .hreset | .ident | .wread | .tread | .squery | .jquery | .hquery | .evset | .evclr | .evack
  | .evread | .dreset => true

/-- R160, steps 2 to 5 for a request: the refusal, if any. The code step has found the code known. -/
def State.dispatch (s : State) (l : Link) (c : ReqCode) (p : List Word) : Option CC :=
  if !s.zonePasses l c then some .zone
  else if !s.lockPasses c then some .locked
  else if !c.acceptedIn s.run.jobState then some .state
  else if !c.fixedPart p.length then some .range
  else none

/-- R160, steps 2 to 5 for a ROW or MARKER: the refusal, if any. -/
def State.dispatchFrame (s : State) (l : Link) (fixedPart : Bool) : Option CC :=
  if !s.holdsZone l .place then some .zone
  else if !s.run.jobState.isOpen then some .state
  else if !fixedPart then some .range
  else none

/-! ### Answering -/

/-- An owner's answer: completion code, returned words, and the state with its effects made. -/
structure Answer where
  cc : CC
  returned : List Word
  state : State
deriving DecidableEq, Repr

/-- A refusal, which changes nothing. -/
def State.refuse (s : State) (c : CC) : Answer := ⟨c, [], s⟩

/-- An accepted request that returns no words. -/
def State.accept (s : State) : Answer := ⟨.accepted, [], s⟩

/-- A read: words returned and nothing changed. -/
def State.returns (s : State) (ws : List Word) : Answer := ⟨.accepted, ws, s⟩

/-- R155, R175: the reply to a frame. Returned words follow a request's CC only when it is 0. -/
def InFrame.answer (f : InFrame) (c : CC) (ws : List Word) : Reply :=
  ⟨f.kind, f.tag, f.codeWord.getD 0, c, if c = .accepted then ws else []⟩

/-- R158, R160: the state after link l has taken, dispatched and answered a request of code c, none where no such frame
is taken. -/
def State.request (s : State) (l : Link) (c : ReqCode) (owner : List Word → State → Answer) : Option State :=
  match s.takeFrame l (InFrame.isRequest c) with
  | none => none
  | some (f, s1) =>
    match s1.dispatch l c f.payload with
    | some cc => some (s1.queueReply l (f.answer cc []))
    | none =>
      let a := owner f.payload s1
      some (a.state.queueReply l (f.answer a.cc a.returned))

/-- The outcome of a step that leaves the part as it is where its condition does not hold (log 1). -/
def settleStep (s : State) (next : Option State) : Host.Outcome State Fault Refusal := .next (next.getD s)

/-- The outcome of a request command. -/
def serve (c : ReqCode) (l : Link) (owner : List Word → State → Answer) (s : State) : Host.Outcome State Fault Refusal :=
  settleStep s (s.request l c owner)

end Sys2Proof.Machine
end

