-- ==== Sys2Proof/Machine/Building.lean ====
section
/-!
DEFINITION. BUILD's steps: BUILD_CHOICE and BUILD_COMPLETION (chapter 6).
-/

namespace Sys2Proof.Machine

/-- R100: the head a choice takes, if BUILD may choose and a head is eligible. -/
def State.choice (s : State) : Option Head :=
  if s.mayChoose then (choiceOrder s.build.lastServed).find? s.eligible else none

/-- BUILD_CHOICE. -/
def execBuildChoice (s : State) : Host.Outcome State Fault Refusal :=
  settleStep s (s.choice.map fun h => s.beginBuild h)

/-- BUILD_COMPLETION. -/
def execBuildCompletion (s : State) : Host.Outcome State Fault Refusal :=
  settleStep s (s.build.inFlight.map fun b => s.completeBuild b)

end Sys2Proof.Machine
end

