-- ==== Sys2Proof/Machine/EventRequests.lean ====
section
/-!
DEFINITION. EVENT's requests EVSET, EVCLR, EVACK and EVREAD (chapter 10) and LINK's IDENT (R163).
-/

namespace Sys2Proof.Machine

/-- The mask operand of EVSET, EVCLR and EVACK (11.3). -/
def maskOperand (p : List Word) : StatusWord := BitVec.ofNat 16 (bits (word p 1) 15 0)

/-- EVSET at EVENT. -/
def ownEvset (l : Link) (p : List Word) (s : State) : Answer := (s.enable l (maskOperand p)).accept

/-- EVSET. -/
def execEvset (l : Link) (s : State) : Host.Outcome State Fault Refusal := serve .evset l (ownEvset l) s

/-- EVCLR at EVENT. -/
def ownEvclr (l : Link) (p : List Word) (s : State) : Answer := (s.disable l (maskOperand p)).accept

/-- EVCLR. -/
def execEvclr (l : Link) (s : State) : Host.Outcome State Fault Refusal := serve .evclr l (ownEvclr l) s

/-- EVACK at EVENT. -/
def ownEvack (p : List Word) (s : State) : Answer := (s.acknowledge (maskOperand p)).accept

/-- EVACK. -/
def execEvack (l : Link) (s : State) : Host.Outcome State Fault Refusal := serve .evack l ownEvack s

/-- R169, R175: the words EVREAD returns on a link. -/
def State.eventWords (s : State) (l : Link) : List Word :=
  [put 31 16 s.event.status.toNat ||| put 15 0 (s.event.mask l).toNat,
   put 31 16 (s.event.masked l).toNat ||| put 15 0 (s.port l).errors]

/-- EVREAD at EVENT. -/
def ownEvread (l : Link) (_ : List Word) (s : State) : Answer := s.returns (s.eventWords l)

/-- EVREAD. -/
def execEvread (l : Link) (s : State) : Host.Outcome State Fault Refusal := serve .evread l (ownEvread l) s

/-- R163, R175: the words IDENT returns. -/
def State.identWords (s : State) : List Word :=
  [put 31 16 Config.vendorCode ||| put 15 0 Config.partCode,
   put 31 24 Config.revision ||| put 23 16 s.fittedCount ||| put 15 8 Config.windowCount ||| put 7 0 Config.toneTableCount,
   put 31 0 Config.pageCount, put 7 0 Config.markPatternCount]

/-- IDENT at LINK. -/
def ownIdent (_ : List Word) (s : State) : Answer := s.returns s.identWords

/-- IDENT. -/
def execIdent (l : Link) (s : State) : Host.Outcome State Fault Refusal := serve .ident l ownIdent s

end Sys2Proof.Machine
end

