-- ==== Sys2Proof/Machine/HeadEvents.lean ====
section
/-!
DEFINITION. The events of the machine side at a head channel (R116 to R123, R128).
-/

namespace Sys2Proof.Machine

/-- INDEX_AT_CHANNEL: an Index event at channel h (R121). -/
def execIndexAtChannel (h : Head) (s : State) : Host.Outcome State Fault Refusal := .next (s.indexAtChannel h)

/-- R121: this Index event would bring the count of a channel in a given state to 8. -/
def State.timeoutDue (s : State) (h : Head) (x : HeadState) : Bool :=
  s.fitted h && (s.chan h).state == x && Config.timeoutLimit ≤ (s.chan h).timeoutCount + 1

/-- LOWER_TIMEOUT: the Index event at channel h that brings the count to 8 in LOWERING (log 6). -/
def execLowerTimeout (h : Head) (s : State) : Host.Outcome State Fault Refusal :=
  settleStep s (if s.timeoutDue h .lowering then some (s.indexAtChannel h) else none)

/-- LIFT_TIMEOUT: the Index event at channel h that brings the count to 8 in LIFTING (log 6). -/
def execLiftTimeout (h : Head) (s : State) : Host.Outcome State Fault Refusal :=
  settleStep s (if s.timeoutDue h .lifting then some (s.indexAtChannel h) else none)

/-- R118: a down-ack at a fitted channel. -/
def State.downAck (h : Head) (s : State) : State :=
  match (s.chan h).state with
  | .lowering => s.setChan h { s.chan h with state := .down }
  | .parked => s.enterFaulted h .dropped
  | .absent | .down | .lifting | .faulted => s

/-- R120: an up-ack at a fitted channel. -/
def State.upAck (h : Head) (s : State) : State :=
  match (s.chan h).state with
  | .lifting => s.setChan h { s.chan h with state := .parked }
  | .down => s.enterFaulted h .lifted
  | .absent | .parked | .lowering | .faulted => s

/-- R122: a presence gained event at a fitted channel. -/
def State.presenceGained (h : Head) (s : State) : State :=
  match (s.chan h).state with
  | .absent => s.enterLifting h
  | .parked | .lowering | .down | .lifting | .faulted => s

/-- R122: a presence lost event at a fitted channel. -/
def State.presenceLost (h : Head) (s : State) : State :=
  match (s.chan h).state with
  | .parked => s.setChan h { s.chan h with state := .absent }
  | .lowering | .down | .lifting => s.enterFaulted h .presence
  | .absent | .faulted => s

/-- R123: a drive fault at a fitted channel. -/
def State.driveFault (h : Head) (s : State) : State :=
  match (s.chan h).state with
  | .parked | .lowering | .down | .lifting => s.enterFaulted h .drive
  | .absent | .faulted => s

/-- R128: a line-taken report at a fitted channel; the drive holds the whole line, so its transfer is over (log 14). -/
def State.lineTaken (h : Head) (s : State) : State :=
  let c := s.chan h
  if c.state = .down ∧ c.inCut ∧ !c.taken then s.setChan h { c with taken := true, transferring := false } else s

/-- An edge of an input line of head h: the level it leaves, and its event where the edge is one (R116) and the channel is
fitted (R113). -/
def State.inputEdge (s : State) (h : Head) (level : Pins) (isEvent : Bool) (event : Head → State → State) : State :=
  let s1 := s.setPin h level
  if isEvent && s.fitted h then event h s1 else s1

/-- DOWN_ACK: the edge of HDOWNn; a rise is the down-ack (R118). -/
def execDownAck (h : Head) (e : Edge) (s : State) : Host.Outcome State Fault Refusal :=
  .next (s.inputEdge h { s.pin h with hdown := e == .rise } (e == .rise) State.downAck)

/-- UP_ACK: the edge of HUPn; a rise is the up-ack (R120). -/
def execUpAck (h : Head) (e : Edge) (s : State) : Host.Outcome State Fault Refusal :=
  .next (s.inputEdge h { s.pin h with hup := e == .rise } (e == .rise) State.upAck)

/-- PRESENCE_GAINED: the rise of HPRESn (R122). -/
def execPresenceGained (h : Head) (s : State) : Host.Outcome State Fault Refusal :=
  .next (s.inputEdge h { s.pin h with hpres := true } true State.presenceGained)

/-- PRESENCE_LOST: the fall of HPRESn (R122). -/
def execPresenceLost (h : Head) (s : State) : Host.Outcome State Fault Refusal :=
  .next (s.inputEdge h { s.pin h with hpres := false } true State.presenceLost)

/-- DRIVE_FAULT: the edge of HFLTn; a rise is the drive fault (R123). -/
def execDriveFault (h : Head) (e : Edge) (s : State) : Host.Outcome State Fault Refusal :=
  .next (s.inputEdge h { s.pin h with hflt := e == .rise } (e == .rise) State.driveFault)

/-- LINE_TAKEN_REPORT: the edge of HTAKENn; a rise is the line-taken report (R128). -/
def execLineTakenReport (h : Head) (e : Edge) (s : State) : Host.Outcome State Fault Refusal :=
  .next (s.inputEdge h { s.pin h with htaken := e == .rise } (e == .rise) State.lineTaken)

end Sys2Proof.Machine
end

