-- ==== Sys2Proof/Machine/HeadRequests.lean ====
section
/-!
DEFINITION. The head channels' requests HRESET and HQUERY (chapter 7).
-/

namespace Sys2Proof.Machine

/-- R132: the effects of an accepted HRESET. -/
def State.resetHead (h : Head) (s : State) : State :=
  let c := { s.chan h with faultCause := .none, faultTrack := 0 }
  if (s.pin h).hpres then (s.setChan h c).enterLifting h else s.setChan h { c with state := .absent }

/-- HRESET at the channel. -/
def ownHreset (p : List Word) (s : State) : Answer :=
  if hn : (word p 1).toNat < 4 then
    let h : Head := ⟨(word p 1).toNat, hn⟩
    if (s.chan h).state = .faulted then (s.resetHead h).accept else s.refuse .state
  else s.refuse .range

/-- HRESET. -/
def execHreset (l : Link) (s : State) : Host.Outcome State Fault Refusal := serve .hreset l ownHreset s

/-- 11.6: the HQUERY flags. The inputs of an unfitted channel are not looked at and read inactive (R113, log 17). -/
def State.headFlags (s : State) (h : Head) : Word :=
  putBit 0 (s.fitted h) ||| putBit 1 (s.chan h).inCut ||| putBit 2 (s.chan h).taken |||
    putBit 3 (s.fitted h && (s.pin h).hpres) ||| putBit 4 (s.fitted h && (s.pin h).hdown) |||
    putBit 5 (s.fitted h && (s.pin h).hup) ||| putBit 6 (s.fitted h && (s.pin h).hflt)

/-- R133, R175: the words HQUERY returns. -/
def State.headWords (s : State) (h : Head) : List Word :=
  let c := s.chan h
  [put 31 24 h.val ||| put 23 16 c.state.code ||| put 15 8 c.faultCause.code ||| s.headFlags h,
   put 31 16 c.faultTrack ||| put 15 8 c.timeoutCount ||| put 7 0 c.queue.length] ++
    c.queue.flatMap Line.words ++ [put 31 0 c.linesCut] ++ words48 c.cellsCut ++ [put 31 0 c.damagedLines] ++
    (s.trim h).words

/-- HQUERY at the channel. -/
def ownHquery (p : List Word) (s : State) : Answer :=
  if hn : (word p 1).toNat < 4 then s.returns (s.headWords ⟨(word p 1).toNat, hn⟩) else s.refuse .range

/-- HQUERY. -/
def execHquery (l : Link) (s : State) : Host.Outcome State Fault Refusal := serve .hquery l ownHquery s

end Sys2Proof.Machine
end

