-- ==== Sys2Proof/Machine/JobRequests.lean ====
section
/-!
DEFINITION. The job requests JOPEN, JSTART, JHOLD, JRESUME, JABORT, JCLOSE and JQUERY (chapters 1 and 2).
-/

namespace Sys2Proof.Machine

/-! ### JOPEN (R6, R7) -/

/-- R6 check 3. -/
def JobHeader.fieldsInRange (h : JobHeader) : Bool :=
  512 ≤ h.cellsPerRev && h.cellsPerRev ≤ 16384 && 1 ≤ h.tracksPerBand && h.tracksPerBand ≤ 16383 &&
    1 ≤ h.settleCount && h.settleCount ≤ 15 && h.holdSteps ≤ 15 && h.holdUnit ≤ 1 && h.declaredWindows ≤ 32 &&
    h.declaredSlots ≤ 16 && h.pGrants.toNat < 32 && h.sGrants.toNat < 32

/-- R6 check 4. -/
def JobHeader.headsFit (h : JobHeader) (fitted : Nat) : Bool := h.headMask != 0 && h.headMask.toNat < 2 ^ fitted

/-- R6: the requests a header may lock. -/
def lockable : List Word := [ReqCode.tload.word, ReqCode.mload.word, ReqCode.htrim.word, ReqCode.hreset.word]

/-- R6 check 5, with the list length of R174. -/
def lockedListOk (p : List Word) : Bool :=
  p.length == 7 + lockedCount p && lockedCount p ≤ 4 && (p.drop 7).all lockable.contains

/-- R6, checks 2 to 5 (check 1 is the state step, R17): the refusal, if any. -/
def State.checkJopen (s : State) (p : List Word) : Option CC :=
  let h := JobHeader.ofWords p
  if h.signature ≠ Config.signature then some .signature
  else if !h.fieldsInRange then some .range
  else if !h.headsFit s.fittedCount then some .range
  else if !lockedListOk p then some .range
  else none

/-- R3: the header as it is stored. -/
def JobHeader.stored (h : JobHeader) : JobHeader := { h with shiftMode := if h.shiftMode = 1 then 1 else 0 }

/-- R7, R9: RUN's record with a header and a job state, everything else as power-on reset leaves it. -/
def Run.opened (h : JobHeader) (j : JobState) : Run := { Run.reset with header := h, jobState := j }

/-- R7, R9: what JOPEN and JCLOSE do to the blocks that hold job data. -/
def State.clearJobData (s : State) (h : JobHeader) (j : JobState) : State :=
  ({ s with run := Run.opened h j, store := s.store.cleared, place := clearedPlace, build := Builder.reset }).mapChans
    fun _ c => c.empty

/-- JOPEN at RUN. -/
def ownJopen (p : List Word) (s : State) : Answer :=
  match s.checkJopen p with
  | some cc => s.refuse cc
  | none => (s.clearJobData (JobHeader.ofWords p).stored .prepared).accept

/-- JOPEN. -/
def execJopen (l : Link) (s : State) : Host.Outcome State Fault Refusal := serve .jopen l ownJopen s

/-! ### JSTART (R19, R20), JRESUME (R28) -/

/-- R19 checks 2 and 3, which are JRESUME's. -/
def State.checkHeads (s : State) : Option CC :=
  if s.usedHeads.any fun h => (s.chan h).state == .absent then some .absent
  else if s.usedHeads.any fun h => (s.chan h).state != .parked then some .state
  else none

/-- R19: JSTART's checks in order. -/
def State.checkJstart (s : State) : Option CC :=
  if s.enabledWindows ≠ s.run.header.declaredWindows ∨ s.slotsInUse ≠ s.run.header.declaredSlots then some .count
  else s.checkHeads

/-- R20: the effects of an accepted JSTART. -/
def State.startJob (s : State) : State :=
  ({ s with
      run := { s.run with jobState := .lowering, phase := .settle, settleCounter := 0, holdCounter := 0,
                          pendingHold := false }
      build := { s.build with nextTrack := Vector.replicate 4 0 } }).command Channel.lower

/-- JSTART at RUN. -/
def ownJstart (_ : List Word) (s : State) : Answer :=
  match s.checkJstart with
  | some cc => s.refuse cc
  | none => s.startJob.accept

/-- JSTART. -/
def execJstart (l : Link) (s : State) : Host.Outcome State Fault Refusal := serve .jstart l ownJstart s

/-- R28: the effects of an accepted JRESUME. -/
def State.resumeJob (s : State) : State :=
  ({ s with
      run := { s.run with jobState := .lowering, holdReason := .none, phase := .settle, settleCounter := 0,
                          pendingHold := false } }).command Channel.lower

/-- JRESUME at RUN. -/
def ownJresume (_ : List Word) (s : State) : Answer :=
  match s.checkHeads with
  | some cc => s.refuse cc
  | none => s.resumeJob.accept

/-- JRESUME. -/
def execJresume (l : Link) (s : State) : Host.Outcome State Fault Refusal := serve .jresume l ownJresume s

/-! ### JHOLD (R23) -/

/-- R23: the effect of an accepted JHOLD by state and phase. -/
def State.holdJob (s : State) : State :=
  if s.run.jobState = .running ∧ s.run.phase = .cut then { s with run := { s.run with pendingHold := true } }
  else s.enterHeld .request

/-- JHOLD at RUN. -/
def ownJhold (_ : List Word) (s : State) : Answer := s.holdJob.accept

/-- JHOLD. -/
def execJhold (l : Link) (s : State) : Host.Outcome State Fault Refusal := serve .jhold l ownJhold s

/-! ### JABORT (R32) -/

/-- R30, R32: in phase CUT the track in cut is recorded with cause ABORT and its lines are removed as damaged. -/
def State.abortCut (s : State) : State :=
  if s.run.phase = .cut then (s.appendDamage (s.damageRecord .abort 0)).removeDamaged else s

/-- R32: the effects of an accepted JABORT. -/
def State.abortJob (s : State) : State := s.abortCut.enterAborted

/-- JABORT at RUN. -/
def ownJabort (_ : List Word) (s : State) : Answer := s.abortJob.accept

/-- JABORT. -/
def execJabort (l : Link) (s : State) : Host.Outcome State Fault Refusal := serve .jabort l ownJabort s

/-! ### JCLOSE (R9) -/

/-- JCLOSE at RUN. -/
def ownJclose (_ : List Word) (s : State) : Answer := (s.clearJobData .cleared .none).accept

/-- JCLOSE. -/
def execJclose (l : Link) (s : State) : Host.Outcome State Fault Refusal := serve .jclose l ownJclose s

/-! ### JQUERY (R35) -/

/-- R35, R175: the words JQUERY returns. -/
def Run.queryWords (r : Run) : List Word :=
  r.header.words ++
    [put 31 24 r.jobState.code ||| put 23 16 r.holdReason.code ||| put 15 8 r.phase.code ||| putBit 0 r.pendingHold,
     put 31 16 r.t ||| put 15 8 r.settleCounter, put 15 0 r.holdCounter, put 31 0 r.totalSlips, put 31 0 r.retiredTracks,
     put 7 0 r.damage.length] ++ r.damage.map DamageRecord.word

/-- JQUERY at RUN. -/
def ownJquery (_ : List Word) (s : State) : Answer := s.returns s.run.queryWords

/-- JQUERY. -/
def execJquery (l : Link) (s : State) : Host.Outcome State Fault Refusal := serve .jquery l ownJquery s

end Sys2Proof.Machine
end

