-- ==== Sys2Proof/Machine/LinkEvents.lean ====
section
/-!
DEFINITION. LINK's own steps: FRAME_RECEIVED, FRAME_SENT and UNKNOWN_REQUEST (chapter 9), and the MARKER frame (R150).
-/

namespace Sys2Proof.Machine

/-! ### FRAME_RECEIVED (R156) -/

/-- R156: the frame the words between a START and its end make, none where a condition 1 to 5 discards it. -/
def checkFrame (ws : List Word) (fin : FrameEnd) : Option InFrame :=
  match ws with
  | [] => none
  | header :: rest =>
    let payload := rest.dropLast
    let length := bits header 15 0
    if fin = .byStart ∨ ws.length < 2 ∨ 4102 < ws.length then none
    else if 4100 < length then none
    else if ws.length ≠ length + 2 then none
    else if rest.getLast? ≠ some (crc (header :: payload)) then none
    else
      (FrameKind.ofCode (bits header 31 24)).map fun kind =>
        { kind := kind, tag := BitVec.ofNat 8 (bits header 23 16), payload := payload }

/-- The port once the reception of a frame has ended: a START begins the next one (R153). -/
def Port.endFrame (fin : FrameEnd) (x : Port) : Port :=
  { x with receiving := match fin with
                        | .byEnd => none
                        | .byStart => some [] }

/-- R156: a discarded frame: one error on its link, and LINKERR raised. -/
def State.discardFrame (l : Link) (s : State) : State :=
  (s.setPort l { s.port l with errors := saturate 65535 (s.port l).errors 1 }).raise .linkerr

/-- R156: the end of a frame on link l: it joins the input buffer or is discarded. -/
def State.receiveFrame (l : Link) (ws : List Word) (fin : FrameEnd) (s : State) : State :=
  let s1 := s.setPort l ((s.port l).endFrame fin)
  match checkFrame (((s.port l).receiving.getD []) ++ ws) fin with
  | none => s1.discardFrame l
  | some f =>
    if (s.port l).input.length < Config.inputDepth then s1.setPort l { s1.port l with input := (s1.port l).input ++ [f] }
    else s1.discardFrame l

/-- FRAME_RECEIVED. -/
def execFrameReceived (l : Link) (ws : List Word) (fin : FrameEnd) (s : State) : Host.Outcome State Fault Refusal :=
  .next (s.receiveFrame l ws fin)

/-! ### FRAME_SENT (R159, R164) -/

/-- R164: the link has sent its DRESET reply, the last frame it sends before the reset. -/
def Port.stopped (x : Port) : Bool := x.handling == .closing && !x.out.any OutFrame.isReply

/-- R159: an idle transmitter begins the frame at the head of its queue. -/
def Port.beginSending (x : Port) : Port := { x with sending := x.sending || (!x.out.isEmpty && !x.stopped) }

/-- R159: the END of the frame at the head has been sent; the frame leaves and the next begins. -/
def Port.endSending (x : Port) : Port :=
  if x.stopped then x
  else
    let y := { x with out := x.out.drop 1, sending := false }
    y.beginSending

/-- FRAME_SENT. -/
def execFrameSent (l : Link) (what : Sending) (s : State) : Host.Outcome State Fault Refusal :=
  .next <|
    match what with
    | .begun => s.setPort l (s.port l).beginSending
    | .ended => s.setPort l (s.port l).endSending

/-! ### UNKNOWN_REQUEST (R160, R174) -/

/-- UNKNOWN_REQUEST: a frame with no known code is answered UNKNOWN; the reply carries the code word as received, 0 for
an empty payload. -/
def execUnknownRequest (l : Link) (s : State) : Host.Outcome State Fault Refusal :=
  settleStep s <|
    match s.takeFrame l InFrame.isUnknown with
    | none => none
    | some (f, s1) => some (s1.queueReply l (f.answer .unknown []))

/-! ### MARKER (R150) -/

/-- R150: an entry inserted after every entry whose track is at or below its own. -/
def insertMarker (m : Marker) : List Marker → List Marker
  | [] => [m]
  | x :: rest => if x.track ≤ m.track then x :: insertMarker m rest else m :: x :: rest

/-- R150: RUN's handling of a MARKER that has passed dispatch: completion code and state after it. -/
def State.takeMarker (s : State) (p : List Word) : CC × State :=
  let track := bits (word p 0) 15 0
  if hb : bits (word p 0) 31 24 < 4 then
    let bit : Fin 4 := ⟨bits (word p 0) 31 24, hb⟩
    if s.run.header.tracksPerBand ≤ track then (.range, s)
    else if track < s.run.t then (.passed, s.raise (.mark bit))
    else if Config.markerDepth ≤ s.run.markers.length then (.room, s)
    else (.accepted, { s with run := { s.run with markers := insertMarker ⟨bit, track⟩ s.run.markers } })
  else (.range, s)

/-- R150, R175: the reply to a MARKER, with the entries in the list after the frame. -/
def State.markerReply (s : State) (f : InFrame) (cc : CC) : Reply :=
  ⟨f.kind, f.tag, 0, cc, [put 31 0 s.run.markers.length]⟩

/-- MARKER. -/
def execMarker (l : Link) (s : State) : Host.Outcome State Fault Refusal :=
  settleStep s <|
    match s.takeFrame l InFrame.isMarker with
    | none => none
    | some (f, s1) =>
      match s1.dispatchFrame l (f.payload.length == 1) with
      | some cc => some (s1.queueReply l (s1.markerReply f cc))
      | none =>
        let r := s1.takeMarker f.payload
        some (r.2.queueReply l (r.2.markerReply f r.1))

end Sys2Proof.Machine
end

