-- ==== Sys2Proof/Machine/PlaceRequests.lean ====
section
/-!
DEFINITION. PLACE's requests WSET and WREAD (chapter 4).
-/

namespace Sys2Proof.Machine

/-- R68: check 1 of WSET for the fields of an entry. -/
def Window.fieldsInRange (n : Nat) (w : Window) : Bool :=
  w.firstCell < n && w.lastCell < n && w.cellOffset ≤ 16383 &&
    match w.kind with
    | .image => w.source < Config.slotCount && w.table < Config.toneTableCount
    | .mark => w.source < Config.markPatternCount
    | .keepout => true

/-- R69: check 2 of WSET, by the bands from the first track's to the last track's. -/
def Window.inUsedBands (hd : JobHeader) (w : Window) : Bool :=
  w.lastTrack < 4 * hd.tracksPerBand &&
    allHeads.all fun h =>
      !(w.firstTrack / hd.tracksPerBand ≤ h.val && h.val ≤ w.lastTrack / hd.tracksPerBand) || hd.used h

/-- R70: an enabled IMAGE window whose slot has received rows. -/
def State.standsInWay (s : State) (w : Window) : Bool := w.isImage && 0 < (s.store.slot w.source).rowsReceived

/-- R71: check 4 of WSET. -/
def State.sourceReady (s : State) (w : Window) : Bool :=
  match w.kind with
  | .image => (s.store.slot w.source).state != .empty && (s.tables.tone w.table).valid
  | .mark => (s.tables.pattern w.source).valid
  | .keepout => true

/-- R72: check 5 of WSET. -/
def State.insideImage (s : State) (w : Window) : Bool :=
  let x := s.store.slot w.source
  w.kind != .image ||
    (w.rowOffset + (w.lastTrack - w.firstTrack) < x.height &&
      w.cellOffset + w.span s.run.header.cellsPerRev ≤ x.width)

/-- R73: check 6 of WSET: an IMAGE or MARK window overlaps another enabled IMAGE or MARK entry than entry n. -/
def State.conflicts (s : State) (n : Nat) (w : Window) : Bool :=
  w.kind != .keepout &&
    (s.place.toList.eraseIdx n).any fun x => x.cuts && w.overlaps s.run.header.cellsPerRev x

/-- R67, R74: WSET's checks in order on entry n. -/
def State.checkWset (s : State) (n : Nat) (w : Window) : Option CC :=
  if Config.windowCount ≤ n ∨ !w.fieldsInRange s.run.header.cellsPerRev then some .range
  else if w.enabled && !w.inUsedBands s.run.header then some .range
  else if s.standsInWay (s.window n) || s.standsInWay w then some .referenced
  else if w.enabled && !s.sourceReady w then some .state
  else if w.enabled && !s.insideImage w then some .range
  else if w.enabled && s.conflicts n w then some .conflict
  else none

/-- R75: the new entry stored in window n. -/
def State.writeWindow (n : Nat) (w : Window) (s : State) : State := { s with place := s.place.setIfInBounds n w }

/-- WSET at PLACE. A kind code that is no kind fails check 1 (R173). -/
def ownWset (p : List Word) (s : State) : Answer :=
  let n := (word p 1).toNat
  match Window.ofWords (word p 2) (word p 3) (word p 4) (word p 5) with
  | none => s.refuse .range
  | some w =>
    match s.checkWset n w with
    | some cc => s.refuse cc
    | none => (s.writeWindow n w).accept

/-- WSET. -/
def execWset (l : Link) (s : State) : Host.Outcome State Fault Refusal := serve .wset l ownWset s

/-- R78, R175: the words WREAD returns. -/
def State.windowWords (s : State) (n : Nat) : List Word :=
  let w := s.window n
  [put 31 0 n] ++ w.words ++
    [put 31 16 (if w.enabled then w.span s.run.header.cellsPerRev else 0) ||| putBit 1 (w.enabled && w.wraps) |||
       putBit 0 w.enabled]

/-- WREAD at PLACE. -/
def ownWread (p : List Word) (s : State) : Answer :=
  let n := (word p 1).toNat
  if n < Config.windowCount then s.returns (s.windowWords n) else s.refuse .range

/-- WREAD. -/
def execWread (l : Link) (s : State) : Host.Outcome State Fault Refusal := serve .wread l ownWread s

end Sys2Proof.Machine
end

