-- ==== Sys2Proof/Machine/Resets.lean ====
section
/-!
DEFINITION. POWER_ON_RESET, DRESET and DRESET_TAKES_EFFECT (R113, R134, R164, R172).
-/

namespace Sys2Proof.Machine

/-- R116, R134: after a reset every fitted head that is present enters LIFTING, with the entry check. -/
def State.liftPresent (s : State) : State :=
  (allHeads.filter fun h => s.fitted h && (s.pin h).hpres).foldl (fun s h => s.enterLifting h) s

/-- Every block at its power-on value, the straps as given; the input lines, the page memory (R55) and the queue of
commands are not the reset's to change. -/
def State.cold (s : State) (straps : BitVec 2) : State :=
  { State.reset with straps := straps, pins := s.pins, store := s.store.cleared, pending := s.pending }

/-- R113: release of PORn with the straps at the given level. -/
def State.powerOn (s : State) (straps : BitVec 2) : State := (s.cold straps).liftPresent

/-- R164: the reset of DRESET: as at power-on, but for the straps, the tables, patterns and trims, and cells_cut. -/
def State.deviceReset (s : State) : State :=
  let s1 := { s.cold s.straps with tables := { s.tables with writeQueue := [] } }
  (s1.mapChans fun h c => { c with cellsCut := (s.chan h).cellsCut }).liftPresent

/-- R164: the DRESET reply's END has been sent: the S-link is CLOSING and holds no reply, that reply being its last. -/
def State.dresetDue (s : State) : Bool := s.sLink.handling == .closing && !s.sLink.out.any OutFrame.isReply

/-- POWER_ON_RESET. -/
def execPowerOnReset (straps : BitVec 2) (s : State) : Host.Outcome State Fault Refusal := .next (s.powerOn straps)

/-- R164 step 1: the reply is queued and the S-link enters CLOSING. -/
def State.closeLink (s : State) (l : Link) (r : Reply) : State :=
  let s1 := s.queueReply l r
  s1.setPort l { s1.port l with handling := .closing }

/-- DRESET: dispatched as any request; accepted, it takes its link to CLOSING. -/
def execDreset (l : Link) (s : State) : Host.Outcome State Fault Refusal :=
  settleStep s <|
    match s.takeFrame l (InFrame.isRequest .dreset) with
    | none => none
    | some (f, s1) =>
      match s1.dispatch l .dreset f.payload with
      | some cc => some (s1.queueReply l (f.answer cc []))
      | none => some (s1.closeLink l (f.answer .accepted []))

/-- DRESET_TAKES_EFFECT. -/
def execDresetTakesEffect (s : State) : Host.Outcome State Fault Refusal :=
  settleStep s (if s.dresetDue then some s.deviceReset else none)

end Sys2Proof.Machine
end

