-- ==== Sys2Proof/Machine/Revolution.lean ====
section
/-!
DEFINITION. RUN's steps: INDEX_EVENT, SETTLE_COMPLETE, HOLD_LIMIT and FAULT_REPORT (chapters 2 and 8).
-/

namespace Sys2Proof.Machine

/-- INDEX_EVENT: RUN's handling of the Index pulse in every state and phase. -/
def execIndexEvent (s : State) : Host.Outcome State Fault Refusal := .next s.indexEvent

/-- R138: this Index event would bring settle_counter to settle_count. -/
def State.settleDue (s : State) : Bool :=
  s.run.jobState == .lowering && s.allDown && s.run.settleCounter + 1 == s.run.header.settleCount

/-- SETTLE_COMPLETE: the Index event in that case (log 6). -/
def execSettleComplete (s : State) : Host.Outcome State Fault Refusal :=
  settleStep s (if s.settleDue then some s.indexEvent else none)

/-- R144: this Index event, taken in phase SLIP, would slip and bring hold_counter to a hold limit that is not 0. -/
def State.holdLimitDue (s : State) : Bool :=
  s.run.jobState == .running && s.run.phase == .slip && !s.allReady && s.run.header.holdLimit != 0 &&
    saturate 65535 s.run.holdCounter 1 == s.run.header.holdLimit

/-- HOLD_LIMIT: the Index event in that case (log 6). -/
def execHoldLimit (s : State) : Host.Outcome State Fault Refusal :=
  settleStep s (if s.holdLimitDue then some s.indexEvent else none)

/-- FAULT_REPORT: RUN takes the oldest report of head h under way (R26, log 7). -/
def execFaultReport (h : Head) (s : State) : Host.Outcome State Fault Refusal :=
  settleStep s <|
    match s.run.reports.find? fun r => r.head == h with
    | none => none
    | some r => some (({ s with run := { s.run with reports := s.run.reports.erase r } }).takeReport r)

end Sys2Proof.Machine
end

