-- ==== Sys2Proof/Machine/StoreRequests.lean ====
section
/-!
DEFINITION. STORE's requests SDEF, SREL and SQUERY, and the ROW frame (chapter 3).
-/

namespace Sys2Proof.Machine

/-! ### SDEF (R52) -/

/-- R39, R52: pages per row of a width, the width over 256 rounded up. -/
def pagesPerRow (width : Nat) : Nat := (width + 255) / 256

/-- R52: SDEF's checks in order. -/
def State.checkSdef (s : State) (n width height : Nat) : Option CC :=
  if Config.slotCount ≤ n then some .range
  else if (s.store.slot n).state ≠ .empty then some .state
  else if width < 1 ∨ s.run.header.cellsPerRev < width ∨ height < 1 ∨ 65535 < height then some .range
  else none

/-- R52: slot n defined and OPEN. -/
def State.defineSlot (n width height : Nat) (s : State) : State :=
  { s with store := s.store.setSlot n { state := .opened, width := width, height := height,
                                        pagesPerRow := pagesPerRow width, rowsReceived := 0, directory := [] } }

/-- SDEF at STORE. -/
def ownSdef (p : List Word) (s : State) : Answer :=
  let n := (word p 1).toNat
  let width := bits (word p 2) 31 16
  let height := bits (word p 2) 15 0
  match s.checkSdef n width height with
  | some cc => s.refuse cc
  | none => (s.defineSlot n width height).accept

/-- SDEF. -/
def execSdef (l : Link) (s : State) : Host.Outcome State Fault Refusal := serve .sdef l ownSdef s

/-! ### SREL (R53) -/

/-- R53: whether an enabled IMAGE window has the slot as its source. -/
def State.slotNamed (s : State) (n : Nat) : Bool := s.place.toList.any fun w => w.isImage && w.source == n

/-- R53: SREL's checks in order. -/
def State.checkSrel (s : State) (n : Nat) : Option CC :=
  if Config.slotCount ≤ n then some .range
  else if s.slotNamed n then some .referenced
  else none

/-- R53: the slot's records freed in directory order and every field of it reset. -/
def State.releaseSlot (n : Nat) (s : State) : State :=
  { s with store := (s.store.setSlot n Slot.reset).release (directoryPages (s.store.slot n).directory) }

/-- SREL at STORE. -/
def ownSrel (p : List Word) (s : State) : Answer :=
  let n := (word p 1).toNat
  match s.checkSrel n with
  | some cc => s.refuse cc
  | none => (s.releaseSlot n).accept

/-- SREL. -/
def execSrel (l : Link) (s : State) : Host.Outcome State Fault Refusal := serve .srel l ownSrel s

/-! ### SQUERY (R56) -/

/-- R56, R175: a slot's three words. -/
def Slot.queryWords (x : Slot) : List Word :=
  [put 31 24 x.state.code ||| put 23 16 x.pagesPerRow ||| put 15 0 x.width,
   put 31 16 x.height ||| put 15 0 x.rowsReceived,
   put 31 16 x.directory.length ||| put 15 0 (directoryPages x.directory).length]

/-- R56: the words SQUERY returns. -/
def Store.queryWords (st : Store) : List Word := put 31 0 st.freeCount :: st.slots.toList.flatMap Slot.queryWords

/-- SQUERY at STORE. -/
def ownSquery (_ : List Word) (s : State) : Answer := s.returns s.store.queryWords

/-- SQUERY. -/
def execSquery (l : Link) (s : State) : Host.Outcome State Fault Refusal := serve .squery l ownSquery s

/-! ### ROW (R44 to R48) -/

/-- The fixed operands of a ROW payload (11.2). -/
structure RowOperands where
  slot : Nat
  toneCount : Nat
  row : Nat
deriving DecidableEq, Repr

/-- 11.2. -/
def RowOperands.ofWords (p : List Word) : RowOperands where
  slot := bits (word p 0) 31 24
  toneCount := bits (word p 0) 15 0
  row := bits (word p 1) 15 0

/-- R44: STORE's checks in order; u is the use count of R42. -/
def State.checkRow (s : State) (o : RowOperands) (length u : Nat) : Option CC :=
  let x := s.store.slot o.slot
  if Config.slotCount ≤ o.slot then some .range
  else if x.state ≠ .opened then some .state
  else if x.height ≤ o.row ∨ o.toneCount ≠ x.width ∨ length ≠ 2 + toneWords o.toneCount then some .range
  else if o.row ≠ x.rowsReceived then some .sequence
  else if u ≠ 0 ∧ s.store.freeCount < x.pagesPerRow then some .room
  else none

/-- R45 step 4, R46: the slot after one more row received, with a directory. -/
def Slot.received (x : Slot) (d : List RowRecord) : Slot :=
  { x with directory := d, rowsReceived := x.rowsReceived + 1,
           state := if x.rowsReceived + 1 = x.height then .full else x.state }

/-- R46: a row counted and not stored. -/
def State.countRow (o : RowOperands) (s : State) : State :=
  let x := s.store.slot o.slot
  { s with store := s.store.setSlot o.slot (x.received x.directory) }

/-- R45 step 1, R38: pages taken from the head of the free-page list, with the raise of STORELOW. -/
def State.allocate (k : Nat) (s : State) : State :=
  let s1 := { s with store := { s.store with freePages := s.store.freePages.drop k } }
  if Config.storeLowMark ≤ s.store.freeCount ∧ s1.store.freeCount < Config.storeLowMark then s1.raise .storelow else s1

/-- R45, steps 1 to 4: a row stored for u uses. -/
def State.storeRow (o : RowOperands) (u : Nat) (tones : List Byte) (s : State) : State :=
  let x := s.store.slot o.slot
  let ps := s.store.freePages.take x.pagesPerRow
  let s1 := s.allocate x.pagesPerRow
  let st := { s1.store with memory := Memory.writeRow s1.store.memory ps tones }
  { s1 with store := st.setSlot o.slot (x.received (x.directory ++ [⟨o.row, u, ps⟩])) }

/-- R44 to R46: STORE's handling of a ROW that has passed dispatch: the completion code, the use count of its reply
(R48) and the state after it. -/
def State.takeRow (s : State) (p : List Word) : CC × Nat × State :=
  let o := RowOperands.ofWords p
  let u := s.useCount o.slot o.row
  match s.checkRow o p.length u with
  | some .room => (.room, u, s)
  | some cc => (cc, 0, s)
  | none => if u = 0 then (.accepted, 0, s.countRow o) else (.accepted, u, s.storeRow o u (readTones o.toneCount (p.drop 2)))

/-- R48: the rows_received a ROW's reply carries: that of the slot the payload names, 0 where it names none. -/
def State.replyRows (s : State) (p : List Word) : Nat :=
  match p with
  | [] => 0
  | w :: _ => if bits w 31 24 < Config.slotCount then (s.store.slot (bits w 31 24)).rowsReceived else 0

/-- R48, R175: the reply to a ROW, made against the state after the frame. -/
def State.rowReply (s : State) (f : InFrame) (cc : CC) (u : Nat) : Reply :=
  ⟨f.kind, f.tag, 0, cc, [put 31 0 s.store.freeCount, put 31 0 u, put 31 0 (s.replyRows f.payload)]⟩

/-- ROW. -/
def execRow (l : Link) (s : State) : Host.Outcome State Fault Refusal :=
  settleStep s <|
    match s.takeFrame l InFrame.isRow with
    | none => none
    | some (f, s1) =>
      match s1.dispatchFrame l (2 ≤ f.payload.length) with
      | some cc => some (s1.queueReply l (s1.rowReply f cc 0))
      | none =>
        let r := s1.takeRow f.payload
        some (r.2.2.queueReply l (r.2.2.rowReply f r.1 r.2.1))

end Sys2Proof.Machine
end

