-- ==== Sys2Proof/Machine/TableRequests.lean ====
section
/-!
DEFINITION. TABLES's requests TLOAD, MLOAD, HTRIM and TREAD (chapter 5).
-/

namespace Sys2Proof.Machine

/-- R82: TLOAD's checks on the request alone; the write where they pass. -/
def parseTload (p : List Word) : Option TableWrite :=
  let n := (word p 1).toNat
  let es := toneEntries p
  if h : n < 16 then
    if es.length = 256 ∧ es.all (fun e => e ≤ 1023) ∧ es.head? = some 0 then some (.tone ⟨n, h⟩ es) else none
  else none

/-- R84: MLOAD's checks on the request alone; the write where they pass. -/
def parseMload (p : List Word) : Option TableWrite :=
  let n := (word p 1).toNat
  let m := MarkPattern.ofWords p
  if h : n < 8 then
    if 1 ≤ m.width ∧ m.width ≤ 16 ∧ 1 ≤ m.height ∧ m.height ≤ 16 ∧ 1 ≤ m.depth ∧ m.depth ≤ 1023 ∧ p.length = 11 then
      some (.pattern ⟨n, h⟩ m)
    else none
  else none

/-- R86: HTRIM's checks on the request alone; the write where they pass. -/
def parseHtrim (p : List Word) : Option TableWrite :=
  let n := (word p 1).toNat
  let r := Trim.ofWords (word p 2) (word p 3) (word p 4) (word p 5)
  if h : n < 4 then
    if 500 ≤ r.gain ∧ r.gain ≤ 1500 ∧ -128 ≤ r.offset ∧ r.offset ≤ 127 ∧ 1 ≤ r.clamp ∧ r.clamp ≤ 1023 then
      some (.trim ⟨n, h⟩ r ((word p 3).getLsbD 0))
    else none
  else none

/-- R89: the write joins the tail of the write queue; no reply is queued and its link stays WAITING. -/
def State.deferWrite (l : Link) (tag : Byte) (w : TableWrite) (s : State) : State :=
  { s with tables := { s.tables with writeQueue := s.tables.writeQueue ++ [⟨l, tag, w⟩] } }

/-- R89: what TABLES does with a write request that has passed dispatch. -/
def State.takeWrite (s : State) (l : Link) (f : InFrame) (w : Option TableWrite) : State :=
  match w with
  | none => s.queueReply l (f.answer .range [])
  | some w =>
    match s.build.inFlight with
    | none => (s.applyWrite w).queueReply l (f.answer .accepted [])
    | some _ => s.deferWrite l f.tag w

/-- The outcome of a write request's command. -/
def serveWrite (c : ReqCode) (l : Link) (parse : List Word → Option TableWrite) (s : State) :
    Host.Outcome State Fault Refusal :=
  settleStep s <|
    match s.takeFrame l (InFrame.isRequest c) with
    | none => none
    | some (f, s1) =>
      match s1.dispatch l c f.payload with
      | some cc => some (s1.queueReply l (f.answer cc []))
      | none => some (s1.takeWrite l f (parse f.payload))

/-- TLOAD. -/
def execTload (l : Link) (s : State) : Host.Outcome State Fault Refusal := serveWrite .tload l parseTload s

/-- MLOAD. -/
def execMload (l : Link) (s : State) : Host.Outcome State Fault Refusal := serveWrite .mload l parseMload s

/-- HTRIM. -/
def execHtrim (l : Link) (s : State) : Host.Outcome State Fault Refusal := serveWrite .htrim l parseHtrim s

/-- R94, R175: the words TREAD returns for a tone table. -/
def ToneTable.words (x : ToneTable) : List Word := putBit 0 x.valid :: packHalves x.entries

/-- R94, R175: the words TREAD returns for a mark pattern. -/
def MarkPattern.words (m : MarkPattern) : List Word :=
  [putBit 0 m.valid, put 31 24 m.width ||| put 23 16 m.height ||| put 15 0 m.depth] ++ packHalves (m.map.map BitVec.toNat)

/-- TREAD at TABLES. -/
def ownTread (p : List Word) (s : State) : Answer :=
  let kind := (word p 1).toNat
  let n := (word p 2).toNat
  if kind = 0 ∧ n < Config.toneTableCount then s.returns (s.tables.tone n).words
  else if kind = 1 ∧ n < Config.markPatternCount then s.returns (s.tables.pattern n).words
  else s.refuse .range

/-- TREAD. -/
def execTread (l : Link) (s : State) : Host.Outcome State Fault Refusal := serve .tread l ownTread s

end Sys2Proof.Machine
end

