-- ==== Sys2Proof/Machine/Dispatch.lean ====
section
/-!
DEFINITION. What each command does: one arm per row of the table.
-/

namespace Sys2Proof.Machine

/-- The effect of a command on everything but the queue of commands. -/
def exec (i : Instr) (s : State) : Host.Outcome State Fault Refusal :=
  match i with
  | .powerOnReset straps => Sys2Proof.Machine.execPowerOnReset straps s
  | .jopen l => Sys2Proof.Machine.execJopen l s
  | .jstart l => Sys2Proof.Machine.execJstart l s
  | .jhold l => Sys2Proof.Machine.execJhold l s
  | .jresume l => Sys2Proof.Machine.execJresume l s
  | .jabort l => Sys2Proof.Machine.execJabort l s
  | .jclose l => Sys2Proof.Machine.execJclose l s
  | .jquery l => Sys2Proof.Machine.execJquery l s
  | .sdef l => Sys2Proof.Machine.execSdef l s
  | .srel l => Sys2Proof.Machine.execSrel l s
  | .squery l => Sys2Proof.Machine.execSquery l s
  | .wset l => Sys2Proof.Machine.execWset l s
  | .wread l => Sys2Proof.Machine.execWread l s
  | .tload l => Sys2Proof.Machine.execTload l s
  | .tread l => Sys2Proof.Machine.execTread l s
  | .mload l => Sys2Proof.Machine.execMload l s
  | .htrim l => Sys2Proof.Machine.execHtrim l s
  | .hreset l => Sys2Proof.Machine.execHreset l s
  | .hquery l => Sys2Proof.Machine.execHquery l s
  | .evset l => Sys2Proof.Machine.execEvset l s
  | .evclr l => Sys2Proof.Machine.execEvclr l s
  | .evack l => Sys2Proof.Machine.execEvack l s
  | .evread l => Sys2Proof.Machine.execEvread l s
  | .ident l => Sys2Proof.Machine.execIdent l s
  | .dreset l => Sys2Proof.Machine.execDreset l s
  | .dresetTakesEffect => Sys2Proof.Machine.execDresetTakesEffect s
  | .row l => Sys2Proof.Machine.execRow l s
  | .marker l => Sys2Proof.Machine.execMarker l s
  | .unknownRequest l => Sys2Proof.Machine.execUnknownRequest l s
  | .frameReceived l words fin => Sys2Proof.Machine.execFrameReceived l words fin s
  | .frameSent l what => Sys2Proof.Machine.execFrameSent l what s
  | .indexEvent => Sys2Proof.Machine.execIndexEvent s
  | .settleComplete => Sys2Proof.Machine.execSettleComplete s
  | .holdLimit => Sys2Proof.Machine.execHoldLimit s
  | .indexAtChannel h => Sys2Proof.Machine.execIndexAtChannel h s
  | .lowerTimeout h => Sys2Proof.Machine.execLowerTimeout h s
  | .liftTimeout h => Sys2Proof.Machine.execLiftTimeout h s
  | .downAck h e => Sys2Proof.Machine.execDownAck h e s
  | .upAck h e => Sys2Proof.Machine.execUpAck h e s
  | .presenceGained h => Sys2Proof.Machine.execPresenceGained h s
  | .presenceLost h => Sys2Proof.Machine.execPresenceLost h s
  | .driveFault h e => Sys2Proof.Machine.execDriveFault h e s
  | .lineTakenReport h e => Sys2Proof.Machine.execLineTakenReport h e s
  | .faultReport h => Sys2Proof.Machine.execFaultReport h s
  | .buildChoice => Sys2Proof.Machine.execBuildChoice s
  | .buildCompletion => Sys2Proof.Machine.execBuildCompletion s

end Sys2Proof.Machine
end

