-- ==== Sys2Proof/Safety.lean ====
section
/-!
DEFINITION. The words the statements are made in: a frame offered to a link, the state after it is answered, and the
conditions that every step keeps.
-/

namespace Sys2Proof

/-- The commands by which a link takes a frame, with that link. -/
def Instr.takesOn : Instr → Option Link
  | .row l | .marker l | .unknownRequest l => some l
  | .jopen l | .jstart l | .jhold l | .jresume l | .jabort l | .jclose l | .jquery l | .sdef l | .srel l | .squery l
  | .wset l | .wread l | .tload l | .tread l | .mload l | .htrim l | .hreset l | .hquery l | .evset l | .evclr l
  | .evack l | .evread l | .ident l | .dreset l => some l
  | .powerOnReset _ | .dresetTakesEffect | .frameReceived _ _ _ | .frameSent _ _ | .indexEvent | .settleComplete
  | .holdLimit | .indexAtChannel _ | .lowerTimeout _ | .liftTimeout _ | .downAck _ _ | .upAck _ _ | .presenceGained _
  | .presenceLost _ | .driveFault _ _ | .lineTakenReport _ _ | .faultReport _ | .buildChoice | .buildCompletion => none

/-- The head whose input line a command moves. -/
def Instr.pinOf : Instr → Option Head
  | .downAck h _ | .upAck h _ | .presenceGained h | .presenceLost h | .driveFault h _ | .lineTakenReport h _ => some h
  | _ => none

end Sys2Proof

namespace Sys2Proof.Machine

/-! ### Frames offered and answered -/

/-- R158: link l can take a frame, the frame at the head of its input buffer is f, and `rest` stands behind it. -/
def State.offers (s : State) (l : Link) (f : InFrame) (rest : List InFrame) : Prop :=
  (s.port l).input = f :: rest ∧ (s.port l).handling = .ready ∧ (s.port l).unsentReplies < 2

/-- R158: the state in which link l has taken its frame and has not answered it. -/
def State.taken (s : State) (l : Link) (rest : List InFrame) : State :=
  s.setPort l { s.port l with input := rest, handling := .waiting }

/-- R158, R159: the state in which link l has taken its frame and queued reply r to it, and nothing else has changed. -/
def State.answered (s : State) (l : Link) (rest : List InFrame) (r : Reply) : State :=
  s.setPort l { s.port l with input := rest, handling := .ready, out := (s.port l).out ++ [.reply r] }

/-- The command of a request code on a link. -/
def ReqCode.command (c : ReqCode) (l : Link) : Instr :=
  match c with
  | .jopen => .jopen l
  | .jstart => .jstart l
  | .jhold => .jhold l
  | .jresume => .jresume l
  | .jabort => .jabort l
  | .jclose => .jclose l
  | .jquery => .jquery l
  | .sdef => .sdef l
  | .srel => .srel l
  | .squery => .squery l
  | .wset => .wset l
  | .wread => .wread l
  | .tload => .tload l
  | .tread => .tread l
  | .mload => .mload l
  | .htrim => .htrim l
  | .hreset => .hreset l
  | .hquery => .hquery l
  | .evset => .evset l
  | .evclr => .evclr l
  | .evack => .evack l
  | .evread => .evread l
  | .ident => .ident l
  | .dreset => .dreset l

/-- A REQUEST frame with a code and its operand words (R174). -/
def requestFrame (tag : Byte) (c : ReqCode) (operands : List Word) : InFrame := ⟨.request, tag, c.word :: operands⟩

/-- R155, R175: the reply to a request of code c: a completion code, and words only where it is 0. -/
def requestReply (tag : Byte) (c : ReqCode) (cc : CC) (ws : List Word) : Reply := ⟨.request, tag, c.word, cc, ws⟩

/-! ### States the statements name -/

/-- R7, R9: the blocks that hold job data as JOPEN and JCLOSE leave them, with a header and a job state; TABLES, EVENT,
LINK, head states, fault records and counters are kept. -/
def State.jobDataCleared (s : State) (header : JobHeader) (j : JobState) : State :=
  { s with
    run := { header := header, jobState := j, holdReason := .none, damage := [], totalSlips := 0, retiredTracks := 0,
             t := 0, phase := .idle, settleCounter := 0, holdCounter := 0, pendingHold := false, markers := [],
             reports := [] }
    store := { freePages := allPages, slots := Vector.replicate 16 Slot.reset, memory := s.store.memory }
    place := Vector.replicate 32 Window.reset
    build := { nextTrack := Vector.replicate 4 0, lastServed := 3, inFlight := none }
    heads := s.heads.map fun c => { c with queue := [], inCut := false, taken := false, transferring := false } }

/-- R134: a channel after a reset, from its head's input levels and the cells_cut it has then. -/
def Pins.channelAfterReset (x : Pins) (fitted : Bool) (cells : Nat) : Channel :=
  let c : Channel := { state := .absent, faultCause := .none, faultTrack := 0, timeoutCount := 0, queue := [],
                       inCut := false, taken := false, transferring := false, linesCut := 0, cellsCut := cells,
                       damagedLines := 0 }
  if fitted && x.hpres then
    if x.hflt then { c with state := .faulted, faultCause := .drive }
    else if x.hup then { c with state := .parked }
    else { c with state := .lifting }
  else c

/-- R134: a reset leaves set the HFAULT bits of the heads that the entry check finds faulted, and no other. -/
def State.onlyResetFaults (s t : State) : Prop :=
  ∀ i, t.event.status.getLsbD i = true ↔
    ∃ h : Head, i = 8 + h.val ∧ t.fitted h = true ∧ (s.pin h).hpres = true ∧ (s.pin h).hflt = true

/-- R119: what the lift command leaves of a channel's record, from its head's input levels and the current track. -/
def Channel.lifted (c : Channel) (x : Pins) (t : Nat) : Channel :=
  if c.state = .lowering ∨ c.state = .down then
    if x.hflt then { c with state := .faulted, faultCause := .drive, faultTrack := t, timeoutCount := 0,
                            transferring := false }
    else if x.hup then { c with state := .parked, timeoutCount := 0, transferring := false }
    else { c with state := .lifting, timeoutCount := 0, transferring := false }
  else c

/-- R119, R124: whether the lift command faults a channel, by the entry check. -/
def Channel.faultsOnLift (c : Channel) (x : Pins) : Bool := (c.state == .lowering || c.state == .down) && x.hflt

/-- R90: the whole effects of the waiting writes, oldest first. -/
def State.writesApplied (s : State) : State := s.tables.writeQueue.foldl (fun s q => s.applyWrite q.write) s

/-- Two ports that differ in notices only. -/
def Port.sameButNotices (x y : Port) : Prop :=
  y.receiving = x.receiving ∧ y.input = x.input ∧ y.handling = x.handling ∧ y.sending = x.sending ∧
    y.errors = x.errors ∧ y.out.filter OutFrame.isReply = x.out.filter OutFrame.isReply

/-- R25, R29: from s to t the used heads take the lift command and bit b is raised, with the raises of the entry checks;
RUN's record apart, and but for notices, everything else is as it was. -/
def State.liftsUsedHeads (s t : State) (b : StatusBit) : Prop :=
  t.store = s.store ∧ t.place = s.place ∧ t.tables = s.tables ∧ t.build = s.build ∧ t.pins = s.pins ∧
    t.straps = s.straps ∧ t.stepPulses = s.stepPulses ∧ t.pending = s.pending ∧
    (∀ h, t.chan h = if s.used h then (s.chan h).lifted (s.pin h) s.run.t else s.chan h) ∧
    t.event.pMask = s.event.pMask ∧ t.event.sMask = s.event.sMask ∧
    (∀ i, t.event.status.getLsbD i = true ↔ s.event.status.getLsbD i = true ∨ i = b.index ∨
      ∃ h : Head, s.used h = true ∧ (s.chan h).faultsOnLift (s.pin h) = true ∧ i = 8 + h.val) ∧
    ∀ l, (s.port l).sameButNotices (t.port l)

/-! ### Conditions every step keeps -/

/-- R37, R39: the free-page list and the page lists of all row records hold each page number exactly once, and an EMPTY
slot has no row records. -/
def State.pagesConserved (s : State) : Prop :=
  (s.store.freePages ++ s.store.heldPages).Perm allPages ∧
    ∀ n, (s.store.slot n).state = .empty → (s.store.slot n).directory = []

/-- R4, R6: the header's fields lie in their ranges; the locked list names lockable requests only. -/
def State.headerSound (s : State) : Prop :=
  let h := s.run.header
  (512 ≤ h.cellsPerRev ∧ h.cellsPerRev ≤ 16384) ∧ (1 ≤ h.tracksPerBand ∧ h.tracksPerBand ≤ 16383) ∧ h.shiftMode ≤ 1 ∧
    (1 ≤ h.settleCount ∧ h.settleCount ≤ 15) ∧ h.holdSteps ≤ 15 ∧ h.holdUnit ≤ 1 ∧ h.declaredWindows ≤ 32 ∧
    h.declaredSlots ≤ 16 ∧ h.headMask.toNat < 2 ^ s.fittedCount ∧ h.pGrants.toNat < 32 ∧ h.sGrants.toNat < 32 ∧
    h.locked.length ≤ 4 ∧ ∀ w ∈ h.locked, w ∈ lockable

/-- R16, R18, R30, R34, R135, R136, R149: RUN's record agrees with itself; R26, R124, R147: a fault report is under way only
while it can still have an effect on the job, from a used head in LOWERING or RUNNING. -/
def Run.sound (r : Run) : Prop :=
  (r.phase = .settle ↔ r.jobState = .lowering) ∧ (r.phase = .cut ∨ r.phase = .slip ↔ r.jobState = .running) ∧
    (r.holdReason = .none ↔ r.jobState ≠ .held) ∧ (r.pendingHold = true → r.phase = .cut) ∧
    r.t = r.retiredTracks ∧ r.t ≤ r.header.tracksPerBand ∧ (r.t = r.header.tracksPerBand ↔ r.jobState = .done) ∧
    (r.jobState = .none ∨ r.jobState = .prepared → r.t = 0) ∧
    (r.jobState = .lowering → r.settleCounter < r.header.settleCount) ∧ r.settleCounter ≤ 15 ∧
    (r.jobState = .running → r.header.holdLimit = 0 ∨ r.holdCounter < r.header.holdLimit) ∧
    r.holdCounter ≤ 65535 ∧ r.totalSlips ≤ max32 ∧ r.damage.length ≤ 8 ∧
    r.markers.length ≤ 16 ∧ r.markers.Pairwise (fun a b => a.track ≤ b.track) ∧
    (∀ m ∈ r.markers, r.t ≤ m.track ∧ m.track < r.header.tracksPerBand) ∧
    ∀ x ∈ r.reports, r.header.used x.head = true ∧ (r.jobState = .lowering ∨ r.jobState = .running)

/-- R103: a line of head h carries its head, its global track and N drive values. -/
def State.lineSound (s : State) (h : Head) (x : Line) : Prop :=
  x.head = h ∧ x.globalTrack = h.val * s.run.header.tracksPerBand + x.localTrack ∧
    x.cellCount = s.run.header.cellsPerRev ∧ x.driveValues.length = s.run.header.cellsPerRev ∧
    x.nonzeroCells ≤ x.cellCount

/-- R105, R126: the queue of a used head holds the lines for t, t + 1, … up to its pointer. -/
def State.queueAgrees (s : State) (h : Head) : Prop :=
  let q := (s.chan h).queue
  q.map Line.localTrack = List.range' s.run.t q.length ∧ s.build.nextTrack[h.val] = s.run.t + q.length ∧ q.length ≤ 4 ∧
    s.build.nextTrack[h.val] ≤ s.run.header.tracksPerBand ∧ (s.run.phase = .cut → q ≠ [])

/-- R96, R97, R101, R105: the build in flight is for the next track of a used head whose queue has room. -/
def State.buildAgrees (s : State) : Prop :=
  match s.build.inFlight with
  | none => True
  | some b =>
    s.run.jobState.onCopper = true ∧ s.used b.head = true ∧ b.localTrack = s.build.nextTrack[b.head.val] ∧
      b.localTrack < s.run.header.tracksPerBand ∧ (s.chan b.head).queue.length < 4 ∧
      b.globalTrack = b.head.val * s.run.header.tracksPerBand + b.localTrack ∧
      b.cells.length = s.run.header.cellsPerRev

/-- R105, R111, R126, R127: queues, pointers and lines in cut agree with the carriage. -/
def State.queuesAgree (s : State) : Prop :=
  (s.run.jobState.onCopper = true → ∀ h, s.used h = true → s.queueAgrees h) ∧
    (∀ h, s.run.jobState.onCopper = false ∨ s.used h = false → (s.chan h).queue = []) ∧
    (s.run.jobState = .done → ∀ h, s.used h = true → s.build.nextTrack[h.val] = s.run.header.tracksPerBand) ∧
    (∀ h, ∀ x ∈ (s.chan h).queue, s.lineSound h x) ∧
    (∀ h, (s.chan h).inCut = true ↔ s.run.phase = .cut ∧ s.used h = true) ∧
    (∀ h, (s.chan h).taken = true → (s.chan h).inCut = true) ∧ s.buildAgrees

/-- R113, R114, R119, R121, R127: head h's record agrees with itself. -/
def State.channelSound (s : State) (h : Head) : Prop :=
  let c := s.chan h
  (c.faultCause = .none ↔ c.state ≠ .faulted) ∧ c.faultTrack ≤ 16383 ∧ c.timeoutCount ≤ 8 ∧
    (c.state = .lowering ∨ c.state = .lifting → c.timeoutCount < 8) ∧
    c.linesCut ≤ max32 ∧ c.cellsCut ≤ max48 ∧ c.damagedLines ≤ max32 ∧
    (c.transferring = true → c.state = .down ∧ c.inCut = true) ∧ (s.fitted h = false → c.state = .absent)

/-- The job, the carriage, the builder and the head channels agree (R105, R126, R136 and the rules they name). -/
def State.jobSound (s : State) : Prop :=
  s.headerSound ∧ s.run.sound ∧ s.queuesAgree ∧ ∀ h, s.channelSound h

/-- The waiting writes of one link (R89). -/
def State.waitingWrites (s : State) (l : Link) : Nat := s.tables.writeQueue.countP fun q => q.link == l

/-- R156 to R159, R170: one link's port keeps its bounds. -/
def Port.sound (x : Port) : Prop :=
  x.input.length ≤ 2 ∧ x.errors ≤ 65535 ∧ x.unsentReplies ≤ 2 ∧ (x.handling = .waiting → x.unsentReplies ≤ 1) ∧
    x.waiting.countP OutFrame.isNotice ≤ 1 ∧ (x.sending = true → x.out ≠ [])

/-- R89, R90, R157 to R159, R170: the two links and the write queue agree: a link is WAITING exactly while one write of
its own waits, the S-link alone is ever CLOSING, and no write waits without a build in flight. -/
def State.linksSound (s : State) : Prop :=
  (∀ l, (s.port l).sound) ∧
    (∀ l, s.waitingWrites l = if (s.port l).handling = .waiting then 1 else 0) ∧ s.pLink.handling ≠ .closing ∧
    (s.build.inFlight = none → s.tables.writeQueue = [])

/-- R81: a valid tone table has 256 depth codes, 0 for tone 0. -/
def ToneTable.sound (x : ToneTable) : Prop :=
  x.entries.length = 256 ∧ (∀ e ∈ x.entries, e ≤ 1023) ∧ x.entries.head? = some 0

/-- R83: a valid pattern's fields lie in their ranges, and no entry outside its width and height is on. -/
def MarkPattern.sound (m : MarkPattern) : Prop :=
  m.map.length = 16 ∧
    (m.valid = true → (1 ≤ m.width ∧ m.width ≤ 16) ∧ (1 ≤ m.height ∧ m.height ≤ 16) ∧ (1 ≤ m.depth ∧ m.depth ≤ 1023)) ∧
    ∀ r c, r < 16 → c < 16 → m.height ≤ r ∨ m.width ≤ c → m.isOn r c = false

/-- R85: a trim record's fields lie in their ranges. -/
def Trim.sound (r : Trim) : Prop :=
  (500 ≤ r.gain ∧ r.gain ≤ 1500) ∧ (-128 ≤ r.offset ∧ r.offset ≤ 127) ∧ (1 ≤ r.clamp ∧ r.clamp ≤ 1023) ∧
    r.wearLimit ≤ max48

/-- A write carries contents the tables may hold. -/
def TableWrite.sound : TableWrite → Prop
  | .tone _ es => ToneTable.sound ⟨es, true⟩
  | .pattern _ m => m.sound
  | .trim _ r _ => r.sound

/-- R81, R83, R85: the tables, patterns, trims and waiting writes lie in their ranges. -/
def State.tablesSound (s : State) : Prop :=
  (∀ x ∈ s.tables.tones.toList, x.sound) ∧ (∀ x ∈ s.tables.patterns.toList, x.sound) ∧
    (∀ x ∈ s.tables.trims.toList, x.sound) ∧ ∀ q ∈ s.tables.writeQueue, q.write.sound

/-- R39, R41: a slot's fields and directory agree: records in ascending row order below rows_received, each with one to
32 uses and a page for each tone group. -/
def Slot.sound (x : Slot) : Prop :=
  (x.state = .empty → x = Slot.reset) ∧ (x.state ≠ .empty → 1 ≤ x.width ∧ 1 ≤ x.height ∧ x.height ≤ 65535) ∧
    x.pagesPerRow = (x.width + 255) / 256 ∧
    x.rowsReceived ≤ x.height ∧ (x.state = .full ↔ x.state ≠ .empty ∧ x.rowsReceived = x.height) ∧
    x.directory.Pairwise (fun a b => a.rowIndex < b.rowIndex) ∧
    ∀ r ∈ x.directory, r.rowIndex < x.rowsReceived ∧ (1 ≤ r.useCount ∧ r.useCount ≤ 32) ∧
      r.pages.length = x.pagesPerRow

/-- R39, R41, R53: every slot is sound, its width at most N, and no enabled IMAGE window names an EMPTY slot or one that
is none. -/
def State.slotsSound (s : State) : Prop :=
  (∀ n, (s.store.slot n).sound ∧ (s.store.slot n).width ≤ s.run.header.cellsPerRev) ∧
    ∀ n, (s.window n).isImage = true → (s.window n).source < 16 ∧ (s.store.slot (s.window n).source).state ≠ .empty

/-- R58, R73: every window's cells lie below N, and no cell is covered by two enabled windows of kind IMAGE or MARK. -/
def State.windowsDisjoint (s : State) : Prop :=
  (∀ i, (s.window i).firstCell < s.run.header.cellsPerRev ∧ (s.window i).lastCell < s.run.header.cellsPerRev) ∧
  ∀ i j g c, i ≠ j → (s.window i).cuts = true → (s.window j).cuts = true → c < s.run.header.cellsPerRev →
    (s.window i).covers g c = true → (s.window j).covers g c = false

end Sys2Proof.Machine
end

