-- ==== Sys2Proof/Certificates/Slice0/Obligations.lean ====
section
/-!
DEFINITION. The statements for the provers, one Prop each; OBLIGATIONS.json lists them with the rules they rest on.
-/

open Sys2Proof Sys2Proof.Machine

/-! ### The machine -/

/-- The command at the front of the queue is taken, and the step is exec of it on the state with the queue's rest. -/
def Obligations.StepRunsTheFrontCommand : Prop :=
  ∀ (s : State) (c : Instr) (rest : List Instr), s.pending = c :: rest → step s = exec c { s with pending := rest }

/-- Every command answers a next state, leaves the queue of commands as it is, leaves the straps sampled at power-on as
they are unless it is a power-on reset (R113), and moves no other head's input lines than its own. -/
def Obligations.EveryCommandCompletes : Prop :=
  ∀ (c : Instr) (s : State), ∃ t, exec c s = .next t ∧ t.pending = s.pending ∧
    ((∀ x, c ≠ .powerOnReset x) → t.straps = s.straps) ∧ ∀ h, c.pinOf ≠ some h → t.pin h = s.pin h

/-- The model's choice (logs 1, 2, 6, 11): an empty queue of commands idles, and a command whose condition does not hold
changes nothing. -/
def Obligations.StepsOutOfPlaceChangeNothing : Prop :=
  ∀ s : State,
    (s.pending = [] → step s = .next s) ∧
    (¬ (s.sLink.handling = .closing ∧ ∀ f ∈ s.sLink.out, f.isReply = false) → exec .dresetTakesEffect s = .next s) ∧
    (¬ (s.run.jobState = .lowering ∧ (∀ h, s.used h = true → (s.chan h).state = .down) ∧
          s.run.settleCounter + 1 = s.run.header.settleCount) → exec .settleComplete s = .next s) ∧
    (¬ (s.run.jobState = .running ∧ s.run.phase = .slip ∧ (∃ h, s.used h = true ∧ s.lineReady h = false) ∧
          s.run.header.holdSteps * (if s.run.header.holdUnit = 0 then 16 else 64) ≠ 0 ∧ min 65535 (s.run.holdCounter + 1) =
            s.run.header.holdSteps * (if s.run.header.holdUnit = 0 then 16 else 64)) →
        exec .holdLimit s = .next s) ∧
    (∀ h, ¬ (s.fitted h = true ∧ (s.chan h).state = .lowering ∧ 7 ≤ (s.chan h).timeoutCount) →
        exec (.lowerTimeout h) s = .next s) ∧
    (∀ h, ¬ (s.fitted h = true ∧ (s.chan h).state = .lifting ∧ 7 ≤ (s.chan h).timeoutCount) →
        exec (.liftTimeout h) s = .next s) ∧
    (∀ h, (∀ r ∈ s.run.reports, r.head ≠ h) → exec (.faultReport h) s = .next s) ∧
    (¬ (s.build.inFlight = none ∧ s.tables.writeQueue = [] ∧ s.run.jobState.onCopper = true) →
        exec .buildChoice s = .next s) ∧
    (s.build.inFlight = none → exec .buildCompletion s = .next s)

/-! ### Resets -/

/-- The values the spec gives at reset, block by block (R4, R16, R37, R39, R58, R81, R83, R85, R96, R114, R135, R149,
R156 to R159, R165, R166). That every channel is ABSENT is the model's choice of input lines and straps at reset, all low and
3 (log 4): R134 makes a fitted channel LIFTING where HPRESn is high. -/
def Obligations.ResetStateHoldsTheSpecValues : Prop :=
  let s := State.reset
  let r := s.run
  let h := r.header
  (h.signature = 0 ∧ h.jobNumber = 0 ∧ h.cellsPerRev = 512 ∧ h.tracksPerBand = 1 ∧ h.headMask = 0 ∧ h.shiftMode = 0 ∧
    h.settleCount = 1 ∧ h.holdSteps = 0 ∧ h.holdUnit = 0 ∧ h.declaredWindows = 0 ∧ h.declaredSlots = 0 ∧
    h.pGrants = 0 ∧ h.sGrants = 0 ∧ h.locked = []) ∧
  (r.jobState = .none ∧ r.holdReason = .none ∧ r.damage = [] ∧ r.totalSlips = 0 ∧ r.retiredTracks = 0 ∧ r.t = 0 ∧
    r.phase = .idle ∧ r.settleCounter = 0 ∧ r.holdCounter = 0 ∧ r.pendingHold = false ∧ r.markers = [] ∧
    r.reports = []) ∧
  ((∀ i, i < 32768 → (s.store.freePages[i]?).map Fin.val = some i) ∧ s.store.freePages.length = 32768 ∧
    (∀ n, n < 16 → s.store.slot n = ⟨.empty, 0, 0, 0, 0, []⟩)) ∧
  (∀ n, n < 32 → s.window n = ⟨65535, 0, 0, 0, .keepout, 0, 0, 0, 0⟩) ∧
  ((∀ n, n < 16 → s.tables.tone n = ⟨List.replicate 256 0, false⟩) ∧
    (∀ n, n < 8 → s.tables.pattern n = ⟨0, 0, List.replicate 16 0, 0, false⟩) ∧
    (∀ k, s.trim k = ⟨1000, 0, 1023, 0⟩) ∧ s.tables.writeQueue = []) ∧
  (s.build.nextTrack = #v[0, 0, 0, 0] ∧ s.build.lastServed = 3 ∧ s.build.inFlight = none) ∧
  (∀ k, s.chan k = ⟨.absent, .none, 0, 0, [], false, false, false, 0, 0, 0⟩) ∧
  s.event = ⟨0, 0, 0⟩ ∧ (∀ l, s.port l = ⟨none, [], .ready, [], false, 0⟩)

/-- R113, R134, R172: power-on reset samples the straps and sets every block; page memory (R55), input lines and the queue of
commands are not its to change. The count of STEP pulses, 0, is the model's (log 16). -/
def Obligations.PowerOnResetSetsEveryBlock : Prop :=
  ∀ (s : State) (straps : BitVec 2), ∃ t, exec (.powerOnReset straps) s = .next t ∧
    t.straps = straps ∧ t.run = State.reset.run ∧ t.store = { State.reset.store with memory := s.store.memory } ∧
    t.place = State.reset.place ∧ t.tables = State.reset.tables ∧ t.build = State.reset.build ∧
    (∀ h, t.chan h = (s.pin h).channelAfterReset (t.fitted h) 0) ∧ s.onlyResetFaults t ∧
    t.event.pMask = 0 ∧ t.event.sMask = 0 ∧ (∀ l, t.port l = State.reset.port l) ∧ t.stepPulses = 0 ∧
    t.pins = s.pins ∧ t.pending = s.pending

/-- R164, R134, R172: DRESET on the S-link is accepted in every job state: the reply is queued and the S-link is CLOSING;
when the reply has been sent, the part is reset but for straps, tables, patterns, trims and cells_cut. That the reset is a
command of its own, due when the S-link holds no reply, is the model's (log 11), as is the count of STEP pulses (log 16). -/
def Obligations.DresetClosesAndThenResets : Prop :=
  (∀ (s : State) (tag : Byte) (rest : List InFrame), s.headerSound → s.offers .s (requestFrame tag .dreset []) rest →
     exec (.dreset .s) s = .next { s with sLink := { s.sLink with
       input := rest, handling := .closing, out := s.sLink.out ++ [.reply (requestReply tag .dreset .accepted [])] } }) ∧
  (∀ s : State, s.sLink.handling = .closing → (∀ f ∈ s.sLink.out, f.isReply = false) →
     ∃ t, exec .dresetTakesEffect s = .next t ∧
       t.straps = s.straps ∧ t.run = State.reset.run ∧ t.store = { State.reset.store with memory := s.store.memory } ∧
       t.place = State.reset.place ∧ t.tables = { s.tables with writeQueue := [] } ∧ t.build = State.reset.build ∧
       (∀ h, t.chan h = (s.pin h).channelAfterReset (s.fitted h) (s.chan h).cellsCut) ∧ s.onlyResetFaults t ∧
       t.event.pMask = 0 ∧ t.event.sMask = 0 ∧ (∀ l, t.port l = State.reset.port l) ∧ t.stepPulses = 0 ∧
       t.pins = s.pins ∧ t.pending = s.pending)

/-! ### The links -/

/-- R156, R157: the words a sender makes of a frame of a known kind join the input buffer as that frame, where it has
room: no bit of header or payload is dropped. That one command carries the words and the frame's end is the model's
(log 15). -/
def Obligations.GoodFrameJoinsTheBuffer : Prop :=
  ∀ (s : State) (l : Link) (f : InFrame), f.payload.length ≤ 4100 → (s.port l).input.length < 2 →
    (s.port l).receiving.getD [] = [] →
    exec (.frameReceived l f.words .byEnd) s =
      .next (s.setPort l { s.port l with receiving := none, input := (s.port l).input ++ [f] })

/-- R156: a frame that any of the six conditions fails is discarded: one error on its link, saturating, LINKERR raised,
and nothing else. `ws` are the words received between START and the frame's end, which one command carries (the model's,
log 15). -/
def Obligations.BadFrameIsDiscarded : Prop :=
  ∀ (s : State) (l : Link) (ws : List Word) (fin : FrameEnd),
    let all := (s.port l).receiving.getD [] ++ ws
    let header := all.headD 0
    (fin = .byStart ∨ all.length < 2 ∨ 4102 < all.length ∨ 4100 < bits header 15 0 ∨
        all.length ≠ bits header 15 0 + 2 ∨ all.getLast? ≠ some (crc all.dropLast) ∨
        (bits header 31 24 ≠ 1 ∧ bits header 31 24 ≠ 2 ∧ bits header 31 24 ≠ 3) ∨ 2 ≤ (s.port l).input.length) →
    exec (.frameReceived l ws fin) s = .next ((s.setPort l { s.port l with
      receiving := if fin = .byStart then some [] else none
      errors := min 65535 ((s.port l).errors + 1) }).raise .linkerr)

/-- R159, R164: an idle transmitter begins the frame at the head of its queue; a frame whose END has been sent leaves
and the next begins; after its DRESET reply the S-link sends nothing (the operands are the model's: log 10). -/
def Obligations.TransmitterSendsInQueueOrder : Prop :=
  ∀ (s : State) (l : Link),
    let x := s.port l
    let closed := x.handling = .closing ∧ ∀ f ∈ x.out, f.isReply = false
    (¬ closed → x.out ≠ [] → exec (.frameSent l .begun) s = .next (s.setPort l { x with sending := true })) ∧
    (x.out = [] → exec (.frameSent l .begun) s = .next s) ∧
    (¬ closed → exec (.frameSent l .ended) s = .next (s.setPort l { x with
      out := x.out.tail
      sending := decide (x.out.tail ≠ []) && !decide (x.handling = .closing ∧ ∀ f ∈ x.out.tail, f.isReply = false) })) ∧
    (closed → exec (.frameSent l .begun) s = .next s ∧ exec (.frameSent l .ended) s = .next s)

/-- R158: a link that is not READY, or has two replies whose sending has not begun, or an empty input buffer, takes no
frame; and a command takes no frame but one of its own sort at the head of the buffer: where another sort stands there, it
changes nothing (the model's choice, log 1). -/
def Obligations.LinkThatCannotTakeChangesNothing : Prop :=
  (∀ x : Port, x.unsentReplies = (if x.sending then x.out.tail else x.out).countP OutFrame.isReply) ∧
  (∀ (s : State) (c : Instr) (l : Link), c.takesOn = some l →
    (s.port l).handling ≠ .ready ∨ 2 ≤ (s.port l).unsentReplies ∨ (s.port l).input = [] → exec c s = .next s) ∧
  ∀ (s : State) (l : Link) (f : InFrame) (rest : List InFrame), s.offers l f rest →
    (f.kind ≠ .row → exec (.row l) s = .next s) ∧
    (f.kind ≠ .marker → exec (.marker l) s = .next s) ∧
    (∀ c : ReqCode, f.kind ≠ .request ∨ f.payload.head? ≠ some c.word → exec (c.command l) s = .next s) ∧
    (f.kind ≠ .request ∨ (∃ c : ReqCode, f.payload.head? = some c.word) → exec (.unknownRequest l) s = .next s)

/-- R160 step 1, R174: a REQUEST whose code word is not one of the twenty-four, or that has no words, is answered UNKNOWN
with the code word as received, whatever the grants, and changes nothing. -/
def Obligations.UnknownCodeIsAnsweredUnknown : Prop :=
  ∀ (s : State) (l : Link) (tag : Byte) (payload : List Word) (rest : List InFrame),
    s.offers l ⟨.request, tag, payload⟩ rest →
    (∀ w, payload.head? = some w →
      w.toNat ∉ [0x10, 0x11, 0x12, 0x13, 0x14, 0x15, 0x16, 0x20, 0x21, 0x22, 0x30, 0x31, 0x40, 0x41, 0x42, 0x50, 0x51,
        0x52, 0x60, 0x61, 0x62, 0x63, 0x70, 0x7F]) →
    exec (.unknownRequest l) s = .next (s.answered l rest ⟨.request, tag, payload.headD 0, .unknown, []⟩)

/-! ### Dispatch -/

/-- R10, R11: the zone of every request, and the zones each link holds; 11.4: the bit of each zone in a grant mask. -/
def Obligations.ZonesAndGrants : Prop :=
  ([Zone.place, .tone, .mark, .trim, .run].map Zone.index = [0, 1, 2, 3, 4]) ∧
  (∀ c : ReqCode,
    (c.zone = some .place ↔ c ∈ [ReqCode.sdef, .srel, .wset]) ∧ (c.zone = some .tone ↔ c = .tload) ∧
    (c.zone = some .mark ↔ c = .mload) ∧ (c.zone = some .trim ↔ c ∈ [ReqCode.htrim, .hreset]) ∧
    (c.zone = some .run ↔ c ∈ [ReqCode.jstart, .jhold, .jresume, .jabort, .jclose]) ∧
    (c.zone = none ↔ c ∈ [ReqCode.jopen, .ident, .wread, .tread, .squery, .jquery, .hquery, .evset, .evclr, .evack,
      .evread, .dreset])) ∧
  ∀ s : State,
    (s.run.jobState ∈ [JobState.none, .done, .aborted] → ∀ l z, s.holdsZone l z = true) ∧
    (s.run.jobState ∈ [JobState.prepared, .lowering, .running, .held] → ∀ z,
      (s.holdsZone .p z = true ↔ z = .place ∨ z = .run ∨ s.run.header.pGrants.getLsbD z.index = true) ∧
      (s.holdsZone .s z = true ↔ z = .trim ∨ z = .run ∨ s.run.header.sGrants.getLsbD z.index = true))

/-- R12: a request in a zone its link does not hold is answered ZONE, and so is a ROW or MARKER without Z-PLACE and a
DRESET on the P-link in every job state; nothing else changes. R48: the rows_received that a refused ROW's reply carries. -/
def Obligations.RequestOutsideItsZoneIsRefused : Prop :=
  (∀ s : State, s.replyRows [] = 0 ∧ ∀ (w : Word) (p : List Word), s.replyRows (w :: p) =
    if bits w 31 24 < 16 then (s.store.slot (bits w 31 24)).rowsReceived else 0) ∧
  ∀ (s : State) (l : Link) (tag : Byte) (rest : List InFrame),
    (∀ (c : ReqCode) (z : Zone) (ops : List Word), s.offers l (requestFrame tag c ops) rest → c.zone = some z →
      s.holdsZone l z = false → exec (c.command l) s = .next (s.answered l rest (requestReply tag c .zone []))) ∧
    (∀ p, s.offers l ⟨.row, tag, p⟩ rest → s.holdsZone l .place = false →
      exec (.row l) s = .next (s.answered l rest ⟨.row, tag, 0, .zone,
        [put 31 0 s.store.freeCount, 0, put 31 0 (s.replyRows p)]⟩)) ∧
    (∀ p, s.offers l ⟨.marker, tag, p⟩ rest → s.holdsZone l .place = false →
      exec (.marker l) s = .next (s.answered l rest ⟨.marker, tag, 0, .zone, [put 31 0 s.run.markers.length]⟩)) ∧
    (∀ ops, s.offers .p (requestFrame tag .dreset ops) rest →
      exec (.dreset .p) s = .next (s.answered .p rest (requestReply tag .dreset .zone [])))

/-- R13: a request in the locked list, its zone held, is answered LOCKED in LOWERING, RUNNING and HELD, whatever its
state step or operands would give; in the other states the lock step passes every request. -/
def Obligations.LockedRequestIsRefused : Prop :=
  (∀ (s : State) (c : ReqCode), s.run.jobState ∈ [JobState.none, .prepared, .done, .aborted] →
    s.lockPasses c = true) ∧
  (∀ (s : State) (c : ReqCode), s.headerSound → c ∉ [ReqCode.tload, .mload, .htrim, .hreset] → s.lockPasses c = true) ∧
  ∀ (s : State) (l : Link) (tag : Byte) (rest : List InFrame) (c : ReqCode) (ops : List Word),
    s.offers l (requestFrame tag c ops) rest → s.zonePasses l c = true →
    s.run.jobState ∈ [JobState.lowering, .running, .held] → c.word ∈ s.run.header.locked →
    exec (c.command l) s = .next (s.answered l rest (requestReply tag c .locked []))

/-- R17: the states in which each request is accepted; a request, ROW or MARKER taken in another state, its zone held and
not locked, is answered STATE and changes nothing. -/
def Obligations.RequestOutOfStateIsRefused : Prop :=
  (∀ (c : ReqCode) (j : JobState), c.acceptedIn j = true ↔
    (c = .jopen ∧ j ∈ [JobState.none, .done, .aborted]) ∨ (c = .jstart ∧ j = .prepared) ∨
    (c = .jhold ∧ j ∈ [JobState.lowering, .running]) ∨ (c = .jresume ∧ j = .held) ∨
    (c = .jabort ∧ j ∈ [JobState.prepared, .lowering, .running, .held]) ∨
    (c = .jclose ∧ j ∈ [JobState.done, .aborted]) ∨ (c ∈ [ReqCode.sdef, .srel, .wset] ∧ j = .prepared) ∨
    c ∈ [ReqCode.tload, .mload, .htrim, .hreset, .ident, .wread, .tread, .squery, .jquery, .hquery, .evset, .evclr,
      .evack, .evread, .dreset]) ∧
  ∀ (s : State) (l : Link) (tag : Byte) (rest : List InFrame),
    (∀ (c : ReqCode) (ops : List Word), s.offers l (requestFrame tag c ops) rest → s.zonePasses l c = true →
      s.lockPasses c = true → c.acceptedIn s.run.jobState = false →
      exec (c.command l) s = .next (s.answered l rest (requestReply tag c .state []))) ∧
    (∀ p, s.offers l ⟨.row, tag, p⟩ rest → s.run.jobState ∈ [JobState.none, .done, .aborted] →
      exec (.row l) s = .next (s.answered l rest ⟨.row, tag, 0, .state,
        [put 31 0 s.store.freeCount, 0, put 31 0 (s.replyRows p)]⟩)) ∧
    (∀ p, s.offers l ⟨.marker, tag, p⟩ rest → s.run.jobState ∈ [JobState.none, .done, .aborted] →
      exec (.marker l) s = .next (s.answered l rest ⟨.marker, tag, 0, .state, [put 31 0 s.run.markers.length]⟩))

/-- R160 step 5, R174: a payload without its fixed words, or longer than them for a request without a list, is answered
RANGE and changes nothing. `n` is the number of fixed words, the code word counted. -/
def Obligations.WrongPayloadSizeIsRefused : Prop :=
  ∀ (s : State) (l : Link) (tag : Byte) (rest : List InFrame),
    (∀ (c : ReqCode) (ops : List Word) (n : Nat), s.offers l (requestFrame tag c ops) rest → s.zonePasses l c = true →
      s.lockPasses c = true → c.acceptedIn s.run.jobState = true →
      (c, n) ∈ [(ReqCode.jopen, 7), (.tload, 2), (.mload, 3), (.sdef, 3), (.tread, 3), (.srel, 2), (.wread, 2),
        (.hreset, 2), (.hquery, 2), (.evset, 2), (.evclr, 2), (.evack, 2), (.wset, 6), (.htrim, 6), (.jstart, 1),
        (.jhold, 1), (.jresume, 1), (.jabort, 1), (.jclose, 1), (.jquery, 1), (.squery, 1), (.evread, 1), (.ident, 1),
        (.dreset, 1)] →
      ops.length + 1 < n ∨ (c ∉ [ReqCode.jopen, .tload, .mload] ∧ n < ops.length + 1) →
      exec (c.command l) s = .next (s.answered l rest (requestReply tag c .range []))) ∧
    (∀ p, s.offers l ⟨.row, tag, p⟩ rest → s.holdsZone l .place = true → s.run.jobState.isOpen = true →
      p.length < 2 →
      exec (.row l) s = .next (s.answered l rest ⟨.row, tag, 0, .range,
        [put 31 0 s.store.freeCount, 0, put 31 0 (s.replyRows p)]⟩)) ∧
    (∀ p, s.offers l ⟨.marker, tag, p⟩ rest → s.holdsZone l .place = true → s.run.jobState.isOpen = true →
      p.length ≠ 1 →
      exec (.marker l) s = .next (s.answered l rest ⟨.marker, tag, 0, .range, [put 31 0 s.run.markers.length]⟩))

/-! ### EVENT and IDENT -/

/-- R165, R170, R171: a raise sets its bit and changes nothing else but notices: on a link that enables the bit, a bit
that was clear makes a notice due and a bit that was set takes a pending notice's content anew; a notice due updates the
pending one in place or joins the tail of the queue. R165: the number of each bit. -/
def Obligations.RaiseSetsItsBitAndMakesNoticesDue : Prop :=
  (∀ x : Port, x.waiting = (if x.sending then x.out.tail else x.out) ∧
    (x.hasNotice = true ↔ ∃ n, OutFrame.notice n ∈ x.waiting)) ∧
  ([StatusBit.done, .held, .aborted, .slip, .damage, .storelow, .linkerr, .wear].map StatusBit.index =
    [0, 1, 2, 3, 4, 5, 6, 7]) ∧
  (∀ h : Head, (StatusBit.hfault h).index = 8 + h.val) ∧ (∀ n : Fin 4, (StatusBit.mark n).index = 12 + n.val) ∧
  (∀ (s : State) (b : StatusBit), ∃ p q, s.raise b =
    { s with event := { s.event with status := s.event.status ||| BitVec.ofNat 16 (2 ^ b.index) }, pLink := p
             sLink := q }) ∧
  (∀ (s : State) (b : StatusBit) (l : Link),
    let x := s.port l
    let y := (s.raise b).port l
    let n : Notice := { jobNumber := s.run.header.jobNumber, jobState := s.run.jobState, t := s.run.t
                        raw := s.event.status ||| BitVec.ofNat 16 (2 ^ b.index)
                        masked := (s.event.status ||| BitVec.ofNat 16 (2 ^ b.index)) &&& s.event.mask l }
    ((s.event.mask l).getLsbD b.index = false → y = x) ∧
    ((s.event.mask l).getLsbD b.index = true → x.hasNotice = true → y = x.takeAnew n) ∧
    ((s.event.mask l).getLsbD b.index = true → x.hasNotice = false →
      y = if s.event.status.getLsbD b.index then x else { x with out := x.out ++ [.notice n] })) ∧
  (∀ (n : Notice) (x : Port),
    (x.takeAnew n).begun = x.begun ∧
    (x.takeAnew n).waiting = x.waiting.map fun f => if f.isNotice then .notice n else f)

/-- R167, R168: EVSET sets and EVCLR clears bits of the requesting link's mask alone; an EVSET by which the masked status
gains a bit makes a notice due, queued before the reply; EVACK clears bits of the status word alone. -/
def Obligations.MaskRequestsActOnTheirBits : Prop :=
  ∀ (s : State) (l : Link) (tag : Byte) (m : Word) (rest : List InFrame), s.headerSound →
    (s.offers l (requestFrame tag .evset [m]) rest →
      let s1 := s.taken l rest
      let s2 := { s1 with event := s.event.setMask l (s.event.mask l ||| m.setWidth 16) }
      let n : Notice := ⟨s.run.header.jobNumber, s.run.jobState, s.run.t, s.event.status,
        s.event.status &&& (s.event.mask l ||| m.setWidth 16)⟩
      exec (.evset l) s = .next ((if s.event.status &&& (s.event.mask l ||| m.setWidth 16) = s.event.status &&& s.event.mask l
        then s2 else s2.setPort l ((s1.port l).noticeDue n)).queueReply l (requestReply tag .evset .accepted []))) ∧
    (s.offers l (requestFrame tag .evclr [m]) rest →
      exec (.evclr l) s = .next ({ s with event := s.event.setMask l (s.event.mask l &&& ~~~(m.setWidth 16)) }.answered l
        rest (requestReply tag .evclr .accepted []))) ∧
    (s.offers l (requestFrame tag .evack [m]) rest →
      exec (.evack l) s = .next ({ s with event := { s.event with
        status := s.event.status &&& ~~~(m.setWidth 16) } }.answered l rest (requestReply tag .evack .accepted [])))

/-- R169, R175: EVREAD returns the raw status, the requesting link's mask, its masked status and its error count, and
changes nothing. -/
def Obligations.EvreadReturnsTheLinksView : Prop :=
  ∀ (s : State) (l : Link) (tag : Byte) (rest : List InFrame), s.headerSound →
    s.offers l (requestFrame tag .evread []) rest →
    exec (.evread l) s = .next (s.answered l rest (requestReply tag .evread .accepted
      [put 31 16 s.event.status.toNat ||| put 15 0 (s.event.mask l).toNat,
       put 31 16 (s.event.status &&& s.event.mask l).toNat ||| put 15 0 (s.port l).errors]))

/-- R163, R175: IDENT returns the part's identity and fixed sizes and changes nothing; heads fitted is what the straps
were sampled at, and a DRESET leaves it. -/
def Obligations.IdentReturnsThePart : Prop :=
  (∀ (s : State) (l : Link) (tag : Byte) (rest : List InFrame), s.headerSound →
    s.offers l (requestFrame tag .ident []) rest →
    exec (.ident l) s = .next (s.answered l rest (requestReply tag .ident .accepted
      [put 31 16 0x0F31 ||| put 15 0 0x0460,
       put 31 24 3 ||| put 23 16 (s.straps.toNat + 1) ||| put 15 8 32 ||| put 7 0 16, 32768, 8]))) ∧
  ∀ s t : State, exec .dresetTakesEffect s = .next t → t.straps = s.straps

/-! ### The job -/

/-- R3, R6, R7, R174: JOPEN in NONE, DONE or ABORTED: its checks in order, and what an accepted one sets in every block. The
list of fault reports under way, the model's own, is then empty (log 7). -/
def Obligations.JopenOpensTheJobOrRefuses : Prop :=
  ∀ (s : State) (l : Link) (tag : Byte) (w1 w2 w3 w4 w5 w6 : Word) (codes : List Word) (rest : List InFrame),
    s.offers l (requestFrame tag .jopen ([w1, w2, w3, w4, w5, w6] ++ codes)) rest →
    s.run.jobState ∈ [JobState.none, .done, .aborted] →
    let h : JobHeader :=
      { signature := w1, jobNumber := w2, cellsPerRev := bits w3 31 16, tracksPerBand := bits w3 15 0
        headMask := BitVec.ofNat 8 (bits w4 31 24), shiftMode := if bits w4 17 16 = 1 then 1 else 0
        settleCount := bits w4 15 8, holdSteps := bits w4 7 0, holdUnit := bits w5 31 24
        declaredWindows := bits w5 23 16, declaredSlots := bits w5 15 8
        pGrants := BitVec.ofNat 8 (bits w6 15 8), sGrants := BitVec.ofNat 8 (bits w6 7 0), locked := codes }
    exec (.jopen l) s = .next (
      if w1 ≠ 0x6E47B2D9#32 then s.answered l rest (requestReply tag .jopen .signature [])
      else if ¬ ((512 ≤ h.cellsPerRev ∧ h.cellsPerRev ≤ 16384) ∧ (1 ≤ h.tracksPerBand ∧ h.tracksPerBand ≤ 16383) ∧
          (1 ≤ h.settleCount ∧ h.settleCount ≤ 15) ∧ h.holdSteps ≤ 15 ∧ h.holdUnit ≤ 1 ∧ h.declaredWindows ≤ 32 ∧
          h.declaredSlots ≤ 16 ∧ h.pGrants.toNat < 32 ∧ h.sGrants.toNat < 32) then
        s.answered l rest (requestReply tag .jopen .range [])
      else if h.headMask = 0 ∨ 2 ^ (s.straps.toNat + 1) ≤ h.headMask.toNat then
        s.answered l rest (requestReply tag .jopen .range [])
      else if codes.length ≠ bits w5 7 0 ∨ 4 < codes.length ∨
          ∃ w ∈ codes, w ∉ [0x40#32, 0x42#32, 0x50#32, 0x51#32] then
        s.answered l rest (requestReply tag .jopen .range [])
      else (s.jobDataCleared h .prepared).answered l rest (requestReply tag .jopen .accepted []))

/-- R9: JCLOSE in DONE or ABORTED clears the header and the job data. The list of fault reports under way, the model's own,
is then empty, as after power-on reset (log 7). -/
def Obligations.JcloseClosesTheJob : Prop :=
  ∀ (s : State) (l : Link) (tag : Byte) (rest : List InFrame), s.offers l (requestFrame tag .jclose []) rest →
    s.run.jobState ∈ [JobState.done, .aborted] →
    exec (.jclose l) s = .next ((s.jobDataCleared
      { signature := 0, jobNumber := 0, cellsPerRev := 512, tracksPerBand := 1, headMask := 0, shiftMode := 0,
        settleCount := 1, holdSteps := 0, holdUnit := 0, declaredWindows := 0, declaredSlots := 0, pGrants := 0,
        sGrants := 0, locked := [] } .none).answered l rest (requestReply tag .jclose .accepted []))

/-- R19, R20, R28, R117: JSTART in PREPARED and JRESUME in HELD: their checks in order, and the lowering of the used
heads. -/
def Obligations.JstartAndJresumeLowerTheHeads : Prop :=
  ∀ (s : State) (l : Link) (tag : Byte) (rest : List InFrame),
    let lowered := fun h (c : Channel) => if s.used h then { c with state := .lowering, timeoutCount := 0 } else c
    (s.offers l (requestFrame tag .jstart []) rest → s.run.jobState = .prepared →
      exec (.jstart l) s = .next (
        if (s.place.toList.countP fun w => decide (w.firstTrack ≤ w.lastTrack)) ≠ s.run.header.declaredWindows ∨
            (s.store.slots.toList.countP fun x => decide (x.state ≠ .empty)) ≠ s.run.header.declaredSlots then
          s.answered l rest (requestReply tag .jstart .count [])
        else if ∃ h, s.used h = true ∧ (s.chan h).state = .absent then
          s.answered l rest (requestReply tag .jstart .absent [])
        else if ∃ h, s.used h = true ∧ (s.chan h).state ≠ .parked then
          s.answered l rest (requestReply tag .jstart .state [])
        else (({ s with
            run := { s.run with jobState := .lowering, phase := .settle, settleCounter := 0, holdCounter := 0,
                                pendingHold := false }
            build := { s.build with nextTrack := Vector.replicate 4 0 } }).mapChans lowered).answered l rest
          (requestReply tag .jstart .accepted []))) ∧
    (s.headerSound → s.offers l (requestFrame tag .jresume []) rest → s.run.jobState = .held →
      exec (.jresume l) s = .next (
        if ∃ h, s.used h = true ∧ (s.chan h).state = .absent then
          s.answered l rest (requestReply tag .jresume .absent [])
        else if ∃ h, s.used h = true ∧ (s.chan h).state ≠ .parked then
          s.answered l rest (requestReply tag .jresume .state [])
        else (({ s with
            run := { s.run with jobState := .lowering, holdReason := .none, phase := .settle, settleCounter := 0,
                                pendingHold := false } }).mapChans lowered).answered l rest
          (requestReply tag .jresume .accepted [])))

/-- R23: JHOLD in LOWERING or RUNNING: in phase CUT it sets the pending-hold flag, otherwise it holds the job at once. -/
def Obligations.JholdHoldsOrPends : Prop :=
  ∀ (s : State) (l : Link) (tag : Byte) (rest : List InFrame), s.headerSound →
    s.offers l (requestFrame tag .jhold []) rest → s.run.jobState = .lowering ∨ s.run.jobState = .running →
    exec (.jhold l) s = .next (
      if s.run.jobState = .running ∧ s.run.phase = .cut then
        { s with run := { s.run with pendingHold := true } }.answered l rest (requestReply tag .jhold .accepted [])
      else ((s.taken l rest).enterHeld .request).queueReply l (requestReply tag .jhold .accepted []))

/-- R30, R32: JABORT in an open job: in phase CUT the track is recorded with cause ABORT if the list has room and its
lines are removed as damaged; then the job is ABORTED and the reply queued. That DAMAGE is raised before the job state
changes, which a notice shows, is the model's reading (log 9). -/
def Obligations.JabortEndsTheJob : Prop :=
  ∀ (s : State) (l : Link) (tag : Byte) (rest : List InFrame), s.headerSound →
    s.offers l (requestFrame tag .jabort []) rest → s.run.jobState ∈ [JobState.prepared, .lowering, .running, .held] →
    let s1 := s.taken l rest
    let record : DamageRecord := ⟨s.run.t, headMaskOf s.usedHeads, .abort, 0⟩
    let damage := if s.run.damage.length < 8 then s.run.damage ++ [record] else s.run.damage
    let s2 := if s.run.phase = .cut then
        (({ s1 with run := { s1.run with damage := damage } }).command Channel.damage).raise .damage
      else s1
    exec (.jabort l) s = .next (s2.enterAborted.queueReply l (requestReply tag .jabort .accepted []))

/-- R35, R56, R133, R175: JQUERY returns header, job record, carriage and damage list; SQUERY the free count and every
slot's fields, record count and page count; HQUERY the record of a head channel, its input levels and its trim (the inputs of
a head not fitted read low: log 17). None changes anything. 11.4: the codes of job states, hold reasons, phases, causes, head
states and slot states. -/
def Obligations.QueriesReturnTheirRecords : Prop :=
  ([JobState.none, .prepared, .lowering, .running, .held, .done, .aborted].map JobState.code = [0, 1, 2, 3, 4, 5, 6]) ∧
  ([HoldReason.none, .request, .fault, .starved].map HoldReason.code = [0, 1, 2, 3]) ∧
  ([Phase.idle, .settle, .cut, .slip].map Phase.code = [0, 1, 2, 3]) ∧
  ([Cause.none, .drive, .presence, .lowerTimeout, .liftTimeout, .lifted, .dropped, .short, .abort].map Cause.code =
    [0, 1, 2, 3, 4, 5, 6, 7, 8]) ∧
  ([HeadState.absent, .parked, .lowering, .down, .lifting, .faulted].map HeadState.code = [0, 1, 2, 3, 4, 5]) ∧
  ([SlotState.empty, .opened, .full].map SlotState.code = [0, 1, 2]) ∧
  (∀ (s : State) (l : Link) (tag : Byte) (rest : List InFrame), s.headerSound →
     s.offers l (requestFrame tag .jquery []) rest →
     let r := s.run
     let h := r.header
     exec (.jquery l) s = .next (s.answered l rest (requestReply tag .jquery .accepted (
       [h.signature, h.jobNumber, put 31 16 h.cellsPerRev ||| put 15 0 h.tracksPerBand,
        put 31 24 h.headMask.toNat ||| put 17 16 h.shiftMode ||| put 15 8 h.settleCount ||| put 7 0 h.holdSteps,
        put 31 24 h.holdUnit ||| put 23 16 h.declaredWindows ||| put 15 8 h.declaredSlots ||| put 7 0 h.locked.length,
        put 15 8 h.pGrants.toNat ||| put 7 0 h.sGrants.toNat] ++ h.locked ++
       [put 31 24 r.jobState.code ||| put 23 16 r.holdReason.code ||| put 15 8 r.phase.code ||| put 0 0 r.pendingHold.toNat,
        put 31 16 r.t ||| put 15 8 r.settleCounter, put 15 0 r.holdCounter, put 31 0 r.totalSlips,
        put 31 0 r.retiredTracks, put 7 0 r.damage.length] ++
       r.damage.map fun d => put 31 16 d.track ||| put 15 8 d.cause.code ||| put 7 4 d.usedHeads.toNat |||
         put 3 0 d.faultingHeads.toNat)))) ∧
  (∀ (s : State) (l : Link) (tag : Byte) (rest : List InFrame), s.headerSound →
     s.offers l (requestFrame tag .squery []) rest →
     exec (.squery l) s = .next (s.answered l rest (requestReply tag .squery .accepted (
       put 31 0 s.store.freePages.length :: s.store.slots.toList.flatMap fun x =>
         [put 31 24 x.state.code ||| put 23 16 x.pagesPerRow ||| put 15 0 x.width,
          put 31 16 x.height ||| put 15 0 x.rowsReceived,
          put 31 16 x.directory.length ||| put 15 0 (x.directory.flatMap RowRecord.pages).length])))) ∧
  (∀ (s : State) (l : Link) (tag : Byte) (w1 : Word) (rest : List InFrame), s.headerSound →
     s.offers l (requestFrame tag .hquery [w1]) rest →
     (4 ≤ w1.toNat → exec (.hquery l) s = .next (s.answered l rest (requestReply tag .hquery .range []))) ∧
     ∀ h : Head, w1.toNat = h.val →
       let c := s.chan h
       let x := if s.fitted h then s.pin h else ⟨false, false, false, false, false⟩
       let r := s.trim h
       exec (.hquery l) s = .next (s.answered l rest (requestReply tag .hquery .accepted (
         [put 31 24 h.val ||| put 23 16 c.state.code ||| put 15 8 c.faultCause.code |||
            (put 0 0 (s.fitted h).toNat ||| put 1 1 c.inCut.toNat ||| put 2 2 c.taken.toNat ||| put 3 3 x.hpres.toNat |||
              put 4 4 x.hdown.toNat ||| put 5 5 x.hup.toNat ||| put 6 6 x.hflt.toNat),
          put 31 16 c.faultTrack ||| put 15 8 c.timeoutCount ||| put 7 0 c.queue.length] ++
         (c.queue.flatMap fun y => [put 31 16 y.localTrack ||| put 15 0 y.globalTrack,
                                    put 31 16 y.nonzeroCells ||| put 0 0 y.phase.toNat]) ++
         [put 31 0 c.linesCut, put 15 0 (c.cellsCut / 2 ^ 32), put 31 0 c.cellsCut, put 31 0 c.damagedLines,
          put 31 16 r.gain ||| put 15 0 (BitVec.ofInt 16 r.offset).toNat, put 31 16 r.clamp,
          put 15 0 (r.wearLimit / 2 ^ 32), put 31 0 r.wearLimit]))))

/-- R18, R25, R29, R119: on entry to HELD and to DONE the job record, the carriage, the used heads and the status word
change as stated, and nothing else but notices changes. No fault report stays under way, since none has an effect on the job
any more (R26, R124, R147; that the list drops them is log 7), and a head that the lift faults sends none: the job state is set
before the lifts, which is the model's reading (log 9). -/
def Obligations.EntryToHeldAndDone : Prop :=
  ∀ s : State,
    (∀ reason,
      (s.enterHeld reason).run =
        { s.run with jobState := .held, holdReason := reason, pendingHold := false, phase := .idle, reports := [] } ∧
      s.liftsUsedHeads (s.enterHeld reason) .held) ∧
    s.enterDone.run =
      { s.run with jobState := .done, holdReason := .none, pendingHold := false, phase := .idle, reports := [] } ∧
    s.liftsUsedHeads s.enterDone .done

/-- R31, R32, R54, R91, R107: the end of a job as ABORTED, block by block: the build in flight is abandoned and the waiting
writes take effect and are answered, every queue is emptied, the used heads are lifted, every row record is freed, and the
marker list is emptied. No fault report stays under way (log 7), and a head that the lift faults sends none: the order of the
effects is the model's reading (log 9). -/
def Obligations.EntryToAborted : Prop :=
  ∀ s : State,
    let t := s.enterAborted
    t.run = { s.run with jobState := .aborted, holdReason := .none, pendingHold := false, phase := .idle, markers := []
                         reports := [] } ∧
    t.build = { s.build with inFlight := none } ∧ t.tables = { s.writesApplied.tables with writeQueue := [] } ∧
    t.store = { freePages := s.store.freePages ++ s.store.slots.toList.flatMap fun x => x.directory.flatMap RowRecord.pages
                slots := s.store.slots.map fun x => { x with directory := [] }
                memory := s.store.memory } ∧
    t.place = s.place ∧ t.pins = s.pins ∧ t.straps = s.straps ∧ t.stepPulses = s.stepPulses ∧ t.pending = s.pending ∧
    (∀ h, t.chan h =
      let c := { s.writesApplied.chan h with queue := [], inCut := false, taken := false, transferring := false }
      if s.used h then c.lifted (s.pin h) s.run.t else c) ∧
    t.event.pMask = s.event.pMask ∧ t.event.sMask = s.event.sMask ∧
    (∀ i, t.event.status.getLsbD i = true ↔ s.event.status.getLsbD i = true ∨ i = 2 ∨
      ∃ h : Head, s.used h = true ∧ (s.chan h).faultsOnLift (s.pin h) = true ∧ i = 8 + h.val) ∧
    ∀ l, (t.port l).receiving = (s.port l).receiving ∧ (t.port l).input = (s.port l).input ∧
      (t.port l).sending = (s.port l).sending ∧ (t.port l).errors = (s.port l).errors ∧
      (t.port l).handling = (if 0 < s.waitingWrites l then .ready else (s.port l).handling) ∧
      (t.port l).out.filter OutFrame.isReply = (s.port l).out.filter OutFrame.isReply ++
        (s.tables.writeQueue.filter fun q => q.link == l).map fun q =>
          .reply ⟨.request, q.tag, q.write.code, .accepted, []⟩

/-! ### STORE -/

/-- R52, R53: SDEF defines an EMPTY slot and SREL releases one that no enabled IMAGE window names; their checks in order. -/
def Obligations.SdefAndSrelActOnTheirSlot : Prop :=
  ∀ (s : State) (l : Link) (tag : Byte) (w1 w2 : Word) (rest : List InFrame),
    s.holdsZone l .place = true → s.run.jobState = .prepared →
    let n := w1.toNat
    let width := bits w2 31 16
    let height := bits w2 15 0
    (s.offers l (requestFrame tag .sdef [w1, w2]) rest →
      exec (.sdef l) s = .next (
        if 16 ≤ n then s.answered l rest (requestReply tag .sdef .range [])
        else if (s.store.slot n).state ≠ .empty then s.answered l rest (requestReply tag .sdef .state [])
        else if width = 0 ∨ s.run.header.cellsPerRev < width ∨ height = 0 then
          s.answered l rest (requestReply tag .sdef .range [])
        else { s with store := s.store.setSlot n ⟨.opened, width, height, (width + 255) / 256, 0, []⟩ }.answered l rest
          (requestReply tag .sdef .accepted []))) ∧
    (s.offers l (requestFrame tag .srel [w1]) rest →
      exec (.srel l) s = .next (
        if 16 ≤ n then s.answered l rest (requestReply tag .srel .range [])
        else if ∃ w ∈ s.place.toList, w.firstTrack ≤ w.lastTrack ∧ w.kind = .image ∧ w.source = n then
          s.answered l rest (requestReply tag .srel .referenced [])
        else { s with store :=
            { s.store.setSlot n ⟨.empty, 0, 0, 0, 0, []⟩ with
              freePages := s.store.freePages ++ (s.store.slot n).directory.flatMap RowRecord.pages } }.answered l rest
          (requestReply tag .srel .accepted [])))

/-- R42: a row's use count is the number of enabled IMAGE windows that read it, at most 32; each of them reads it on one
global track of its range and no other. -/
def Obligations.UseCountCountsTheWindowsThatReadTheRow : Prop :=
  ∀ (s : State) (n r : Nat),
    s.useCount n r = (s.place.toList.countP fun w =>
      decide (w.firstTrack ≤ w.lastTrack ∧ w.kind = .image ∧ w.source = n ∧ w.rowOffset ≤ r ∧
        w.firstTrack + (r - w.rowOffset) ≤ w.lastTrack)) ∧
    s.useCount n r ≤ 32 ∧
    ∀ (w : Window) (g : Nat), w.coversTrack g = true →
      (w.rowAt g = r ↔ w.rowOffset ≤ r ∧ g = w.firstTrack + (r - w.rowOffset))

/-- R38, R44 to R48: a ROW that has passed dispatch: STORE's checks in order; a row with use count 0 is counted and not
stored; a row with uses is stored in the pages at the head of the free-page list, with STORELOW raised where the free count
falls below 2,048; the reply's three values. -/
def Obligations.RowIsStoredCountedOrRefused : Prop :=
  ∀ (s : State) (l : Link) (tag : Byte) (w0 w1 : Word) (data : List Word) (rest : List InFrame),
    s.offers l ⟨.row, tag, w0 :: w1 :: data⟩ rest → s.holdsZone l .place = true → s.run.jobState.isOpen = true →
    let n := bits w0 31 24
    let count := bits w0 15 0
    let r := bits w1 15 0
    let x := s.store.slot n
    let u := s.useCount n r
    let free := s.store.freePages.length
    let reply := fun (cc : CC) (free u rows : Nat) => (⟨.row, tag, 0, cc, [put 31 0 free, put 31 0 u, put 31 0 rows]⟩ : Reply)
    let next := fun (d : List RowRecord) =>
      ({ state := if x.rowsReceived + 1 = x.height then .full else x.state, width := x.width, height := x.height,
         pagesPerRow := x.pagesPerRow, rowsReceived := x.rowsReceived + 1, directory := d } : Slot)
    let pages := s.store.freePages.take x.pagesPerRow
    let s1 := s.taken l rest
    let s2 := { s1 with store :=
      { s.store.setSlot n (next (x.directory ++ [(⟨r, u, pages⟩ : RowRecord)])) with
        freePages := s.store.freePages.drop x.pagesPerRow
        memory := Memory.writeRow s.store.memory pages (readTones count data) } }
    let s3 := if 2048 ≤ free ∧ free - x.pagesPerRow < 2048 then s2.raise .storelow else s2
    exec (.row l) s = .next (
      if 16 ≤ n then s.answered l rest (reply .range free 0 0)
      else if x.state ≠ .opened then s.answered l rest (reply .state free 0 x.rowsReceived)
      else if x.height ≤ r ∨ count ≠ x.width ∨ data.length ≠ (count + 3) / 4 then
        s.answered l rest (reply .range free 0 x.rowsReceived)
      else if r ≠ x.rowsReceived then s.answered l rest (reply .sequence free 0 x.rowsReceived)
      else if u ≠ 0 ∧ free < x.pagesPerRow then s.answered l rest (reply .room free u x.rowsReceived)
      else if u = 0 then
        { s with store := s.store.setSlot n (next x.directory) }.answered l rest
          (reply .accepted free 0 (x.rowsReceived + 1))
      else s3.queueReply l (reply .accepted (free - x.pagesPerRow) u (x.rowsReceived + 1)))

/-- R36, R45, R173: writing a row in distinct pages of a canonical memory: tone x of the payload, first tone of a word in
its bits 31-24, reads back at position x mod 256 of page x div 256 taken; positions past the last tone read 0; every byte
of every other page reads as before; the memory stays canonical. -/
def Obligations.RowTonesAreWrittenInTheirPages : Prop :=
  ∀ (m : List Host.Cell) (pages : List Page) (count : Nat) (data : List Word),
    Memory.wf m → pages.Nodup → data.length = (count + 3) / 4 →
    let m' := Memory.writeRow m pages (readTones count data)
    Memory.wf m' ∧
    (∀ x (h : x / 256 < pages.length), Memory.read m' (pages[x / 256].val * 256 + x % 256) =
      if x < count then BitVec.ofNat 8 (bits (word data (x / 4)) (31 - 8 * (x % 4)) (24 - 8 * (x % 4))) else 0) ∧
    ∀ a, (∀ p ∈ pages, a < p.val * 256 ∨ p.val * 256 + 256 ≤ a) → Memory.read m' a = Memory.read m a

/-! ### PLACE -/

/-- R59 to R62, R73: enabling, coverage, span and around distance of a window whose cells lie below N, and when two windows
overlap. -/
def Obligations.CoverageSpanAndOverlap : Prop :=
  ∀ (N : Nat) (w : Window), w.firstCell < N → w.lastCell < N →
    (w.enabled = true ↔ w.firstTrack ≤ w.lastTrack) ∧
    (∀ c, c < N → (w.coversCell c = true ↔
      if w.firstCell ≤ w.lastCell then w.firstCell ≤ c ∧ c ≤ w.lastCell else w.firstCell ≤ c ∨ c ≤ w.lastCell)) ∧
    (w.span N = if w.firstCell ≤ w.lastCell then w.lastCell - w.firstCell + 1 else N - w.firstCell + w.lastCell + 1) ∧
    (List.range N).countP w.coversCell = w.span N ∧
    (∀ c, c < N → w.coversCell c = true →
      w.aroundDistance N c < w.span N ∧ (w.firstCell + w.aroundDistance N c) % N = c) ∧
    ∀ v : Window, v.firstCell < N → v.lastCell < N → w.enabled = true → v.enabled = true →
      (w.overlaps N v = true ↔ ∃ g c, c < N ∧ w.covers g c = true ∧ v.covers g c = true)

/-- R67 to R75: WSET in PREPARED: its six checks in order, a disabled entry by checks 1 and 3 alone, and the entry stored. -/
def Obligations.WsetStoresTheEntryOrRefuses : Prop :=
  ∀ (s : State) (l : Link) (tag : Byte) (w1 e0 e1 e2 e3 : Word) (rest : List InFrame),
    s.offers l (requestFrame tag .wset [w1, e0, e1, e2, e3]) rest → s.holdsZone l .place = true →
    s.run.jobState = .prepared →
    let n := w1.toNat
    let N := s.run.header.cellsPerRev
    let B := s.run.header.tracksPerBand
    let code := bits e2 31 24
    let w : Window :=
      { firstTrack := bits e0 31 16, lastTrack := bits e0 15 0, firstCell := bits e1 31 16, lastCell := bits e1 15 0
        kind := if code = 0 then .image else if code = 1 then .mark else .keepout
        source := bits e2 23 16, table := bits e2 15 8, rowOffset := bits e3 31 16, cellOffset := bits e3 15 0 }
    let x := s.store.slot w.source
    let old := s.window n
    let refused := fun cc => s.answered l rest (requestReply tag .wset cc [])
    exec (.wset l) s = .next (
      if 32 ≤ n ∨ 2 < code ∨ N ≤ w.firstCell ∨ N ≤ w.lastCell ∨ 16383 < w.cellOffset ∨
          (w.kind = .image ∧ (15 < w.source ∨ 15 < w.table)) ∨ (w.kind = .mark ∧ 7 < w.source) then refused .range
      else if w.firstTrack ≤ w.lastTrack ∧ ((List.range (w.lastTrack + 1)).any fun g =>
          decide (w.firstTrack ≤ g) && (decide (4 * B ≤ g) || !s.run.header.headMask.getLsbD (g / B))) = true then
        refused .range
      else if (old.firstTrack ≤ old.lastTrack ∧ old.kind = .image ∧ 0 < (s.store.slot old.source).rowsReceived) ∨
          (w.firstTrack ≤ w.lastTrack ∧ w.kind = .image ∧ 0 < x.rowsReceived) then refused .referenced
      else if w.firstTrack ≤ w.lastTrack ∧
          ((w.kind = .image ∧ (x.state = .empty ∨ (s.tables.tone w.table).valid = false)) ∨
            (w.kind = .mark ∧ (s.tables.pattern w.source).valid = false)) then refused .state
      else if w.firstTrack ≤ w.lastTrack ∧ w.kind = .image ∧
          (x.height ≤ w.rowOffset + (w.lastTrack - w.firstTrack) ∨ x.width < w.cellOffset + w.span N) then refused .range
      else if w.firstTrack ≤ w.lastTrack ∧ w.kind ≠ .keepout ∧ ((List.range 32).any fun i =>
          decide (i ≠ n) && decide ((s.window i).firstTrack ≤ (s.window i).lastTrack) &&
            decide ((s.window i).kind ≠ .keepout) && w.overlaps N (s.window i)) = true then refused .conflict
      else { s with place := s.place.setIfInBounds n w }.answered l rest (requestReply tag .wset .accepted []))

/-- R78, R94, R175: WREAD returns a window with its span and flags, and TREAD a tone table or a mark pattern; a number out
of range, or a kind that is neither, is answered RANGE; nothing changes. 11.4: the codes of window kinds. R173, 11.5: 16-bit
values go two to a word, the first in bits 31-16, and an odd last one is padded with 0. -/
def Obligations.WreadAndTreadReturnTheirEntry : Prop :=
  ([WindowKind.image, .mark, .keepout].map WindowKind.code = [0, 1, 2]) ∧
  (∀ vs : List Nat, (packHalves vs).length = (vs.length + 1) / 2 ∧ ∀ k, k < (packHalves vs).length →
    (word (packHalves vs) k).toNat = vs.getD (2 * k) 0 % 65536 * 65536 + vs.getD (2 * k + 1) 0 % 65536) ∧
  ∀ (s : State) (l : Link) (tag : Byte) (w1 w2 : Word) (rest : List InFrame), s.headerSound →
    let w := s.window w1.toNat
    let N := s.run.header.cellsPerRev
    let enabled := decide (w.firstTrack ≤ w.lastTrack)
    let wraps := decide (w.lastCell < w.firstCell)
    let span := if w.firstCell ≤ w.lastCell then w.lastCell - w.firstCell + 1 else N - w.firstCell + w.lastCell + 1
    let x := s.tables.tone w2.toNat
    let m := s.tables.pattern w2.toNat
    (s.offers l (requestFrame tag .wread [w1]) rest →
      exec (.wread l) s = .next (s.answered l rest (
        if w1.toNat < 32 then requestReply tag .wread .accepted
          [w1, put 31 16 w.firstTrack ||| put 15 0 w.lastTrack, put 31 16 w.firstCell ||| put 15 0 w.lastCell,
           put 31 24 w.kind.code ||| put 23 16 w.source ||| put 15 8 w.table,
           put 31 16 w.rowOffset ||| put 15 0 w.cellOffset,
           put 31 16 (if enabled then span else 0) ||| put 1 1 (enabled && wraps).toNat ||| put 0 0 enabled.toNat]
        else requestReply tag .wread .range []))) ∧
    (s.offers l (requestFrame tag .tread [w1, w2]) rest →
      exec (.tread l) s = .next (s.answered l rest (
        if w1 = 0 ∧ w2.toNat < 16 then requestReply tag .tread .accepted (put 0 0 x.valid.toNat :: packHalves x.entries)
        else if w1 = 1 ∧ w2.toNat < 8 then requestReply tag .tread .accepted
          ([put 0 0 m.valid.toNat, put 31 24 m.width ||| put 23 16 m.height ||| put 15 0 m.depth] ++
            packHalves (m.map.map BitVec.toNat))
        else requestReply tag .tread .range [])))

/-! ### TABLES -/

/-- R82, R89: TLOAD, its zone held and not locked: its checks in order; an accepted one takes effect and is answered at
once with no build in flight, and joins the write queue unanswered with one. -/
def Obligations.TloadReplacesATable : Prop :=
  ∀ (s : State) (l : Link) (tag : Byte) (w1 : Word) (data : List Word) (rest : List InFrame),
    s.offers l (requestFrame tag .tload (w1 :: data)) rest → s.holdsZone l .tone = true → s.lockPasses .tload = true →
    let entries := data.flatMap fun w => [bits w 31 16, bits w 15 0]
    let n := w1.toNat
    (16 ≤ n ∨ entries.length ≠ 256 ∨ (∃ e ∈ entries, 1023 < e) ∨ entries.head? ≠ some 0 →
      exec (.tload l) s = .next (s.answered l rest (requestReply tag .tload .range []))) ∧
    ∀ k : Fin 16, n = k.val → entries.length = 256 → (∀ e ∈ entries, e ≤ 1023) → entries.head? = some 0 →
      (s.build.inFlight = none → exec (.tload l) s = .next ({ s with tables :=
        { s.tables with tones := s.tables.tones.set k.val ⟨entries, true⟩ } }.answered l rest
          (requestReply tag .tload .accepted []))) ∧
      (s.build.inFlight ≠ none → exec (.tload l) s = .next { s.taken l rest with tables :=
        { s.tables with writeQueue := s.tables.writeQueue ++ [⟨l, tag, .tone k entries⟩] } })

/-- R84, R89: MLOAD, its zone held and not locked: its checks in order, the entries outside width and height stored off,
and its taking effect at once or its joining the write queue. -/
def Obligations.MloadReplacesAPattern : Prop :=
  ∀ (s : State) (l : Link) (tag : Byte) (w1 w2 : Word) (data : List Word) (rest : List InFrame),
    s.offers l (requestFrame tag .mload (w1 :: w2 :: data)) rest → s.holdsZone l .mark = true →
    s.lockPasses .mload = true →
    let width := bits w2 31 24
    let height := bits w2 23 16
    let depth := bits w2 15 0
    let n := w1.toNat
    (8 ≤ n ∨ width = 0 ∨ 16 < width ∨ height = 0 ∨ 16 < height ∨ depth = 0 ∨ 1023 < depth ∨ data.length ≠ 8 →
      exec (.mload l) s = .next (s.answered l rest (requestReply tag .mload .range []))) ∧
    ∀ k : Fin 8, n = k.val → 1 ≤ width ∧ width ≤ 16 → 1 ≤ height ∧ height ≤ 16 → 1 ≤ depth ∧ depth ≤ 1023 →
      data.length = 8 →
      ∃ m : MarkPattern, m.width = width ∧ m.height = height ∧ m.depth = depth ∧ m.valid = true ∧ m.map.length = 16 ∧
        (∀ r c, r < 16 → c < 16 → (m.isOn r c = true ↔ r < height ∧ c < width ∧
          (word data (r / 2)).getLsbD (if r % 2 = 0 then 31 - c else 15 - c) = true)) ∧
        (s.build.inFlight = none → exec (.mload l) s = .next ({ s with tables :=
          { s.tables with patterns := s.tables.patterns.set k.val m } }.answered l rest
            (requestReply tag .mload .accepted []))) ∧
        (s.build.inFlight ≠ none → exec (.mload l) s = .next { s.taken l rest with tables :=
          { s.tables with writeQueue := s.tables.writeQueue ++ [⟨l, tag, .pattern k m⟩] } })

/-- R86, R89, R130: HTRIM, its zone held and not locked: its checks in order, the record replaced and with clear_count the
channel's cells_cut set to 0, at once or by the write queue. -/
def Obligations.HtrimReplacesATrim : Prop :=
  ∀ (s : State) (l : Link) (tag : Byte) (w1 t0 t1 t2 t3 : Word) (rest : List InFrame),
    s.offers l (requestFrame tag .htrim [w1, t0, t1, t2, t3]) rest → s.holdsZone l .trim = true →
    s.lockPasses .htrim = true →
    let r : Trim := { gain := bits t0 31 16, offset := (t0.setWidth 16).toInt, clamp := bits t1 31 16
                      wearLimit := bits t2 15 0 * 2 ^ 32 + t3.toNat }
    let clear := t1.getLsbD 0
    let n := w1.toNat
    (4 ≤ n ∨ r.gain < 500 ∨ 1500 < r.gain ∨ r.offset < -128 ∨ 127 < r.offset ∨ r.clamp = 0 ∨ 1023 < r.clamp →
      exec (.htrim l) s = .next (s.answered l rest (requestReply tag .htrim .range []))) ∧
    ∀ k : Head, n = k.val → 500 ≤ r.gain ∧ r.gain ≤ 1500 → -128 ≤ r.offset ∧ r.offset ≤ 127 →
      1 ≤ r.clamp ∧ r.clamp ≤ 1023 →
      let s1 := { s with tables := { s.tables with trims := s.tables.trims.set k.val r } }
      (s.build.inFlight = none → exec (.htrim l) s = .next ((if clear then
          s1.setChan k { s.chan k with cellsCut := 0 } else s1).answered l rest (requestReply tag .htrim .accepted []))) ∧
      (s.build.inFlight ≠ none → exec (.htrim l) s = .next { s.taken l rest with tables :=
        { s.tables with writeQueue := s.tables.writeQueue ++ [⟨l, tag, .trim k r clear⟩] } })

/-- R90: the waiting writes take effect whole, oldest first, their replies join their links' queues in that order, their
links are READY again, and the write queue is empty. -/
def Obligations.WaitingWritesTakeEffectInOrder : Prop :=
  ∀ s : State,
    let t := s.finishWrites
    { t with tables := s.tables, heads := s.heads, pLink := s.pLink, sLink := s.sLink } = s ∧
    t.tables = { s.writesApplied.tables with writeQueue := [] } ∧ t.heads = s.writesApplied.heads ∧
    ∀ l, t.port l = { s.port l with
      handling := if 0 < s.waitingWrites l then .ready else (s.port l).handling
      out := (s.port l).out ++ (s.tables.writeQueue.filter fun q => q.link == l).map fun q =>
        .reply ⟨.request, q.tag, match q.write with
                                 | .tone .. => 0x40
                                 | .pattern .. => 0x42
                                 | .trim .. => 0x50, .accepted, []⟩ }

/-- R87: the trim function: depth 0 gives 0; any other depth its scaled value raised to 1 and lowered to the clamp; so a
drive value never exceeds the clamp, is 0 for depth 0 only, and the scaled value is at most 1,661. -/
def Obligations.TrimFunctionGivesTheDriveValue : Prop :=
  ∀ (r : Trim) (d : Nat), r.sound → d ≤ 1023 →
    (d = 0 → r.drive d = 0) ∧
    (d ≠ 0 → ∀ v : Int, v = ((d * r.gain / 1000 : Nat) : Int) + r.offset →
      (v < 1 → r.drive d = 1) ∧ ((r.clamp : Int) < v → r.drive d = r.clamp) ∧
      (1 ≤ v → v ≤ r.clamp → (r.drive d : Int) = v) ∧ v ≤ 1661) ∧
    r.drive d ≤ r.clamp ∧ r.drive d ≤ 1023 ∧ (r.drive d = 0 ↔ d = 0)

/-! ### BUILD -/

/-- R98, R100, R101: a choice takes the first eligible head after the one last served, and its build is fixed from the
state as it stands; with none eligible nothing changes. That the build record holds all its cells from the choice on, which
the part computes until the completion, is the model's reading (log 12). -/
def Obligations.BuildChoiceTakesTheNextEligibleHead : Prop :=
  (∀ (s : State) (h : Head), s.eligible h = true ↔
    s.used h = true ∧ (s.chan h).queue.length < 4 ∧ s.build.nextTrack[h.val] < s.run.header.tracksPerBand ∧
    ∀ e ∈ s.rowList (h.val * s.run.header.tracksPerBand + s.build.nextTrack[h.val]),
      e.2 < (s.store.slot e.1).rowsReceived) ∧
  (∀ (s : State) (g : Nat), s.rowList g = s.place.toList.filterMap fun w =>
    if w.firstTrack ≤ g ∧ g ≤ w.lastTrack ∧ w.kind = .image then some (w.source, g - w.firstTrack + w.rowOffset)
    else none) ∧
  ∀ s : State, s.build.inFlight = none → s.tables.writeQueue = [] → s.run.jobState.onCopper = true →
    (∀ h : Head, s.eligible h = true →
      (∀ k : Head, (k - s.build.lastServed - 1).val < (h - s.build.lastServed - 1).val → s.eligible k = false) →
      let p := s.build.nextTrack[h.val]
      let g := h.val * s.run.header.tracksPerBand + p
      exec .buildChoice s = .next { s with build := { s.build with
        lastServed := h
        inFlight := some { head := h, localTrack := p, globalTrack := g
                           phase := decide (s.run.header.shiftMode = 1 ∧ g % 2 = 1), rowList := s.rowList g
                           cells := (List.range s.run.header.cellsPerRev).map (s.resolveCell h g) } } }) ∧
    ((∀ h, s.eligible h = false) → exec .buildChoice s = .next s)

/-- R103, R104: a completion joins the line to its head's queue, advances the pointer, takes the uses of its row list, and
lets the waiting writes take effect. R41, R50, R51: a decrement takes one use from the record of its row: a record with
more uses keeps its pages, the last use removes the record and its pages join the tail of the free-page list. That a row
without a record changes nothing is the model's answer in a state no run reaches (log 18). -/
def Obligations.BuildCompletionQueuesTheLine : Prop :=
  (∀ (s : State) (b : BuildRecord), s.build.inFlight = some b →
     let line : Line := { head := b.head, localTrack := b.localTrack, globalTrack := b.globalTrack, phase := b.phase
                          cellCount := b.cells.length, driveValues := b.cells
                          nonzeroCells := b.cells.countP fun v => decide (v ≠ 0) }
     exec .buildCompletion s = .next (({ s with
       heads := s.heads.set b.head.val { s.chan b.head with queue := (s.chan b.head).queue ++ [line] }
       build := { s.build with
         nextTrack := s.build.nextTrack.set b.head.val (s.build.nextTrack[b.head.val] + 1), inFlight := none }
       store := b.rowList.foldl (fun st e => st.decrement e) s.store }).finishWrites)) ∧
  ((∀ (st : Store) (n row : Nat) (before after : List RowRecord) (r : RowRecord), n < 16 →
     (st.slot n).directory = before ++ r :: after → r.rowIndex = row → (∀ x ∈ before, x.rowIndex ≠ row) →
     st.decrement (n, row) =
       if r.useCount ≤ 1 then
         { st.setSlot n { st.slot n with directory := before ++ after } with freePages := st.freePages ++ r.pages }
       else st.setSlot n { st.slot n with directory := before ++ { r with useCount := r.useCount - 1 } :: after }) ∧
   ∀ (st : Store) (n row : Nat), (∀ x ∈ (st.slot n).directory, x.rowIndex ≠ row) → st.decrement (n, row) = st)

/-- R57, R63 to R65, R88: how a cell resolves, where no two enabled IMAGE or MARK windows share a cell: KEEPOUT prevails and
gives 0; an IMAGE window gives its tone through its tone table and the head's trim; a MARK window its pattern's depth
through the trim; no window gives 0. -/
def Obligations.CellsResolveByTheirWindow : Prop :=
  ∀ (s : State) (h : Head) (g c : Nat), s.windowsDisjoint → c < s.run.header.cellsPerRev →
    let N := s.run.header.cellsPerRev
    ((∃ i, (s.window i).kind = .keepout ∧ (s.window i).covers g c = true) → s.resolveCell h g c = 0) ∧
    (∀ i, (∀ j, (s.window j).kind = .keepout → (s.window j).covers g c = false) →
      let w := s.window i
      let around := (c + N - w.firstCell) % N + w.cellOffset
      let row := g - w.firstTrack + w.rowOffset
      w.covers g c = true →
      (w.kind = .image → s.resolveCell h g c =
        (s.trim h).drive ((s.tables.tone w.table).entries.getD (s.toneAt w.source row around).toNat 0)) ∧
      (w.kind = .mark → s.resolveCell h g c =
        let m := s.tables.pattern w.source
        if m.isOn (row % m.height) (around % m.width) then (s.trim h).drive m.depth else 0)) ∧
    ((∀ i, (s.window i).covers g c = false) → s.resolveCell h g c = 0) ∧
    ∀ (n : Nat) (before after : List RowRecord) (d : RowRecord) (x : Nat) (p : Page),
      (s.store.slot n).directory = before ++ d :: after → (∀ e ∈ before, e.rowIndex ≠ d.rowIndex) →
      d.pages[x / 256]? = some p → s.toneAt n d.rowIndex x = Memory.read s.store.memory (p.val * 256 + x % 256)

/-! ### Head channels -/

/-- R116, R124: an entry to FAULTED records cause and track, lifts, raises HFAULTn and reports to RUN where the head is used,
the job LOWERING or RUNNING and the cause not SHORT; an entry to LIFTING faults or parks at once by the levels. R115, R127:
the levels of HLOWERn and HLIFTn by the channel's state, low at an unfitted channel; HDATAn carries the phase flag and the
drive values of the line at the head of the queue while a transfer is under way, which a cut command begins; that a channel
entering LIFTING ends it is the model's choice (log 14). R113: which channels are fitted. -/
def Obligations.ChannelEntriesAndOutputs : Prop :=
  (∀ (s : State) (h : Head),
     (∀ cause : Cause,
       let s1 := (s.setChan h { s.chan h with state := .faulted, faultCause := cause, faultTrack := s.run.t
                                              transferring := false }).raise (.hfault h)
       s.enterFaulted h cause = if s.used h = true ∧ (s.run.jobState = .lowering ∨ s.run.jobState = .running) ∧
           cause ≠ .short then { s1 with run := { s1.run with reports := s1.run.reports ++ [⟨h, cause⟩] } } else s1) ∧
     let lifting := { s.chan h with state := .lifting, timeoutCount := 0, transferring := false }
     s.enterLifting h =
       if (s.pin h).hflt then (s.setChan h lifting).enterFaulted h .drive
       else s.setChan h { lifting with state := if (s.pin h).hup then .parked else .lifting }) ∧
  (∀ (s : State) (h : Head), (s.fitted h = true ↔ h.val < s.straps.toNat + 1) ∧
     (s.hlower h = true ↔ s.fitted h = true ∧ ((s.chan h).state = .lowering ∨ (s.chan h).state = .down)) ∧
     (s.hlift h = true ↔ s.fitted h = true ∧ ((s.chan h).state = .lifting ∨ (s.chan h).state = .faulted)) ∧
     (∀ x rest, (s.chan h).queue = x :: rest →
       s.hdata h = if (s.chan h).transferring then some (x.phase, x.driveValues) else none) ∧
     ∀ c : Channel, c.cut = { c with inCut := true, taken := false, transferring := decide (c.state = .down) })

/-- R118, R120, R122, R123, R128: the rise of HDOWNn, HUPn, HFLTn and HTAKENn and both edges of HPRESn at a channel, by its
state; the other falls are no events; an unfitted channel does not look (R113). That a rise is the event whatever level was
held, and a fall moves the level, is the model's choice (log 3); so is the end of the line transfer at the line-taken report
(log 14). -/
def Obligations.InputEdgesMoveTheChannel : Prop :=
  (∀ (s : State) (h : Head),
     let c := s.chan h
     let down := s.setPin h { s.pin h with hdown := true }
     let up := s.setPin h { s.pin h with hup := true }
     exec (.downAck h .rise) s = .next (
       if s.fitted h = true ∧ c.state = .lowering then down.setChan h { c with state := .down }
       else if s.fitted h = true ∧ c.state = .parked then down.enterFaulted h .dropped
       else down) ∧
     exec (.upAck h .rise) s = .next (
       if s.fitted h = true ∧ c.state = .lifting then up.setChan h { c with state := .parked }
       else if s.fitted h = true ∧ c.state = .down then up.enterFaulted h .lifted
       else up) ∧
     exec (.downAck h .fall) s = .next (s.setPin h { s.pin h with hdown := false }) ∧
     exec (.upAck h .fall) s = .next (s.setPin h { s.pin h with hup := false })) ∧
  (∀ (s : State) (h : Head),
     let c := s.chan h
     let gained := s.setPin h { s.pin h with hpres := true }
     let lost := s.setPin h { s.pin h with hpres := false }
     exec (.presenceGained h) s = .next (
       if s.fitted h = true ∧ c.state = .absent then gained.enterLifting h else gained) ∧
     exec (.presenceLost h) s = .next (
       if s.fitted h = true ∧ c.state = .parked then lost.setChan h { c with state := .absent }
       else if s.fitted h = true ∧ (c.state = .lowering ∨ c.state = .down ∨ c.state = .lifting) then
         lost.enterFaulted h .presence
       else lost)) ∧
  (∀ (s : State) (h : Head),
     let c := s.chan h
     let fault := s.setPin h { s.pin h with hflt := true }
     let taken := s.setPin h { s.pin h with htaken := true }
     exec (.driveFault h .rise) s = .next (
       if s.fitted h = true ∧ (c.state = .parked ∨ c.state = .lowering ∨ c.state = .down ∨ c.state = .lifting) then
         fault.enterFaulted h .drive
       else fault) ∧
     exec (.lineTakenReport h .rise) s = .next (
       if s.fitted h = true ∧ c.state = .down ∧ c.inCut = true ∧ c.taken = false then
         taken.setChan h { c with taken := true, transferring := false }
       else taken) ∧
     exec (.driveFault h .fall) s = .next (s.setPin h { s.pin h with hflt := false }) ∧
     exec (.lineTakenReport h .fall) s = .next (s.setPin h { s.pin h with htaken := false }))

/-- R121: an Index event at a fitted channel LOWERING or LIFTING, its count below 8, counts; the eighth faults it with
LOWER_TIMEOUT or LIFT_TIMEOUT; in any other case nothing changes. That the commands of those names are that eighth Index
event itself is the model's reading (log 6). -/
def Obligations.IndexCountsTowardsTheTimeout : Prop :=
  ∀ (s : State) (h : Head), (s.chan h).timeoutCount < 8 →
    let c := s.chan h
    let counted := s.setChan h { c with timeoutCount := c.timeoutCount + 1 }
    (s.fitted h = true → c.state = .lowering ∨ c.state = .lifting → c.timeoutCount < 7 →
      exec (.indexAtChannel h) s = .next counted) ∧
    (s.fitted h = true → c.state = .lowering → c.timeoutCount = 7 →
      exec (.indexAtChannel h) s = .next (counted.enterFaulted h .lowerTimeout) ∧
      exec (.lowerTimeout h) s = .next (counted.enterFaulted h .lowerTimeout)) ∧
    (s.fitted h = true → c.state = .lifting → c.timeoutCount = 7 →
      exec (.indexAtChannel h) s = .next (counted.enterFaulted h .liftTimeout) ∧
      exec (.liftTimeout h) s = .next (counted.enterFaulted h .liftTimeout)) ∧
    (s.fitted h = false ∨ (c.state ≠ .lowering ∧ c.state ≠ .lifting) → exec (.indexAtChannel h) s = .next s)

/-- R132: HRESET, its zone held and not locked: its checks in order; an accepted one clears the fault and lifts a present
head, with the entry check, or makes the channel ABSENT. -/
def Obligations.HresetClearsTheFault : Prop :=
  ∀ (s : State) (l : Link) (tag : Byte) (w1 : Word) (rest : List InFrame),
    s.offers l (requestFrame tag .hreset [w1]) rest → s.holdsZone l .trim = true → s.lockPasses .hreset = true →
    (4 ≤ w1.toNat → exec (.hreset l) s = .next (s.answered l rest (requestReply tag .hreset .range []))) ∧
    ∀ h : Head, w1.toNat = h.val →
      let c := { s.chan h with faultCause := .none, faultTrack := 0 }
      ((s.chan h).state ≠ .faulted →
        exec (.hreset l) s = .next (s.answered l rest (requestReply tag .hreset .state []))) ∧
      ((s.chan h).state = .faulted → (s.pin h).hpres = false → exec (.hreset l) s = .next (
        (s.setChan h { c with state := .absent }).answered l rest (requestReply tag .hreset .accepted []))) ∧
      ((s.chan h).state = .faulted → (s.pin h).hpres = true → exec (.hreset l) s = .next (
        (((s.taken l rest).setChan h c).enterLifting h).queueReply l (requestReply tag .hreset .accepted [])))

/-! ### The revolution -/

/-- R137: an Index event that RUN takes in NONE, PREPARED, HELD, DONE or ABORTED changes nothing. -/
def Obligations.IndexOutsideTheRunChangesNothing : Prop :=
  ∀ s : State, s.run.jobState ∈ [JobState.none, .prepared, .held, .done, .aborted] → exec .indexEvent s = .next s

/-- R22, R27, R125, R131, R138 to R142, R145, R151: an Index event in LOWERING counts settle or sets it to 0, and the count that
reaches settle_count makes the job RUNNING and goes on to the readiness step (SETTLE_COMPLETE); in RUNNING out of phase CUT
it is the readiness step (with the slip that reaches the hold limit, HOLD_LIMIT); in phase CUT a track not taken is retired
as damaged after the short commands, and any other is retired: the retire command, wear, one STEP pulse, the markers of t,
the advance of t, and then DONE at B, the pending hold, or the readiness step. That SETTLE_COMPLETE and HOLD_LIMIT are the Index
event itself is the model's reading (log 6); the ascending order of heads in the raises of HFAULTn and WEAR is its choice
(log 8), as is the count of STEP pulses (log 16). -/
def Obligations.IndexDrivesTheRun : Prop :=
  (∀ s : State, s.run.jobState = .lowering →
     let n := s.run.settleCounter + 1
     let down := ∀ h, s.used h = true → (s.chan h).state = .down
     let running := { s with run := { s.run with settleCounter := n, jobState := .running, holdCounter := 0 } }
     (¬ down → exec .indexEvent s = .next { s with run := { s.run with settleCounter := 0 } }) ∧
     (down → n ≠ s.run.header.settleCount →
       exec .indexEvent s = .next { s with run := { s.run with settleCounter := n } }) ∧
     (down → n = s.run.header.settleCount →
       exec .indexEvent s = .next running.readiness ∧ exec .settleComplete s = .next running.readiness)) ∧
  (∀ s : State, s.run.jobState = .running → s.run.phase ≠ .cut →
     exec .indexEvent s = .next s.readiness ∧
     (s.run.phase = .slip →
       (∃ h, s.used h = true ∧ ∀ x rest, (s.chan h).queue = x :: rest → x.localTrack ≠ s.run.t) →
       s.run.header.holdSteps * (if s.run.header.holdUnit = 0 then 16 else 64) ≠ 0 → min 65535 (s.run.holdCounter + 1) =
         s.run.header.holdSteps * (if s.run.header.holdUnit = 0 then 16 else 64) →
       exec .holdLimit s = .next s.readiness)) ∧
  (∀ s : State, s.run.jobState = .running → s.run.phase = .cut →
     let short := s.usedHeads.filter fun h => !(s.chan h).taken
     let retired := s.mapChans fun h c => if s.used h then
         { c with queue := c.queue.tail, linesCut := min 4294967295 (c.linesCut + 1)
                  cellsCut := min 281474976710655 (c.cellsCut + ((c.queue.head?.map Line.nonzeroCells).getD 0))
                  inCut := false, taken := false, transferring := false }
       else c
     let worn := s.usedHeads.foldl (fun (x : State) h => if (s.trim h).wearLimit ≠ 0 ∧
         (s.trim h).wearLimit ≤ (retired.chan h).cellsCut then x.raise .wear else x) retired
     let marks := (s.run.markers.takeWhile fun m => m.track == s.run.t).map fun m => StatusBit.mark m.bit
     let fired := ({ worn with
         stepPulses := s.stepPulses + 1
         run := { s.run with markers := s.run.markers.dropWhile fun m => m.track == s.run.t } }).raiseAll marks
     let next := { fired with run := { fired.run with t := s.run.t + 1, retiredTracks := s.run.retiredTracks + 1 } }
     (short ≠ [] → exec .indexEvent s = .next
       ((short.foldl (fun x h => if (x.chan h).state = .down then x.enterFaulted h .short else x) s).retireDamaged .short
         (headMaskOf short))) ∧
     (short = [] → exec .indexEvent s = .next (
       if s.run.t + 1 = s.run.header.tracksPerBand then next.enterDone
       else if s.run.pendingHold = true then next.enterHeld .request
       else next.readiness)))

/-- R127, R143, R144, R27: the readiness step: with the line for t at the head of every used queue a cut starts; otherwise
the carriage slips, and holds the job STARVED where the hold counter reaches a hold limit that is not 0. -/
def Obligations.ReadinessCutsOrSlips : Prop :=
  ∀ s : State,
    let ready := ∀ h, s.used h = true → ∃ x rest, (s.chan h).queue = x :: rest ∧ x.localTrack = s.run.t
    let count := min 65535 (s.run.holdCounter + 1)
    let limit := s.run.header.holdSteps * (if s.run.header.holdUnit = 0 then 16 else 64)
    let slipped := { s with run := { s.run with phase := .slip, holdCounter := count
                                                totalSlips := min 4294967295 (s.run.totalSlips + 1) } }.raise .slip
    (ready → s.readiness = ({ s with run := { s.run with phase := .cut, holdCounter := 0 } }).mapChans fun h c =>
      if s.used h then { c with inCut := true, taken := false, transferring := decide (c.state = HeadState.down) } else c) ∧
    (¬ ready → limit = 0 ∨ count ≠ limit → s.readiness = slipped) ∧
    (¬ ready → limit ≠ 0 → count = limit → s.readiness = slipped.enterHeld .starved)

/-- R30, R31, R146: the track in cut retired as damaged: with room in the list, the record, the damage command, DAMAGE, one
STEP pulse, the markers of t, the advance of t, then DONE or HELD; with none, the damage command and DAMAGE, and the job is
ABORTED. R26: RUN takes a report of a used head: in LOWERING it holds the job, in phase CUT it retires the track as damaged
with the report's cause, out of it it holds the job; in any other state, or of a head not used, no effect. R147: once a track
has been retired as damaged, no report of any head adds a record. Which report of a head is taken, its oldest, is the model's
reading (log 7), and the count of STEP pulses its choice (log 16). 11.4: a head mask has bit n for head n. -/
def Obligations.DamagedRetirementAndFaultReports : Prop :=
  (∀ (s : State) (h : Head), s.used h = s.run.header.headMask.getLsbD h.val ∧
    (headMaskOf s.usedHeads).getLsbD h.val = s.used h ∧
    ∀ hs : List Head, (headMaskOf hs).getLsbD h.val = true ↔ h ∈ hs) ∧
  (∀ (s : State) (cause : Cause) (heads : BitVec 4),
     let removed := fun (x : State) => (x.mapChans fun h c => if s.used h then
         { c with queue := c.queue.tail, damagedLines := min 4294967295 (c.damagedLines + 1)
                  inCut := false, taken := false, transferring := false }
       else c).raise .damage
     let marks := (s.run.markers.takeWhile fun m => m.track == s.run.t).map fun m => StatusBit.mark m.bit
     let s1 := removed { s with run := { s.run with
       damage := s.run.damage ++ [⟨s.run.t, headMaskOf s.usedHeads, cause, heads⟩] } }
     let s2 := ({ s1 with
       stepPulses := s.stepPulses + 1
       run := { s1.run with markers := s.run.markers.dropWhile fun m => m.track == s.run.t } }).raiseAll marks
     let s3 := { s2 with run := { s2.run with t := s.run.t + 1, retiredTracks := s.run.retiredTracks + 1 } }
     s.retireDamaged cause heads =
       if s.run.damage.length < 8 then
         if s.run.t + 1 = s.run.header.tracksPerBand then s3.enterDone else s3.enterHeld .fault
       else (removed s).enterAborted) ∧
  (∀ (s : State) (before after : List FaultReport) (r : FaultReport),
     s.run.reports = before ++ r :: after → (∀ x ∈ before, x.head ≠ r.head) →
     let s1 := { s with run := { s.run with reports := before ++ after } }
     exec (.faultReport r.head) s = .next (
       if s.used r.head = true ∧ s.run.jobState = .running ∧ s.run.phase = .cut then
         s1.retireDamaged r.cause (BitVec.ofNat 4 (2 ^ r.head.val))
       else if s.used r.head = true ∧ (s.run.jobState = .lowering ∨ s.run.jobState = .running) then
         s1.enterHeld .fault
       else s1)) ∧
  ∀ (s : State) (cause : Cause) (heads : BitVec 4) (h : Head),
    exec (.faultReport h) (s.retireDamaged cause heads) = .next (s.retireDamaged cause heads)

/-- R149, R150: a MARKER that has passed dispatch: its checks in order; a passed one raises its bit at once, an accepted one
goes after every entry whose track is at or below its own; the reply carries the number of entries. -/
def Obligations.MarkerIsInsertedOrPassed : Prop :=
  ∀ (s : State) (l : Link) (tag : Byte) (w : Word) (rest : List InFrame),
    s.offers l ⟨.marker, tag, [w]⟩ rest → s.holdsZone l .place = true → s.run.jobState.isOpen = true →
    let bit := bits w 31 24
    let track := bits w 15 0
    let ms := s.run.markers
    let reply := fun (cc : CC) (n : Nat) => (⟨.marker, tag, 0, cc, [put 31 0 n]⟩ : Reply)
    (4 ≤ bit ∨ s.run.header.tracksPerBand ≤ track →
      exec (.marker l) s = .next (s.answered l rest (reply .range ms.length))) ∧
    ∀ b : Fin 4, bit = b.val → track < s.run.header.tracksPerBand →
      (track < s.run.t → exec (.marker l) s =
        .next (((s.taken l rest).raise (.mark b)).queueReply l (reply .passed ms.length))) ∧
      (s.run.t ≤ track → 16 ≤ ms.length → exec (.marker l) s = .next (s.answered l rest (reply .room ms.length))) ∧
      (s.run.t ≤ track → ms.length < 16 → ms.Pairwise (fun (x y : Marker) => x.track ≤ y.track) → exec (.marker l) s =
        .next ({ s with run := { s.run with markers := (ms.filter fun (x : Marker) => decide (x.track ≤ track)) ++
          [(⟨b, track⟩ : Marker)] ++
          (ms.filter fun (x : Marker) => decide (track < x.track)) } }.answered l rest (reply .accepted (ms.length + 1))))

/-! ### What every step keeps -/

/-- R37, R39: every step keeps the free-page list and the page lists of all row records together holding each page number
exactly once, and the directory of an EMPTY slot empty. -/
def Obligations.EveryStepConservesPages : Prop :=
  ∀ s t : State, s.pagesConserved → step s = .next t → t.pagesConserved

/-- R36 (the canonical form is the model's): every step keeps the page memory canonical, so that equal memories are equal
data. -/
def Obligations.EveryStepKeepsMemoryCanonical : Prop :=
  ∀ s t : State, Memory.wf s.store.memory → step s = .next t → Memory.wf t.store.memory

/-- R4, R13, R16, R18, R26, R30, R34, R103, R105, R111, R113, R114, R124, R126, R127, R135, R136, R147, R149: every step keeps
the header in its ranges, the job record, the carriage, the queues, the pointers, the build in flight and the head channels in
agreement, and no fault report under way that can no longer have an effect on the job. -/
def Obligations.EveryStepKeepsTheJobSound : Prop :=
  ∀ s t : State, s.jobSound → step s = .next t → t.jobSound

/-- R89, R90, R157, R158, R159, R170: every step keeps the buffers, queues and handling states of the links and the write queue
within their bounds and in agreement; the job is sound too (its own statement). -/
def Obligations.EveryStepKeepsTheLinksSound : Prop :=
  ∀ s t : State, s.jobSound → s.linksSound → step s = .next t → t.linksSound

/-- R81, R83, R84, R85: every step keeps tone tables, patterns, trims and waiting writes in their ranges. -/
def Obligations.EveryStepKeepsTheTablesSound : Prop :=
  ∀ s t : State, s.tablesSound → step s = .next t → t.tablesSound

/-- R39, R41, R53, R73: every step keeps slots and directories sound, windows inside the revolution and on defined slots, and
no cell covered by two enabled IMAGE or MARK windows. -/
def Obligations.EveryStepKeepsSlotsAndWindowsSound : Prop :=
  ∀ s t : State, s.slotsSound → s.windowsDisjoint → step s = .next t → t.slotsSound ∧ t.windowsDisjoint

/-- The state after reset has every one of these conditions. -/
def Obligations.ResetIsSound : Prop :=
  State.reset.pagesConserved ∧ Memory.wf State.reset.store.memory ∧ State.reset.jobSound ∧ State.reset.linksSound ∧
    State.reset.tablesSound ∧ State.reset.slotsSound ∧ State.reset.windowsDisjoint

/-! ### The words on the line -/

/-- R153 to R155, R161, R171, R173 to R175: the words of a reply, a notice and an inbound frame between START and END: header
with kind, tag and length, payload, check word; a reply echoes the tag and opens with the kind answered, the completion code
and the request code word; a notice has tag 0 and three words; the completion codes, the request codes, the bit fields of a
word, and the check word's computation bit by bit. -/
def Obligations.FramesCarryTheirWords : Prop :=
  ([CC.accepted, .state, .range, .zone, .locked, .room, .sequence, .conflict, .referenced, .absent, .unknown, .passed,
    .signature, .count].map CC.code = [0, 1, 2, 3, 4, 5, 6, 7, 8, 9, 10, 11, 12, 13]) ∧
  ([ReqCode.jopen, .jstart, .jhold, .jresume, .jabort, .jclose, .jquery, .sdef, .srel, .squery, .wset, .wread, .tload,
    .tread, .mload, .htrim, .hreset, .hquery, .evset, .evclr, .evack, .evread, .ident, .dreset].map ReqCode.word =
    [0x10#32, 0x11#32, 0x12#32, 0x13#32, 0x14#32, 0x15#32, 0x16#32, 0x20#32, 0x21#32, 0x22#32, 0x30#32, 0x31#32, 0x40#32,
     0x41#32, 0x42#32, 0x50#32, 0x51#32, 0x52#32, 0x60#32, 0x61#32, 0x62#32, 0x63#32, 0x70#32, 0x7F#32]) ∧
  ([FrameKind.row, .marker, .request].map FrameKind.code = [1, 2, 3]) ∧
  (∀ (hi lo v : Nat) (w : Word), lo ≤ hi → hi < 32 →
    (put hi lo v).toNat = v % 2 ^ (hi - lo + 1) * 2 ^ lo ∧ bits w hi lo = w.toNat / 2 ^ lo % 2 ^ (hi - lo + 1)) ∧
  (∀ r : Reply, r.returned.length + 2 < 65536 →
    let body := [BitVec.ofNat 32 (0x81 * 2 ^ 24 + r.tag.toNat * 2 ^ 16 + (r.returned.length + 2)),
      BitVec.ofNat 32 (r.kind.code * 2 ^ 24 + r.cc.code), r.code] ++ r.returned
    (OutFrame.reply r).words = body ++ [crc body]) ∧
  (∀ n : Notice, n.t < 65536 →
    let body := [BitVec.ofNat 32 (0x82 * 2 ^ 24 + 3), n.jobNumber, BitVec.ofNat 32 (n.jobState.code * 2 ^ 24 + n.t),
      BitVec.ofNat 32 (n.raw.toNat * 2 ^ 16 + n.masked.toNat)]
    (OutFrame.notice n).words = body ++ [crc body]) ∧
  (∀ f : InFrame, f.payload.length < 65536 →
    let body := BitVec.ofNat 32 (f.kind.code * 2 ^ 24 + f.tag.toNat * 2 ^ 16 + f.payload.length) :: f.payload
    f.words = body ++ [crc body]) ∧
  ∀ ws : List Word, crc ws = (ws.flatMap fun w => (List.range 32).map fun i => w.getLsbD (31 - i)).foldl
    (fun (reg : Word) b => if reg.getLsbD 31 ^^ b then (reg <<< 1) ^^^ 0x04C11DB7#32 else reg <<< 1) 0xFFFFFFFF#32
end

