-- ==== Sys2Proof/Laws/State.lean ====
section
/-!
SUPPORT. What each small update of State leaves and sets, field by field, so that no later proof unfolds a record update.
-/

namespace Sys2Proof.Machine

variable (s : State) (l : Link) (x : Port) (h k : Head) (c : Channel)

/-! ### A link's port replaced -/

@[simp] theorem setPort_run : (s.setPort l x).run = s.run := by cases l <;> rfl
@[simp] theorem setPort_store : (s.setPort l x).store = s.store := by cases l <;> rfl
@[simp] theorem setPort_place : (s.setPort l x).place = s.place := by cases l <;> rfl
@[simp] theorem setPort_tables : (s.setPort l x).tables = s.tables := by cases l <;> rfl
@[simp] theorem setPort_build : (s.setPort l x).build = s.build := by cases l <;> rfl
@[simp] theorem setPort_heads : (s.setPort l x).heads = s.heads := by cases l <;> rfl
@[simp] theorem setPort_pins : (s.setPort l x).pins = s.pins := by cases l <;> rfl
@[simp] theorem setPort_event : (s.setPort l x).event = s.event := by cases l <;> rfl
@[simp] theorem setPort_straps : (s.setPort l x).straps = s.straps := by cases l <;> rfl
@[simp] theorem setPort_stepPulses : (s.setPort l x).stepPulses = s.stepPulses := by cases l <;> rfl
@[simp] theorem setPort_pending : (s.setPort l x).pending = s.pending := by cases l <;> rfl

@[simp] theorem port_setPort : (s.setPort l x).port l = x := by cases l <;> rfl
@[simp] theorem port_p_setPort_s : (s.setPort .s x).port .p = s.port .p := rfl
@[simp] theorem port_s_setPort_p : (s.setPort .p x).port .s = s.port .s := rfl

theorem port_setPort_ne {m : Link} (hm : m ≠ l) : (s.setPort l x).port m = s.port m := by
  cases l <;> cases m <;> first | rfl | exact absurd rfl hm

@[simp] theorem setPort_setPort (y : Port) : (s.setPort l x).setPort l y = s.setPort l y := by cases l <;> rfl

@[simp] theorem setPort_port : s.setPort l (s.port l) = s := by cases l <;> rfl

/-! ### A head channel replaced -/

@[simp] theorem setChan_run : (s.setChan h c).run = s.run := rfl
@[simp] theorem setChan_store : (s.setChan h c).store = s.store := rfl
@[simp] theorem setChan_place : (s.setChan h c).place = s.place := rfl
@[simp] theorem setChan_tables : (s.setChan h c).tables = s.tables := rfl
@[simp] theorem setChan_build : (s.setChan h c).build = s.build := rfl
@[simp] theorem setChan_pins : (s.setChan h c).pins = s.pins := rfl
@[simp] theorem setChan_event : (s.setChan h c).event = s.event := rfl
@[simp] theorem setChan_pLink : (s.setChan h c).pLink = s.pLink := rfl
@[simp] theorem setChan_sLink : (s.setChan h c).sLink = s.sLink := rfl
@[simp] theorem setChan_straps : (s.setChan h c).straps = s.straps := rfl
@[simp] theorem setChan_stepPulses : (s.setChan h c).stepPulses = s.stepPulses := rfl
@[simp] theorem setChan_pending : (s.setChan h c).pending = s.pending := rfl
@[simp] theorem setChan_port : (s.setChan h c).port l = s.port l := by cases l <;> rfl

@[simp] theorem chan_setChan : (s.setChan h c).chan h = c := by simp [State.chan, State.setChan]

theorem chan_setChan_ne {h k : Head} (hk : k ≠ h) : (s.setChan h c).chan k = s.chan k := by
  have : h.val ≠ k.val := fun e => hk (Fin.ext e.symm)
  simp [State.chan, State.setChan, this]

theorem chan_setChan_eq_ite : (s.setChan h c).chan k = if k = h then c else s.chan k := by
  split
  · next e => subst e; simp
  · next e => exact chan_setChan_ne s c e

/-! ### Every channel mapped -/

@[simp] theorem mapChans_run (f : Head → Channel → Channel) : (s.mapChans f).run = s.run := rfl
@[simp] theorem mapChans_store (f : Head → Channel → Channel) : (s.mapChans f).store = s.store := rfl
@[simp] theorem mapChans_place (f : Head → Channel → Channel) : (s.mapChans f).place = s.place := rfl
@[simp] theorem mapChans_tables (f : Head → Channel → Channel) : (s.mapChans f).tables = s.tables := rfl
@[simp] theorem mapChans_build (f : Head → Channel → Channel) : (s.mapChans f).build = s.build := rfl
@[simp] theorem mapChans_pins (f : Head → Channel → Channel) : (s.mapChans f).pins = s.pins := rfl
@[simp] theorem mapChans_event (f : Head → Channel → Channel) : (s.mapChans f).event = s.event := rfl
@[simp] theorem mapChans_pLink (f : Head → Channel → Channel) : (s.mapChans f).pLink = s.pLink := rfl
@[simp] theorem mapChans_sLink (f : Head → Channel → Channel) : (s.mapChans f).sLink = s.sLink := rfl
@[simp] theorem mapChans_straps (f : Head → Channel → Channel) : (s.mapChans f).straps = s.straps := rfl
@[simp] theorem mapChans_stepPulses (f : Head → Channel → Channel) : (s.mapChans f).stepPulses = s.stepPulses := rfl
@[simp] theorem mapChans_pending (f : Head → Channel → Channel) : (s.mapChans f).pending = s.pending := rfl
@[simp] theorem mapChans_port (f : Head → Channel → Channel) : (s.mapChans f).port l = s.port l := by cases l <;> rfl

@[simp] theorem chan_mapChans (f : Head → Channel → Channel) : (s.mapChans f).chan h = f h (s.chan h) := by
  match h with
  | 0 | 1 | 2 | 3 => rfl

/-! ### Input levels replaced -/

@[simp] theorem setPin_run (p : Pins) : (s.setPin h p).run = s.run := rfl
@[simp] theorem setPin_store (p : Pins) : (s.setPin h p).store = s.store := rfl
@[simp] theorem setPin_place (p : Pins) : (s.setPin h p).place = s.place := rfl
@[simp] theorem setPin_tables (p : Pins) : (s.setPin h p).tables = s.tables := rfl
@[simp] theorem setPin_build (p : Pins) : (s.setPin h p).build = s.build := rfl
@[simp] theorem setPin_heads (p : Pins) : (s.setPin h p).heads = s.heads := rfl
@[simp] theorem setPin_event (p : Pins) : (s.setPin h p).event = s.event := rfl
@[simp] theorem setPin_pLink (p : Pins) : (s.setPin h p).pLink = s.pLink := rfl
@[simp] theorem setPin_sLink (p : Pins) : (s.setPin h p).sLink = s.sLink := rfl
@[simp] theorem setPin_straps (p : Pins) : (s.setPin h p).straps = s.straps := rfl
@[simp] theorem setPin_stepPulses (p : Pins) : (s.setPin h p).stepPulses = s.stepPulses := rfl
@[simp] theorem setPin_pending (p : Pins) : (s.setPin h p).pending = s.pending := rfl
@[simp] theorem setPin_port (p : Pins) : (s.setPin h p).port l = s.port l := by cases l <;> rfl
@[simp] theorem setPin_chan (p : Pins) : (s.setPin h p).chan k = s.chan k := rfl
@[simp] theorem pin_setPin (p : Pins) : (s.setPin h p).pin h = p := by simp [State.pin, State.setPin]

/-! ### RUN's record as a job stops -/

section
variable (r : Run) (j : JobState) (x : HoldReason)

@[simp] theorem stop_header : (r.stop j x).header = r.header := rfl
@[simp] theorem stop_jobState : (r.stop j x).jobState = j := rfl
@[simp] theorem stop_holdReason : (r.stop j x).holdReason = x := rfl
@[simp] theorem stop_damage : (r.stop j x).damage = r.damage := rfl
@[simp] theorem stop_totalSlips : (r.stop j x).totalSlips = r.totalSlips := rfl
@[simp] theorem stop_retiredTracks : (r.stop j x).retiredTracks = r.retiredTracks := rfl
@[simp] theorem stop_t : (r.stop j x).t = r.t := rfl
@[simp] theorem stop_phase : (r.stop j x).phase = .idle := rfl
@[simp] theorem stop_settleCounter : (r.stop j x).settleCounter = r.settleCounter := rfl
@[simp] theorem stop_holdCounter : (r.stop j x).holdCounter = r.holdCounter := rfl
@[simp] theorem stop_pendingHold : (r.stop j x).pendingHold = false := rfl
@[simp] theorem stop_markers : (r.stop j x).markers = r.markers := rfl
@[simp] theorem stop_reports : (r.stop j x).reports = [] := rfl

end

/-! ### What reads only some fields -/

@[simp] theorem setPort_chan : (s.setPort l x).chan h = s.chan h := by simp [State.chan]
@[simp] theorem setPort_pin : (s.setPort l x).pin h = s.pin h := by simp [State.pin]
@[simp] theorem setChan_pin : (s.setChan h c).pin k = s.pin k := rfl
@[simp] theorem mapChans_pin (f : Head → Channel → Channel) : (s.mapChans f).pin h = s.pin h := rfl
@[simp] theorem setPort_trim : (s.setPort l x).trim h = s.trim h := by simp [State.trim]
@[simp] theorem setPort_used : (s.setPort l x).used h = s.used h := by simp [State.used]
@[simp] theorem setChan_used : (s.setChan h c).used k = s.used k := rfl
@[simp] theorem mapChans_used (f : Head → Channel → Channel) : (s.mapChans f).used h = s.used h := rfl
@[simp] theorem setPort_usedHeads : (s.setPort l x).usedHeads = s.usedHeads := by cases l <;> rfl
@[simp] theorem setChan_usedHeads : (s.setChan h c).usedHeads = s.usedHeads := rfl
@[simp] theorem mapChans_usedHeads (f : Head → Channel → Channel) : (s.mapChans f).usedHeads = s.usedHeads := rfl
@[simp] theorem setPort_fitted : (s.setPort l x).fitted h = s.fitted h := by simp [State.fitted, State.fittedCount]
@[simp] theorem setChan_fitted : (s.setChan h c).fitted k = s.fitted k := rfl
@[simp] theorem setPin_fitted (p : Pins) : (s.setPin h p).fitted k = s.fitted k := rfl
@[simp] theorem setPin_used (p : Pins) : (s.setPin h p).used k = s.used k := rfl

/-- A head is used exactly when it stands in the list of used heads. -/
theorem mem_usedHeads : h ∈ s.usedHeads ↔ s.used h = true := by
  simp only [State.usedHeads, List.mem_filter, and_iff_right_iff_imp]
  intro _
  match h with
  | 0 | 1 | 2 | 3 => decide

/-- Two states with the same channels at every head have the same channels. -/
theorem heads_ext {s t : State} (e : ∀ h, s.chan h = t.chan h) : s.heads = t.heads := by
  ext i hi
  exact e ⟨i, hi⟩

/-- Two states with the same fields are one. -/
theorem state_ext {s t : State} (h1 : s.run = t.run) (h2 : s.store = t.store) (h3 : s.place = t.place)
    (h4 : s.tables = t.tables) (h5 : s.build = t.build) (h6 : s.heads = t.heads) (h7 : s.pins = t.pins)
    (h8 : s.event = t.event) (h9 : ∀ l, s.port l = t.port l) (h10 : s.straps = t.straps)
    (h11 : s.stepPulses = t.stepPulses) (h12 : s.pending = t.pending) : s = t := by
  have hp := h9 .p
  have hs := h9 .s
  cases s; cases t
  simp_all [State.port]

end Sys2Proof.Machine
end

