-- ==== Sys2Proof/Laws/Events.lean ====
section
/-!
SUPPORT. Everything a raise at EVENT can do: it sets its bit, it can change the notices of the outbound queues, and it
leaves the rest of the part (R165, R170).
-/

namespace Sys2Proof.Machine

variable (s : State) (l : Link) (b : StatusBit) (h : Head)

/-! ### One raise -/

@[simp] theorem raise_run : (s.raise b).run = s.run := rfl
@[simp] theorem raise_store : (s.raise b).store = s.store := rfl
@[simp] theorem raise_place : (s.raise b).place = s.place := rfl
@[simp] theorem raise_tables : (s.raise b).tables = s.tables := rfl
@[simp] theorem raise_build : (s.raise b).build = s.build := rfl
@[simp] theorem raise_heads : (s.raise b).heads = s.heads := rfl
@[simp] theorem raise_pins : (s.raise b).pins = s.pins := rfl
@[simp] theorem raise_straps : (s.raise b).straps = s.straps := rfl
@[simp] theorem raise_stepPulses : (s.raise b).stepPulses = s.stepPulses := rfl
@[simp] theorem raise_pending : (s.raise b).pending = s.pending := rfl

@[simp] theorem raise_status : (s.raise b).event.status = s.event.status ||| b.word := rfl
@[simp] theorem raise_pMask : (s.raise b).event.pMask = s.event.pMask := rfl
@[simp] theorem raise_sMask : (s.raise b).event.sMask = s.event.sMask := rfl
@[simp] theorem raise_chan : (s.raise b).chan h = s.chan h := rfl
@[simp] theorem raise_pin : (s.raise b).pin h = s.pin h := rfl
@[simp] theorem raise_used : (s.raise b).used h = s.used h := rfl
@[simp] theorem raise_usedHeads : (s.raise b).usedHeads = s.usedHeads := rfl
@[simp] theorem raise_fitted : (s.raise b).fitted h = s.fitted h := rfl
@[simp] theorem raise_trim : (s.raise b).trim h = s.trim h := rfl

theorem raise_port : (s.raise b).port l =
    (s.port l).hearRaise b (s.event.status.getLsbD b.index) (s.event.mask l)
      ⟨s.run.header.jobNumber, s.run.jobState, s.run.t, s.event.status ||| b.word,
       (s.event.status ||| b.word) &&& s.event.mask l⟩ := by
  cases l <;> rfl

/-! ### What a raise leaves of a port -/

@[simp] theorem takeAnew_input (n : Notice) (x : Port) : (x.takeAnew n).input = x.input := rfl
@[simp] theorem takeAnew_handling (n : Notice) (x : Port) : (x.takeAnew n).handling = x.handling := rfl
@[simp] theorem takeAnew_errors (n : Notice) (x : Port) : (x.takeAnew n).errors = x.errors := rfl
@[simp] theorem takeAnew_sending (n : Notice) (x : Port) : (x.takeAnew n).sending = x.sending := rfl
@[simp] theorem takeAnew_receiving (n : Notice) (x : Port) : (x.takeAnew n).receiving = x.receiving := rfl

@[simp] theorem noticeDue_input (n : Notice) (x : Port) : (x.noticeDue n).input = x.input := by
  unfold Port.noticeDue; split <;> rfl
@[simp] theorem hearRaise_input (was : Bool) (m : StatusWord) (n : Notice) (x : Port) :
    (x.hearRaise b was m n).input = x.input := by
  unfold Port.hearRaise; split_ifs <;> simp
@[simp] theorem raise_port_input : ((s.raise b).port l).input = (s.port l).input := by simp [raise_port]
@[simp] theorem noticeDue_handling (n : Notice) (x : Port) : (x.noticeDue n).handling = x.handling := by
  unfold Port.noticeDue; split <;> rfl
@[simp] theorem hearRaise_handling (was : Bool) (m : StatusWord) (n : Notice) (x : Port) :
    (x.hearRaise b was m n).handling = x.handling := by
  unfold Port.hearRaise; split_ifs <;> simp
@[simp] theorem raise_port_handling : ((s.raise b).port l).handling = (s.port l).handling := by simp [raise_port]
@[simp] theorem noticeDue_errors (n : Notice) (x : Port) : (x.noticeDue n).errors = x.errors := by
  unfold Port.noticeDue; split <;> rfl
@[simp] theorem hearRaise_errors (was : Bool) (m : StatusWord) (n : Notice) (x : Port) :
    (x.hearRaise b was m n).errors = x.errors := by
  unfold Port.hearRaise; split_ifs <;> simp
@[simp] theorem raise_port_errors : ((s.raise b).port l).errors = (s.port l).errors := by simp [raise_port]
@[simp] theorem noticeDue_sending (n : Notice) (x : Port) : (x.noticeDue n).sending = x.sending := by
  unfold Port.noticeDue; split <;> rfl
@[simp] theorem hearRaise_sending (was : Bool) (m : StatusWord) (n : Notice) (x : Port) :
    (x.hearRaise b was m n).sending = x.sending := by
  unfold Port.hearRaise; split_ifs <;> simp
@[simp] theorem raise_port_sending : ((s.raise b).port l).sending = (s.port l).sending := by simp [raise_port]
@[simp] theorem noticeDue_receiving (n : Notice) (x : Port) : (x.noticeDue n).receiving = x.receiving := by
  unfold Port.noticeDue; split <;> rfl
@[simp] theorem hearRaise_receiving (was : Bool) (m : StatusWord) (n : Notice) (x : Port) :
    (x.hearRaise b was m n).receiving = x.receiving := by
  unfold Port.hearRaise; split_ifs <;> simp
@[simp] theorem raise_port_receiving : ((s.raise b).port l).receiving = (s.port l).receiving := by simp [raise_port]

/-- Splitting the queue at the frame being sent loses nothing. -/
theorem begun_append_waiting (x : Port) : x.begun ++ x.waiting = x.out := by
  unfold Port.begun Port.waiting
  split
  · exact List.take_append_drop 1 x.out
  · rfl

theorem waiting_takeAnew (n : Notice) (x : Port) : (x.takeAnew n).waiting = x.waiting.map (OutFrame.retake n) := by
  unfold Port.takeAnew Port.waiting Port.begun
  cases hs : x.sending <;> simp
  cases x.out <;> simp

/-! ### Several raises -/

@[simp] theorem raiseAll_nil : s.raiseAll [] = s := rfl
@[simp] theorem raiseAll_cons (bs : List StatusBit) : s.raiseAll (b :: bs) = (s.raise b).raiseAll bs := rfl

@[simp] theorem raiseAll_run (bs : List StatusBit) : (s.raiseAll bs).run = s.run := by
  induction bs generalizing s with
  | nil => rfl
  | cons b bs ih => rw [raiseAll_cons, ih]; rfl
@[simp] theorem raiseAll_store (bs : List StatusBit) : (s.raiseAll bs).store = s.store := by
  induction bs generalizing s with
  | nil => rfl
  | cons b bs ih => rw [raiseAll_cons, ih]; rfl
@[simp] theorem raiseAll_place (bs : List StatusBit) : (s.raiseAll bs).place = s.place := by
  induction bs generalizing s with
  | nil => rfl
  | cons b bs ih => rw [raiseAll_cons, ih]; rfl
@[simp] theorem raiseAll_tables (bs : List StatusBit) : (s.raiseAll bs).tables = s.tables := by
  induction bs generalizing s with
  | nil => rfl
  | cons b bs ih => rw [raiseAll_cons, ih]; rfl
@[simp] theorem raiseAll_build (bs : List StatusBit) : (s.raiseAll bs).build = s.build := by
  induction bs generalizing s with
  | nil => rfl
  | cons b bs ih => rw [raiseAll_cons, ih]; rfl
@[simp] theorem raiseAll_heads (bs : List StatusBit) : (s.raiseAll bs).heads = s.heads := by
  induction bs generalizing s with
  | nil => rfl
  | cons b bs ih => rw [raiseAll_cons, ih]; rfl
@[simp] theorem raiseAll_pins (bs : List StatusBit) : (s.raiseAll bs).pins = s.pins := by
  induction bs generalizing s with
  | nil => rfl
  | cons b bs ih => rw [raiseAll_cons, ih]; rfl
@[simp] theorem raiseAll_straps (bs : List StatusBit) : (s.raiseAll bs).straps = s.straps := by
  induction bs generalizing s with
  | nil => rfl
  | cons b bs ih => rw [raiseAll_cons, ih]; rfl
@[simp] theorem raiseAll_stepPulses (bs : List StatusBit) : (s.raiseAll bs).stepPulses = s.stepPulses := by
  induction bs generalizing s with
  | nil => rfl
  | cons b bs ih => rw [raiseAll_cons, ih]; rfl
@[simp] theorem raiseAll_pending (bs : List StatusBit) : (s.raiseAll bs).pending = s.pending := by
  induction bs generalizing s with
  | nil => rfl
  | cons b bs ih => rw [raiseAll_cons, ih]; rfl
@[simp] theorem raiseAll_pMask (bs : List StatusBit) : (s.raiseAll bs).event.pMask = s.event.pMask := by
  induction bs generalizing s with
  | nil => rfl
  | cons b bs ih => rw [raiseAll_cons, ih]; rfl
@[simp] theorem raiseAll_sMask (bs : List StatusBit) : (s.raiseAll bs).event.sMask = s.event.sMask := by
  induction bs generalizing s with
  | nil => rfl
  | cons b bs ih => rw [raiseAll_cons, ih]; rfl
@[simp] theorem raiseAll_chan (bs : List StatusBit) : (s.raiseAll bs).chan h = s.chan h := by simp [State.chan]
@[simp] theorem raiseAll_used (bs : List StatusBit) : (s.raiseAll bs).used h = s.used h := by simp [State.used]
@[simp] theorem raiseAll_fitted (bs : List StatusBit) : (s.raiseAll bs).fitted h = s.fitted h := by
  simp [State.fitted, State.fittedCount]

/-- A property of a state that a raise keeps is kept by several. -/
theorem raiseAll_keeps {P : State → Prop} (hP : ∀ s b, P s → P (s.raise b)) (bs : List StatusBit) {s : State} (hs : P s) :
    P (s.raiseAll bs) := by
  induction bs generalizing s with
  | nil => exact hs
  | cons b bs ih => exact ih (hP s b hs)

end Sys2Proof.Machine
end

