-- ==== Sys2Proof/Laws/Requests.lean ====
section
/-!
SUPPORT. The taking and answering of a frame: what `takeFrame`, `request`, `serve` and `queueReply` do, said once (R158,
R160).
-/

namespace Sys2Proof.Machine

variable (s : State) (l m : Link) (h : Head)

/-! ### Queueing a reply, taking a frame -/

@[simp] theorem queueReply_run (r : Reply) : (s.queueReply l r).run = s.run := by simp [State.queueReply]
@[simp] theorem queueReply_store (r : Reply) : (s.queueReply l r).store = s.store := by simp [State.queueReply]
@[simp] theorem queueReply_place (r : Reply) : (s.queueReply l r).place = s.place := by simp [State.queueReply]
@[simp] theorem queueReply_tables (r : Reply) : (s.queueReply l r).tables = s.tables := by simp [State.queueReply]
@[simp] theorem queueReply_build (r : Reply) : (s.queueReply l r).build = s.build := by simp [State.queueReply]
@[simp] theorem queueReply_heads (r : Reply) : (s.queueReply l r).heads = s.heads := by simp [State.queueReply]
@[simp] theorem queueReply_pins (r : Reply) : (s.queueReply l r).pins = s.pins := by simp [State.queueReply]
@[simp] theorem queueReply_event (r : Reply) : (s.queueReply l r).event = s.event := by simp [State.queueReply]
@[simp] theorem queueReply_straps (r : Reply) : (s.queueReply l r).straps = s.straps := by simp [State.queueReply]
@[simp] theorem queueReply_stepPulses (r : Reply) : (s.queueReply l r).stepPulses = s.stepPulses := by simp [State.queueReply]
@[simp] theorem queueReply_pending (r : Reply) : (s.queueReply l r).pending = s.pending := by simp [State.queueReply]
@[simp] theorem queueReply_chan (r : Reply) : (s.queueReply l r).chan h = s.chan h := by simp [State.queueReply]
@[simp] theorem queueReply_pin (r : Reply) : (s.queueReply l r).pin h = s.pin h := by simp [State.queueReply]
@[simp] theorem queueReply_trim (r : Reply) : (s.queueReply l r).trim h = s.trim h := by simp [State.queueReply]
@[simp] theorem queueReply_used (r : Reply) : (s.queueReply l r).used h = s.used h := by simp [State.queueReply]
@[simp] theorem queueReply_fitted (r : Reply) : (s.queueReply l r).fitted h = s.fitted h := by simp [State.queueReply]
@[simp] theorem taken_run (rest : List InFrame) : (s.taken l rest).run = s.run := by simp [State.taken]
@[simp] theorem taken_store (rest : List InFrame) : (s.taken l rest).store = s.store := by simp [State.taken]
@[simp] theorem taken_place (rest : List InFrame) : (s.taken l rest).place = s.place := by simp [State.taken]
@[simp] theorem taken_tables (rest : List InFrame) : (s.taken l rest).tables = s.tables := by simp [State.taken]
@[simp] theorem taken_build (rest : List InFrame) : (s.taken l rest).build = s.build := by simp [State.taken]
@[simp] theorem taken_heads (rest : List InFrame) : (s.taken l rest).heads = s.heads := by simp [State.taken]
@[simp] theorem taken_pins (rest : List InFrame) : (s.taken l rest).pins = s.pins := by simp [State.taken]
@[simp] theorem taken_event (rest : List InFrame) : (s.taken l rest).event = s.event := by simp [State.taken]
@[simp] theorem taken_straps (rest : List InFrame) : (s.taken l rest).straps = s.straps := by simp [State.taken]
@[simp] theorem taken_stepPulses (rest : List InFrame) : (s.taken l rest).stepPulses = s.stepPulses := by simp [State.taken]
@[simp] theorem taken_pending (rest : List InFrame) : (s.taken l rest).pending = s.pending := by simp [State.taken]
@[simp] theorem taken_chan (rest : List InFrame) : (s.taken l rest).chan h = s.chan h := by simp [State.taken]
@[simp] theorem taken_pin (rest : List InFrame) : (s.taken l rest).pin h = s.pin h := by simp [State.taken]
@[simp] theorem taken_trim (rest : List InFrame) : (s.taken l rest).trim h = s.trim h := by simp [State.taken]
@[simp] theorem taken_used (rest : List InFrame) : (s.taken l rest).used h = s.used h := by simp [State.taken]
@[simp] theorem taken_fitted (rest : List InFrame) : (s.taken l rest).fitted h = s.fitted h := by simp [State.taken]

@[simp] theorem port_taken (rest : List InFrame) :
    (s.taken l rest).port l = { s.port l with input := rest, handling := .waiting } := by simp [State.taken]

@[simp] theorem port_queueReply (r : Reply) :
    (s.queueReply l r).port l = { s.port l with out := (s.port l).out ++ [.reply r], handling := .ready } := by
  simp [State.queueReply]

theorem port_queueReply_ne {l m : Link} (hm : m ≠ l) (r : Reply) : (s.queueReply l r).port m = s.port m :=
  port_setPort_ne s l _ hm

theorem port_taken_ne {l m : Link} (hm : m ≠ l) (rest : List InFrame) : (s.taken l rest).port m = s.port m :=
  port_setPort_ne s l _ hm

/-- A frame taken and answered with nothing between. -/
theorem queueReply_taken (rest : List InFrame) (r : Reply) : (s.taken l rest).queueReply l r = s.answered l rest r := by
  simp [State.queueReply, State.taken, State.answered]

/-! ### Dispatch looks only at the job record -/

theorem zonePasses_congr {s t : State} (e : t.run = s.run) (c : ReqCode) : t.zonePasses l c = s.zonePasses l c := by
  simp only [State.zonePasses, State.holdsZone, e]

theorem lockPasses_congr {s t : State} (e : t.run = s.run) (c : ReqCode) : t.lockPasses c = s.lockPasses c := by
  unfold State.lockPasses; rw [e]

theorem dispatch_congr {s t : State} (e : t.run = s.run) (c : ReqCode) (p : List Word) :
    t.dispatch l c p = s.dispatch l c p := by
  unfold State.dispatch
  rw [zonePasses_congr l e, lockPasses_congr e, e]

@[simp] theorem taken_dispatch (rest : List InFrame) (c : ReqCode) (p : List Word) :
    (s.taken l rest).dispatch m c p = s.dispatch m c p := dispatch_congr m (by simp) c p

@[simp] theorem taken_dispatchFrame (rest : List InFrame) (b : Bool) :
    (s.taken l rest).dispatchFrame m b = s.dispatchFrame m b := by
  simp [State.dispatchFrame, State.holdsZone]

/-! ### Taking -/

/-- A frame is taken exactly where the link offers one of the sort the command names. -/
theorem takeFrame_eq_some {sort : InFrame → Bool} {f : InFrame} {t : State} :
    s.takeFrame l sort = some (f, t) ↔ ∃ rest, s.offers l f rest ∧ sort f = true ∧ t = s.taken l rest := by
  unfold State.takeFrame Port.take State.offers State.taken
  cases hi : (s.port l).input with
  | nil => simp
  | cons g rest =>
    by_cases hr : (s.port l).handling = .ready ∧ (s.port l).unsentReplies < Config.replyDepth
    · by_cases hg : sort g = true
      · simp only [hr, and_self, if_true, hg, Option.some.injEq, Prod.mk.injEq, List.cons.injEq]
        constructor
        · rintro ⟨rfl, rfl⟩
          exact ⟨rest, ⟨⟨rfl, rfl⟩, trivial, hr.2⟩, hg, rfl⟩
        · rintro ⟨r, ⟨⟨rfl, rfl⟩, _⟩, _, rfl⟩
          exact ⟨rfl, rfl⟩
      · simp only [hr, and_self, if_true, hg, if_false, Bool.false_eq_true]
        constructor
        · intro hc; cases hc
        · rintro ⟨r, ⟨hc, _⟩, hf, _⟩
          cases hc; exact absurd hf hg
    · simp only [hr, if_false]
      constructor
      · intro hc; cases hc
      · rintro ⟨r, ⟨_, h1, h2⟩, _⟩
        exact absurd ⟨h1, h2⟩ hr

theorem takeFrame_of_offers {sort : InFrame → Bool} {f : InFrame} {rest : List InFrame} (ho : s.offers l f rest)
    (hf : sort f = true) : s.takeFrame l sort = some (f, s.taken l rest) :=
  (takeFrame_eq_some s l).2 ⟨rest, ho, hf, rfl⟩

/-! ### Serving a request -/

/-- A request that passes dispatch is answered by its owner. -/
theorem serve_of_offers {c : ReqCode} {owner : List Word → State → Answer} {f : InFrame} {rest : List InFrame}
    (ho : s.offers l f rest) (hf : f.isRequest c = true) (hd : s.dispatch l c f.payload = none) :
    serve c l owner s = .next ((owner f.payload (s.taken l rest)).state.queueReply l
      (f.answer (owner f.payload (s.taken l rest)).cc (owner f.payload (s.taken l rest)).returned)) := by
  simp [serve, settleStep, State.request, takeFrame_of_offers s l ho hf, hd]

/-- A request that dispatch refuses is answered with its code, and nothing else changes. -/
theorem serve_of_refused {c : ReqCode} {owner : List Word → State → Answer} {f : InFrame} {rest : List InFrame} {cc : CC}
    (ho : s.offers l f rest) (hf : f.isRequest c = true) (hd : s.dispatch l c f.payload = some cc) :
    serve c l owner s = .next (s.answered l rest (f.answer cc [])) := by
  simp [serve, settleStep, State.request, takeFrame_of_offers s l ho hf, hd, queueReply_taken]

theorem isRequest_requestFrame (tag : Byte) (c : ReqCode) (ops : List Word) :
    (requestFrame tag c ops).isRequest c = true := by simp [requestFrame, InFrame.isRequest, InFrame.codeWord]

/-- R13: a request that no header may lock passes the lock step. -/
theorem lockPasses_of_headerSound {s : State} (hh : s.headerSound) {c : ReqCode}
    (hc : c ∉ [ReqCode.tload, .mload, .htrim, .hreset]) : s.lockPasses c = true := by
  obtain ⟨_, _, _, _, _, _, _, _, _, _, _, _, hl⟩ := hh
  have : c.word ∉ s.run.header.locked := by
    intro h
    have := hl _ h
    revert this hc
    cases c <;> decide
  simp [State.lockPasses, this]

theorem lockPasses_offCopper {s : State} (h : s.run.jobState.onCopper = false) (c : ReqCode) :
    s.lockPasses c = true := by simp [State.lockPasses, h]

/-- R160: a request with its zone held, not locked, in its states and with its fixed words is answered by its owner. -/
theorem serve_accepted {tag : Byte} {c : ReqCode} {ops : List Word} {rest : List InFrame}
    (ho : s.offers l (requestFrame tag c ops) rest) (hz : s.zonePasses l c = true) (hl : s.lockPasses c = true)
    (ha : c.acceptedIn s.run.jobState = true) (hf : c.fixedPart (ops.length + 1) = true)
    (owner : List Word → State → Answer) :
    let a := owner (c.word :: ops) (s.taken l rest)
    serve c l owner s = .next (a.state.queueReply l
      (requestReply tag c a.cc (if a.cc = .accepted then a.returned else []))) := by
  have hd : s.dispatch l c (c.word :: ops) = none := by simp [State.dispatch, hz, hl, ha, hf]
  exact serve_of_offers s l ho (isRequest_requestFrame tag c ops) hd

/-- Everything a request command can do: nothing, a refusal of dispatch, or its owner's answer. -/
theorem serve_cases {s t : State} {l : Link} {c : ReqCode} {owner : List Word → State → Answer}
    (h : serve c l owner s = .next t) :
    t = s ∨ ∃ f rest, s.offers l f rest ∧ f.isRequest c = true ∧
      ((∃ cc, s.dispatch l c f.payload = some cc ∧ t = s.answered l rest (f.answer cc [])) ∨
        (s.dispatch l c f.payload = none ∧
          t = (owner f.payload (s.taken l rest)).state.queueReply l
            (f.answer (owner f.payload (s.taken l rest)).cc (owner f.payload (s.taken l rest)).returned))) := by
  cases ht : s.takeFrame l (InFrame.isRequest c) with
  | none =>
    simp only [serve, settleStep, State.request, ht, Option.getD_none, Host.Outcome.next.injEq] at h
    exact .inl h.symm
  | some ft =>
    obtain ⟨rest, ho, hf, e⟩ := (takeFrame_eq_some s l).1 ht
    refine .inr ⟨ft.1, rest, ho, hf, ?_⟩
    cases hd : s.dispatch l c ft.1.payload with
    | some cc =>
      rw [serve_of_refused s l ho hf hd] at h
      exact .inl ⟨cc, rfl, by injection h with h; exact h.symm⟩
    | none =>
      rw [serve_of_offers s l ho hf hd] at h
      exact .inr ⟨rfl, by injection h with h; exact h.symm⟩

/-- A property that does not read the links is kept by a request whose owner keeps it. -/
theorem serve_keeps {P : State → Prop} {s t : State} {l : Link} {c : ReqCode} {owner : List Word → State → Answer}
    (hport : ∀ (s : State) l x, P s → P (s.setPort l x)) (howner : ∀ p s, P s → P (owner p s).state)
    (hs : P s) (h : serve c l owner s = .next t) : P t := by
  rcases serve_cases h with rfl | ⟨f, rest, _, _, ⟨cc, _, rfl⟩ | ⟨_, rfl⟩⟩
  · exact hs
  · exact hport _ _ _ hs
  · exact hport _ _ _ (howner _ _ (hport _ _ _ hs))

end Sys2Proof.Machine
end

