-- ==== Sys2Proof/Laws/Heads.lean ====
section
/-!
SUPPORT. Head channels: what an entry to FAULTED, an entry to LIFTING, a lift and the commands to every used head do to
each channel, and what they leave (R116, R119, R124, R129).
-/

namespace Sys2Proof.Machine

variable (s : State) (h k : Head) (c : Cause)

/-! ### Entry to FAULTED -/

/-- R124, one channel: the record after an entry to FAULTED. -/
theorem chan_enterFaulted : (s.enterFaulted h c).chan k =
    if k = h then { s.chan h with state := .faulted, faultCause := c, faultTrack := s.run.t, transferring := false }
    else s.chan k := by
  simp only [State.enterFaulted]
  split <;> simp only [State.chan, raise_heads] <;> exact chan_setChan_eq_ite s h k _

/-- R124 step 4: the report that an entry to FAULTED sends, if any. -/
theorem run_enterFaulted : (s.enterFaulted h c).run =
    if s.used h && (s.run.jobState == .lowering || s.run.jobState == .running) && c != .short then
      { s.run with reports := s.run.reports ++ [⟨h, c⟩] }
    else s.run := by
  simp only [State.enterFaulted]
  rw [apply_ite State.run]
  rfl

/-- An entry to FAULTED changes RUN's record in its reports only. -/
theorem run_enterFaulted_eq :
    (s.enterFaulted h c).run = { s.run with reports := (s.enterFaulted h c).run.reports } := by
  rw [run_enterFaulted]; split <;> rfl

@[simp] theorem enterFaulted_status : (s.enterFaulted h c).event.status = s.event.status ||| (StatusBit.hfault h).word := by
  simp only [State.enterFaulted]; split <;> rfl
@[simp] theorem enterFaulted_pMask : (s.enterFaulted h c).event.pMask = s.event.pMask := by
  simp only [State.enterFaulted]; split <;> rfl
@[simp] theorem enterFaulted_sMask : (s.enterFaulted h c).event.sMask = s.event.sMask := by
  simp only [State.enterFaulted]; split <;> rfl

@[simp] theorem enterFaulted_store : (s.enterFaulted h c).store = s.store := by
  simp only [State.enterFaulted]; split <;> rfl
@[simp] theorem enterFaulted_place : (s.enterFaulted h c).place = s.place := by
  simp only [State.enterFaulted]; split <;> rfl
@[simp] theorem enterFaulted_tables : (s.enterFaulted h c).tables = s.tables := by
  simp only [State.enterFaulted]; split <;> rfl
@[simp] theorem enterFaulted_build : (s.enterFaulted h c).build = s.build := by
  simp only [State.enterFaulted]; split <;> rfl
@[simp] theorem enterFaulted_pins : (s.enterFaulted h c).pins = s.pins := by
  simp only [State.enterFaulted]; split <;> rfl
@[simp] theorem enterFaulted_straps : (s.enterFaulted h c).straps = s.straps := by
  simp only [State.enterFaulted]; split <;> rfl
@[simp] theorem enterFaulted_stepPulses : (s.enterFaulted h c).stepPulses = s.stepPulses := by
  simp only [State.enterFaulted]; split <;> rfl
@[simp] theorem enterFaulted_pending : (s.enterFaulted h c).pending = s.pending := by
  simp only [State.enterFaulted]; split <;> rfl

/-! ### Entry to LIFTING, and the lift command -/

/-- R116: the state an entry to LIFTING ends in. -/
theorem chan_enterLifting : (s.enterLifting h).chan k =
    if k = h then
      if (s.pin h).hflt then
        { s.chan h with state := .faulted, faultCause := .drive, faultTrack := s.run.t, timeoutCount := 0,
                        transferring := false }
      else if (s.pin h).hup then { s.chan h with state := .parked, timeoutCount := 0, transferring := false }
      else { s.chan h with state := .lifting, timeoutCount := 0, transferring := false }
    else s.chan k := by
  simp only [State.enterLifting]
  split
  · rw [chan_enterFaulted]
    split
    · simp
    · next e => exact chan_setChan_ne s _ e
  · split
    · rw [chan_setChan_eq_ite]; split
      · rfl
      · next e => exact chan_setChan_ne s _ e
    · rw [chan_setChan_eq_ite]

/-- An entry to LIFTING changes RUN's record in its reports only. -/
theorem run_enterLifting_eq : (s.enterLifting h).run = { s.run with reports := (s.enterLifting h).run.reports } := by
  simp only [State.enterLifting]
  split
  · exact (run_enterFaulted_eq _ h .drive).trans (by simp)
  · split <;> rfl

/-- R119: a lift command is an entry to LIFTING of a channel LOWERING or DOWN. -/
theorem liftCommand_eq : s.liftCommand h =
    if (s.chan h).state = .lowering ∨ (s.chan h).state = .down then s.enterLifting h else s := by
  unfold State.liftCommand; cases (s.chan h).state <;> simp

theorem run_liftCommand_eq : (s.liftCommand h).run = { s.run with reports := (s.liftCommand h).run.reports } := by
  rw [liftCommand_eq]; split
  · exact run_enterLifting_eq s h
  · rfl

theorem chan_liftCommand_ne (e : k ≠ h) : (s.liftCommand h).chan k = s.chan k := by
  rw [liftCommand_eq]; split
  · rw [chan_enterLifting, if_neg e]
  · rfl

@[simp] theorem enterLifting_store : (s.enterLifting h).store = s.store := by
  simp only [State.enterLifting]; split
  · simp
  · split <;> simp
@[simp] theorem liftCommand_store : (s.liftCommand h).store = s.store := by
  rw [liftCommand_eq]; split <;> simp
@[simp] theorem enterLifting_place : (s.enterLifting h).place = s.place := by
  simp only [State.enterLifting]; split
  · simp
  · split <;> simp
@[simp] theorem liftCommand_place : (s.liftCommand h).place = s.place := by
  rw [liftCommand_eq]; split <;> simp
@[simp] theorem enterLifting_tables : (s.enterLifting h).tables = s.tables := by
  simp only [State.enterLifting]; split
  · simp
  · split <;> simp
@[simp] theorem liftCommand_tables : (s.liftCommand h).tables = s.tables := by
  rw [liftCommand_eq]; split <;> simp
@[simp] theorem enterLifting_build : (s.enterLifting h).build = s.build := by
  simp only [State.enterLifting]; split
  · simp
  · split <;> simp
@[simp] theorem liftCommand_build : (s.liftCommand h).build = s.build := by
  rw [liftCommand_eq]; split <;> simp
@[simp] theorem enterLifting_pins : (s.enterLifting h).pins = s.pins := by
  simp only [State.enterLifting]; split
  · simp
  · split <;> simp
@[simp] theorem liftCommand_pins : (s.liftCommand h).pins = s.pins := by
  rw [liftCommand_eq]; split <;> simp
@[simp] theorem enterLifting_straps : (s.enterLifting h).straps = s.straps := by
  simp only [State.enterLifting]; split
  · simp
  · split <;> simp
@[simp] theorem liftCommand_straps : (s.liftCommand h).straps = s.straps := by
  rw [liftCommand_eq]; split <;> simp
@[simp] theorem enterLifting_stepPulses : (s.enterLifting h).stepPulses = s.stepPulses := by
  simp only [State.enterLifting]; split
  · simp
  · split <;> simp
@[simp] theorem liftCommand_stepPulses : (s.liftCommand h).stepPulses = s.stepPulses := by
  rw [liftCommand_eq]; split <;> simp
@[simp] theorem enterLifting_pending : (s.enterLifting h).pending = s.pending := by
  simp only [State.enterLifting]; split
  · simp
  · split <;> simp
@[simp] theorem liftCommand_pending : (s.liftCommand h).pending = s.pending := by
  rw [liftCommand_eq]; split <;> simp
@[simp] theorem enterLifting_pMask : (s.enterLifting h).event.pMask = s.event.pMask := by
  simp only [State.enterLifting]; split
  · simp
  · split <;> simp
@[simp] theorem liftCommand_pMask : (s.liftCommand h).event.pMask = s.event.pMask := by
  rw [liftCommand_eq]; split <;> simp
@[simp] theorem enterLifting_sMask : (s.enterLifting h).event.sMask = s.event.sMask := by
  simp only [State.enterLifting]; split
  · simp
  · split <;> simp
@[simp] theorem liftCommand_sMask : (s.liftCommand h).event.sMask = s.event.sMask := by
  rw [liftCommand_eq]; split <;> simp

/-! ### An operation made for every used head -/

/-- What each single operation keeps, the operation over the used heads keeps. -/
theorem foldHeads_keeps {P : State → Prop} {f : Head → State → State} (hf : ∀ h s, P s → P (f h s)) (hs : List Head)
    {s : State} (h : P s) : P (hs.foldl (fun s h => f h s) s) := by
  induction hs generalizing s with
  | nil => exact h
  | cons a hs ih => exact ih (hf a s h)

theorem forUsed_keeps {P : State → Prop} {f : Head → State → State} (hf : ∀ h s, P s → P (f h s)) {s : State} (h : P s) :
    P (s.forUsed f) := foldHeads_keeps hf s.usedHeads h

/-- A field that each single operation leaves, the operation over the used heads leaves. -/
theorem forUsed_field {α : Type} {g : State → α} {f : Head → State → State} (hf : ∀ h s, g (f h s) = g s) (s : State) :
    g (s.forUsed f) = g s :=
  forUsed_keeps (P := fun t => g t = g s) (fun h t e => (hf h t).trans e) rfl

@[simp] theorem liftUsed_store : (s.forUsed State.liftCommand).store = s.store :=
  forUsed_field (g := fun t => t.store) (fun h t => liftCommand_store t h) s
@[simp] theorem liftUsed_place : (s.forUsed State.liftCommand).place = s.place :=
  forUsed_field (g := fun t => t.place) (fun h t => liftCommand_place t h) s
@[simp] theorem liftUsed_tables : (s.forUsed State.liftCommand).tables = s.tables :=
  forUsed_field (g := fun t => t.tables) (fun h t => liftCommand_tables t h) s
@[simp] theorem liftUsed_build : (s.forUsed State.liftCommand).build = s.build :=
  forUsed_field (g := fun t => t.build) (fun h t => liftCommand_build t h) s
@[simp] theorem liftUsed_pins : (s.forUsed State.liftCommand).pins = s.pins :=
  forUsed_field (g := fun t => t.pins) (fun h t => liftCommand_pins t h) s
@[simp] theorem liftUsed_straps : (s.forUsed State.liftCommand).straps = s.straps :=
  forUsed_field (g := fun t => t.straps) (fun h t => liftCommand_straps t h) s
@[simp] theorem liftUsed_stepPulses : (s.forUsed State.liftCommand).stepPulses = s.stepPulses :=
  forUsed_field (g := fun t => t.stepPulses) (fun h t => liftCommand_stepPulses t h) s
@[simp] theorem liftUsed_pending : (s.forUsed State.liftCommand).pending = s.pending :=
  forUsed_field (g := fun t => t.pending) (fun h t => liftCommand_pending t h) s
@[simp] theorem liftUsed_pMask : (s.forUsed State.liftCommand).event.pMask = s.event.pMask :=
  forUsed_field (g := fun t => t.event.pMask) (fun h t => liftCommand_pMask t h) s
@[simp] theorem liftUsed_sMask : (s.forUsed State.liftCommand).event.sMask = s.event.sMask :=
  forUsed_field (g := fun t => t.event.sMask) (fun h t => liftCommand_sMask t h) s

/-- The lift of every used head changes RUN's record in its reports only. -/
theorem run_liftUsed_eq : (s.forUsed State.liftCommand).run =
    { s.run with reports := (s.forUsed State.liftCommand).run.reports } :=
  forUsed_keeps (P := fun t => t.run = { s.run with reports := t.run.reports })
    (fun h t e => by
      refine (run_liftCommand_eq t h).trans ?_
      conv_lhs => rw [e]) rfl

/-! ### Commands given to every used head at once -/

@[simp] theorem chan_command (f : Channel → Channel) :
    (s.command f).chan h = if s.used h then f (s.chan h) else s.chan h := by simp [State.command]

@[simp] theorem command_run (f : Channel → Channel) : (s.command f).run = s.run := rfl
@[simp] theorem command_event (f : Channel → Channel) : (s.command f).event = s.event := rfl
@[simp] theorem command_pLink (f : Channel → Channel) : (s.command f).pLink = s.pLink := rfl
@[simp] theorem command_sLink (f : Channel → Channel) : (s.command f).sLink = s.sLink := rfl
@[simp] theorem command_store (f : Channel → Channel) : (s.command f).store = s.store := rfl
@[simp] theorem command_place (f : Channel → Channel) : (s.command f).place = s.place := rfl
@[simp] theorem command_tables (f : Channel → Channel) : (s.command f).tables = s.tables := rfl
@[simp] theorem command_build (f : Channel → Channel) : (s.command f).build = s.build := rfl
@[simp] theorem command_pins (f : Channel → Channel) : (s.command f).pins = s.pins := rfl
@[simp] theorem command_straps (f : Channel → Channel) : (s.command f).straps = s.straps := rfl
@[simp] theorem command_stepPulses (f : Channel → Channel) : (s.command f).stepPulses = s.stepPulses := rfl
@[simp] theorem command_pending (f : Channel → Channel) : (s.command f).pending = s.pending := rfl
@[simp] theorem command_used (f : Channel → Channel) : (s.command f).used h = s.used h := rfl

/-! ### The wear comparison -/

theorem wearCheck_eq : s.wearCheck h = s ∨ s.wearCheck h = s.raise .wear := by
  unfold State.wearCheck; split
  · exact .inr rfl
  · exact .inl rfl

/-- What a raise of WEAR keeps, the comparisons over the used heads keep. -/
theorem wearUsed_keeps {P : State → Prop} (hP : ∀ s, P s → P (s.raise .wear)) {s : State} (h : P s) :
    P (s.forUsed State.wearCheck) :=
  forUsed_keeps (fun h t ht => by rcases wearCheck_eq t h with e | e <;> rw [e]; exacts [ht, hP t ht]) h

@[simp] theorem wearUsed_run : (s.forUsed State.wearCheck).run = s.run :=
  wearUsed_keeps (P := fun t => t.run = s.run) (fun _ e => e) rfl
@[simp] theorem wearUsed_heads : (s.forUsed State.wearCheck).heads = s.heads :=
  wearUsed_keeps (P := fun t => t.heads = s.heads) (fun _ e => e) rfl
@[simp] theorem wearUsed_store : (s.forUsed State.wearCheck).store = s.store :=
  wearUsed_keeps (P := fun t => t.store = s.store) (fun _ e => e) rfl
@[simp] theorem wearUsed_place : (s.forUsed State.wearCheck).place = s.place :=
  wearUsed_keeps (P := fun t => t.place = s.place) (fun _ e => e) rfl
@[simp] theorem wearUsed_tables : (s.forUsed State.wearCheck).tables = s.tables :=
  wearUsed_keeps (P := fun t => t.tables = s.tables) (fun _ e => e) rfl
@[simp] theorem wearUsed_build : (s.forUsed State.wearCheck).build = s.build :=
  wearUsed_keeps (P := fun t => t.build = s.build) (fun _ e => e) rfl
@[simp] theorem wearUsed_pins : (s.forUsed State.wearCheck).pins = s.pins :=
  wearUsed_keeps (P := fun t => t.pins = s.pins) (fun _ e => e) rfl
@[simp] theorem wearUsed_straps : (s.forUsed State.wearCheck).straps = s.straps :=
  wearUsed_keeps (P := fun t => t.straps = s.straps) (fun _ e => e) rfl
@[simp] theorem wearUsed_stepPulses : (s.forUsed State.wearCheck).stepPulses = s.stepPulses :=
  wearUsed_keeps (P := fun t => t.stepPulses = s.stepPulses) (fun _ e => e) rfl
@[simp] theorem wearUsed_pending : (s.forUsed State.wearCheck).pending = s.pending :=
  wearUsed_keeps (P := fun t => t.pending = s.pending) (fun _ e => e) rfl
@[simp] theorem wearUsed_chan : (s.forUsed State.wearCheck).chan h = s.chan h := by simp [State.chan]
@[simp] theorem wearUsed_used : (s.forUsed State.wearCheck).used h = s.used h := by simp [State.used]

end Sys2Proof.Machine
end

