-- ==== Sys2Proof/Laws/Lifting.lean ====
section
/-!
SUPPORT. The lift of several heads, said once: what it leaves of channels, status word, links and RUN's record (R116, R119,
R124).
-/

namespace Sys2Proof.Machine

theorem sameButNotices_refl (x : Port) : x.sameButNotices x := ⟨rfl, rfl, rfl, rfl, rfl, rfl⟩

theorem sameButNotices_trans {x y z : Port} (h : x.sameButNotices y) (k : y.sameButNotices z) : x.sameButNotices z := by
  obtain ⟨a, b, c, d, e, f⟩ := h
  obtain ⟨a', b', c', d', e', f'⟩ := k
  exact ⟨a'.trans a, b'.trans b, c'.trans c, d'.trans d, e'.trans e, f'.trans f⟩

theorem filter_retake (n : Notice) (fs : List OutFrame) :
    (fs.map (OutFrame.retake n)).filter OutFrame.isReply = fs.filter OutFrame.isReply := by
  induction fs with
  | nil => rfl
  | cons f fs ih => cases f <;> simp [List.filter_cons, OutFrame.retake, OutFrame.isReply, ih]

theorem takeAnew_sameButNotices (n : Notice) (x : Port) : x.sameButNotices (x.takeAnew n) := by
  refine ⟨rfl, rfl, rfl, rfl, rfl, ?_⟩
  unfold Port.takeAnew
  simp only [List.filter_append, filter_retake]
  rw [← List.filter_append, begun_append_waiting]

theorem noticeDue_sameButNotices (n : Notice) (x : Port) : x.sameButNotices (x.noticeDue n) := by
  unfold Port.noticeDue
  split
  · exact takeAnew_sameButNotices n x
  · refine ⟨rfl, rfl, rfl, rfl, rfl, ?_⟩
    simp [OutFrame.isReply]

/-- R165: a raise changes a link in notices only. -/
theorem raise_sameButNotices (s : State) (b : StatusBit) (l : Link) : (s.port l).sameButNotices ((s.raise b).port l) := by
  rw [raise_port]
  unfold Port.hearRaise
  split
  · split
    · split
      · exact takeAnew_sameButNotices _ _
      · exact sameButNotices_refl _
    · exact noticeDue_sameButNotices _ _
  · exact sameButNotices_refl _

theorem StatusBit.index_lt (b : StatusBit) : b.index < 16 := by
  cases b <;> simp only [StatusBit.index] <;> omega

/-- R165: a raise sets its bit and no other. -/
theorem raise_getLsbD (s : State) (b : StatusBit) (i : Nat) :
    (s.raise b).event.status.getLsbD i = true ↔ s.event.status.getLsbD i = true ∨ i = b.index := by
  have hb := b.index_lt
  rw [raise_status]
  simp only [StatusBit.word, BitVec.getLsbD_or, Bool.or_eq_true, BitVec.getLsbD_ofNat, Bool.and_eq_true, decide_eq_true_eq,
    Nat.testBit_two_pow]
  constructor
  · rintro (h | ⟨_, h⟩)
    · exact .inl h
    · exact .inr h.symm
  · rintro (h | rfl)
    · exact .inl h
    · exact .inr ⟨hb, rfl⟩

theorem enterFaulted_event (s : State) (h : Head) (c : Cause) :
    (s.enterFaulted h c).event.status = s.event.status ||| (StatusBit.hfault h).word := by
  simp only [State.enterFaulted]; split <;> rfl

theorem enterFaulted_getLsbD (s : State) (h : Head) (c : Cause) (i : Nat) :
    (s.enterFaulted h c).event.status.getLsbD i = true ↔ s.event.status.getLsbD i = true ∨ i = 8 + h.val := by
  rw [enterFaulted_event, ← raise_status]; exact raise_getLsbD s (.hfault h) i

theorem enterFaulted_sameButNotices (s : State) (h : Head) (c : Cause) (l : Link) :
    (s.port l).sameButNotices ((s.enterFaulted h c).port l) := by
  have key := raise_sameButNotices
    (s.setChan h { s.chan h with state := .faulted, faultCause := c, faultTrack := s.run.t, transferring := false })
    (.hfault h) l
  rw [setChan_port] at key
  simp only [State.enterFaulted]
  split
  · cases l <;> exact key
  · exact key

theorem enterLifting_getLsbD (s : State) (h : Head) (i : Nat) :
    (s.enterLifting h).event.status.getLsbD i = true ↔
      s.event.status.getLsbD i = true ∨ (s.pin h).hflt = true ∧ i = 8 + h.val := by
  simp only [State.enterLifting]
  split
  · next e => rw [enterFaulted_getLsbD]; simp [e]
  · next e => split <;> simp [e]

theorem enterLifting_sameButNotices (s : State) (h : Head) (l : Link) :
    (s.port l).sameButNotices ((s.enterLifting h).port l) := by
  simp only [State.enterLifting]
  split
  · have key := enterFaulted_sameButNotices
      (s.setChan h { s.chan h with state := .lifting, timeoutCount := 0, transferring := false }) h .drive l
    rw [setChan_port] at key; exact key
  · split <;> simp only [setChan_port] <;> exact sameButNotices_refl _

/-- R116: outside LOWERING and RUNNING a head's entry to LIFTING sends RUN no report. -/
theorem run_enterLifting_off (s : State) (h : Head) (h1 : s.run.jobState ≠ .lowering) (h2 : s.run.jobState ≠ .running) :
    (s.enterLifting h).run = s.run := by
  simp only [State.enterLifting]
  split
  · rw [run_enterFaulted, if_neg]
    · rfl
    · simp [h1, h2]
  · split <;> rfl

/-- R119: the lift command at its own channel. -/
theorem liftCommand_own (s : State) (h : Head) :
    (s.liftCommand h).chan h = (s.chan h).lifted (s.pin h) s.run.t := by
  rw [liftCommand_eq]
  unfold Channel.lifted
  split
  · rw [chan_enterLifting, if_pos rfl]
  · rfl

theorem liftCommand_getLsbD (s : State) (h : Head) (i : Nat) :
    (s.liftCommand h).event.status.getLsbD i = true ↔
      s.event.status.getLsbD i = true ∨ (s.chan h).faultsOnLift (s.pin h) = true ∧ i = 8 + h.val := by
  rw [liftCommand_eq]
  unfold Channel.faultsOnLift
  split
  · next e => rw [enterLifting_getLsbD]; simp [e]
  · next e => simp [e]

theorem liftCommand_sameButNotices (s : State) (h : Head) (l : Link) :
    (s.port l).sameButNotices ((s.liftCommand h).port l) := by
  rw [liftCommand_eq]
  split
  · exact enterLifting_sameButNotices s h l
  · exact sameButNotices_refl _

theorem run_liftCommand_off (s : State) (h : Head) (h1 : s.run.jobState ≠ .lowering) (h2 : s.run.jobState ≠ .running) :
    (s.liftCommand h).run = s.run := by
  rw [liftCommand_eq]
  split
  · exact run_enterLifting_off s h h1 h2
  · rfl

theorem port_foldLift (hs : List Head) (s : State) (l : Link) :
    (s.port l).sameButNotices ((hs.foldl (fun s h => s.liftCommand h) s).port l) := by
  induction hs generalizing s with
  | nil => exact sameButNotices_refl _
  | cons h hs ih => exact sameButNotices_trans (liftCommand_sameButNotices s h l) (ih _)

theorem run_foldLift (hs : List Head) (s : State) (h1 : s.run.jobState ≠ .lowering) (h2 : s.run.jobState ≠ .running) :
    (hs.foldl (fun s h => s.liftCommand h) s).run = s.run := by
  induction hs generalizing s with
  | nil => rfl
  | cons h hs ih =>
    have e := run_liftCommand_off s h h1 h2
    refine (ih _ ?_ ?_).trans e <;> rw [e] <;> assumption

theorem chan_foldLift (hs : List Head) (hn : hs.Nodup) (s : State) (h1 : s.run.jobState ≠ .lowering)
    (h2 : s.run.jobState ≠ .running) (k : Head) :
    (hs.foldl (fun s h => s.liftCommand h) s).chan k =
      if k ∈ hs then (s.chan k).lifted (s.pin k) s.run.t else s.chan k := by
  induction hs generalizing s with
  | nil => simp
  | cons h hs ih =>
    have e := run_liftCommand_off s h h1 h2
    have hn' := List.nodup_cons.1 hn
    rw [List.foldl_cons, ih hn'.2 _ (by rw [e]; exact h1) (by rw [e]; exact h2)]
    have hp : (s.liftCommand h).pin k = s.pin k := by simp [State.pin]
    by_cases hk : k = h
    · subst hk
      rw [if_neg hn'.1, if_pos (by simp)]
      exact liftCommand_own s k
    · rw [chan_liftCommand_ne s _ _ hk, hp, e]
      simp [hk]

theorem status_foldLift (hs : List Head) (hn : hs.Nodup) (s : State) (i : Nat) :
    (hs.foldl (fun s h => s.liftCommand h) s).event.status.getLsbD i = true ↔
      s.event.status.getLsbD i = true ∨ ∃ h ∈ hs, (s.chan h).faultsOnLift (s.pin h) = true ∧ i = 8 + h.val := by
  induction hs generalizing s with
  | nil => simp
  | cons h hs ih =>
    have hn' := List.nodup_cons.1 hn
    rw [List.foldl_cons, ih hn'.2, liftCommand_getLsbD]
    have hp : ∀ k, (s.liftCommand h).pin k = s.pin k := fun k => by simp [State.pin]
    have hc : ∀ k ∈ hs, (s.liftCommand h).chan k = s.chan k := fun k hk =>
      chan_liftCommand_ne s _ _ fun e => hn'.1 (e ▸ hk)
    constructor
    · rintro ((a | a) | ⟨k, hk, a, b⟩)
      · exact .inl a
      · exact .inr ⟨h, by simp, a⟩
      · rw [hc k hk, hp] at a
        exact .inr ⟨k, by simp [hk], a, b⟩
    · rintro (a | ⟨k, hk, a, b⟩)
      · exact .inl (.inl a)
      · rcases List.mem_cons.1 hk with rfl | hk
        · exact .inl (.inr ⟨a, b⟩)
        · exact .inr ⟨k, hk, by rw [hc k hk, hp]; exact a, b⟩

theorem usedHeads_nodup (s : State) : s.usedHeads.Nodup := (by decide : allHeads.Nodup).filter _

/-- R25, R29: the lift of the used heads outside LOWERING and RUNNING. -/
theorem liftUsed_spec (s : State) (h1 : s.run.jobState ≠ .lowering) (h2 : s.run.jobState ≠ .running) :
    let t := s.forUsed State.liftCommand
    t.run = s.run ∧
      (∀ h, t.chan h = if s.used h then (s.chan h).lifted (s.pin h) s.run.t else s.chan h) ∧
      (∀ i, t.event.status.getLsbD i = true ↔ s.event.status.getLsbD i = true ∨
        ∃ h : Head, s.used h = true ∧ (s.chan h).faultsOnLift (s.pin h) = true ∧ i = 8 + h.val) ∧
      ∀ l, (s.port l).sameButNotices (t.port l) := by
  refine ⟨run_foldLift _ s h1 h2, fun h => ?_, fun i => ?_, port_foldLift _ s⟩
  · refine (chan_foldLift _ (usedHeads_nodup s) s h1 h2 h).trans ?_
    simp only [mem_usedHeads]
  · refine (status_foldLift _ (usedHeads_nodup s) s i).trans ?_
    simp only [mem_usedHeads]

/-! ### The entries to HELD, DONE and ABORTED -/

/-- RUN's record after an entry to HELD: a report sent by the lifts there is none. -/
theorem run_enterHeld (s : State) (r : HoldReason) : (s.enterHeld r).run = s.run.stop .held r :=
  (liftUsed_spec { s with run := s.run.stop .held r } (by simp) (by simp)).1

theorem run_enterDone (s : State) : s.enterDone.run = s.run.stop .done .none :=
  (liftUsed_spec { s with run := s.run.stop .done .none } (by simp) (by simp)).1

theorem applyWrite_run (w : TableWrite) (s : State) : (s.applyWrite w).run = s.run := by
  unfold State.applyWrite
  split
  · rfl
  · rfl
  · dsimp only; split <;> rfl

/-- The waiting writes leave RUN's record. -/
theorem finishWrites_run (s : State) : s.finishWrites.run = s.run := by
  have key : ∀ (qs : List QueuedWrite) (t : State), (qs.foldl (fun s q => s.finishWrite q) t).run = t.run := by
    intro qs
    induction qs with
    | nil => intro t; rfl
    | cons q qs ih => intro t; exact (ih _).trans ((queueReply_run _ _ _).trans (applyWrite_run _ _))
  exact key _ s

theorem run_enterAborted (s : State) : s.enterAborted.run = { s.run.stop .aborted .none with markers := [] } := by
  have e : ∀ x : State, x.abandonBuild.run = x.run := fun x => finishWrites_run _
  refine (liftUsed_spec _ ?_ ?_).1.trans ?_ <;> simp only [mapChans_run, e]
  · simp
  · simp

/-- R26, R124, R147: a track retired as damaged leaves no fault report under way, and the job is out of RUNNING. -/
theorem retireDamaged_stops (s : State) (cause : Cause) (heads : BitVec 4) :
    (s.retireDamaged cause heads).run.reports = [] ∧
      (s.retireDamaged cause heads).run.jobState ∈ [JobState.held, .done, .aborted] := by
  unfold State.retireDamaged
  split
  · dsimp only
    split
    · rw [run_enterDone]; simp
    · rw [run_enterHeld]; simp
  · rw [run_enterAborted]; simp

end Sys2Proof.Machine
end

