-- ==== Sys2Proof/Laws/Memory.lean ====
section
/-!
SUPPORT. The page memory: every write keeps the canonical form, a written page reads as it was written, and every other
address reads as before (R36).
-/

namespace Sys2Proof.Machine.Memory

/-! ### Cells laid from an address on -/

theorem mem_cells {a : Nat} {bs : List Byte} {c : Host.Cell} (h : c ∈ cells a bs) :
    a ≤ c.1 ∧ c.1 < a + bs.length ∧ c.2 ≠ unlisted ∧ bs[c.1 - a]? = some c.2 := by
  induction bs generalizing a with
  | nil => simp [cells] at h
  | cons b bs ih =>
    have later : c ∈ cells (a + 1) bs → a ≤ c.1 ∧ c.1 < a + (b :: bs).length ∧ c.2 ≠ unlisted ∧
        (b :: bs)[c.1 - a]? = some c.2 := by
      intro h
      obtain ⟨h1, h2, h3, h4⟩ := ih h
      refine ⟨by omega, by simp; omega, h3, ?_⟩
      rw [show c.1 - a = (c.1 - (a + 1)) + 1 by omega]
      simpa using h4
    unfold cells at h
    split at h
    · exact later h
    · next hb =>
      rcases List.mem_cons.1 h with rfl | h
      · exact ⟨le_rfl, by simp, hb, by simp⟩
      · exact later h

theorem cells_pairwise (a : Nat) (bs : List Byte) : (cells a bs).Pairwise fun x y => x.1 < y.1 := by
  induction bs generalizing a with
  | nil => exact List.Pairwise.nil
  | cons b bs ih =>
    unfold cells
    split
    · exact ih (a + 1)
    · exact List.pairwise_cons.2 ⟨fun c hc => (mem_cells hc).1, ih (a + 1)⟩

/-- A byte that is listed among the cells, if it is not an unlisted one. -/
theorem cells_mem {a i : Nat} {bs : List Byte} {b : Byte} (h : bs[i]? = some b) (hb : b ≠ unlisted) :
    (a + i, b) ∈ cells a bs := by
  induction bs generalizing a i with
  | nil => simp at h
  | cons x bs ih =>
    unfold cells
    cases i with
    | zero =>
      simp only [List.getElem?_cons_zero, Option.some.injEq] at h
      subst h
      simp [hb]
    | succ i =>
      have := ih (a := a + 1) (i := i) (by simpa using h)
      rw [show a + 1 + i = a + (i + 1) by omega] at this
      split
      · exact this
      · exact List.mem_cons_of_mem _ this

/-! ### Reading in canonical memory -/

/-- In a memory of rising addresses a listed cell is what its address reads as. -/
theorem read_of_mem {m : List Host.Cell} (hm : m.Pairwise fun a b => a.1 < b.1) {c : Host.Cell} (hc : c ∈ m) :
    read m c.1 = c.2 := by
  induction m with
  | nil => cases hc
  | cons x m ih =>
    rw [List.pairwise_cons] at hm
    unfold read
    rcases List.mem_cons.1 hc with rfl | hc'
    · simp
    · have : (x.1 == c.1) = false := by
        have := hm.1 c hc'
        simp; omega
      simp only [List.find?_cons, this]
      exact ih hm.2 hc'

theorem read_of_not_mem {m : List Host.Cell} {a : Nat} (h : ∀ c ∈ m, c.1 ≠ a) : read m a = unlisted := by
  unfold read
  rw [List.find?_eq_none.2 (by simpa using h)]

/-! ### A page written -/

theorem base_add_le (p : Page) : base p + 256 ≤ size := by
  have := p.isLt
  simp only [base, size, Config.tonesPerPage, Config.pageCount]; omega

theorem mem_writePage {m : List Host.Cell} {p : Page} {tones : List Byte} {c : Host.Cell} :
    c ∈ writePage m p tones ↔
      (c ∈ m ∧ (c.1 < base p ∨ base p + 256 ≤ c.1)) ∨ c ∈ cells (base p) (tones.take 256) := by
  simp only [writePage, List.mem_append, List.mem_filter, decide_eq_true_eq]
  simp only [Config.tonesPerPage]
  tauto

theorem writePage_wf {m : List Host.Cell} (hm : wf m) (p : Page) (tones : List Byte) : wf (writePage m p tones) := by
  have hlen : (tones.take 256).length ≤ 256 := by simp
  refine ⟨?_, fun c hc => ?_⟩
  · simp only [writePage, List.pairwise_append, List.mem_append, List.mem_filter, decide_eq_true_eq]
    simp only [Config.tonesPerPage]
    refine ⟨⟨hm.1.filter _, cells_pairwise _ _, fun a ha b hb => ?_⟩, hm.1.filter _, fun a ha b hb => ?_⟩
    · have := (mem_cells hb).1; omega
    · rcases ha with ha | ha
      · omega
      · have := (mem_cells ha).2.1; omega
  · rcases mem_writePage.1 hc with h | h
    · exact hm.2 c h.1
    · have hc' := mem_cells h
      have := base_add_le p
      exact ⟨hc'.2.2.1, by omega⟩

/-- An address outside the page reads as before. -/
theorem read_writePage_other {m : List Host.Cell} (hm : wf m) (p : Page) (tones : List Byte) {a : Nat}
    (ha : a < base p ∨ base p + 256 ≤ a) : read (writePage m p tones) a = read m a := by
  have hlen : (tones.take 256).length ≤ 256 := by simp
  by_cases h : ∃ c ∈ m, c.1 = a
  · obtain ⟨c, hc, rfl⟩ := h
    rw [read_of_mem hm.1 hc, read_of_mem (writePage_wf hm p tones).1 (mem_writePage.2 (.inl ⟨hc, ha⟩))]
  · push Not at h
    rw [read_of_not_mem h, read_of_not_mem]
    intro c hc
    rcases mem_writePage.1 hc with hc | hc
    · exact h c hc.1
    · have := mem_cells hc
      omega

/-- A position of the page reads as the tone written there, and 0 past the last. -/
theorem read_writePage {m : List Host.Cell} (hm : wf m) (p : Page) (tones : List Byte) {x : Nat} (hx : x < 256) :
    read (writePage m p tones) (base p + x) = tones.getD x unlisted := by
  have hw := (writePage_wf hm p tones).1
  have hlisted : ∀ c : Host.Cell, c ∈ writePage m p tones → c.1 = base p + x → tones[x]? = some c.2 := by
    intro c hc e
    rcases mem_writePage.1 hc with h | h
    · omega
    · have := (mem_cells h).2.2.2
      rw [e, Nat.add_sub_cancel_left, List.getElem?_take_of_lt hx] at this
      exact this
  by_cases h : ∃ c ∈ writePage m p tones, c.1 = base p + x
  · obtain ⟨c, hc, e⟩ := h
    rw [← e, read_of_mem hw hc, List.getD_eq_getElem?_getD, hlisted c hc e, Option.getD_some]
  · push Not at h
    rw [read_of_not_mem h, List.getD_eq_getElem?_getD]
    cases ht : tones[x]? with
    | none => rfl
    | some b =>
      by_cases hb : b = unlisted
      · rw [hb]; rfl
      · refine absurd rfl (h (base p + x, b) (mem_writePage.2 (.inr (cells_mem ?_ hb))))
        rw [List.getElem?_take_of_lt hx]; exact ht

/-! ### A row written -/

theorem writeRow_wf {m : List Host.Cell} (hm : wf m) (ps : List Page) (tones : List Byte) : wf (writeRow m ps tones) := by
  induction ps generalizing m tones with
  | nil => exact hm
  | cons p ps ih => exact ih (writePage_wf hm p tones) _

/-- An address in none of the pages reads as before. -/
theorem read_writeRow_other {m : List Host.Cell} (hm : wf m) (ps : List Page) (tones : List Byte) {a : Nat}
    (ha : ∀ p ∈ ps, a < base p ∨ base p + 256 ≤ a) : read (writeRow m ps tones) a = read m a := by
  induction ps generalizing m tones with
  | nil => rfl
  | cons p ps ih =>
    rw [writeRow, ih (writePage_wf hm p tones) _ fun q hq => ha q (List.mem_cons_of_mem _ hq)]
    exact read_writePage_other hm p tones (ha p List.mem_cons_self)

/-- Distinct pages lie apart. -/
theorem base_apart {p q : Page} (h : p ≠ q) {x : Nat} (hx : x < 256) :
    base p + x < base q ∨ base q + 256 ≤ base p + x := by
  have : p.val ≠ q.val := fun e => h (Fin.ext e)
  simp only [base, Config.tonesPerPage]
  omega

/-- Position x of the j-th page taken reads as tone 256 j + x of the row, and 0 past the last (R36, R45). -/
theorem read_writeRow {m : List Host.Cell} (hm : wf m) {ps : List Page} (hd : ps.Nodup) (tones : List Byte) {j x : Nat}
    (hj : j < ps.length) (hx : x < 256) :
    read (writeRow m ps tones) (base ps[j] + x) = tones.getD (256 * j + x) unlisted := by
  induction ps generalizing m tones j with
  | nil => simp at hj
  | cons p ps ih =>
    rw [List.nodup_cons] at hd
    rw [writeRow]
    cases j with
    | zero =>
      simp only [List.getElem_cons_zero, Nat.mul_zero, Nat.zero_add]
      rw [read_writeRow_other (writePage_wf hm p tones) _ _
        fun q hq => base_apart (fun e => hd.1 (by rw [e]; exact hq)) hx]
      exact read_writePage hm p tones hx
    | succ j =>
      have := ih (writePage_wf hm p tones) hd.2 (tones.drop 256) (j := j) (by simpa using hj)
      simp only [List.getElem_cons_succ, Config.tonesPerPage]
      rw [this]
      simp only [List.getD_eq_getElem?_getD, List.getElem?_drop]
      congr 2
      omega

/-- Nothing listed is canonical. -/
theorem wf_nil : wf [] := by simp [wf]

end Sys2Proof.Machine.Memory
end

