-- ==== Sys2Proof/Laws/Store.lean ====
section
/-!
SUPPORT. STORE: each operation moves pages between the free-page list and the directories and loses none (R37), and what
each does to a slot.
-/

namespace Sys2Proof.Machine

/-! ### One slot replaced -/

@[simp] theorem setSlot_freePages (st : Store) (n : Nat) (x : Slot) : (st.setSlot n x).freePages = st.freePages := rfl
@[simp] theorem setSlot_memory (st : Store) (n : Nat) (x : Slot) : (st.setSlot n x).memory = st.memory := rfl
@[simp] theorem release_memory (st : Store) (ps : List Page) : (st.release ps).memory = st.memory := rfl
@[simp] theorem release_slots (st : Store) (ps : List Page) : (st.release ps).slots = st.slots := rfl
@[simp] theorem release_freePages (st : Store) (ps : List Page) : (st.release ps).freePages = st.freePages ++ ps := rfl
@[simp] theorem release_slot (st : Store) (ps : List Page) (n : Nat) : (st.release ps).slot n = st.slot n := rfl

theorem slot_of_ge {st : Store} {n : Nat} (h : 16 ≤ n) : st.slot n = Slot.reset := by
  simp [Store.slot, Vector.getElem?_eq_none_iff.2 h]

theorem slot_of_lt {st : Store} {n : Nat} (h : n < 16) : st.slot n = st.slots[n] := by
  simp [Store.slot, h]

theorem slot_setSlot (st : Store) (n m : Nat) (x : Slot) :
    (st.setSlot n x).slot m = if n = m ∧ m < 16 then x else st.slot m := by
  unfold Store.slot Store.setSlot
  rw [Vector.getElem?_setIfInBounds]
  split
  · next h => subst h; split <;> simp_all
  · next h => simp [h]

theorem setSlot_of_ge {st : Store} {n : Nat} {x : Slot} (h : 16 ≤ n) : st.setSlot n x = st := by
  unfold Store.setSlot
  rw [Vector.setIfInBounds_eq_of_size_le h]

/-! ### Pages -/

/-- Putting a member of a list in place of another moves what each contributes. -/
theorem flatMap_set_perm {α β : Type} (f : α → List β) (l : List α) (n : Nat) (h : n < l.length) (x : α) :
    ((l.set n x).flatMap f ++ f l[n]).Perm (l.flatMap f ++ f x) := by
  induction l generalizing n with
  | nil => simp at h
  | cons a l ih =>
    cases n with
    | zero =>
      simp only [List.set_cons_zero, List.flatMap_cons, List.getElem_cons_zero]
      exact (List.perm_append_comm.trans (List.Perm.append_left _ List.perm_append_comm)).trans
        (List.Perm.of_eq (List.append_assoc _ _ _).symm)
    | succ n =>
      simp only [List.set_cons_succ, List.flatMap_cons, List.getElem_cons_succ, List.append_assoc]
      exact (ih n (by simpa using h)).append_left _

/-- Replacing a slot's directory moves the pages of the two directories. -/
theorem heldPages_setSlot (st : Store) (n : Nat) (x : Slot) (h : n < 16) :
    ((st.setSlot n x).heldPages ++ directoryPages (st.slot n).directory).Perm
      (st.heldPages ++ directoryPages x.directory) := by
  have e : (st.setSlot n x).slots.toList = st.slots.toList.set n x := by
    simp [Store.setSlot]
  unfold Store.heldPages
  rw [e, slot_of_lt h]
  have := flatMap_set_perm (fun y : Slot => directoryPages y.directory) st.slots.toList n (by simpa using h) x
  simpa using this

/-- Taking a use keeps every page in the directory or among the released. -/
theorem takeUse_pages (row : Nat) (d : List RowRecord) :
    (directoryPages (takeUse row d).1 ++ (takeUse row d).2).Perm (directoryPages d) := by
  induction d with
  | nil => simp [takeUse, directoryPages]
  | cons r d ih =>
    unfold takeUse
    split
    · split
      · simp only [directoryPages, List.flatMap_cons]
        exact List.perm_append_comm
      · simp [directoryPages]
    · simp only [directoryPages, List.flatMap_cons, List.append_assoc] at ih ⊢
      exact ih.append_left _

/-- R50, R51: a decrement keeps the pages. -/
theorem decrement_pages (e : Nat × Nat) (st : Store) :
    ((st.decrement e).freePages ++ (st.decrement e).heldPages).Perm (st.freePages ++ st.heldPages) := by
  have key : ∀ y : Slot, y.directory = (takeUse e.2 (st.slot e.1).directory).1 →
      (((st.setSlot e.1 y).release (takeUse e.2 (st.slot e.1).directory).2).freePages ++
        ((st.setSlot e.1 y).release (takeUse e.2 (st.slot e.1).directory).2).heldPages).Perm
          (st.freePages ++ st.heldPages) := by
    intro y hy
    have hr : ∀ (st : Store) ps, (st.release ps).heldPages = st.heldPages := fun _ _ => rfl
    rw [hr, release_freePages]
    by_cases h : e.1 < 16
    · have hx := heldPages_setSlot st e.1 y h
      have ht := takeUse_pages e.2 (st.slot e.1).directory
      rw [hy] at hx
      rw [List.perm_iff_count] at hx ht ⊢
      intro p
      have hx := hx p
      have ht := ht p
      simp only [List.count_append, setSlot_freePages] at hx ht ⊢
      omega
    · have h : 16 ≤ e.1 := by omega
      rw [setSlot_of_ge h, slot_of_ge h]
      simp [Slot.reset, takeUse]
  exact key _ rfl

/-- R50: the decrements of a completion keep the pages. -/
theorem decrementAll_pages (rows : List (Nat × Nat)) (st : Store) :
    ((st.decrementAll rows).freePages ++ (st.decrementAll rows).heldPages).Perm (st.freePages ++ st.heldPages) := by
  induction rows generalizing st with
  | nil => exact List.Perm.refl _
  | cons e rows ih => exact (ih (st.decrement e)).trans (decrement_pages e st)

@[simp] theorem decrement_memory (e : Nat × Nat) (st : Store) : (st.decrement e).memory = st.memory := rfl

@[simp] theorem decrementAll_memory (rows : List (Nat × Nat)) (st : Store) : (st.decrementAll rows).memory = st.memory := by
  induction rows generalizing st with
  | nil => rfl
  | cons e rows ih => exact (ih (st.decrement e)).trans rfl

/-- R54: after the release of an abort the free-page list has every page, and no directory has any. -/
theorem abortRelease_heldPages (st : Store) : st.abortRelease.heldPages = [] := by
  simp [Store.heldPages, Store.abortRelease, directoryPages]

theorem abortRelease_pages (st : Store) :
    st.abortRelease.freePages ++ st.abortRelease.heldPages = st.freePages ++ st.heldPages := by
  rw [abortRelease_heldPages]; simp [Store.abortRelease]

@[simp] theorem abortRelease_memory (st : Store) : st.abortRelease.memory = st.memory := rfl

/-- R53: a slot released keeps the pages. -/
theorem releaseSlot_pages (n : Nat) (s : State) (h : n < 16) :
    ((s.releaseSlot n).store.freePages ++ (s.releaseSlot n).store.heldPages).Perm
      (s.store.freePages ++ s.store.heldPages) := by
  have hx := heldPages_setSlot s.store n Slot.reset h
  rw [List.perm_iff_count] at hx ⊢
  intro p
  have hx := hx p
  have : (s.releaseSlot n).store.heldPages = (s.store.setSlot n Slot.reset).heldPages := rfl
  rw [this]
  simp only [State.releaseSlot, List.count_append, release_freePages, setSlot_freePages, Slot.reset,
    directoryPages, List.flatMap_nil, List.count_nil] at hx ⊢
  omega

/-- R45, R38: what an allocation leaves: STORE without the pages, and everything that a raise leaves. -/
theorem allocate_store (k : Nat) (s : State) :
    (s.allocate k).store = { s.store with freePages := s.store.freePages.drop k } := by
  simp only [State.allocate]; split <;> rfl

/-- R45: a stored row's pages leave the free-page list for its record. -/
theorem storeRow_pages (o : RowOperands) (u : Nat) (tones : List Byte) (s : State) (h : o.slot < 16) :
    ((s.storeRow o u tones).store.freePages ++ (s.storeRow o u tones).store.heldPages).Perm
      (s.store.freePages ++ s.store.heldPages) := by
  have hs : (s.storeRow o u tones).store =
      ({ (s.allocate (s.store.slot o.slot).pagesPerRow).store with
          memory := Memory.writeRow (s.allocate (s.store.slot o.slot).pagesPerRow).store.memory
            (s.store.freePages.take (s.store.slot o.slot).pagesPerRow) tones } : Store).setSlot o.slot
        ((s.store.slot o.slot).received ((s.store.slot o.slot).directory ++
          [⟨o.row, u, s.store.freePages.take (s.store.slot o.slot).pagesPerRow⟩])) := rfl
  rw [hs, allocate_store]
  have hx := heldPages_setSlot s.store o.slot ((s.store.slot o.slot).received ((s.store.slot o.slot).directory ++
          [⟨o.row, u, s.store.freePages.take (s.store.slot o.slot).pagesPerRow⟩])) h
  have hf := List.take_append_drop (s.store.slot o.slot).pagesPerRow s.store.freePages
  rw [List.perm_iff_count] at hx ⊢
  intro p
  have hx := hx p
  have hf := congrArg (List.count p) hf
  simp only [List.count_append, setSlot_freePages, Slot.received, directoryPages, List.flatMap_append,
    List.flatMap_cons, List.flatMap_nil, List.append_nil] at hx hf ⊢
  have hh : ∀ (st : Store) (fs : List Page) (m : List Host.Cell) (y : Slot),
      (Store.setSlot { st with freePages := fs, memory := m } o.slot y).heldPages = (st.setSlot o.slot y).heldPages :=
    fun _ _ _ _ => rfl
  rw [hh s.store]
  omega

/-- R46: a row counted and not stored moves no page. -/
theorem countRow_pages (o : RowOperands) (s : State) (h : o.slot < 16) :
    ((s.countRow o).store.freePages ++ (s.countRow o).store.heldPages).Perm (s.store.freePages ++ s.store.heldPages) := by
  have hx := heldPages_setSlot s.store o.slot ((s.store.slot o.slot).received (s.store.slot o.slot).directory) h
  exact ((List.perm_append_right_iff _).1 hx).append_left _

end Sys2Proof.Machine
end

