-- ==== Sys2Proof/Laws/Moves.lean ====
section
/-!
SUPPORT. Everything a command can do to STORE, PLACE and the header, said once: `exec_moves`.
-/

namespace Sys2Proof.Machine

/-- STORE, PLACE and the header are as they were. -/
def State.keepsImage (s t : State) : Prop := t.store = s.store ∧ t.place = s.place ∧ t.run.header = s.run.header

theorem keepsImage_refl (s : State) : s.keepsImage s := ⟨rfl, rfl, rfl⟩

theorem keepsImage_trans {s t u : State} (h : s.keepsImage t) (k : t.keepsImage u) : s.keepsImage u :=
  ⟨k.1.trans h.1, k.2.1.trans h.2.1, k.2.2.trans h.2.2⟩

theorem setPort_keepsImage (s : State) (l : Link) (x : Port) : s.keepsImage (s.setPort l x) := by
  simp [State.keepsImage]

theorem raise_keepsImage (s : State) (b : StatusBit) : s.keepsImage (s.raise b) := ⟨rfl, rfl, rfl⟩

theorem raiseAll_keepsImage (bs : List StatusBit) (s : State) : s.keepsImage (s.raiseAll bs) :=
  raiseAll_keeps (fun s b h => keepsImage_trans h (raise_keepsImage s b)) bs (keepsImage_refl s)

theorem enterFaulted_keepsImage (h : Head) (c : Cause) (s : State) : s.keepsImage (s.enterFaulted h c) := by
  refine ⟨by simp, by simp, ?_⟩
  rw [run_enterFaulted_eq]

theorem enterLifting_keepsImage (h : Head) (s : State) : s.keepsImage (s.enterLifting h) := by
  refine ⟨by simp, by simp, ?_⟩
  rw [run_enterLifting_eq]

theorem liftUsed_keepsImage (s : State) : s.keepsImage (s.forUsed State.liftCommand) := by
  refine ⟨by simp, by simp, ?_⟩
  rw [run_liftUsed_eq]

theorem enterHeld_keepsImage (r : HoldReason) (s : State) : s.keepsImage (s.enterHeld r) :=
  keepsImage_trans (t := { s with run := s.run.stop .held r })
    ⟨rfl, rfl, rfl⟩ (keepsImage_trans (liftUsed_keepsImage _) (raise_keepsImage _ _))

theorem enterDone_keepsImage (s : State) : s.keepsImage s.enterDone :=
  keepsImage_trans (t := { s with run := s.run.stop .done .none })
    ⟨rfl, rfl, rfl⟩ (keepsImage_trans (liftUsed_keepsImage _) (raise_keepsImage _ _))

theorem applyWrite_keepsImage (w : TableWrite) (s : State) : s.keepsImage (s.applyWrite w) := by
  unfold State.applyWrite
  split
  · exact ⟨rfl, rfl, rfl⟩
  · exact ⟨rfl, rfl, rfl⟩
  · dsimp only; split <;> exact ⟨rfl, rfl, rfl⟩

theorem finishWrite_keepsImage (q : QueuedWrite) (s : State) : s.keepsImage (s.finishWrite q) :=
  keepsImage_trans (applyWrite_keepsImage _ _) (setPort_keepsImage _ _ _)

theorem finishWrites_keepsImage (s : State) : s.keepsImage s.finishWrites := by
  have key : ∀ (qs : List QueuedWrite) (t : State), s.keepsImage t → s.keepsImage (qs.foldl (fun s q => s.finishWrite q) t) := by
    intro qs
    induction qs with
    | nil => intro t h; exact h
    | cons q qs ih => intro t h; exact ih _ (keepsImage_trans h (finishWrite_keepsImage q t))
  exact keepsImage_trans (key _ s (keepsImage_refl s)) ⟨rfl, rfl, rfl⟩

theorem readiness_keepsImage (s : State) : s.keepsImage s.readiness := by
  unfold State.readiness
  split
  · exact ⟨rfl, rfl, rfl⟩
  · have hs : s.keepsImage s.slip :=
      keepsImage_trans (t := { s with run := { s.run with phase := .slip, holdCounter := _, totalSlips := _ } })
        ⟨rfl, rfl, rfl⟩ (raise_keepsImage _ _)
    dsimp only
    split
    · exact keepsImage_trans hs (enterHeld_keepsImage _ _)
    · exact hs

theorem fireMarkers_keepsImage (s : State) : s.keepsImage s.fireMarkers :=
  keepsImage_trans (t := { s with run := { s.run with markers := _ } }) ⟨rfl, rfl, rfl⟩ (raiseAll_keepsImage _ _)

theorem pulseStep_keepsImage (s : State) : s.keepsImage s.pulseStep := ⟨rfl, rfl, rfl⟩

theorem advanceTrack_keepsImage (s : State) : s.keepsImage s.advanceTrack := ⟨rfl, rfl, rfl⟩

theorem advanceOver_keepsImage {s t : State} (h : s.keepsImage t) :
    s.keepsImage t.pulseStep.fireMarkers.advanceTrack :=
  keepsImage_trans h (keepsImage_trans (pulseStep_keepsImage t)
    (keepsImage_trans (fireMarkers_keepsImage _) (advanceTrack_keepsImage _)))

theorem removeDamaged_keepsImage (s : State) : s.keepsImage s.removeDamaged := ⟨rfl, rfl, rfl⟩

theorem appendDamage_keepsImage (r : DamageRecord) (s : State) : s.keepsImage (s.appendDamage r) := by
  unfold State.appendDamage; split <;> exact ⟨rfl, rfl, rfl⟩

theorem shortCommand_keepsImage (h : Head) (s : State) : s.keepsImage (s.shortCommand h) := by
  unfold State.shortCommand; split
  · exact enterFaulted_keepsImage _ _ _
  all_goals exact keepsImage_refl s

/-- The end of a job as ABORTED frees every row record; window table and header stay. -/
theorem enterAborted_image (s : State) :
    s.enterAborted.store = s.store.abortRelease ∧ s.enterAborted.place = s.place ∧
      s.enterAborted.run.header = s.run.header := by
  have key : ∀ t u : State, t.keepsImage u →
      (({ u with store := u.store.abortRelease }).raise .aborted).store = t.store.abortRelease ∧
      (({ u with store := u.store.abortRelease }).raise .aborted).place = t.place ∧
      (({ u with store := u.store.abortRelease }).raise .aborted).run.header = t.run.header := by
    rintro t u ⟨h1, h2, h3⟩
    exact ⟨by simp [h1], by simp [h2], by simp [h3]⟩
  refine key s _ ?_
  refine keepsImage_trans ?_ (liftUsed_keepsImage _)
  refine keepsImage_trans (t := State.finishWrites _) ?_ ⟨rfl, rfl, rfl⟩
  exact keepsImage_trans ⟨rfl, rfl, rfl⟩ (finishWrites_keepsImage _)

/-- What a command can do to STORE, PLACE and the header. -/
inductive ImageMove (s t : State) : Prop
  /-- Nothing. -/
  | kept (h : s.keepsImage t)
  /-- A reset, JOPEN or JCLOSE. -/
  | cleared (hs : t.store = s.store.cleared) (hp : t.place = clearedPlace)
      (hh : 512 ≤ t.run.header.cellsPerRev ∧ t.run.header.cellsPerRev ≤ 16384)
  /-- SDEF. -/
  | defined (n width height : Nat) (h : s.checkSdef n width height = none) (hs : t.store = (s.defineSlot n width height).store)
      (hp : t.place = s.place) (hh : t.run.header = s.run.header)
  /-- SREL. -/
  | released (n : Nat) (h : s.checkSrel n = none) (hs : t.store = (s.releaseSlot n).store) (hp : t.place = s.place)
      (hh : t.run.header = s.run.header)
  /-- A ROW with no uses. -/
  | counted (o : RowOperands) (length : Nat) (h : s.checkRow o length 0 = none) (hu : s.useCount o.slot o.row = 0)
      (hs : t.store = (s.countRow o).store) (hp : t.place = s.place) (hh : t.run.header = s.run.header)
  /-- A ROW with uses. -/
  | stored (o : RowOperands) (length : Nat) (tones : List Byte) (h : s.checkRow o length (s.useCount o.slot o.row) = none)
      (hu : s.useCount o.slot o.row ≠ 0) (hs : t.store = (s.storeRow o (s.useCount o.slot o.row) tones).store)
      (hp : t.place = s.place) (hh : t.run.header = s.run.header)
  /-- The end of a job as ABORTED. -/
  | aborted (hs : t.store = s.store.abortRelease) (hp : t.place = s.place) (hh : t.run.header = s.run.header)
  /-- BUILD_COMPLETION. -/
  | completed (rows : List (Nat × Nat)) (hs : t.store = s.store.decrementAll rows) (hp : t.place = s.place)
      (hh : t.run.header = s.run.header)
  /-- WSET. -/
  | windowSet (n : Nat) (w : Window) (h : s.checkWset n w = none) (hs : t.store = s.store)
      (hp : t.place = s.place.setIfInBounds n w) (hh : t.run.header = s.run.header)

/-- A move seen through states that agree on what it reads. -/
theorem ImageMove.of_keeps {s s' t t' : State} (hs : s.keepsImage s') (hpl : s'.tables = s.tables)
    (ht : t'.keepsImage t) (h : ImageMove s' t') : ImageMove s t := by
  obtain ⟨h1, h2, h3⟩ := hs
  obtain ⟨k1, k2, k3⟩ := ht
  have hu : ∀ a b, s'.useCount a b = s.useCount a b := fun a b => by simp [State.useCount, h2]
  cases h with
  | kept h => exact .kept (keepsImage_trans ⟨h1, h2, h3⟩ (keepsImage_trans h ⟨k1, k2, k3⟩))
  | cleared a b c => exact .cleared (by rw [k1, a, h1]) (by rw [k2, b]) (by rw [k3]; exact c)
  | defined n w x h a b c =>
    exact .defined n w x (by simpa [State.checkSdef, h1, h3] using h) (by rw [k1, a]; simp [State.defineSlot, h1])
      (by rw [k2, b, h2]) (by rw [k3, c, h3])
  | released n h a b c =>
    exact .released n (by simpa [State.checkSrel, State.slotNamed, h2] using h)
      (by rw [k1, a]; simp [State.releaseSlot, h1]) (by rw [k2, b, h2]) (by rw [k3, c, h3])
  | counted o n h u a b c =>
    exact .counted o n (by simpa [State.checkRow, h1] using h) (by rw [← hu]; exact u)
      (by rw [k1, a]; simp [State.countRow, h1]) (by rw [k2, b, h2]) (by rw [k3, c, h3])
  | stored o n ts h u a b c =>
    rw [hu] at h u a
    refine .stored o n ts (by simpa [State.checkRow, h1] using h) u ?_ (by rw [k2, b, h2]) (by rw [k3, c, h3])
    rw [k1, a]
    simp only [State.storeRow, allocate_store, h1]
  | aborted a b c => exact .aborted (by rw [k1, a, h1]) (by rw [k2, b, h2]) (by rw [k3, c, h3])
  | completed r a b c => exact .completed r (by rw [k1, a, h1]) (by rw [k2, b, h2]) (by rw [k3, c, h3])
  | windowSet n w h a b c =>
    refine .windowSet n w ?_ (by rw [k1, a, h1]) (by rw [k2, b, h2]) (by rw [k3, c, h3])
    simp only [State.checkWset, State.standsInWay, State.sourceReady, State.insideImage, State.conflicts, State.window,
      h1, h2, h3, hpl] at h
    exact h

/-- A request's move is its owner's. -/
theorem serve_moves {s t : State} {l : Link} {c : ReqCode} {owner : List Word → State → Answer}
    (ho : ∀ p s, ImageMove s (owner p s).state) (h : serve c l owner s = .next t) : ImageMove s t := by
  rcases serve_cases h with rfl | ⟨f, rest, _, _, ⟨cc, _, rfl⟩ | ⟨_, rfl⟩⟩
  · exact .kept (keepsImage_refl _)
  · exact .kept (setPort_keepsImage _ _ _)
  · exact .of_keeps (setPort_keepsImage _ _ _) (by simp) (setPort_keepsImage _ _ _) (ho _ _)

theorem setPort_moves {s : State} (l : Link) (x : Port) {t : State} (h : ImageMove s t) : ImageMove s (t.setPort l x) :=
  .of_keeps (keepsImage_refl s) rfl (setPort_keepsImage _ _ _) h

theorem jobData_moves (s : State) (h : JobHeader) (j : JobState)
    (hh : 512 ≤ h.cellsPerRev ∧ h.cellsPerRev ≤ 16384) : ImageMove s (s.clearJobData h j) :=
  .cleared rfl rfl hh

theorem ownJopen_moves (p : List Word) (s : State) : ImageMove s (ownJopen p s).state := by
  unfold ownJopen
  split
  · exact .kept (keepsImage_refl s)
  · next h =>
    refine jobData_moves s _ _ ?_
    unfold State.checkJopen at h
    by_contra hn
    have : (JobHeader.ofWords p).fieldsInRange = false := by
      by_contra hf
      simp only [Bool.not_eq_false, JobHeader.fieldsInRange, Bool.and_eq_true, decide_eq_true_eq] at hf
      exact hn (by simp only [JobHeader.stored]; omega)
    simp only [this, Bool.not_false, if_true] at h
    split at h <;> simp at h

theorem startJob_keepsImage (s : State) : s.keepsImage s.startJob := ⟨rfl, rfl, rfl⟩

theorem resumeJob_keepsImage (s : State) : s.keepsImage s.resumeJob := ⟨rfl, rfl, rfl⟩

theorem enterAborted_moves {s t : State} (h : s.keepsImage t) : ImageMove s t.enterAborted := by
  obtain ⟨a, b, c⟩ := enterAborted_image t
  exact .aborted (by rw [a, h.1]) (by rw [b, h.2.1]) (by rw [c, h.2.2])

theorem retireDamaged_moves {s t : State} (c : Cause) (m : BitVec 4) (h : s.keepsImage t) :
    ImageMove s (t.retireDamaged c m) := by
  unfold State.retireDamaged
  split
  · have key : s.keepsImage (t.appendDamage (t.damageRecord c m)).removeDamaged.pulseStep.fireMarkers.advanceTrack :=
      advanceOver_keepsImage (keepsImage_trans h (keepsImage_trans (appendDamage_keepsImage _ _)
        (removeDamaged_keepsImage _)))
    dsimp only
    split
    · exact .kept (keepsImage_trans key (enterDone_keepsImage _))
    · exact .kept (keepsImage_trans key (enterHeld_keepsImage _ _))
  · exact enterAborted_moves (keepsImage_trans h (removeDamaged_keepsImage _))

theorem indexEvent_moves (s : State) : ImageMove s s.indexEvent := by
  unfold State.indexEvent
  cases s.run.jobState <;> dsimp only
  case lowering =>
    unfold State.settle
    split
    · dsimp only
      split
      · exact .kept (keepsImage_trans ⟨rfl, rfl, rfl⟩ (readiness_keepsImage _))
      · exact .kept ⟨rfl, rfl, rfl⟩
    · exact .kept ⟨rfl, rfl, rfl⟩
  case running =>
    split
    · unfold State.closeCut
      split
      · refine retireDamaged_moves _ _ ?_
        exact foldHeads_keeps (P := fun t => s.keepsImage t)
          (fun h t ht => keepsImage_trans ht (shortCommand_keepsImage h t)) _ (keepsImage_refl s)
      · have key : s.keepsImage s.retireTrack :=
          advanceOver_keepsImage (t := (s.command Channel.retire).forUsed State.wearCheck)
            ⟨by simp, by simp, by simp⟩
        dsimp only
        split
        · exact .kept (keepsImage_trans key (enterDone_keepsImage _))
        · split
          · exact .kept (keepsImage_trans key (enterHeld_keepsImage _ _))
          · exact .kept (keepsImage_trans key (readiness_keepsImage _))
    · exact .kept (readiness_keepsImage s)
  all_goals exact .kept (keepsImage_refl s)

theorem takeReport_moves (r : FaultReport) (s : State) : ImageMove s (s.takeReport r) := by
  unfold State.takeReport
  split
  · cases s.run.jobState <;> dsimp only
    case lowering => exact .kept (enterHeld_keepsImage _ _)
    case running =>
      split
      · exact retireDamaged_moves _ _ (keepsImage_refl s)
      · exact .kept (enterHeld_keepsImage _ _)
    all_goals exact .kept (keepsImage_refl s)
  · exact .kept (keepsImage_refl s)

theorem indexAtChannel_keepsImage (h : Head) (s : State) : s.keepsImage (s.indexAtChannel h) := by
  unfold State.indexAtChannel
  dsimp only
  split
  · cases (s.chan h).state <;> dsimp only
    case lowering | lifting =>
      split
      · exact keepsImage_trans ⟨rfl, rfl, rfl⟩ (enterFaulted_keepsImage _ _ _)
      · exact ⟨rfl, rfl, rfl⟩
    all_goals exact keepsImage_refl s
  · exact keepsImage_refl s

theorem inputEdge_keepsImage (s : State) (h : Head) (x : Pins) (b : Bool) {f : Head → State → State}
    (hf : ∀ h (s : State), s.keepsImage (f h s)) : s.keepsImage (s.inputEdge h x b f) := by
  unfold State.inputEdge
  dsimp only
  split
  · exact keepsImage_trans (t := s.setPin h x) ⟨rfl, rfl, rfl⟩ (hf _ _)
  · exact ⟨rfl, rfl, rfl⟩

theorem cold_moves (s : State) (x : BitVec 2) {t : State} (h : (s.cold x).keepsImage t) : ImageMove s t :=
  .cleared (by rw [h.1]; rfl) (by rw [h.2.1]; rfl) (by rw [h.2.2]; exact ⟨Nat.le_refl 512, show 512 ≤ 16384 by decide⟩)

theorem liftPresent_keepsImage (s : State) : s.keepsImage s.liftPresent :=
  foldHeads_keeps (P := fun t => s.keepsImage t) (fun h t ht => keepsImage_trans ht (enterLifting_keepsImage h t)) _
    (keepsImage_refl s)

theorem serveWrite_moves {s t : State} {l : Link} {c : ReqCode} {parse : List Word → Option TableWrite}
    (h : serveWrite c l parse s = .next t) : ImageMove s t := by
  refine .kept ?_
  unfold serveWrite settleStep at h
  cases ht : s.takeFrame l (InFrame.isRequest c) with
  | none => rw [ht] at h; injection h with h; subst h; exact keepsImage_refl s
  | some ft =>
    obtain ⟨rest, _, _, e⟩ := (takeFrame_eq_some s l).1 ht
    have hk : s.keepsImage ft.2 := by rw [e]; exact setPort_keepsImage _ _ _
    rw [ht] at h
    dsimp only at h
    split at h
    · injection h with h; subst h; exact keepsImage_trans hk (setPort_keepsImage _ _ _)
    · injection h with h; subst h
      refine keepsImage_trans hk ?_
      simp only [Option.getD_some, State.takeWrite]
      split
      · exact setPort_keepsImage _ _ _
      · split
        · exact keepsImage_trans (applyWrite_keepsImage _ _) (setPort_keepsImage _ _ _)
        · exact ⟨rfl, rfl, rfl⟩

theorem enable_keepsImage (l : Link) (m : StatusWord) (s : State) : s.keepsImage (s.enable l m) := by
  unfold State.enable
  dsimp only
  split
  · exact ⟨rfl, rfl, rfl⟩
  · exact keepsImage_trans ⟨rfl, rfl, rfl⟩ (setPort_keepsImage _ _ _)

theorem takeRow_moves (s : State) (p : List Word) : ImageMove s (s.takeRow p).2.2 := by
  unfold State.takeRow
  dsimp only
  split
  · exact .kept (keepsImage_refl s)
  · exact .kept (keepsImage_refl s)
  · next h =>
    split
    · next hu => rw [hu] at h; exact .counted _ _ h hu rfl rfl rfl
    · next hu =>
      refine .stored _ _ _ h hu rfl ?_ ?_ <;>
        · simp only [State.storeRow, State.allocate]; split <;> rfl

theorem receiveFrame_keepsImage (l : Link) (ws : List Word) (fin : FrameEnd) (s : State) :
    s.keepsImage (s.receiveFrame l ws fin) := by
  have hd : ∀ t : State, s.keepsImage t → s.keepsImage (t.discardFrame l) := fun t ht =>
    keepsImage_trans ht (keepsImage_trans (setPort_keepsImage _ _ _) (raise_keepsImage _ _))
  unfold State.receiveFrame
  dsimp only
  split
  · exact hd _ (setPort_keepsImage _ _ _)
  · split
    · exact keepsImage_trans (setPort_keepsImage _ _ _) (setPort_keepsImage _ _ _)
    · exact hd _ (setPort_keepsImage _ _ _)

theorem completeBuild_moves (b : BuildRecord) (s : State) : ImageMove s (s.completeBuild b) := by
  have h := finishWrites_keepsImage { s.setChan b.head { s.chan b.head with
      queue := (s.chan b.head).queue ++ [b.line] } with
    build := { s.build with nextTrack := s.build.nextTrack.set b.head.val (s.build.nextTrack[b.head.val] + 1)
                            inFlight := none }
    store := s.store.decrementAll b.rowList }
  exact .completed b.rowList h.1 h.2.1 h.2.2

theorem takeMarker_keepsImage (s : State) (p : List Word) : s.keepsImage (s.takeMarker p).2 := by
  unfold State.takeMarker
  dsimp only
  split
  · split
    · exact keepsImage_refl s
    · split
      · exact raise_keepsImage _ _
      · split <;> exact ⟨rfl, rfl, rfl⟩
  · exact keepsImage_refl s

/-- Every command makes one of these moves. -/
theorem exec_moves {c : Instr} {s t : State} (h : exec c s = .next t) : ImageMove s t := by
  have own : ∀ {l : Link} {c : ReqCode} {owner : List Word → State → Answer}, serve c l owner s = .next t →
      (∀ p (s : State), s.keepsImage (owner p s).state) → ImageMove s t :=
    fun h ho => serve_moves (fun p s => .kept (ho p s)) h
  have settled : ∀ {o : Option State}, settleStep s o = .next t → (∀ u, o = some u → ImageMove s u) → ImageMove s t := by
    intro o h ho
    cases o with
    | none => injection h with h; subst h; exact .kept (keepsImage_refl s)
    | some u => injection h with h; subst h; exact ho _ rfl
  have plain : ∀ {u : State}, (Host.Outcome.next u : Host.Outcome State Fault Refusal) = .next t → s.keepsImage u →
      ImageMove s t := by
    intro u h hk; injection h with h; subst h; exact .kept hk
  cases c with
  | powerOnReset x =>
    injection h with h; subst h; exact cold_moves s x (liftPresent_keepsImage _)
  | jopen l => exact serve_moves ownJopen_moves h
  | jstart l =>
    refine own h fun p s => ?_
    unfold ownJstart; split
    · exact keepsImage_refl s
    · exact startJob_keepsImage s
  | jhold l =>
    refine own h fun p s => ?_
    simp only [ownJhold, State.accept, State.holdJob]; split
    · exact ⟨rfl, rfl, rfl⟩
    · exact enterHeld_keepsImage _ _
  | jresume l =>
    refine own h fun p s => ?_
    unfold ownJresume; split
    · exact keepsImage_refl s
    · exact resumeJob_keepsImage s
  | jabort l =>
    refine serve_moves (fun p s => ?_) h
    refine enterAborted_moves ?_
    unfold State.abortCut; split
    · exact keepsImage_trans (appendDamage_keepsImage _ _) (removeDamaged_keepsImage _)
    · exact keepsImage_refl s
  | jclose l => exact serve_moves (fun p s => jobData_moves s _ _ (by decide)) h
  | jquery l | squery l | evclr l | evack l | evread l | ident l => exact own h fun p s => ⟨rfl, rfl, rfl⟩
  | sdef l =>
    refine serve_moves (fun p s => ?_) h
    unfold ownSdef; dsimp only; split
    · exact .kept (keepsImage_refl s)
    · next h => exact .defined _ _ _ h rfl rfl rfl
  | srel l =>
    refine serve_moves (fun p s => ?_) h
    unfold ownSrel; dsimp only; split
    · exact .kept (keepsImage_refl s)
    · next h => exact .released _ h rfl rfl rfl
  | wset l =>
    refine serve_moves (fun p s => ?_) h
    unfold ownWset; dsimp only; split
    · exact .kept (keepsImage_refl s)
    · split
      · exact .kept (keepsImage_refl s)
      · next h => exact .windowSet _ _ h rfl rfl rfl
  | wread l | tread l =>
    refine own h fun p s => ?_
    first | unfold ownWread | unfold ownTread
    dsimp only; split_ifs <;> exact keepsImage_refl s
  | hquery l =>
    refine own h fun p s => ?_
    unfold ownHquery; split <;> exact keepsImage_refl s
  | tload l | mload l | htrim l => exact serveWrite_moves h
  | hreset l =>
    refine own h fun p s => ?_
    unfold ownHreset; split
    · dsimp only; split
      · simp only [State.accept, State.resetHead]; split
        · exact keepsImage_trans ⟨rfl, rfl, rfl⟩ (enterLifting_keepsImage _ _)
        · exact ⟨rfl, rfl, rfl⟩
      · exact keepsImage_refl s
    · exact keepsImage_refl s
  | evset l => exact own h fun p s => enable_keepsImage _ _ s
  | dreset l =>
    refine settled h fun u hu => ?_
    cases ht : s.takeFrame l (InFrame.isRequest .dreset) with
    | none => rw [ht] at hu; cases hu
    | some ft =>
      obtain ⟨rest, _, _, e⟩ := (takeFrame_eq_some s l).1 ht
      have hk : s.keepsImage ft.2 := by rw [e]; exact setPort_keepsImage _ _ _
      rw [ht] at hu
      dsimp only at hu
      refine .kept (keepsImage_trans hk ?_)
      split at hu <;> injection hu with hu <;> subst hu
      · exact setPort_keepsImage _ _ _
      · exact keepsImage_trans (setPort_keepsImage _ _ _) (setPort_keepsImage _ _ _)
  | dresetTakesEffect =>
    refine settled h fun u hu => ?_
    split at hu
    · injection hu with hu; subst hu
      exact cold_moves s s.straps (keepsImage_trans ⟨rfl, rfl, rfl⟩ (liftPresent_keepsImage _))
    · cases hu
  | row l =>
    refine settled h fun u hu => ?_
    cases ht : s.takeFrame l InFrame.isRow with
    | none => rw [ht] at hu; cases hu
    | some ft =>
      obtain ⟨rest, _, _, e⟩ := (takeFrame_eq_some s l).1 ht
      have hk : s.keepsImage ft.2 := by rw [e]; exact setPort_keepsImage _ _ _
      rw [ht] at hu
      dsimp only at hu
      refine .of_keeps hk (by rw [e]; simp) (keepsImage_refl u) ?_
      split at hu <;> injection hu with hu <;> subst hu
      · exact .kept (setPort_keepsImage _ _ _)
      · exact setPort_moves _ _ (takeRow_moves _ _)
  | marker l =>
    refine settled h fun u hu => ?_
    cases ht : s.takeFrame l InFrame.isMarker with
    | none => rw [ht] at hu; cases hu
    | some ft =>
      obtain ⟨rest, _, _, e⟩ := (takeFrame_eq_some s l).1 ht
      have hk : s.keepsImage ft.2 := by rw [e]; exact setPort_keepsImage _ _ _
      rw [ht] at hu
      dsimp only at hu
      refine .kept (keepsImage_trans hk ?_)
      split at hu <;> injection hu with hu <;> subst hu
      · exact setPort_keepsImage _ _ _
      · exact keepsImage_trans (takeMarker_keepsImage _ _) (setPort_keepsImage _ _ _)
  | unknownRequest l =>
    refine settled h fun u hu => ?_
    cases ht : s.takeFrame l InFrame.isUnknown with
    | none => rw [ht] at hu; cases hu
    | some ft =>
      obtain ⟨rest, _, _, e⟩ := (takeFrame_eq_some s l).1 ht
      have hk : s.keepsImage ft.2 := by rw [e]; exact setPort_keepsImage _ _ _
      rw [ht] at hu
      injection hu with hu; subst hu
      exact .kept (keepsImage_trans hk (setPort_keepsImage _ _ _))
  | frameReceived l ws fin => exact plain h (receiveFrame_keepsImage _ _ _ _)
  | frameSent l what =>
    cases what <;> exact plain h (setPort_keepsImage _ _ _)
  | indexEvent => injection h with h; subst h; exact indexEvent_moves s
  | settleComplete | holdLimit =>
    refine settled h fun u hu => ?_
    split at hu
    · injection hu with hu; subst hu; exact indexEvent_moves s
    · cases hu
  | indexAtChannel k => exact plain h (indexAtChannel_keepsImage k s)
  | lowerTimeout k | liftTimeout k =>
    refine settled h fun u hu => ?_
    split at hu
    · injection hu with hu; subst hu; exact .kept (indexAtChannel_keepsImage k s)
    · cases hu
  | downAck k e =>
    refine plain h (inputEdge_keepsImage _ _ _ _ fun k s => ?_)
    unfold State.downAck; split
    · exact ⟨rfl, rfl, rfl⟩
    · exact enterFaulted_keepsImage _ _ _
    all_goals exact keepsImage_refl s
  | upAck k e =>
    refine plain h (inputEdge_keepsImage _ _ _ _ fun k s => ?_)
    unfold State.upAck; split
    · exact ⟨rfl, rfl, rfl⟩
    · exact enterFaulted_keepsImage _ _ _
    all_goals exact keepsImage_refl s
  | presenceGained k =>
    refine plain h (inputEdge_keepsImage _ _ _ _ fun k s => ?_)
    unfold State.presenceGained; split
    · exact enterLifting_keepsImage _ _
    all_goals exact keepsImage_refl s
  | presenceLost k =>
    refine plain h (inputEdge_keepsImage _ _ _ _ fun k s => ?_)
    unfold State.presenceLost; split
    · exact ⟨rfl, rfl, rfl⟩
    · exact enterFaulted_keepsImage _ _ _
    · exact enterFaulted_keepsImage _ _ _
    · exact enterFaulted_keepsImage _ _ _
    all_goals exact keepsImage_refl s
  | driveFault k e =>
    refine plain h (inputEdge_keepsImage _ _ _ _ fun k s => ?_)
    unfold State.driveFault; split
    · exact enterFaulted_keepsImage _ _ _
    · exact enterFaulted_keepsImage _ _ _
    · exact enterFaulted_keepsImage _ _ _
    · exact enterFaulted_keepsImage _ _ _
    all_goals exact keepsImage_refl s
  | lineTakenReport k e =>
    refine plain h (inputEdge_keepsImage _ _ _ _ fun k s => ?_)
    unfold State.lineTaken; dsimp only; split
    · exact ⟨rfl, rfl, rfl⟩
    · exact keepsImage_refl s
  | faultReport k =>
    refine settled h fun u hu => ?_
    split at hu
    · cases hu
    · next r hr =>
      injection hu with hu; subst hu
      have hk : s.keepsImage { s with run := { s.run with reports := s.run.reports.erase r } } := ⟨rfl, rfl, rfl⟩
      exact .of_keeps hk rfl (keepsImage_refl _) (takeReport_moves _ _)
  | buildChoice =>
    refine settled h fun u hu => ?_
    cases hc : s.choice with
    | none => rw [hc] at hu; cases hu
    | some k => rw [hc] at hu; injection hu with hu; subst hu; exact .kept ⟨rfl, rfl, rfl⟩
  | buildCompletion =>
    refine settled h fun u hu => ?_
    cases hc : s.build.inFlight with
    | none => rw [hc] at hu; cases hu
    | some b => rw [hc] at hu; injection hu with hu; subst hu; exact completeBuild_moves b s

end Sys2Proof.Machine
end

