-- ==== Sys2Proof/WellFormed.lean ====
section
/-!
DEFINITION. Which commands are well formed. Every operand's bound stands in its type (a head is 0 to 3, a strap pair has
two bits, a link word has 32), so every command is: there is no check to fail.
-/

namespace Sys2Proof

/-- Every command is well formed, constructor by constructor: its operands' ranges are their types. -/
def Instr.wf : Instr → Bool
  | .powerOnReset _ => true
  | .jopen _ => true
  | .jstart _ => true
  | .jhold _ => true
  | .jresume _ => true
  | .jabort _ => true
  | .jclose _ => true
  | .jquery _ => true
  | .sdef _ => true
  | .srel _ => true
  | .squery _ => true
  | .wset _ => true
  | .wread _ => true
  | .tload _ => true
  | .tread _ => true
  | .mload _ => true
  | .htrim _ => true
  | .hreset _ => true
  | .hquery _ => true
  | .evset _ => true
  | .evclr _ => true
  | .evack _ => true
  | .evread _ => true
  | .ident _ => true
  | .dreset _ => true
  | .dresetTakesEffect => true
  | .row _ => true
  | .marker _ => true
  | .unknownRequest _ => true
  | .frameReceived _ _ _ => true
  | .frameSent _ _ => true
  | .indexEvent => true
  | .settleComplete => true
  | .holdLimit => true
  | .indexAtChannel _ => true
  | .lowerTimeout _ => true
  | .liftTimeout _ => true
  | .downAck _ _ => true
  | .upAck _ _ => true
  | .presenceGained _ => true
  | .presenceLost _ => true
  | .driveFault _ _ => true
  | .lineTakenReport _ _ => true
  | .faultReport _ => true
  | .buildChoice => true
  | .buildCompletion => true

end Sys2Proof
end

