-- ==== Sys2Proof/Tests/Slice0.lean ====
section
/-!
SUPPORT. Tests on small states, the expected values taken from the worked examples of spec/ where they give them, and for
every statement with hypotheses a state that meets them.
-/

namespace Sys2Proof.Tests

open Sys2Proof Sys2Proof.Machine

/-! ### Small states -/

/-- A header of two used heads, 512 cells and bands of four tracks. -/
def hd : JobHeader :=
  { JobHeader.cleared with signature := 0x6E47B2D9, jobNumber := 31742, tracksPerBand := 4, headMask := 3, settleCount := 2,
                           pGrants := 2, sGrants := 4, locked := [0x40, 0x50] }

/-- Four free pages, all else as at reset, a job in a given state and phase. -/
def job (j : JobState) (ph : Phase) : State :=
  { State.reset with run := { Run.reset with header := hd, jobState := j, phase := ph }
                     store := { State.reset.store with freePages := [4, 5, 6, 7] } }

/-- The channels of all heads in one state. -/
def headsIn (x : HeadState) (s : State) : State :=
  { s with heads := Vector.replicate 4 { Channel.reset with state := x } }

/-- A line of head h for local track p. -/
def ln (h : Head) (p : Nat) : Line := ⟨h, p, 4 * h.val + p, false, 3, [0, 7, 9], 2⟩

/-- Heads 0 and 1 DOWN, each with its line for t in cut and taken. -/
def cutting : State :=
  { job .running .cut with
    heads := #v[{ Channel.reset with state := .down, queue := [ln 0 0], inCut := true, taken := true },
                { Channel.reset with state := .down, queue := [ln 1 0], inCut := true, taken := true }, Channel.reset,
                Channel.reset] }

/-- A frame at the head of a link's input buffer. -/
def fed (s : State) (l : Link) (f : InFrame) : State := s.setPort l { s.port l with input := [f] }

/-- A request at the head of a link's input buffer. -/
def asked (s : State) (l : Link) (c : ReqCode) (ops : List Word) : State := fed s l (requestFrame 7 c ops)

/-- The state after a command. -/
def after (c : Instr) (s : State) : State :=
  match exec c s with
  | .next t => t
  | _ => s

/-- The frames a command adds to a link's empty queue. -/
def sent (l : Link) (c : Instr) (s : State) : List OutFrame := ((after c s).port l).out

/-- Completion code and returned words of the last reply in a link's queue. -/
def replied (l : Link) (c : Instr) (s : State) : Option (CC × List Word) :=
  match (sent l c s).getLast? with
  | some (.reply r) => some (r.cc, r.returned)
  | _ => none

theorem fed_offers (s : State) (l : Link) (f : InFrame) (h : (s.port l).handling = .ready)
    (hu : (s.port l).unsentReplies < 2) : (fed s l f).offers l f [] := by
  refine ⟨?_, ?_, ?_⟩ <;> simp only [fed, port_setPort]
  · exact h
  · exact hu

/-! ### Layouts -/

/-- R154: the check word of the ROW of 11's worked example, computed apart from the model as CRC-32/MPEG-2. -/
theorem test_crc : crc [0x015A0004, 0x02000006, 9, 0x0A141E28, 0x323C0000] = 0x53AE97DA := by decide +kernel

/-- 11's worked example: the words of the ROW, and of its reply. -/
theorem test_row_words :
    (⟨.row, 0x5A, [0x02000006, 9, 0x0A141E28, 0x323C0000]⟩ : InFrame).words =
      [0x015A0004, 0x02000006, 9, 0x0A141E28, 0x323C0000, 0x53AE97DA] ∧
    (OutFrame.reply ⟨.row, 0x5A, 0, .accepted, [30000, 3, 10]⟩).words.dropLast =
      [0x815A0005, 0x01000000, 0, 0x7530, 3, 0xA] := by decide +kernel

/-- The tones of 11's worked example, the padding not read. -/
theorem test_row_tones : readTones 6 [0x0A141E28, 0x323C7F7F] = [10, 20, 30, 40, 50, 60] := by decide

/-- 1's worked example: the header words of its JOPEN, shift mode 3 stored 0, hold limit 192. -/
theorem test_header :
    let h := (JobHeader.ofWords [0x10, 0x6E47B2D9, 31742, 0x100004B1, 0x03030403, 0x01090202, 0x0204, 0x40, 0x50]).stored
    (h.cellsPerRev, h.tracksPerBand, h.headMask, h.shiftMode, h.settleCount, h.holdLimit) =
      (4096, 1201, 3, 0, 4, 192) ∧
    (h.declaredWindows, h.declaredSlots, h.pGrants, h.sGrants, h.locked) = (9, 2, 2, 4, [0x40, 0x50]) := by decide

/-- No term of the commands is ill formed: every operand's range is its type. -/
theorem test_every_command_is_well_formed (c : Instr) : c.wf = true := by cases c <;> rfl

/-- The table gives no bits, so no word spells a command. -/
theorem test_no_word_spells_a_command : decodeTableWord 8 0x10 = none := by decide

/-! ### The links -/

theorem test_frame_received :
    (after (.frameReceived .p [0x03070001, 0x16, 0x72192A88] .byEnd) State.reset).pLink.input =
      [requestFrame 7 .jquery []] := by decide +kernel

theorem test_frame_discarded :
    let t := after (.frameReceived .p [0x03070001, 0x16, 0x72192A89] .byEnd) State.reset
    (t.pLink.input, t.pLink.errors, t.event.status) = ([], 1, 0x40) := by decide +kernel

theorem test_frame_sent :
    let s := State.reset.setPort .s { Port.reset with out := [.reply (requestReply 1 .ident .accepted []),
                                                             .reply (requestReply 2 .ident .accepted [])] }
    (after (.frameSent .s .begun) s).sLink.sending = true ∧
      (after (.frameSent .s .ended) (after (.frameSent .s .begun) s)).sLink.out =
        [.reply (requestReply 2 .ident .accepted [])] := by decide

theorem test_unknown_request :
    sent .p (.unknownRequest .p) (fed State.reset .p ⟨.request, 3, [0x17F]⟩) =
      [.reply ⟨.request, 3, 0x17F, .unknown, []⟩] := by decide

theorem test_ident :
    replied .s (.ident .s) (asked State.reset .s .ident []) =
      some (.accepted, [0x0F310460, 0x03042010, 0x8000, 8]) := by decide

/-- 1's worked example: TLOAD on the S-link in RUNNING is refused by its zone before its lock. -/
theorem test_zone_before_lock :
    replied .s (.tload .s) (asked (job .running .slip) .s .tload []) = some (.zone, []) ∧
      replied .p (.tload .p) (asked (job .running .slip) .p .tload []) = some (.locked, []) := by decide

theorem test_dreset :
    replied .p (.dreset .p) (asked State.reset .p .dreset []) = some (.zone, []) ∧
      replied .s (.dreset .s) (asked (job .running .cut) .s .dreset []) = some (.accepted, []) ∧
      (after (.dreset .s) (asked (job .running .cut) .s .dreset [])).sLink.handling = .closing := by decide

/-! ### Resets -/

/-- A present head lifts, and one whose drive reports a fault is FAULTED; the straps are sampled. -/
theorem test_power_on_reset :
    let s := { cutting with pins := #v[{ Pins.low with hpres := true }, { Pins.low with hpres := true, hflt := true },
                                       { Pins.low with hpres := true }, Pins.low] }
    let t := after (.powerOnReset 1) s
    ((t.chan 0).state, (t.chan 1).state, (t.chan 2).state, t.event.status, t.straps, t.run) =
      (.lifting, .faulted, .absent, 0x200, 1, Run.reset) := by decide

theorem test_dreset_takes_effect :
    let s := { (cutting.setPort .s { Port.reset with handling := .closing }) with
      tables := { Tables.reset with trims := cutting.tables.trims.set 0 ⟨1120, -6, 900, 5⟩ } }
    let t := after .dresetTakesEffect s
    (t.run, t.trim 0, t.sLink) = (Run.reset, ⟨1120, -6, 900, 5⟩, Port.reset) := by decide

/-! ### The job -/

theorem test_jopen :
    let s := asked State.reset .p .jopen [0x6E47B2D9, 31742, 0x100004B1, 0x03030403, 0x01090202, 0x0204, 0x40, 0x50]
    (after (.jopen .p) s).run.jobState = .prepared ∧ replied .p (.jopen .p) s = some (.accepted, []) := by decide

theorem test_jopen_signature :
    replied .p (.jopen .p) (asked (job .done .idle) .p .jopen
      [0x6E47B2D8, 31742, 0x100004B1, 0x03030403, 0x01090202, 0x0204, 0x40, 0x50]) = some (.signature, []) := by decide

theorem test_jstart :
    let t := after (.jstart .s) (asked (headsIn .parked (job .prepared .idle)) .s .jstart [])
    (t.run.jobState, t.run.phase, (t.chan 0).state, (t.chan 2).state) = (.lowering, .settle, .lowering, .parked) := by
  decide

theorem test_jhold :
    (after (.jhold .s) (asked cutting .s .jhold [])).run.pendingHold = true ∧
      let t := after (.jhold .s) (asked (headsIn .down (job .lowering .settle)) .s .jhold [])
      (t.run.jobState, t.run.holdReason, (t.chan 1).state, t.event.status) = (.held, .request, .lifting, 2) := by decide

theorem test_jresume :
    replied .p (.jresume .p) (asked (headsIn .faulted (job .held .idle)) .p .jresume []) = some (.state, []) ∧
      (after (.jresume .p) (asked (headsIn .parked (job .held .idle)) .p .jresume [])).run.jobState = .lowering := by decide

/-- 2's worked example: the ABORT record has no faulting heads, DAMAGE and ABORTED are raised, the lines are counted. -/
theorem test_jabort :
    let t := after (.jabort .s) (asked cutting .s .jabort [])
    (t.run.jobState, t.run.damage, t.event.status, (t.chan 0).damagedLines, (t.chan 0).queue, (t.chan 0).state) =
      (.aborted, [⟨0, 3, .abort, 0⟩], 0x14, 1, [], .lifting) := by decide

theorem test_jclose :
    let t := after (.jclose .s) (asked (job .done .idle) .s .jclose [])
    (t.run.jobState, t.run.header) = (.none, JobHeader.cleared) := by decide

theorem test_jquery :
    replied .s (.jquery .s) (asked cutting .s .jquery []) =
      some (.accepted, [0x6E47B2D9, 31742, 0x02000004, 0x03000200, 2, 0x0204, 0x40, 0x50, 0x03000200, 0, 0, 0, 0, 0]) := by
  decide

/-! ### STORE -/

theorem test_sdef :
    ((after (.sdef .p) (asked (job .prepared .idle) .p .sdef [2, 0x02000006])).store.slot 2) =
      ⟨.opened, 512, 6, 2, 0, []⟩ ∧
    replied .p (.sdef .p) (asked (job .prepared .idle) .p .sdef [2, 0x02010006]) = some (.range, []) := by decide

/-- Slot 2 of width 6 with nine rows received, the last of them stored in page 9 for two uses. -/
def stocked : State :=
  let s := job .prepared .idle
  { s with store := s.store.setSlot 2 ⟨.opened, 6, 11, 1, 9, [⟨8, 2, [9]⟩]⟩
           place := s.place.set 0 ⟨0, 9, 0, 5, .image, 2, 0, 0, 0⟩ }

/-- The ROW of 11's worked example on slot 2. -/
def row9 : InFrame := ⟨.row, 0x5A, [0x02000006, 9, 0x0A141E28, 0x323C0000]⟩

theorem test_row :
    let t := after (.row .p) (fed stocked .p row9)
    t.store.freePages = [5, 6, 7] ∧
      (t.store.slot 2).directory = [⟨8, 2, [9]⟩, ⟨9, 1, [4]⟩] ∧
      (List.range 8).map (fun x => Memory.read t.store.memory (4 * 256 + x)) = [10, 20, 30, 40, 50, 60, 0, 0] ∧
      t.pLink.out = [.reply ⟨.row, 0x5A, 0, .accepted, [3, 1, 10]⟩] := by decide

theorem test_row_sequence :
    replied .p (.row .p) (fed stocked .p ⟨.row, 0x5A, [0x02000006, 10, 0x0A141E28, 0x323C0000]⟩) =
      some (.sequence, [4, 0, 9]) := by decide

theorem test_srel :
    let s := { stocked with place := clearedPlace }
    ((after (.srel .p) (asked s .p .srel [2])).store.freePages = [4, 5, 6, 7, 9]) ∧
      replied .p (.srel .p) (asked stocked .p .srel [2]) = some (.referenced, []) := by decide

theorem test_squery :
    (replied .s (.squery .s) (asked stocked .s .squery [])).map (fun x => (x.1, x.2.take 10)) =
      some (.accepted, [4, 0, 0, 0, 0, 0, 0, 0x01010006, 0x000B0009, 0x00010001]) := by decide

/-! ### PLACE -/

/-- 4's worked example after request b: heads 0 and 1 used, N 2,048, B 500, windows 0 and 1. -/
def layout : State :=
  let s := job .prepared .idle
  { s with
    run := { s.run with header := { hd with cellsPerRev := 2048, tracksPerBand := 500 } }
    store := (s.store.setSlot 0 ⟨.opened, 448, 200, 2, 0, []⟩).setSlot 1 ⟨.opened, 448, 200, 2, 0, []⟩
    place := (s.place.set 0 ⟨100, 299, 1800, 199, .image, 0, 0, 0, 3⟩).set 1 ⟨100, 299, 200, 647, .image, 1, 0, 0, 3⟩
    tables := { Tables.reset with
      tones := Tables.reset.tones.set 3 ⟨(List.range 256).map (4 * ·), true⟩
      patterns := Tables.reset.patterns.set 2 ⟨8, 8, List.replicate 16 0x2000, 100, true⟩ } }

/-- Requests c, d, f, g and h of 4's worked example. -/
theorem test_wset_conflict :
    replied .p (.wset .p) (asked layout .p .wset [2, 0x00FA0104, 0x06A40712, 0x01020000, 0]) = some (.conflict, []) ∧
      (after (.wset .p) (asked layout .p .wset [2, 0x00FA0104, 0x06A40707, 0x01020000, 0])).window 2 =
        ⟨250, 260, 1700, 1799, .mark, 2, 0, 0, 0⟩ := by decide

theorem test_wset_wraps :
    replied .p (.wset .p) (asked layout .p .wset [5, 0x01220136, 0x079E0032, 0x00010300, 0]) = some (.conflict, []) ∧
      replied .p (.wset .p) (asked layout .p .wset [4, 0x01E00208, 0x076C0064, 0x00000300, 0]) = some (.accepted, []) ∧
      replied .p (.wset .p) (asked layout .p .wset [6, 0x038403F2, 0x000007FF, 0x02000000, 0]) = some (.range, []) := by
  decide

theorem test_wread :
    replied .s (.wread .s) (asked layout .s .wread [0]) =
      some (.accepted, [0, 0x0064012B, 0x070800C7, 0x00000300, 0, 0x01C00003]) := by decide

/-- R63 and the second table of 4's worked example: where cells of tracks 150 and 255 read. -/
theorem test_source_positions :
    ((layout.covering .image 150 100).map fun w => (w.source, w.rowAt 150, w.aroundDistance 2048 100 + w.cellOffset)) =
        some (0, 50, 348) ∧
      ((layout.covering .image 150 200).map fun w => (w.source, w.rowAt 150, w.aroundDistance 2048 200 + w.cellOffset)) =
        some (1, 50, 0) ∧
      layout.rowList 255 = [(0, 155), (1, 155)] ∧ layout.rowList 99 = [] := by decide

/-! ### TABLES -/

/-- 5's worked example: one trim for head 0, one for head 1. -/
theorem test_trims :
    [0, 4, 100, 512, 800, 812, 1020].map (⟨1120, -6, 900, 0⟩ : Trim).drive = [0, 1, 106, 567, 890, 900, 900] ∧
      [0, 4, 100, 512, 800, 812, 1020].map (⟨950, 12, 1023, 0⟩ : Trim).drive = [0, 15, 107, 498, 772, 783, 981] := by
  decide

/-- The MLOAD of 5's cross, entries outside the width sent on. -/
def crossWords : List Word := [5, 0x05030190, 0x27FFF800, 0x20000000, 0, 0, 0, 0, 0, 0]

/-- 5's cross as it is stored. -/
def cross : MarkPattern := ⟨5, 3, [0x2000, 0xF800, 0x2000] ++ List.replicate 13 0, 400, true⟩

theorem test_mload : (after (.mload .p) (asked State.reset .p .mload crossWords)).tables.pattern 5 = cross := by decide

theorem test_tread :
    let s := { State.reset with tables := { Tables.reset with patterns := Tables.reset.patterns.set 5 cross } }
    replied .p (.tread .p) (asked s .p .tread [1, 5]) =
      some (.accepted, [1, 0x05030190, 0x2000F800, 0x20000000, 0, 0, 0, 0, 0, 0]) ∧
      replied .p (.tread .p) (asked s .p .tread [2, 5]) = some (.range, []) := by decide

/-- 5's cross across the index mark, head 0 trimmed as in its first example. -/
theorem test_cross_mark :
    let s := { layout with
      place := clearedPlace.set 7 ⟨40, 46, 2046, 3, .mark, 5, 1, 0, 0⟩
      tables := { layout.tables with patterns := Tables.reset.patterns.set 5 cross
                                     trims := Tables.reset.trims.set 0 ⟨1120, -6, 900, 0⟩ } }
    [(40, 2046), (42, 2047), (42, 0), (43, 1), (44, 1), (44, 3), (45, 3)].map (fun x => s.resolveCell 0 x.1 x.2) =
      [442, 0, 442, 442, 0, 0, 0] := by decide

/-- The payload words of a TLOAD of a table with entry x equal to 4 x. -/
def toneWords3 : List Word := 3 :: packHalves ((List.range 256).map (4 * ·))

theorem test_tload :
    ((after (.tload .p) (asked State.reset .p .tload toneWords3)).tables.tone 3).depth 203 = 812 := by
  decide +kernel

/-- 5's worked example: a write behind a build in flight waits, unanswered. -/
theorem test_htrim :
    (after (.htrim .s) (asked State.reset .s .htrim [0, 0x0460FFFA, 0x03840000, 1, 2])).trim 0 =
        ⟨1120, -6, 900, 4294967298⟩ ∧
      let s := { State.reset with build := { Builder.reset with inFlight := some ⟨1, 7, 11, false, [], []⟩ } }
      let t := after (.htrim .s) (asked s .s .htrim [0, 0x0460FFFA, 0x03840000, 1, 2])
      (t.sLink.out, t.sLink.handling, t.trim 0, t.tables.writeQueue.length) = ([], .waiting, Trim.reset, 1) := by decide

/-! ### BUILD -/

theorem test_build_choice :
    let s := { (job .lowering .settle) with run := { (job .lowering .settle).run with header := { hd with cellsPerRev := 2 } } }
    (after .buildChoice s).build.inFlight = some ⟨0, 0, 0, false, [], [0, 0]⟩ ∧
      (after .buildChoice (after .buildCompletion (after .buildChoice s))).build.lastServed = 1 := by decide

theorem test_build_completion :
    let s := { stocked with build := { Builder.reset with inFlight := some ⟨1, 0, 4, true, [(2, 8)], [0, 5]⟩ } }
    let t := after .buildCompletion s
    ((t.chan 1).queue, t.build.nextTrack, t.build.inFlight, (t.store.slot 2).directory) =
      ([⟨1, 0, 4, true, 2, [0, 5], 1⟩], #v[0, 1, 0, 0], none, [⟨8, 1, [9]⟩]) := by decide

/-! ### Head channels -/

theorem test_down_ack :
    ((after (.downAck 0 .rise) (headsIn .lowering (job .lowering .settle))).chan 0).state = .down ∧
      ((after (.downAck 0 .rise) (headsIn .parked (job .lowering .settle))).chan 0).faultCause = .dropped ∧
      ((after (.downAck 0 .fall) (headsIn .lowering (job .lowering .settle))).chan 0).state = .lowering := by decide

theorem test_up_ack :
    ((after (.upAck 3 .rise) (headsIn .lifting State.reset)).chan 3).state = .parked ∧
      ((after (.upAck 3 .rise) (headsIn .down State.reset)).chan 3).faultCause = .lifted := by decide

theorem test_presence :
    ((after (.presenceGained 2) State.reset).chan 2).state = .lifting ∧
      ((after (.presenceLost 2) (headsIn .parked State.reset)).chan 2).state = .absent ∧
      ((after (.presenceLost 2) (headsIn .down State.reset)).chan 2).faultCause = .presence := by decide

/-- 2's worked example: the drive fault of a used head in a cut is reported to RUN and raises HFAULT1. -/
theorem test_drive_fault :
    let t := after (.driveFault 1 .rise) cutting
    ((t.chan 1).state, t.run.reports, t.event.status, t.hlift 1) = (.faulted, [⟨1, .drive⟩], 0x200, true) := by decide

theorem test_line_taken :
    let s := { cutting with heads := cutting.heads.set 0 { cutting.chan 0 with taken := false, transferring := true } }
    s.hdata 0 = some (false, [0, 7, 9]) ∧ (after (.lineTakenReport 0 .rise) s).chan 0 = cutting.chan 0 := by decide

theorem test_index_at_channel :
    ((after (.indexAtChannel 0) (headsIn .lowering State.reset)).chan 0).timeoutCount = 1 ∧
      after (.indexAtChannel 0) (headsIn .down State.reset) = headsIn .down State.reset := ⟨by decide, rfl⟩

/-- Every channel in a given state with seven Index events counted. -/
def late (x : HeadState) : State :=
  { State.reset with heads := Vector.replicate 4 { Channel.reset with state := x, timeoutCount := 7 } }

theorem test_timeouts :
    ((after (.lowerTimeout 0) (late .lowering)).chan 0).faultCause = .lowerTimeout ∧
      ((after (.liftTimeout 0) (late .lifting)).chan 0).faultCause = .liftTimeout ∧
      ((after (.liftTimeout 0) (late .lowering)).chan 0).faultCause = .none := by decide

theorem test_hreset :
    let s := { headsIn .faulted State.reset with pins := #v[{ Pins.low with hpres := true, hflt := true },
                                                       { Pins.low with hpres := true }, Pins.low, Pins.low] }
    ((after (.hreset .s) (asked s .s .hreset [0])).chan 0).state = .faulted ∧
      ((after (.hreset .s) (asked s .s .hreset [1])).chan 1).state = .lifting ∧
      ((after (.hreset .s) (asked s .s .hreset [2])).chan 2).state = .absent := by decide

theorem test_hquery :
    replied .s (.hquery .s) (asked cutting .s .hquery [1]) =
      some (.accepted, [0x01030007, 1, 0x00000004, 0x00020000, 0, 0, 0, 0, 0x03E80000, 0x03FF0000, 0, 0]) := by decide

/-! ### The revolution -/

/-- A track retired normally: counters, one STEP pulse, the marker of t, the advance of t, then a slip. -/
theorem test_index_event :
    let s := { cutting with run := { cutting.run with markers := [⟨1, 0⟩, ⟨2, 3⟩] } }
    let t := after .indexEvent s
    (t.run.t, t.run.phase, t.run.markers, t.stepPulses, t.event.status, (t.chan 1).linesCut, (t.chan 1).cellsCut) =
      (1, .slip, [⟨2, 3⟩], 1, 0x2008, 1, 2) := by decide

theorem test_settle_complete :
    let s := { (headsIn .down (job .lowering .settle)) with run := { (job .lowering .settle).run with settleCounter := 1 } }
    let t := after .settleComplete s
    (t.run.jobState, t.run.phase, t.run.settleCounter, t.run.totalSlips) = (.running, .slip, 2, 1) := by decide

theorem test_hold_limit :
    let s := { (headsIn .down (job .running .slip)) with
      run := { (job .running .slip).run with header := { hd with holdSteps := 1 }, holdCounter := 15 } }
    let t := after .holdLimit s
    (t.run.jobState, t.run.holdReason, t.run.holdCounter, t.event.status) = (.held, .starved, 16, 0xA) := by decide

/-- 2's worked example: the report of HC1's drive fault in a cut. -/
theorem test_fault_report :
    let t := after (.faultReport 1) (after (.driveFault 1 .rise) cutting)
    (t.run.jobState, t.run.holdReason, t.run.t, t.run.reports) = (.held, .fault, 1, []) ∧
      t.run.damage = [⟨0, 3, .drive, 2⟩] ∧ ((t.chan 0).state, (t.chan 1).damagedLines) = (.lifting, 1) := by decide

/-- R147: HC0 fails before its drive takes the line and the Index event comes first: the SHORT record names it, and its report
adds none, not even in a cut after the job has been resumed. -/
theorem test_report_after_short :
    let s := after .indexEvent (after (.driveFault 0 .rise) { cutting with
      heads := cutting.heads.set 0 { cutting.chan 0 with taken := false } })
    let t := { s with run := { s.run with jobState := .running, phase := .cut } }
    (s.run.jobState, s.run.damage, s.run.reports) = (.held, [⟨0, 3, .short, 1⟩], []) ∧
      (after (.faultReport 0) t).run = t.run := by decide

theorem test_marker :
    let s := { job .running .cut with run := { (job .running .cut).run with t := 2, markers := [⟨3, 3⟩] } }
    replied .p (.marker .p) (fed s .p ⟨.marker, 1, [0x00000001]⟩) = some (.passed, [1]) ∧
      (after (.marker .p) (fed s .p ⟨.marker, 1, [0x01000003]⟩)).run.markers = [⟨3, 3⟩, ⟨1, 3⟩] := by decide

/-! ### EVENT -/

/-- 10's worked example: an EVSET of a bit already set queues its notice before its reply. -/
theorem test_evset :
    let s := { State.reset with event := ⟨0x2000, 0, 0⟩ }
    sent .s (.evset .s) (asked s .s .evset [0x2000]) =
      [.notice ⟨0, .none, 0, 0x2000, 0x2000⟩, .reply (requestReply 7 .evset .accepted [])] := by decide

theorem test_evclr_evack :
    (after (.evclr .s) (asked { State.reset with event := ⟨7, 7, 7⟩ } .s .evclr [3])).event = ⟨7, 7, 4⟩ ∧
      (after (.evack .s) (asked { State.reset with event := ⟨7, 7, 7⟩ } .s .evack [3])).event = ⟨4, 7, 7⟩ := by decide

theorem test_evread :
    replied .s (.evread .s) (asked { State.reset with event := ⟨0x2112, 0, 0x0F17⟩ } .s .evread []) =
      some (.accepted, [0x21120F17, 0x01120000]) := by decide

/-! ### States that meet the hypotheses of the statements -/

/-- A job with the header of these tests on a part with four heads fitted has a sound header. -/
theorem hd_sound (s : State) (h : s.run.header = hd) (hs : s.straps = 3) : s.headerSound := by
  simp only [State.headerSound, State.fittedCount, h, hs]
  refine ⟨⟨?_, show 512 ≤ 16384 by decide⟩, ⟨?_, ?_⟩, ?_, ⟨?_, ?_⟩, ?_, ?_, ?_, ?_, ?_, ?_, ?_, ?_,
    show ∀ w ∈ ([0x40, 0x50] : List Word), w ∈ lockable from by simp [lockable, ReqCode.word]⟩ <;> decide

/-- A request fed to a link of a job of these tests, both links as at reset. -/
theorem job_offers (j : JobState) (ph : Phase) (l : Link) (f : InFrame) : (fed (job j ph) l f).offers l f [] := by
  cases l <;> exact fed_offers _ _ _ rfl (show 0 < 2 by decide)

theorem job_sound (j : JobState) (ph : Phase) (l : Link) (f : InFrame) : (fed (job j ph) l f).headerSound := by
  cases l <;> exact hd_sound _ rfl rfl

theorem witness_StepRunsTheFrontCommand :
    ({ State.reset with pending := [.indexEvent, .buildChoice] } : State).pending = .indexEvent :: [.buildChoice] := rfl

theorem witness_EveryCommandCompletes :
    (∀ x, Instr.downAck 1 .rise ≠ .powerOnReset x) ∧ Instr.pinOf (.downAck 1 .rise) ≠ some 0 :=
  ⟨fun _ h => (by cases h), by decide⟩

/-- After reset every condition named fails. -/
theorem witness_StepsOutOfPlaceChangeNothing :
    State.reset.pending = [] ∧ State.reset.sLink.handling ≠ .closing ∧ State.reset.run.jobState ≠ .lowering ∧
      State.reset.run.jobState ≠ .running ∧ (∀ h, (State.reset.chan h).state ≠ .lowering) ∧
      (∀ h, (State.reset.chan h).state ≠ .lifting) ∧ (∀ h, ∀ r ∈ State.reset.run.reports, r.head ≠ h) ∧
      State.reset.run.jobState.onCopper = false ∧ State.reset.build.inFlight = none := by decide

/-- DRESET offered in a cut; and the S-link CLOSING with only a notice behind the reply already sent. -/
theorem witness_DresetClosesAndThenResets :
    (asked cutting .s .dreset []).headerSound ∧ (asked cutting .s .dreset []).offers .s (requestFrame 7 .dreset []) [] ∧
      let s := cutting.setPort .s { Port.reset with handling := .closing, out := [.notice ⟨1, .running, 0, 2, 2⟩] }
      s.sLink.handling = .closing ∧ ∀ f ∈ s.sLink.out, f.isReply = false :=
  ⟨hd_sound _ rfl rfl, fed_offers _ _ _ rfl (by decide), by decide⟩

/-- The longest payload, on a link with one frame in its buffer. -/
theorem witness_GoodFrameJoinsTheBuffer :
    let f : InFrame := ⟨.row, 1, List.replicate 4100 0⟩
    let s := fed State.reset .p (requestFrame 7 .ident [])
    f.payload.length ≤ 4100 ∧ (s.port .p).input.length < 2 ∧ (s.port .p).receiving.getD [] = [] := by
  exact ⟨List.length_replicate.le, by decide, rfl⟩

/-- Each of the eight ways to fail, at its boundary: a START; one word; 4,103 words; length 4,101; a length one too long;
a wrong check word; kinds 0 and 4; a full buffer. -/
theorem witness_BadFrameIsDiscarded :
    (FrameEnd.byStart = .byStart) ∧ [(0x03070000 : Word)].length < 2 ∧ 4102 < (List.replicate 4103 (0 : Word)).length ∧
      4100 < bits 0x03071005 15 0 ∧ [(0x03070002 : Word), 0x16, 0].length ≠ bits 0x03070002 15 0 + 2 ∧
      [(0x03070001 : Word), 0x16, 0].getLast? ≠ some (crc [0x03070001, 0x16]) ∧
      (∀ k ∈ [bits 0x00070001 31 24, bits 0x04070001 31 24], k ≠ 1 ∧ k ≠ 2 ∧ k ≠ 3) ∧
      2 ≤ ({ Port.reset with input := [requestFrame 1 .ident [], requestFrame 2 .ident []] } : Port).input.length := by
  refine ⟨rfl, by decide, ?_, by decide, by decide, by decide +kernel, by decide, by decide⟩
  rw [List.length_replicate]
  decide

theorem witness_TransmitterSendsInQueueOrder :
    let busy := State.reset.setPort .s { Port.reset with out := [.reply (requestReply 1 .ident .accepted [])] }
    let closed := State.reset.setPort .s { Port.reset with handling := .closing, out := [.notice ⟨0, .none, 0, 0, 0⟩] }
    (¬ ((busy.port .s).handling = .closing ∧ ∀ f ∈ (busy.port .s).out, f.isReply = false) ∧ (busy.port .s).out ≠ []) ∧
      (State.reset.port .s).out = [] ∧
      ((closed.port .s).handling = .closing ∧ ∀ f ∈ (closed.port .s).out, f.isReply = false) := by decide

/-- A link WAITING, one with two replies unsent, and one with an empty buffer; a ROW at the head for every other command, and
a JSTART for JQUERY and for UNKNOWN_REQUEST. -/
theorem witness_LinkThatCannotTakeChangesNothing :
    (∀ f, (fed (job .prepared .idle) .p f).offers .p f []) ∧ (row9.kind ≠ .marker ∧ row9.kind ≠ .request) ∧
      ((requestFrame 7 .jstart []).kind ≠ .row ∧
        (requestFrame 7 .jstart []).payload.head? ≠ some ReqCode.jquery.word ∧
        ∃ c : ReqCode, (requestFrame 7 .jstart []).payload.head? = some c.word) ∧
    (Instr.row .p).takesOn = some .p ∧ ({ Port.reset with handling := .waiting } : Port).handling ≠ .ready ∧
      2 ≤ ({ Port.reset with out := [.reply (requestReply 1 .ident .accepted []),
                                     .reply (requestReply 2 .ident .accepted [])] } : Port).unsentReplies ∧
      (State.reset.port .p).input = [] :=
  ⟨job_offers _ _ _, by decide, ⟨by decide, by decide, .jstart, rfl⟩, by decide⟩

/-- A payload without words, the code below the least, one above the greatest, and one above bit 7. -/
theorem witness_UnknownCodeIsAnsweredUnknown :
    (∀ p : List Word, (fed State.reset .p ⟨.request, 3, p⟩).offers .p ⟨.request, 3, p⟩ []) ∧
      ∀ p ∈ ([[], [0x0F], [0x80], [0x110]] : List (List Word)), ∀ w, p.head? = some w →
        w.toNat ∉ [0x10, 0x11, 0x12, 0x13, 0x14, 0x15, 0x16, 0x20, 0x21, 0x22, 0x30, 0x31, 0x40, 0x41, 0x42, 0x50, 0x51,
          0x52, 0x60, 0x61, 0x62, 0x63, 0x70, 0x7F] := by
  refine ⟨fun p => fed_offers _ _ _ rfl (by decide), ?_⟩
  simp only [List.mem_cons, List.not_mem_nil, or_false]
  rintro p (rfl | rfl | rfl | rfl) w h
  · cases h
  all_goals injection h with h; subst h; decide

theorem witness_ZonesAndGrants :
    State.reset.run.jobState ∈ [JobState.none, .done, .aborted] ∧
      (job .held .idle).run.jobState ∈ [JobState.prepared, .lowering, .running, .held] := by decide

theorem witness_RequestOutsideItsZoneIsRefused :
    ((fed (job .prepared .idle) .s (requestFrame 7 .tload [3])).offers .s (requestFrame 7 .tload [3]) [] ∧
      ReqCode.tload.zone = some .tone ∧
      (fed (job .prepared .idle) .s (requestFrame 7 .tload [3])).holdsZone .s .tone = false) ∧
    ((fed (job .running .cut) .s row9).offers .s row9 [] ∧ (fed (job .running .cut) .s row9).holdsZone .s .place = false) ∧
    (fed (job .held .idle) .s ⟨.marker, 1, [3]⟩).offers .s ⟨.marker, 1, [3]⟩ [] ∧
    (fed State.reset .p (requestFrame 7 .dreset [])).offers .p (requestFrame 7 .dreset []) [] :=
  ⟨⟨job_offers _ _ _ _, rfl, by decide⟩, ⟨job_offers _ _ _ _, by decide⟩, job_offers _ _ _ _,
    fed_offers _ _ _ rfl (by decide)⟩

theorem witness_LockedRequestIsRefused :
    (fed (job .lowering .settle) .p (requestFrame 7 .tload [3])).offers .p (requestFrame 7 .tload [3]) [] ∧
      (fed (job .lowering .settle) .p (requestFrame 7 .tload [3])).zonePasses .p .tload = true ∧
      (job .lowering .settle).run.jobState ∈ [JobState.lowering, .running, .held] ∧
      ReqCode.tload.word ∈ (job .lowering .settle).run.header.locked ∧
      (fed (job .held .idle) .p (requestFrame 7 .ident [])).headerSound ∧
      ReqCode.ident ∉ [ReqCode.tload, .mload, .htrim, .hreset] :=
  ⟨job_offers _ _ _ _, by decide, by decide, by decide, job_sound _ _ _ _, by decide⟩

theorem witness_RequestOutOfStateIsRefused :
    ((fed (job .running .cut) .p (requestFrame 7 .wset [])).offers .p (requestFrame 7 .wset []) [] ∧
      (fed (job .running .cut) .p (requestFrame 7 .wset [])).zonePasses .p .wset = true ∧
      (fed (job .running .cut) .p (requestFrame 7 .wset [])).lockPasses .wset = true ∧
      ReqCode.wset.acceptedIn .running = false) ∧
    (fed (job .done .idle) .p row9).offers .p row9 [] ∧
    (fed (job .done .idle) .p ⟨.marker, 1, [3]⟩).offers .p ⟨.marker, 1, [3]⟩ [] :=
  ⟨⟨job_offers _ _ _ _, by decide, by decide, by decide⟩, job_offers _ _ _ _, job_offers _ _ _ _⟩

/-- SDEF with one word too few and one too many; JOPEN one word short; ROW with one word, MARKER with two. -/
theorem witness_WrongPayloadSizeIsRefused :
    (∀ ops ∈ ([[0], [0, 0, 0]] : List (List Word)),
      (fed (job .prepared .idle) .p (requestFrame 7 .sdef ops)).offers .p (requestFrame 7 .sdef ops) [] ∧
        (ops.length + 1 < 3 ∨ 3 < ops.length + 1)) ∧
      (job .prepared .idle).zonePasses .p .sdef = true ∧ (job .prepared .idle).lockPasses .sdef = true ∧
      ReqCode.sdef.acceptedIn .prepared = true ∧ ReqCode.jopen.acceptedIn .none = true ∧
      (List.replicate 5 (0 : Word)).length + 1 < 7 ∧
      (fed (job .running .cut) .p ⟨.row, 1, [0]⟩).offers .p ⟨.row, 1, [0]⟩ [] ∧
      (fed (job .running .cut) .p ⟨.marker, 1, [0, 0]⟩).offers .p ⟨.marker, 1, [0, 0]⟩ [] ∧
      (fed (job .running .cut) .p ⟨.row, 1, [0]⟩).holdsZone .p .place = true ∧ JobState.running.isOpen = true :=
  ⟨fun ops h => ⟨job_offers _ _ _ _, by revert ops; decide⟩, by decide, by decide, by decide, by decide, by decide,
    job_offers _ _ _ _, job_offers _ _ _ _, by decide, by decide⟩

/-- A bit not enabled; an enabled bit with a notice waiting; an enabled bit with none, clear and set. -/
theorem witness_RaiseSetsItsBitAndMakesNoticesDue :
    (State.reset.event.mask .p).getLsbD StatusBit.slip.index = false ∧
      let s := { State.reset with event := ⟨0, 8, 8⟩ }
      (s.event.mask .p).getLsbD StatusBit.slip.index = true ∧ (s.port .p).hasNotice = false ∧
        ((s.raise .slip).event.mask .p).getLsbD StatusBit.slip.index = true ∧
        ((s.raise .slip).port .p).hasNotice = true := by decide

theorem witness_MaskRequestsActOnTheirBits :
    ∀ c ∈ [ReqCode.evset, .evclr, .evack],
      (fed (job .held .idle) .s (requestFrame 7 c [0x2000])).offers .s (requestFrame 7 c [0x2000]) [] ∧
        (fed (job .held .idle) .s (requestFrame 7 c [0x2000])).headerSound :=
  fun _ _ => ⟨job_offers _ _ _ _, job_sound _ _ _ _⟩

theorem witness_EvreadReturnsTheLinksView :
    (fed (job .held .idle) .s (requestFrame 7 .evread [])).headerSound ∧
      (fed (job .held .idle) .s (requestFrame 7 .evread [])).offers .s (requestFrame 7 .evread []) [] :=
  ⟨job_sound _ _ _ _, job_offers _ _ _ _⟩

theorem witness_IdentReturnsThePart :
    (fed (job .held .idle) .s (requestFrame 7 .ident [])).headerSound ∧
      (fed (job .held .idle) .s (requestFrame 7 .ident [])).offers .s (requestFrame 7 .ident []) [] ∧
      ∃ t, exec .dresetTakesEffect State.reset = .next t :=
  ⟨job_sound _ _ _ _, job_offers _ _ _ _, _, rfl⟩

theorem witness_JopenOpensTheJobOrRefuses :
    let f := requestFrame 7 .jopen ([0x6E47B2D9, 31742, 0x100004B1, 0x03030403, 0x01090202, 0x0204] ++ [0x40, 0x50])
    (fed (job .aborted .idle) .s f).offers .s f [] ∧ JobState.aborted ∈ [JobState.none, .done, .aborted] :=
  ⟨job_offers _ _ _ _, by decide⟩

theorem witness_JcloseClosesTheJob :
    (fed (job .done .idle) .s (requestFrame 7 .jclose [])).offers .s (requestFrame 7 .jclose []) [] ∧
      (job .done .idle).run.jobState ∈ [JobState.done, .aborted] := ⟨job_offers _ _ _ _, by decide⟩

theorem witness_JstartAndJresumeLowerTheHeads :
    ((fed (job .prepared .idle) .p (requestFrame 7 .jstart [])).offers .p (requestFrame 7 .jstart []) [] ∧
      (job .prepared .idle).run.jobState = .prepared) ∧
    (fed (job .held .idle) .p (requestFrame 7 .jresume [])).headerSound ∧
      (fed (job .held .idle) .p (requestFrame 7 .jresume [])).offers .p (requestFrame 7 .jresume []) [] ∧
      (job .held .idle).run.jobState = .held :=
  ⟨⟨job_offers _ _ _ _, rfl⟩, job_sound _ _ _ _, job_offers _ _ _ _, rfl⟩

theorem witness_JholdHoldsOrPends :
    (fed (job .lowering .settle) .s (requestFrame 7 .jhold [])).headerSound ∧
      (fed (job .lowering .settle) .s (requestFrame 7 .jhold [])).offers .s (requestFrame 7 .jhold []) [] ∧
      (fed (job .running .cut) .s (requestFrame 7 .jhold [])).offers .s (requestFrame 7 .jhold []) [] :=
  ⟨job_sound _ _ _ _, job_offers _ _ _ _, job_offers _ _ _ _⟩

theorem witness_JabortEndsTheJob :
    (fed (job .running .cut) .s (requestFrame 7 .jabort [])).headerSound ∧
      (fed (job .running .cut) .s (requestFrame 7 .jabort [])).offers .s (requestFrame 7 .jabort []) [] ∧
      JobState.running ∈ [JobState.prepared, .lowering, .running, .held] :=
  ⟨job_sound _ _ _ _, job_offers _ _ _ _, by decide⟩

/-- JQUERY, SQUERY, HQUERY of head 3 and of head number 4. -/
theorem witness_QueriesReturnTheirRecords :
    (∀ f, (fed (job .held .idle) .s f).headerSound ∧ (fed (job .held .idle) .s f).offers .s f []) ∧
      (3 : Word).toNat = (3 : Head).val ∧ 4 ≤ (4 : Word).toNat :=
  ⟨fun f => ⟨job_sound _ _ _ f, job_offers _ _ _ f⟩, by decide, by decide⟩

theorem witness_SdefAndSrelActOnTheirSlot :
    (∀ f, (fed (job .prepared .idle) .p f).offers .p f []) ∧ (job .prepared .idle).holdsZone .p .place = true ∧
      (job .prepared .idle).run.jobState = .prepared := ⟨job_offers _ _ _, by decide, rfl⟩

theorem witness_UseCountCountsTheWindowsThatReadTheRow :
    (⟨100, 299, 1800, 199, .image, 0, 0, 0, 3⟩ : Window).coversTrack 299 = true := by decide

theorem witness_RowIsStoredCountedOrRefused :
    (fed stocked .p row9).offers .p ⟨.row, 0x5A, 0x02000006 :: 9 :: [0x0A141E28, 0x323C0000]⟩ [] ∧
      (fed stocked .p row9).holdsZone .p .place = true ∧ (fed stocked .p row9).run.jobState.isOpen = true :=
  ⟨fed_offers _ _ _ rfl (by decide), by decide, by decide⟩

/-- Two pages, the second with one tone of the row, over bytes already written. -/
theorem witness_RowTonesAreWrittenInTheirPages :
    Memory.wf [(5, 1), (1024, 9), (2000, 7)] ∧ ([4, 7] : List Page).Nodup ∧
      (List.replicate 65 (0x0A141E28 : Word)).length = (257 + 3) / 4 ∧ 256 / 256 < ([4, 7] : List Page).length := by decide

/-- A window that does not wrap and one that does, the last cell the last of the revolution. -/
theorem witness_CoverageSpanAndOverlap :
    ∀ w ∈ ([⟨100, 299, 200, 2047, .image, 1, 0, 0, 3⟩, ⟨100, 299, 2047, 0, .mark, 1, 0, 0, 3⟩] : List Window),
      w.firstCell < 2048 ∧ w.lastCell < 2048 ∧ w.enabled = true ∧ w.coversCell 2047 = true := by decide

theorem witness_WsetStoresTheEntryOrRefuses :
    (asked layout .p .wset [2, 0x00FA0104, 0x06A40707, 0x01020000, 0]).offers .p
        (requestFrame 7 .wset [2, 0x00FA0104, 0x06A40707, 0x01020000, 0]) [] ∧
      (asked layout .p .wset [2, 0x00FA0104, 0x06A40707, 0x01020000, 0]).holdsZone .p .place = true ∧
      layout.run.jobState = .prepared := ⟨fed_offers _ _ _ rfl (by decide), by decide, rfl⟩

theorem witness_WreadAndTreadReturnTheirEntry :
    ∀ f, (fed (job .held .idle) .s f).headerSound ∧ (fed (job .held .idle) .s f).offers .s f [] :=
  fun f => ⟨job_sound _ _ _ f, job_offers _ _ _ f⟩

/-- The entries of test_tload, with depth 1,020 the greatest; a number and a length out of range. -/
theorem witness_TloadReplacesATable :
    let es := (packHalves ((List.range 256).map (4 * ·))).flatMap fun w => [bits w 31 16, bits w 15 0]
    (∀ f, (fed (job .prepared .idle) .p f).offers .p f []) ∧ (job .prepared .idle).holdsZone .p .tone = true ∧
      (job .prepared .idle).lockPasses .tload = true ∧ (15 : Word).toNat = (15 : Fin 16).val ∧ es.length = 256 ∧
      (∀ e ∈ es, e ≤ 1023) ∧ es.head? = some 0 ∧ 16 ≤ (16 : Word).toNat ∧
      ([] : List Word).flatMap (fun w => [bits w 31 16, bits w 15 0]) = [] := by
  refine ⟨job_offers _ _ _, by decide, by decide, by decide, ?_, ?_, ?_, by decide, rfl⟩ <;> decide +kernel

/-- The cross, and a pattern at the ends of its ranges; a width of 17. -/
theorem witness_MloadReplacesAPattern :
    (∀ f, (fed (job .prepared .idle) .s f).offers .s f []) ∧ (job .prepared .idle).holdsZone .s .mark = true ∧
      (job .prepared .idle).lockPasses .mload = true ∧
      ([0x05030190, 0x101003FF, 0x01010001] : List Word).map (fun w => (bits w 31 24, bits w 23 16, bits w 15 0)) =
        [(5, 3, 400), (16, 16, 1023), (1, 1, 1)] ∧
      16 < bits 0x11030190 31 24 ∧ (crossWords.drop 2).length = 8 := ⟨job_offers _ _ _, by decide⟩

/-- Gains 500 and 1,500, offsets -128 and 127, clamps 1 and 1,023; gain 499. -/
theorem witness_HtrimReplacesATrim :
    (∀ f, (fed (job .prepared .idle) .s f).offers .s f []) ∧ (job .prepared .idle).holdsZone .s .trim = true ∧
      (job .prepared .idle).lockPasses .htrim = true ∧
      ([0x01F4FF80, 0x05DC007F] : List Word).map (fun w => (bits w 31 16, (w.setWidth 16).toInt)) =
        [(500, -128), (1500, 127)] ∧
      ([0x00010000, 0x03FF0001] : List Word).map (bits · 31 16) = [1, 1023] ∧
      bits 0x01F3FF80 31 16 < 500 := ⟨job_offers _ _ _, by decide⟩

/-- The trims at the ends of their ranges, with the greatest depth. -/
theorem witness_TrimFunctionGivesTheDriveValue :
    (⟨500, -128, 1, 0⟩ : Trim).sound ∧ (⟨1500, 127, 1023, max48⟩ : Trim).sound ∧ 1023 ≤ 1023 := by
  unfold Trim.sound; decide

/-- Head 1 is the first eligible after head 0; and no head is when both queues are full. -/
theorem witness_BuildChoiceTakesTheNextEligibleHead :
    let s := { job .held .idle with build := { Builder.reset with lastServed := 0 } }
    (s.build.inFlight = none ∧ s.tables.writeQueue = [] ∧ s.run.jobState.onCopper = true) ∧ s.eligible 1 = true ∧
      (∀ k : Head, (k - s.build.lastServed - 1).val < ((1 : Head) - s.build.lastServed - 1).val → s.eligible k = false) ∧
      ∀ h, ({ s with heads := Vector.replicate 4 { Channel.reset with queue := [ln 0 0, ln 0 1, ln 0 2, ln 0 3] } } :
        State).eligible h = false := by decide

/-- A build in flight with one decrement; a row with two uses behind another row, one with its last, and no such row. -/
theorem witness_BuildCompletionQueuesTheLine :
    (∃ b, ({ stocked with build := { Builder.reset with inFlight := some ⟨1, 0, 4, true, [(2, 8)], [0, 5]⟩ } } :
        State).build.inFlight = some b) ∧
      (stocked.store.slot 2).directory = [] ++ (⟨8, 2, [9]⟩ : RowRecord) :: [] ∧
      (∀ x ∈ (stocked.store.slot 2).directory, x.rowIndex ≠ 7) ∧ (⟨8, 1, [9]⟩ : RowRecord).useCount ≤ 1 :=
  ⟨⟨_, rfl⟩, by decide⟩

/-- Windows that do not overlap: an IMAGE window, a MARK window beside it, and a KEEPOUT over both. -/
def placed : State :=
  let s := job .running .slip
  { s with place := ((s.place.set 0 ⟨0, 1, 500, 11, .image, 2, 0, 0, 0⟩).set 1 ⟨0, 1, 20, 29, .mark, 0, 0, 0, 0⟩).set 2
             ⟨1, 1, 0, 511, .keepout, 0, 0, 0, 0⟩ }

theorem placed_window (i : Nat) : placed.window i =
    if i = 0 then ⟨0, 1, 500, 11, .image, 2, 0, 0, 0⟩ else if i = 1 then ⟨0, 1, 20, 29, .mark, 0, 0, 0, 0⟩
    else if i = 2 then ⟨1, 1, 0, 511, .keepout, 0, 0, 0, 0⟩ else Window.reset := by
  by_cases h : i < 32
  · interval_cases i <;> rfl
  · have h0 : i ≠ 0 := by omega
    have h1 : i ≠ 1 := by omega
    have h2 : i ≠ 2 := by omega
    simp [State.window, h, h0, h1, h2]

/-- A cell of each sort: KEEPOUT, IMAGE past the index mark, MARK, and no window. -/
theorem witness_CellsResolveByTheirWindow :
    placed.windowsDisjoint ∧ (511 < placed.run.header.cellsPerRev) ∧ (placed.window 2).covers 1 511 = true ∧
      (placed.window 0).covers 0 11 = true ∧ (placed.window 1).covers 0 29 = true ∧
      (∀ j, (placed.window j).kind = .keepout → (placed.window j).covers 0 11 = false) ∧
      ∀ i, (placed.window i).covers 0 12 = false := by
  refine ⟨⟨fun i => ?_, fun i j g c hij hi hj hc hcov => ?_⟩, by decide, by decide, by decide, by decide, fun j => ?_,
    fun i => ?_⟩
  · rw [placed_window]; split_ifs <;> decide
  · rw [placed_window] at hi hj hcov ⊢
    split_ifs at hi hj hcov ⊢ <;>
      first
        | (subst_vars; contradiction)
        | (exact absurd hi (by decide))
        | (exact absurd hj (by decide))
        | (simp only [Window.covers, Window.coversTrack, Window.coversCell, Window.wraps, Bool.and_eq_true,
            decide_eq_true_eq, Bool.and_eq_false_iff, decide_eq_false_iff_not] at hcov ⊢
           simp at hcov ⊢
           omega)
  · rw [placed_window]; split_ifs <;> decide
  · rw [placed_window]; split_ifs <;> decide

theorem witness_ChannelEntriesAndOutputs : (cutting.chan 0).queue = ln 0 0 :: [] := by decide

/-- The first and the last count of each way, and a channel that does not count. -/
theorem witness_IndexCountsTowardsTheTimeout :
    (∀ x ∈ [HeadState.lowering, .lifting], ∀ h, ((headsIn x State.reset).chan h).timeoutCount = 0 ∧
      ((headsIn x State.reset).chan h).state = x ∧ ((late x).chan h).timeoutCount = 7 ∧ ((late x).chan h).state = x ∧
      (late x).fitted h = true) ∧ (State.reset.chan 0).state = .absent := by decide

/-- A head number out of range; a channel not FAULTED; a FAULTED one, present and not. -/
theorem witness_HresetClearsTheFault :
    (∀ f, (fed (job .prepared .idle) .s f).offers .s f []) ∧ (job .prepared .idle).holdsZone .s .trim = true ∧
      (job .prepared .idle).lockPasses .hreset = true ∧ 4 ≤ (4 : Word).toNat ∧ (3 : Word).toNat = (3 : Head).val ∧
      ((job .prepared .idle).chan 3).state ≠ .faulted ∧ ((headsIn .faulted (job .prepared .idle)).chan 3).state = .faulted ∧
      ((job .prepared .idle).pin 3).hpres = false ∧
      (((job .prepared .idle).setPin 3 { Pins.low with hpres := true }).pin 3).hpres = true := ⟨job_offers _ _ _, by decide⟩

theorem witness_IndexOutsideTheRunChangesNothing :
    ∀ j ∈ [JobState.none, .prepared, .held, .done, .aborted],
      (job j .idle).run.jobState ∈ [JobState.none, .prepared, .held, .done, .aborted] := by decide

/-- Index events in LOWERING (a head not DOWN; DOWN before and at the settle count), in SLIP below and at the hold limit,
and in CUT with a track taken and one not taken. -/
theorem witness_IndexDrivesTheRun :
    ((job .lowering .settle).run.jobState = .lowering ∧
      ¬ ∀ h, (job .lowering .settle).used h = true → ((job .lowering .settle).chan h).state = .down) ∧
    (∀ h, (headsIn .down (job .lowering .settle)).used h = true →
        ((headsIn .down (job .lowering .settle)).chan h).state = .down) ∧
      (0 + 1 ≠ hd.settleCount ∧ 1 + 1 = hd.settleCount) ∧
    ((job .running .slip).run.jobState = .running ∧ (job .running .slip).run.phase ≠ .cut ∧
      (job .running .slip).run.phase = .slip ∧ ((job .running .slip).chan 0).queue = [] ∧
      (job .running .slip).used 0 = true ∧ ({ hd with holdSteps := 1 } : JobHeader).holdLimit ≠ 0 ∧
      min 65535 (15 + 1) = ({ hd with holdSteps := 1 } : JobHeader).holdLimit) ∧
    (cutting.run.jobState = .running ∧ cutting.run.phase = .cut ∧
      cutting.usedHeads.filter (fun h => !(cutting.chan h).taken) = [] ∧
      (headsIn .down (job .running .cut)).usedHeads.filter
        (fun h => !((headsIn .down (job .running .cut)).chan h).taken) ≠ []) := by decide

/-- Lines for t at every used head; none, without and with the hold limit reached. -/
theorem witness_ReadinessCutsOrSlips :
    (∀ h, cutting.used h = true → ∃ x rest, (cutting.chan h).queue = x :: rest ∧ x.localTrack = cutting.run.t) ∧
      ((job .running .slip).used 0 = true ∧ ((job .running .slip).chan 0).queue = []) ∧
      hd.holdSteps * (if hd.holdUnit = 0 then 16 else 64) = 0 ∧ min 65535 (63 + 1) = 1 * 64 := by
  refine ⟨fun h hu => ?_, by decide, by decide, by decide⟩
  have : h = 0 ∨ h = 1 := by revert hu; revert h; decide
  rcases this with rfl | rfl
  · exact ⟨_, _, rfl, rfl⟩
  · exact ⟨_, _, rfl, rfl⟩

/-- Two reports of one head with another's between them. -/
theorem witness_DamagedRetirementAndFaultReports :
    let s := { cutting with run := { cutting.run with reports := [⟨0, .drive⟩, ⟨1, .lifted⟩, ⟨1, .drive⟩] } }
    s.run.reports = [⟨0, .drive⟩] ++ (⟨1, .lifted⟩ : FaultReport) :: [⟨1, .drive⟩] ∧
      ∀ x ∈ ([⟨0, .drive⟩] : List FaultReport), x.head ≠ 1 := by decide

/-- A bit and a track out of range; a track passed, one inserted, and a full list. -/
theorem witness_MarkerIsInsertedOrPassed :
    let s := { job .running .cut with run := { (job .running .cut).run with t := 2, markers := [⟨3, 3⟩] } }
    (∀ w, (fed s .p ⟨.marker, 1, [w]⟩).offers .p ⟨.marker, 1, [w]⟩ []) ∧ s.holdsZone .p .place = true ∧
      s.run.jobState.isOpen = true ∧ 4 ≤ bits 0x04000003 31 24 ∧ s.run.header.tracksPerBand ≤ bits 0x03000004 15 0 ∧
      bits 0x03000001 31 24 = (3 : Fin 4).val ∧ bits 0x03000001 15 0 < s.run.t ∧ s.run.t ≤ bits 0x03000003 15 0 ∧
      s.run.markers.length < 16 ∧ s.run.markers.Pairwise (fun (x y : Marker) => x.track ≤ y.track) ∧
      16 ≤ (List.replicate 16 (⟨3, 3⟩ : Marker)).length :=
  ⟨fun _ => fed_offers _ _ _ rfl (by decide), by decide⟩

/-- A job in SLIP with both used heads DOWN and an Index event waiting: the step slips the carriage. -/
def slipping : State := { headsIn .down (job .running .slip) with pending := [.indexEvent] }

theorem slot_of_reset (n : Nat) : slipping.store.slot n = Slot.reset := by
  unfold Store.slot
  by_cases h : n < 16
  · have e : slipping.store.slots = Vector.replicate 16 Slot.reset := rfl
    simp [e, h]
  · simp [h]

theorem window_of_reset (n : Nat) : slipping.window n = Window.reset := by
  unfold State.window
  by_cases h : n < 32
  · have e : slipping.place = Vector.replicate 32 Window.reset := rfl
    simp [e, h]
  · simp [h]

theorem slipping_steps : ∃ t, step slipping = .next t := ⟨_, rfl⟩

theorem witness_EveryStepConservesPages :
    State.pagesConserved { State.reset with pending := [.indexEvent] } ∧
      ∃ t, step { State.reset with pending := [.indexEvent] } = .next t := by
  refine ⟨⟨?_, fun n hn => ?_⟩, _, rfl⟩
  · have e : ({ State.reset with pending := [.indexEvent] } : State).store.heldPages = [] := by
      show (Vector.replicate 16 Slot.reset).toList.flatMap (fun x => directoryPages x.directory) = []
      simp [Slot.reset, directoryPages]
    rw [e, List.append_nil]
    exact List.Perm.refl _
  · have e : ({ State.reset with pending := [.indexEvent] } : State).store.slot n = slipping.store.slot n := rfl
    rw [e, slot_of_reset]
    rfl

theorem witness_EveryStepKeepsMemoryCanonical :
    Memory.wf slipping.store.memory ∧ ∃ t, step slipping = .next t := ⟨by decide, slipping_steps⟩

theorem slipping_jobSound : slipping.jobSound := by
  refine ⟨hd_sound _ rfl rfl, by unfold Run.sound; decide, ?_, ?_⟩
  · have hq : ∀ h, (slipping.chan h).queue = [] := by decide
    refine ⟨fun _ h _ => ?_, fun h _ => hq h, fun h => absurd h (by decide), fun h x hx => ?_, by decide, by decide,
      trivial⟩
    · unfold State.queueAgrees
      revert h
      decide
    · rw [hq h] at hx
      cases hx
  · intro h
    unfold State.channelSound
    revert h
    decide

theorem witness_EveryStepKeepsTheJobSound : slipping.jobSound ∧ ∃ t, step slipping = .next t :=
  ⟨slipping_jobSound, slipping_steps⟩

theorem witness_EveryStepKeepsTheLinksSound :
    slipping.jobSound ∧ slipping.linksSound ∧ ∃ t, step slipping = .next t := by
  refine ⟨slipping_jobSound, ⟨fun l => ?_, fun l => ?_, by decide, fun _ => rfl⟩, slipping_steps⟩
  · unfold Port.sound; cases l <;> decide
  · cases l <;> rfl

theorem witness_EveryStepKeepsTheTablesSound : slipping.tablesSound ∧ ∃ t, step slipping = .next t := by
  refine ⟨⟨fun x hx => ?_, fun x hx => ?_, fun x hx => ?_, fun q hq => by cases hq⟩, slipping_steps⟩
  · have e : x = ToneTable.reset := by
      have : slipping.tables.tones = Vector.replicate 16 ToneTable.reset := rfl
      rw [this] at hx
      simpa using hx
    subst e
    exact ⟨List.length_replicate, fun e he => by rw [List.eq_of_mem_replicate he]; decide, rfl⟩
  · have e : x = MarkPattern.reset := by
      have : slipping.tables.patterns = Vector.replicate 8 MarkPattern.reset := rfl
      rw [this] at hx
      simpa using hx
    subst e
    refine ⟨rfl, fun h => (by cases h), fun r c hr _ _ => ?_⟩
    unfold MarkPattern.isOn MarkPattern.reset
    rw [List.getD_eq_getElem?_getD, List.getElem?_replicate]
    simp [hr]
  · have e : x = Trim.reset := by
      have : slipping.tables.trims = Vector.replicate 4 Trim.reset := rfl
      rw [this] at hx
      simpa using hx
    subst e
    unfold Trim.sound
    decide

theorem witness_EveryStepKeepsSlotsAndWindowsSound :
    slipping.slotsSound ∧ slipping.windowsDisjoint ∧ ∃ t, step slipping = .next t := by
  refine ⟨⟨fun n => ?_, fun n h => ?_⟩, ⟨fun i => ?_, fun i j g c _ h => ?_⟩, slipping_steps⟩
  · rw [slot_of_reset]
    exact ⟨by unfold Slot.sound; decide, show 0 ≤ 512 by decide⟩
  · rw [window_of_reset] at h
    cases h
  · rw [window_of_reset]
    exact ⟨show 0 < 512 by decide, show 0 < 512 by decide⟩
  · rw [window_of_reset] at h
    cases h

/-- The longest payloads a length field can give, the last track value, and a field of one bit and of the whole word. -/
theorem witness_FramesCarryTheirWords :
    (⟨.request, 1, 0x16, .accepted, List.replicate 65533 0⟩ : Reply).returned.length + 2 < 65536 ∧
      (⟨1, .done, 65535, 0, 0⟩ : Notice).t < 65536 ∧
      (⟨.row, 1, List.replicate 65535 0⟩ : InFrame).payload.length < 65536 ∧ (0 ≤ 31 ∧ 31 < 32) ∧ 31 ≤ 31 := by
  refine ⟨?_, by decide, ?_, by decide, by decide⟩
  · show (List.replicate 65533 (0 : Word)).length + 2 < 65536
    rw [List.length_replicate]
    decide
  · show (List.replicate 65535 (0 : Word)).length < 65536
    rw [List.length_replicate]
    decide

end Sys2Proof.Tests
end

section
/-!
What the job's soundness reads, and that replacing a channel's record or parts of RUN's record keeps it (R114, R116,
R119, R124).
-/

namespace Sys2Proof.Machine

/-! ### What the soundness reads -/

/-- The job's soundness reads RUN's record, the channels, the builder and the straps only. -/
theorem jobSound_congr {s t : State} (hs : s.jobSound) (hr : t.run = s.run) (hh : t.heads = s.heads)
    (hb : t.build = s.build) (hst : t.straps = s.straps) : t.jobSound := by
  cases s; cases t
  dsimp only at hr hh hb hst
  subst hr hh hb hst
  exact hs

theorem setPort_jobSound {s : State} (l : Link) (x : Port) (hs : s.jobSound) : (s.setPort l x).jobSound :=
  jobSound_congr hs (by simp) (by simp) (by simp) (by simp)

theorem raise_jobSound {s : State} (b : StatusBit) (hs : s.jobSound) : (s.raise b).jobSound :=
  jobSound_congr hs rfl rfl rfl rfl

theorem setPin_jobSound {s : State} (h : Head) (x : Pins) (hs : s.jobSound) : (s.setPin h x).jobSound :=
  jobSound_congr hs rfl rfl rfl rfl

/-! ### The header by itself -/

/-- A header in its ranges (R4, R6) for a number of fitted heads. -/
def JobHeader.sound (h : JobHeader) (fitted : Nat) : Prop :=
  (512 ≤ h.cellsPerRev ∧ h.cellsPerRev ≤ 16384) ∧ (1 ≤ h.tracksPerBand ∧ h.tracksPerBand ≤ 16383) ∧ h.shiftMode ≤ 1 ∧
    (1 ≤ h.settleCount ∧ h.settleCount ≤ 15) ∧ h.holdSteps ≤ 15 ∧ h.holdUnit ≤ 1 ∧ h.declaredWindows ≤ 32 ∧
    h.declaredSlots ≤ 16 ∧ h.headMask.toNat < 2 ^ fitted ∧ h.pGrants.toNat < 32 ∧ h.sGrants.toNat < 32 ∧
    h.locked.length ≤ 4 ∧ ∀ w ∈ h.locked, w ∈ lockable

theorem headerSound_iff (s : State) : s.headerSound ↔ s.run.header.sound s.fittedCount := Iff.rfl

theorem JobHeader.sound_cleared (n : Nat) : JobHeader.cleared.sound n :=
  ⟨by decide, by decide, by decide, by decide, by decide, by decide, by decide, by decide,
    Nat.pow_pos (by decide), by decide, by decide, by decide, nofun⟩

theorem JobHeader.sound.tracksPerBand {h : JobHeader} {n : Nat} (hh : h.sound n) :
    1 ≤ h.tracksPerBand ∧ h.tracksPerBand ≤ 16383 := by
  obtain ⟨-, hB, -⟩ := hh
  exact hB

theorem JobHeader.sound.settleCount {h : JobHeader} {n : Nat} (hh : h.sound n) :
    1 ≤ h.settleCount ∧ h.settleCount ≤ 15 := by
  obtain ⟨-, -, -, hsc, -⟩ := hh
  exact hsc

/-! ### A channel's record by itself -/

/-- `State.channelSound` as a condition on the channel's record. -/
def Channel.sound (c : Channel) (fitted : Bool) : Prop :=
  (c.faultCause = .none ↔ c.state ≠ .faulted) ∧ c.faultTrack ≤ 16383 ∧ c.timeoutCount ≤ 8 ∧
    (c.state = .lowering ∨ c.state = .lifting → c.timeoutCount < 8) ∧
    c.linesCut ≤ max32 ∧ c.cellsCut ≤ max48 ∧ c.damagedLines ≤ max32 ∧
    (c.transferring = true → c.state = .down ∧ c.inCut = true) ∧ (fitted = false → c.state = .absent)

theorem channelSound_iff (s : State) (h : Head) : s.channelSound h ↔ (s.chan h).sound (s.fitted h) := Iff.rfl

theorem Channel.sound.fitted {c : Channel} {b : Bool} (hc : c.sound b) (hs : c.state ≠ .absent) : b = true := by
  obtain ⟨-, -, -, -, -, -, -, -, hfit⟩ := hc
  cases b
  · exact absurd (hfit rfl) hs
  · rfl

/-- R124: the record of a fitted channel that has entered FAULTED. -/
theorem Channel.sound.faulted {c : Channel} {b : Bool} (hc : c.sound b) (hb : b = true) {cause : Cause}
    (hcause : cause ≠ .none) {t : Nat} (ht : t ≤ 16383) {n : Nat} (hn : n ≤ 8) :
    ({ c with state := .faulted, faultCause := cause, faultTrack := t, timeoutCount := n, transferring := false } :
      Channel).sound b := by
  obtain ⟨-, -, -, -, hlines, hcells, hdamaged, -, -⟩ := hc
  exact ⟨by simp [hcause], ht, hn, by simp, hlines, hcells, hdamaged, by simp, by simp [hb]⟩

/-- The record of a channel in a state other than FAULTED, its fault cleared, its count below the limit, no transfer. -/
theorem Channel.sound.cleared {c : Channel} {b : Bool} (hc : c.sound b) {x : HeadState} (hx : x ≠ .faulted)
    (hb : x = .absent ∨ b = true) {t : Nat} (ht : t ≤ 16383) {n : Nat} (hn : n ≤ 8)
    (hmove : x = .lowering ∨ x = .lifting → n < 8) :
    ({ c with state := x, faultCause := .none, faultTrack := t, timeoutCount := n, transferring := false } :
      Channel).sound b := by
  obtain ⟨-, -, -, -, hlines, hcells, hdamaged, -, -⟩ := hc
  refine ⟨by simp [hx], ht, hn, hmove, hlines, hcells, hdamaged, by simp, fun hf => ?_⟩
  exact hb.resolve_right (by simp [hf])

/-- A channel without a fault moves to another state than FAULTED, with a count below the limit and no transfer. -/
theorem Channel.sound.moved {c : Channel} {b : Bool} (hc : c.sound b) (hcause : c.faultCause = .none) {x : HeadState}
    (hx : x ≠ .faulted) (hb : x = .absent ∨ b = true) {n : Nat} (hn : n ≤ 8)
    (hmove : x = .lowering ∨ x = .lifting → n < 8) :
    ({ c with state := x, timeoutCount := n, transferring := false } : Channel).sound b := by
  have := hc.cleared hx hb hc.2.1 hn hmove
  rwa [← hcause] at this

theorem Channel.sound.faultCause {c : Channel} {b : Bool} (hc : c.sound b) (hs : c.state ≠ .faulted) :
    c.faultCause = .none := hc.1.2 hs

theorem Channel.sound.transferring {c : Channel} {b : Bool} (hc : c.sound b) (hs : c.state ≠ .down) :
    c.transferring = false := by
  obtain ⟨-, -, -, -, -, -, -, hsend, -⟩ := hc
  by_contra h
  exact hs (hsend (by simpa using h)).1

theorem Channel.sound.timeoutCount {c : Channel} {b : Bool} (hc : c.sound b) : c.timeoutCount ≤ 8 := by
  obtain ⟨-, -, hcount, -⟩ := hc
  exact hcount

/-- R86: the count of cells cleared by an HTRIM. -/
theorem Channel.sound.cellsCleared {c : Channel} {b : Bool} (hc : c.sound b) :
    ({ c with cellsCut := 0 } : Channel).sound b := by
  obtain ⟨hcause, htrack, hcount, hmove, hlines, -, hdamaged, hsend, hfit⟩ := hc
  exact ⟨hcause, htrack, hcount, hmove, hlines, Nat.zero_le _, hdamaged, hsend, hfit⟩

/-- A channel that is not FAULTED and sends no line moves to another state, its count kept or started anew. -/
theorem Channel.sound.goes {c : Channel} {b : Bool} (hc : c.sound b) (hs : c.state ≠ .faulted) (hd : c.state ≠ .down)
    {x : HeadState} (hx : x ≠ .faulted) (hb : x = .absent ∨ b = true) {n : Nat} (hn : n ≤ 8)
    (hmove : x = .lowering ∨ x = .lifting → n < 8) : ({ c with state := x, timeoutCount := n } : Channel).sound b := by
  have := hc.moved (hc.faultCause hs) hx hb hn hmove
  rwa [← hc.transferring hd] at this

/-! ### RUN's record in two parts -/

/-- The bounds of `Run.sound`, which read neither job state nor phase. -/
def Run.counted (r : Run) : Prop :=
  r.t = r.retiredTracks ∧ r.t ≤ r.header.tracksPerBand ∧ r.settleCounter ≤ 15 ∧ r.holdCounter ≤ 65535 ∧
    r.totalSlips ≤ max32 ∧ r.damage.length ≤ 8 ∧ r.markers.length ≤ 16 ∧
    r.markers.Pairwise (fun a b => a.track ≤ b.track) ∧
    ∀ m ∈ r.markers, r.t ≤ m.track ∧ m.track < r.header.tracksPerBand

/-- What `Run.sound` asks of phase, hold reason, pending hold, track, counters and reports in each job state. -/
def Run.phased (r : Run) : Prop :=
  (r.phase = .settle ↔ r.jobState = .lowering) ∧ (r.phase = .cut ∨ r.phase = .slip ↔ r.jobState = .running) ∧
    (r.holdReason = .none ↔ r.jobState ≠ .held) ∧ (r.pendingHold = true → r.phase = .cut) ∧
    (r.t = r.header.tracksPerBand ↔ r.jobState = .done) ∧ (r.jobState = .none ∨ r.jobState = .prepared → r.t = 0) ∧
    (r.jobState = .lowering → r.settleCounter < r.header.settleCount) ∧
    (r.jobState = .running → r.header.holdLimit = 0 ∨ r.holdCounter < r.header.holdLimit) ∧
    ∀ x ∈ r.reports, r.header.used x.head = true ∧ (r.jobState = .lowering ∨ r.jobState = .running)

theorem Run.sound_iff (r : Run) : r.sound ↔ r.counted ∧ r.phased := by
  constructor
  · rintro ⟨hsettle, hturn, hreason, hpending, hret, hband, hend, hstart, hsettles, hsc, hholds, hhc, hslips, hdam, hroom,
      hsorted, hahead, hrep⟩
    exact ⟨⟨hret, hband, hsc, hhc, hslips, hdam, hroom, hsorted, hahead⟩,
      hsettle, hturn, hreason, hpending, hend, hstart, hsettles, hholds, hrep⟩
  · rintro ⟨⟨hret, hband, hsc, hhc, hslips, hdam, hroom, hsorted, hahead⟩,
      hsettle, hturn, hreason, hpending, hend, hstart, hsettles, hholds, hrep⟩
    exact ⟨hsettle, hturn, hreason, hpending, hret, hband, hend, hstart, hsettles, hsc, hholds, hhc, hslips, hdam, hroom,
      hsorted, hahead, hrep⟩

/-! ### RUN's record replaced -/

/-- A sound record with the same header, track, job state and phase keeps the job sound. -/
theorem setRun_jobSound {s : State} (hs : s.jobSound) {r : Run} (hr : r.sound) (eh : r.header = s.run.header)
    (et : r.t = s.run.t) (ej : r.jobState = s.run.jobState) (ep : r.phase = s.run.phase) :
    State.jobSound { s with run := r } := by
  obtain ⟨hhead, -, ⟨hrunning, hempty, hdone, hlines, hin, htk, hbuild⟩, hc⟩ := hs
  have eu : ∀ k, State.used { s with run := r } k = s.used k := fun k => by simp only [State.used, eh]
  refine ⟨?_, hr, ⟨?_, ?_, ?_, ?_, ?_, htk, ?_⟩, hc⟩
  · simpa only [State.headerSound, State.fittedCount, eh] using hhead
  · simpa only [State.queueAgrees, State.chan, ej, ep, et, eh, eu] using hrunning
  · simpa only [State.chan, ej, eu] using hempty
  · simpa only [ej, eu, eh] using hdone
  · simpa only [State.lineSound, State.chan, eh] using hlines
  · simpa only [State.chan, ep, eu] using hin
  · simpa only [State.buildAgrees, State.chan, ej, eu, eh] using hbuild

theorem reports_of_jobSound {s : State} (hs : s.jobSound) : ∀ x ∈ s.run.reports,
    s.used x.head = true ∧ (s.run.jobState = .lowering ∨ s.run.jobState = .running) := by
  obtain ⟨-, hrun, -⟩ := hs
  obtain ⟨-, -, -, -, -, -, -, -, -, hrep⟩ := (Run.sound_iff _).1 hrun
  exact hrep

/-- Other reports that can have an effect keep the job sound. -/
theorem setReports_jobSound {s : State} (hs : s.jobSound) {xs : List FaultReport}
    (hx : ∀ x ∈ xs, s.used x.head = true ∧ (s.run.jobState = .lowering ∨ s.run.jobState = .running)) :
    State.jobSound { s with run := { s.run with reports := xs } } := by
  obtain ⟨hcount, hsettle, hturn, hreason, hpending, hend, hstart, hsettles, hholds, -⟩ := (Run.sound_iff _).1 hs.2.1
  exact setRun_jobSound hs ((Run.sound_iff _).2
    ⟨hcount, hsettle, hturn, hreason, hpending, hend, hstart, hsettles, hholds, hx⟩) rfl rfl rfl rfl

/-! ### Replacing channels -/

/-- Channels that keep their queues and lines in cut, and stay sound, keep the job sound. -/
theorem jobSound_of_heads {s t : State} (hs : s.jobSound) (hrun : t.run = s.run) (hb : t.build = s.build)
    (hst : t.straps = s.straps) (hq : ∀ k, (t.chan k).queue = (s.chan k).queue)
    (hcut : ∀ k, (t.chan k).inCut = (s.chan k).inCut) (htk : ∀ k, (t.chan k).taken = true → (t.chan k).inCut = true)
    (hc : ∀ k, t.channelSound k) : t.jobSound := by
  obtain ⟨hhead, hrec, ⟨hrunning, hempty, hdone, hlines, hin, -, hbuild⟩, -⟩ := hs
  have eu : ∀ k, t.used k = s.used k := fun k => by simp only [State.used, hrun]
  refine ⟨?_, hrun ▸ hrec, ⟨?_, ?_, ?_, ?_, ?_, htk, ?_⟩, hc⟩
  · simpa only [State.headerSound, State.fittedCount, hrun, hst] using hhead
  · simpa only [State.queueAgrees, hrun, eu, hq, hb] using hrunning
  · simpa only [hrun, eu, hq] using hempty
  · simpa only [hrun, eu, hb] using hdone
  · simpa only [State.lineSound, hq, hrun] using hlines
  · simpa only [hcut, hrun, eu] using hin
  · simpa only [State.buildAgrees, hb, eu, hrun, hq] using hbuild

theorem channelSound_of_jobSound {s : State} (hs : s.jobSound) (h : Head) : (s.chan h).sound (s.fitted h) := by
  obtain ⟨-, -, -, hchan⟩ := hs
  exact hchan h

theorem inCut_of_taken {s : State} (hs : s.jobSound) {h : Head} (ht : (s.chan h).taken = true) :
    (s.chan h).inCut = true := by
  obtain ⟨-, -, ⟨-, -, -, -, -, htaken, -⟩, -⟩ := hs
  exact htaken h ht

/-- A channel replaced by a sound one with the same queue and line in cut keeps the job sound. -/
theorem setChan_jobSound {s : State} (hs : s.jobSound) {h : Head} {c : Channel} (hq : c.queue = (s.chan h).queue)
    (hcut : c.inCut = (s.chan h).inCut) (htk : c.taken = true → c.inCut = true) (hc : c.sound (s.fitted h)) :
    (s.setChan h c).jobSound := by
  refine jobSound_of_heads hs rfl rfl rfl (fun k => ?_) (fun k => ?_) (fun k => ?_) (fun k => ?_)
  · rw [chan_setChan_eq_ite]; split
    · next e => rw [e, hq]
    · rfl
  · rw [chan_setChan_eq_ite]; split
    · next e => rw [e, hcut]
    · rfl
  · rw [chan_setChan_eq_ite]; split
    · exact htk
    · exact inCut_of_taken hs
  · rw [channelSound_iff, chan_setChan_eq_ite, setChan_fitted]; split
    · next e => rw [e]; exact hc
    · exact channelSound_of_jobSound hs k

theorem setChan_setChan (s : State) (h : Head) (c d : Channel) : (s.setChan h c).setChan h d = s.setChan h d := by
  simp [State.setChan]

theorem headerSound_of_jobSound {s : State} (hs : s.jobSound) : s.run.header.sound s.fittedCount := by
  obtain ⟨hhead, -⟩ := hs
  exact (headerSound_iff s).1 hhead

/-- R4: every track of a band fits the field of a fault record. -/
theorem t_le_of_jobSound {s : State} (hs : s.jobSound) : s.run.t ≤ 16383 := by
  have hB := (headerSound_of_jobSound hs).tracksPerBand
  obtain ⟨-, ⟨-, -, -, -, -, ht, -⟩, -⟩ := hs
  exact ht.trans hB.2

/-! ### Entries to FAULTED and to LIFTING -/

/-- R124: an entry to FAULTED keeps the job sound where the FAULTED record does; a report is sent only while it can have
an effect. -/
theorem enterFaulted_jobSound {s : State} {h : Head} {cause : Cause}
    (hl : (s.setChan h { s.chan h with
      state := .faulted, faultCause := cause, faultTrack := s.run.t, transferring := false }).jobSound) :
    (s.enterFaulted h cause).jobSound := by
  have hr := raise_jobSound (.hfault h) hl
  simp only [State.enterFaulted]
  split
  · next hc =>
    simp only [Bool.and_eq_true, Bool.or_eq_true, beq_iff_eq] at hc
    refine setReports_jobSound hr fun x hx => ?_
    rcases List.mem_append.1 hx with hx | hx
    · exact reports_of_jobSound hr x hx
    · rw [List.mem_singleton.1 hx]
      exact hc.1
  · exact hr

/-- R124: a fitted channel enters FAULTED. -/
theorem enterFaulted_jobSound_of_fitted {s : State} (hs : s.jobSound) {h : Head} (hf : s.fitted h = true) {cause : Cause}
    (hcause : cause ≠ .none) : (s.enterFaulted h cause).jobSound := by
  have hc := channelSound_of_jobSound hs h
  exact enterFaulted_jobSound (setChan_jobSound hs rfl rfl (inCut_of_taken hs)
    (hc.faulted hf hcause (t_le_of_jobSound hs) hc.timeoutCount))

/-- R116: an entry to LIFTING of a fitted channel keeps the job sound where the record it enters LIFTING with does. -/
theorem enterLifting_jobSound {s : State} {h : Head} (hf : s.fitted h = true)
    (hl : (s.setChan h { s.chan h with state := .lifting, timeoutCount := 0, transferring := false }).jobSound) :
    (s.enterLifting h).jobSound := by
  simp only [State.enterLifting]
  split
  · exact enterFaulted_jobSound_of_fitted hl hf (by decide)
  · split
    · refine setChan_jobSound hl (by simp) (by simp) (fun ht => ?_) ?_
      · have := inCut_of_taken hl (h := h)
        simp only [chan_setChan] at this
        exact this ht
      · have hc := channelSound_of_jobSound hl h
        rw [chan_setChan] at hc
        exact hc.moved (hc.faultCause (by simp)) (by decide) (.inr hf) (by decide) (by decide)
    · exact hl

/-- R116: a fitted channel that is not FAULTED enters LIFTING. -/
theorem enterLifting_jobSound_of_ne_faulted {s : State} (hs : s.jobSound) {h : Head} (hf : s.fitted h = true)
    (hn : (s.chan h).state ≠ .faulted) : (s.enterLifting h).jobSound := by
  have hc := channelSound_of_jobSound hs h
  exact enterLifting_jobSound hf (setChan_jobSound hs rfl rfl (inCut_of_taken hs)
    (hc.moved (hc.faultCause hn) (by decide) (.inr hf) (by decide) (by decide)))

/-- R119: a lift command keeps the job sound. -/
theorem liftCommand_jobSound {s : State} (h : Head) (hs : s.jobSound) : (s.liftCommand h).jobSound := by
  rw [liftCommand_eq]
  split
  · next hc =>
    have hne : (s.chan h).state ≠ .faulted ∧ (s.chan h).state ≠ .absent := by
      rcases hc with hc | hc <;> simp [hc]
    exact enterLifting_jobSound_of_ne_faulted hs ((channelSound_of_jobSound hs h).fitted hne.2) hne.1
  · exact hs

theorem liftUsed_jobSound {s : State} (hs : s.jobSound) : (s.forUsed State.liftCommand).jobSound :=
  forUsed_keeps (fun h _ ht => liftCommand_jobSound h ht) hs

/-- R125: the short command faults a DOWN channel and sends no report. -/
theorem shortCommand_jobSound {s : State} (h : Head) (hs : s.jobSound) :
    (s.shortCommand h).jobSound ∧ (s.shortCommand h).run = s.run := by
  unfold State.shortCommand
  split
  · next hd =>
    refine ⟨enterFaulted_jobSound_of_fitted hs ((channelSound_of_jobSound hs h).fitted (by simp [hd])) (by decide), ?_⟩
    rw [run_enterFaulted, if_neg (by simp)]
  all_goals exact ⟨hs, rfl⟩

/-- R117: the lower command to the used heads keeps the job sound. -/
theorem lowerUsed_jobSound {s : State} (hs : s.jobSound) : (s.command Channel.lower).jobSound := by
  have key : ∀ k, (((s.command Channel.lower).chan k) = s.chan k ∨ (s.chan k).state = .parked ∧
      (s.command Channel.lower).chan k = { s.chan k with state := .lowering, timeoutCount := 0 }) := by
    intro k
    rw [chan_command]
    unfold Channel.lower
    cases hst : (s.chan k).state <;> simp
    cases s.used k <;> simp
  refine jobSound_of_heads hs rfl rfl rfl (fun k => ?_) (fun k => ?_) (fun k => ?_) (fun k => ?_)
  · rcases key k with e | ⟨-, e⟩ <;> rw [e]
  · rcases key k with e | ⟨-, e⟩ <;> rw [e]
  · rcases key k with e | ⟨-, e⟩ <;> rw [e] <;> exact inCut_of_taken hs
  · have hc := channelSound_of_jobSound hs k
    show ((s.command Channel.lower).chan k).sound (s.fitted k)
    rcases key k with e | ⟨hp, e⟩ <;> rw [e]
    · exact hc
    · exact hc.goes (by simp [hp]) (by simp [hp]) (by decide) (.inr (hc.fitted (by simp [hp]))) (by decide) (by decide)

/-! ### Writes of TABLES -/

/-- R90: a write of TABLES keeps the job sound: at most it clears a cell count. -/
theorem applyWrite_jobSound {s : State} (w : TableWrite) (hs : s.jobSound) : (s.applyWrite w).jobSound := by
  cases w with
  | tone n es => exact jobSound_congr hs rfl rfl rfl rfl
  | pattern n m => exact jobSound_congr hs rfl rfl rfl rfl
  | trim h r clear =>
    have hs1 : State.jobSound { s with tables := { s.tables with trims := s.tables.trims.set h.val r } } :=
      jobSound_congr hs rfl rfl rfl rfl
    cases clear with
    | false => exact hs1
    | true => exact setChan_jobSound hs1 rfl rfl (inCut_of_taken hs) (channelSound_of_jobSound hs h).cellsCleared

/-- What every write and its answer keep, and the emptying of the queue keeps, the end of all waiting writes keeps. -/
theorem finishWrites_keeps {P : State → Prop} (hw : ∀ q s, P s → P (s.finishWrite q))
    (ht : ∀ (s : State) x, P s → P { s with tables := x }) {s : State} (hs : P s) : P s.finishWrites := by
  have key : ∀ (qs : List QueuedWrite) (t : State), P t → P (qs.foldl (fun s q => s.finishWrite q) t) := by
    intro qs
    induction qs with
    | nil => exact fun t h => h
    | cons q qs ih => exact fun t h => ih _ (hw q t h)
  exact ht _ _ (key _ s hs)

theorem finishWrites_jobSound {s : State} (hs : s.jobSound) : s.finishWrites.jobSound :=
  finishWrites_keeps (fun _ _ h => setPort_jobSound _ _ (applyWrite_jobSound _ h))
    (fun _ _ h => jobSound_congr h rfl rfl rfl rfl) hs

end Sys2Proof.Machine
end

section
/-!
The state between two cuts: no line in cut, the queues in step with the carriage. A cut that ends leaves it, and every
move of RUN from there (a cut, a slip, HELD, DONE) is sound (R25, R29, R105, R141, R143, R144, R146).
-/

namespace Sys2Proof.Machine

/-! ### RUN's record in each job state -/

/-- R25, R29, R32: a stopped record agrees with itself; DONE is the state at the end of the band. -/
theorem Run.phased_stop {r : Run} {j : JobState} {reason : HoldReason} (hj : j ∈ [JobState.held, .done, .aborted])
    (hreason : reason = .none ↔ j ≠ .held) (hend : r.t = r.header.tracksPerBand ↔ j = .done) :
    (r.stop j reason).phased := by
  have hcases : j = .held ∨ j = .done ∨ j = .aborted := by simpa using hj
  refine ⟨?_, ?_, hreason, nofun, hend, ?_, ?_, ?_, nofun⟩ <;>
    rcases hcases with rfl | rfl | rfl <;> simp

/-- R20, R28: a record that begins to lower agrees with itself. -/
theorem Run.phased_lowering {r : Run} (hj : r.jobState = .lowering) (hp : r.phase = .settle) (hr : r.holdReason = .none)
    (hh : r.pendingHold = false) (ht : r.t ≠ r.header.tracksPerBand) (hsc : r.settleCounter < r.header.settleCount)
    (hrep : ∀ x ∈ r.reports, r.header.used x.head = true) : r.phased :=
  ⟨by simp [hp, hj], by simp [hp, hj], by simp [hr, hj], by simp [hh], by simp [hj, ht], by simp [hj], fun _ => hsc,
    by simp [hj], fun x hx => ⟨hrep x hx, .inl hj⟩⟩

/-- R143, R144: the record of a carriage about to cut or to slip. -/
def Run.rolling (r : Run) : Prop :=
  r.jobState = .running ∧ r.holdReason = .none ∧ r.pendingHold = false ∧ r.t ≠ r.header.tracksPerBand ∧
    (r.header.holdLimit = 0 ∨ r.holdCounter < r.header.holdLimit) ∧ ∀ x ∈ r.reports, r.header.used x.head = true

/-- A rolling record in phase CUT or SLIP agrees with itself. -/
theorem Run.phased_rolling {r : Run} (hr : r.rolling) (hp : r.phase = .cut ∨ r.phase = .slip) : r.phased := by
  obtain ⟨hj, hreason, hpending, ht, hlimit, hrep⟩ := hr
  have hns : r.phase ≠ .settle := by rcases hp with hp | hp <;> simp [hp]
  exact ⟨by simp [hns, hj], by simp [hp, hj], by simp [hreason, hj], by simp [hpending], by simp [hj, ht], by simp [hj],
    by simp [hj], fun _ => hlimit, fun x hx => ⟨hrep x hx, .inr hj⟩⟩

/-- R141, R146: RUN's record after its markers of track t are fired and t has advanced. -/
def Run.advanced (r : Run) : Run :=
  { r with markers := r.markers.dropWhile (fun m => m.track == r.t), t := r.t + 1, retiredTracks := r.retiredTracks + 1 }

/-- R151: markers in ascending order at or past t, those of t dropped, lie past t. -/
theorem lt_of_mem_dropWhile {t : Nat} {ms : List Marker} (hs : ms.Pairwise (fun a b => a.track ≤ b.track))
    (ht : ∀ m ∈ ms, t ≤ m.track) : ∀ m ∈ ms.dropWhile (fun m => m.track == t), t + 1 ≤ m.track := by
  induction ms with
  | nil => simp
  | cons a ms ih =>
    obtain ⟨hle, hs⟩ := List.pairwise_cons.1 hs
    have hta := ht a (by simp)
    rw [List.dropWhile_cons]
    split
    · exact ih hs fun m hm => ht m (by simp [hm])
    · next hne =>
      have hlt : t < a.track := lt_of_le_of_ne hta (Ne.symm (by simpa using hne))
      intro m hm
      rcases List.mem_cons.1 hm with rfl | hm
      · exact hlt
      · exact hlt.trans_le (hle m hm)

theorem Run.counted_advanced {r : Run} (hr : r.counted) (ht : r.t < r.header.tracksPerBand) : r.advanced.counted := by
  obtain ⟨hret, -, hsc, hhc, hslips, hdam, hroom, hsorted, hahead⟩ := hr
  have hsub : r.advanced.markers.Sublist r.markers := List.dropWhile_sublist _
  refine ⟨congrArg (· + 1) hret, ht, hsc, hhc, hslips, hdam, hsub.length_le.trans hroom, hsorted.sublist hsub,
    fun m hm => ⟨?_, (hahead m (hsub.subset hm)).2⟩⟩
  exact lt_of_mem_dropWhile hsorted (fun m hm => (hahead m hm).1) m hm

theorem run_fireMarkers (s : State) : s.fireMarkers.run =
    { s.run with markers := s.run.markers.dropWhile (fun m => m.track == s.run.t) } := raiseAll_run _ _

/-- R141 steps 2 to 4, R146 steps 4 to 6: one STEP, the markers of t, and the advance of t. -/
theorem run_advance (s : State) : s.pulseStep.fireMarkers.advanceTrack.run = s.run.advanced := by
  simp only [State.advanceTrack, run_fireMarkers]
  rfl

theorem heads_advance (s : State) : s.pulseStep.fireMarkers.advanceTrack.heads = s.heads :=
  raiseAll_heads _ _

theorem build_advance (s : State) : s.pulseStep.fireMarkers.advanceTrack.build = s.build :=
  raiseAll_build _ _

theorem straps_advance (s : State) : s.pulseStep.fireMarkers.advanceTrack.straps = s.straps :=
  raiseAll_straps _ _

/-! ### Between two cuts -/

/-- `State.queueAgrees` without its condition on a cut. -/
def State.queueInStep (s : State) (h : Head) : Prop :=
  (s.chan h).queue.map Line.localTrack = List.range' s.run.t (s.chan h).queue.length ∧
    s.build.nextTrack[h.val] = s.run.t + (s.chan h).queue.length ∧ (s.chan h).queue.length ≤ 4 ∧
    s.build.nextTrack[h.val] ≤ s.run.header.tracksPerBand

theorem queueAgrees_iff (s : State) (h : Head) :
    s.queueAgrees h ↔ s.queueInStep h ∧ (s.run.phase = .cut → (s.chan h).queue ≠ []) := by
  unfold State.queueAgrees State.queueInStep
  tauto

/-- A job on the copper with no line in cut; of RUN's record only header, track and job state are read. -/
structure State.betweenCuts (s : State) : Prop where
  header : s.headerSound
  copper : s.run.jobState.onCopper = true
  inStep : ∀ h, s.used h = true → s.queueInStep h
  unused : ∀ h, s.used h = false → (s.chan h).queue = []
  lines : ∀ h, ∀ x ∈ (s.chan h).queue, s.lineSound h x
  notInCut : ∀ h, (s.chan h).inCut = false
  notTaken : ∀ h, (s.chan h).taken = false
  build : s.buildAgrees
  channels : ∀ h, s.channelSound h

/-- R127: outside phase CUT no line is in cut, and none is taken. -/
theorem notInCut_of_jobSound {s : State} (hs : s.jobSound) (hp : s.run.phase ≠ .cut) (h : Head) :
    (s.chan h).inCut = false ∧ (s.chan h).taken = false := by
  obtain ⟨-, -, ⟨-, -, -, -, hin, htk, -⟩, -⟩ := hs
  have hnot : (s.chan h).inCut = false := by
    by_contra hi
    exact hp ((hin h).1 (by simpa using hi)).1
  refine ⟨hnot, ?_⟩
  by_contra ht
  simpa [hnot] using htk h (by simpa using ht)

theorem betweenCuts_of_jobSound {s : State} (hs : s.jobSound) (hc : s.run.jobState.onCopper = true)
    (hp : s.run.phase ≠ .cut) : s.betweenCuts := by
  have hnot := notInCut_of_jobSound hs hp
  obtain ⟨hhead, -, ⟨hrunning, hempty, -, hlines, -, -, hbuild⟩, hchan⟩ := hs
  exact ⟨hhead, hc, fun h hu => ((queueAgrees_iff s h).1 (hrunning hc h hu)).1, fun h hu => hempty h (.inr hu), hlines,
    fun h => (hnot h).1, fun h => (hnot h).2, hbuild, hchan⟩

theorem jobSound_of_betweenCuts {s : State} (hs : s.betweenCuts) (hr : s.run.sound) (hp : s.run.phase ≠ .cut) :
    s.jobSound := by
  refine ⟨hs.header, hr, ⟨fun _ h hu => (queueAgrees_iff s h).2 ⟨hs.inStep h hu, fun e => absurd e hp⟩, fun h hh => ?_,
    fun hd => ?_, hs.lines, fun h => ?_, fun h ht => ?_, hs.build⟩, hs.channels⟩
  · exact hs.unused h (hh.resolve_left (by simp [hs.copper]))
  · have := hs.copper
    simp [hd, JobState.onCopper] at this
  · simp [hs.notInCut h, hp]
  · simp [hs.notTaken h] at ht

/-- RUN's record replaced between two cuts, header and track kept. -/
theorem State.betweenCuts.setRun {s : State} (hs : s.betweenCuts) {r : Run} (eh : r.header = s.run.header)
    (et : r.t = s.run.t) (hc : r.jobState.onCopper = true) : State.betweenCuts { s with run := r } := by
  have eu : ∀ k, State.used { s with run := r } k = s.used k := fun k => by simp only [State.used, eh]
  refine ⟨?_, hc, fun h hu => ?_, fun h hu => hs.unused h (eu h ▸ hu), ?_, hs.notInCut, hs.notTaken, ?_, hs.channels⟩
  · simpa only [State.headerSound, State.fittedCount, eh] using hs.header
  · simpa only [State.queueInStep, State.chan, et, eh] using hs.inStep h (eu h ▸ hu)
  · simpa only [State.lineSound, State.chan, eh] using hs.lines
  · simpa only [State.buildAgrees, State.chan, hc, hs.copper, eu, eh] using hs.build

/-! ### A cut ends -/

/-- R129: a command that removes the line at the head of the queue and ends its cut. -/
structure Channel.RemovesLine (f : Channel → Channel) : Prop where
  queue : ∀ c, (f c).queue = c.queue.tail
  inCut : ∀ c, (f c).inCut = false
  taken : ∀ c, (f c).taken = false
  sound : ∀ {c b}, c.sound b → (f c).sound b

theorem retire_removesLine : Channel.RemovesLine Channel.retire where
  queue _ := rfl
  inCut _ := rfl
  taken _ := rfl
  sound := fun ⟨hcause, htrack, hcount, hmove, _, _, hdamaged, _, hfit⟩ =>
    ⟨hcause, htrack, hcount, hmove, Nat.min_le_left _ _, Nat.min_le_left _ _, hdamaged, nofun, hfit⟩

theorem damage_removesLine : Channel.RemovesLine Channel.damage where
  queue _ := rfl
  inCut _ := rfl
  taken _ := rfl
  sound := fun ⟨hcause, htrack, hcount, hmove, hlines, hcells, _, _, hfit⟩ =>
    ⟨hcause, htrack, hcount, hmove, hlines, hcells, Nat.min_le_left _ _, nofun, hfit⟩

/-- The lines in cut removed and t advanced, the queues are in step again. -/
theorem betweenCuts_of_retired {s t : State} (hs : s.jobSound) (hp : s.run.phase = .cut) (hj : s.run.jobState = .running)
    {f : Channel → Channel} (hf : Channel.RemovesLine f) (hheads : t.heads = (s.command f).heads)
    (hb : t.build = s.build) (hst : t.straps = s.straps) (eh : t.run.header = s.run.header)
    (et : t.run.t = s.run.t + 1) (ej : t.run.jobState = .running) : t.betweenCuts := by
  obtain ⟨hhead, -, ⟨hrunning, hempty, -, hlines, hin, htk, hbuild⟩, hchan⟩ := hs
  have eu : ∀ k, t.used k = s.used k := fun k => by simp only [State.used, eh]
  have ec : ∀ k, t.chan k = if s.used k then f (s.chan k) else s.chan k := fun k =>
    (show t.chan k = (s.command f).chan k by simp only [State.chan, hheads]).trans (chan_command s k f)
  have efit : ∀ k, t.fitted k = s.fitted k := fun k => by simp [State.fitted, State.fittedCount, hst]
  have hsub : ∀ k, (t.chan k).queue.Sublist (s.chan k).queue := fun k => by
    rw [ec]; split
    · rw [hf.queue]; exact List.tail_sublist _
    · exact List.Sublist.refl _
  have hc : s.run.jobState.onCopper = true := by simp [hj, JobState.onCopper]
  refine ⟨?_, by simp [ej, JobState.onCopper], fun h hu => ?_, fun h hu => ?_, fun h x hx => ?_, fun h => ?_, fun h => ?_,
    ?_, fun h => ?_⟩
  · simpa only [State.headerSound, State.fittedCount, eh, hst] using hhead
  · rw [eu] at hu
    obtain ⟨hmap, hnext, hlen, hband, hne⟩ := hrunning hc h hu
    unfold State.queueInStep
    rw [ec, if_pos hu, hf.queue, hb, et, eh]
    obtain ⟨x, q, hq⟩ := List.exists_cons_of_ne_nil (hne hp)
    simp only [hq, List.map_cons, List.length_cons, List.range'_succ, List.cons.injEq] at hmap hnext hlen
    rw [hq, List.tail_cons]
    exact ⟨hmap.2, by omega, by omega, hband⟩
  · rw [eu] at hu
    rw [ec, if_neg (by simp [hu])]
    exact hempty h (.inr hu)
  · simpa only [State.lineSound, eh] using hlines h x ((hsub h).subset hx)
  · rw [ec]; split
    · exact hf.inCut _
    · next hu =>
      by_contra hi
      exact hu ((hin h).1 (by simpa using hi)).2
  · rw [ec]; split
    · exact hf.taken _
    · next hu =>
      by_contra ht
      exact hu ((hin h).1 (htk h (by simpa using ht))).2
  · unfold State.buildAgrees at hbuild ⊢
    rw [hb]
    split
    · trivial
    · next b hfl =>
      rw [hfl] at hbuild
      obtain ⟨-, hu, hloc, hlt, hroom, hglob, hcells⟩ := hbuild
      exact ⟨by simp [ej, JobState.onCopper], by rw [eu]; exact hu, hloc, by rw [eh]; exact hlt,
        (hsub _).length_le.trans_lt hroom, by rw [eh]; exact hglob, by rw [eh]; exact hcells⟩
  · rw [channelSound_iff, ec, efit]; split
    · exact hf.sound (hchan h)
    · exact hchan h

/-! ### Moves from between two cuts -/

/-- R25: entry to HELD between two cuts. -/
theorem enterHeld_jobSound {s : State} (hs : s.betweenCuts) (hc : s.run.counted)
    (ht : s.run.t ≠ s.run.header.tracksPerBand) {reason : HoldReason} (hr : reason ≠ .none) :
    (s.enterHeld reason).jobSound := by
  have hp : (s.run.stop .held reason).phased := Run.phased_stop (by simp) (by simp [hr]) (by simp [ht])
  have hstop : State.jobSound { s with run := s.run.stop .held reason } :=
    jobSound_of_betweenCuts (hs.setRun rfl rfl rfl) ((Run.sound_iff _).2 ⟨hc, hp⟩) (by simp)
  exact raise_jobSound _ (liftUsed_jobSound hstop)

/-- R29: entry to DONE at the end of the band: every queue is empty and every pointer is at the band's end. -/
theorem enterDone_jobSound {s : State} (hs : s.betweenCuts) (hc : s.run.counted)
    (ht : s.run.t = s.run.header.tracksPerBand) : s.enterDone.jobSound := by
  have hp : (s.run.stop .done .none).phased := Run.phased_stop (by simp) (by simp) (by simp [ht])
  have hlen : ∀ h, s.used h = true → (s.chan h).queue.length = 0 ∧
      s.build.nextTrack[h.val] = s.run.header.tracksPerBand := fun h hu => by
    obtain ⟨-, hnext, -, hband⟩ := hs.inStep h hu
    omega
  have hempty : ∀ h, (s.chan h).queue = [] := fun h => by
    cases hu : s.used h with
    | true => exact List.eq_nil_of_length_eq_zero (hlen h hu).1
    | false => exact hs.unused h hu
  have hidle : s.build.inFlight = none := by
    have hb := hs.build
    unfold State.buildAgrees at hb
    split at hb
    · assumption
    · next b _ =>
      obtain ⟨-, hu, hloc, hlt, -⟩ := hb
      have := (hlen b.head hu).2
      omega
  have hstop : State.jobSound { s with run := s.run.stop .done .none } := by
    refine ⟨hs.header, (Run.sound_iff _).2 ⟨hc, hp⟩, ⟨nofun, fun h _ => hempty h, fun _ h hu => (hlen h hu).2, hs.lines,
      fun h => ?_, fun h ht => ?_, ?_⟩, hs.channels⟩
    · show (s.chan h).inCut = true ↔ Phase.idle = .cut ∧ _
      simp [hs.notInCut h]
    · have : (s.chan h).taken = true := ht
      simp [hs.notTaken h] at this
    · simp only [State.buildAgrees, hidle]
  exact raise_jobSound _ (liftUsed_jobSound hstop)

/-- R143: a cut starts where every used head holds its line. -/
theorem startCut_jobSound {s : State} (hs : s.betweenCuts) (hc : s.run.counted) (hr : s.run.rolling)
    (hready : s.allReady = true) : s.startCut.jobSound := by
  have hne : ∀ h, s.used h = true → (s.chan h).queue ≠ [] := fun h hu he => by
    have := List.all_eq_true.1 hready h ((mem_usedHeads s h).2 hu)
    simp [State.lineReady, he] at this
  obtain ⟨hret, hband, hsc, -, hslips, hdam, hroom, hsorted, hahead⟩ := hc
  obtain ⟨hj, hreason, hpending, ht, hlimit, hrep⟩ := hr
  have hrun : s.startCut.run.sound := (Run.sound_iff _).2
    ⟨⟨hret, hband, hsc, Nat.zero_le _, hslips, hdam, hroom, hsorted, hahead⟩,
      Run.phased_rolling ⟨hj, hreason, hpending, ht, by
        show s.run.header.holdLimit = 0 ∨ 0 < s.run.header.holdLimit
        omega, hrep⟩ (.inl rfl)⟩
  have ec : ∀ k, s.startCut.chan k = if s.used k then (s.chan k).cut else s.chan k := fun k => chan_command _ k _
  have eq : ∀ k, (s.startCut.chan k).queue = (s.chan k).queue := fun k => by rw [ec]; split <;> rfl
  refine ⟨hs.header, hrun, ⟨fun _ h hu => ?_, fun h hh => ?_, ?_,
    fun h x hx => hs.lines h x (eq h ▸ hx), fun h => ?_, fun h htk => ?_, ?_⟩, fun h => ?_⟩
  · rw [queueAgrees_iff]
    refine ⟨?_, fun _ => by rw [eq]; exact hne h hu⟩
    unfold State.queueInStep
    rw [eq]
    exact hs.inStep h hu
  · rw [eq]
    refine hs.unused h (hh.resolve_left ?_)
    show ¬ s.run.jobState.onCopper = false
    simp [hs.copper]
  · show s.run.jobState = .done → _
    simp [hj]
  · show _ ↔ Phase.cut = .cut ∧ s.used h = true
    rw [ec]; split
    · next hu => simp [Channel.cut, hu]
    · next hu => simp [hs.notInCut h, hu]
  · rw [ec] at htk ⊢
    split at htk
    · cases htk
    · simp [hs.notTaken h] at htk
  · unfold State.buildAgrees
    simp only [eq]
    exact hs.build
  · rw [channelSound_iff, ec]
    split
    · obtain ⟨hcause, htrack, hcount, hmove, hlines, hcells, hdamaged, -, hfit⟩ := hs.channels h
      exact ⟨hcause, htrack, hcount, hmove, hlines, hcells, hdamaged, fun e => ⟨beq_iff_eq.1 e, rfl⟩, hfit⟩
    · exact hs.channels h

/-- R144: RUN's record after a slip. -/
theorem run_slip (s : State) : s.slip.run = { s.run with
    phase := .slip, holdCounter := saturate 65535 s.run.holdCounter 1, totalSlips := saturate max32 s.run.totalSlips 1 } :=
  rfl

theorem State.betweenCuts.raise {s : State} (hs : s.betweenCuts) (b : StatusBit) : (s.raise b).betweenCuts :=
  ⟨hs.header, hs.copper, hs.inStep, hs.unused, hs.lines, hs.notInCut, hs.notTaken, hs.build, hs.channels⟩

/-- R143, R144: the readiness step of a rolling carriage. -/
theorem readiness_jobSound {s : State} (hs : s.betweenCuts) (hc : s.run.counted) (hr : s.run.rolling) :
    s.readiness.jobSound := by
  unfold State.readiness
  split
  · next hready => exact startCut_jobSound hs hc hr hready
  · have hslip : s.slip.betweenCuts := (hs.setRun (r := { s.run with
      phase := .slip, holdCounter := saturate 65535 s.run.holdCounter 1,
      totalSlips := saturate max32 s.run.totalSlips 1 }) rfl rfl hs.copper).raise .slip
    obtain ⟨hret, hband, hsc, -, -, hdam, hroom, hsorted, hahead⟩ := hc
    obtain ⟨hj, hreason, hpending, ht, hlimit, hrep⟩ := hr
    have hcount : s.slip.run.counted :=
      ⟨hret, hband, hsc, Nat.min_le_left _ _, Nat.min_le_left _ _, hdam, hroom, hsorted, hahead⟩
    dsimp only
    split
    · exact enterHeld_jobSound hslip hcount ht (by decide)
    · next hnot =>
      have hle : saturate 65535 s.run.holdCounter 1 ≤ s.run.holdCounter + 1 := Nat.min_le_right _ _
      have hroll : s.slip.run.rolling := by
        refine ⟨hj, hreason, hpending, ht, ?_, hrep⟩
        simp only [run_slip] at hnot ⊢
        omega
      exact jobSound_of_betweenCuts hslip ((Run.sound_iff _).2 ⟨hcount, Run.phased_rolling hroll (.inr rfl)⟩)
        (by simp [run_slip])

end Sys2Proof.Machine
end

section
/-!
The moves of RUN keep the job sound: Index events, retirements, fault reports, entry to ABORTED (R26, R30 to R32, R137 to
R146).
-/

namespace Sys2Proof.Machine

/-! ### What a sound job says of its state -/

/-- A job that is not DONE has a track of its band to cut. -/
theorem t_ne_of_jobSound {s : State} (hs : s.jobSound) (hd : s.run.jobState ≠ .done) :
    s.run.t ≠ s.run.header.tracksPerBand := by
  obtain ⟨-, hrun, -⟩ := hs
  obtain ⟨-, -, -, -, -, hend, -⟩ := (Run.sound_iff _).1 hrun
  exact fun e => hd (hend.1 e)

theorem counted_of_jobSound {s : State} (hs : s.jobSound) : s.run.counted := ((Run.sound_iff _).1 hs.2.1).1

theorem phased_of_jobSound {s : State} (hs : s.jobSound) : s.run.phased := ((Run.sound_iff _).1 hs.2.1).2

/-- R136: CUT is a phase of RUNNING. -/
theorem running_of_cut {s : State} (hs : s.jobSound) (hp : s.run.phase = .cut) : s.run.jobState = .running := by
  obtain ⟨-, hturn, -⟩ := phased_of_jobSound hs
  exact hturn.1 (.inl hp)

/-- A record of a sound job in RUNNING rolls unless a hold is pending. -/
theorem rolling_of_jobSound {s : State} (hs : s.jobSound) (hj : s.run.jobState = .running)
    (hh : s.run.pendingHold = false) : s.run.rolling := by
  obtain ⟨-, -, hreason, -, hend, -, -, hholds, hrep⟩ := phased_of_jobSound hs
  exact ⟨hj, hreason.2 (by simp [hj]), hh, by simp [hend, hj], hholds hj, fun x hx => (hrep x hx).1⟩

/-- A job that is not on the copper is sound with empty queues, no line in cut and no build in flight. -/
theorem jobSound_of_empty {s : State} (hhead : s.headerSound) (hrun : s.run.sound) (hd : s.run.jobState ≠ .done)
    (hc : s.run.jobState.onCopper = false) (hp : s.run.phase ≠ .cut) (hq : ∀ h, (s.chan h).queue = [])
    (hin : ∀ h, (s.chan h).inCut = false) (htk : ∀ h, (s.chan h).taken = false) (hb : s.build.inFlight = none)
    (hchan : ∀ h, s.channelSound h) : s.jobSound := by
  refine ⟨hhead, hrun, ⟨fun e => ?_, fun h _ => hq h, fun e => absurd e hd, fun h x hx => ?_, fun h => ?_, fun h e => ?_,
    ?_⟩, hchan⟩
  · simp [hc] at e
  · simp [hq h] at hx
  · simp [hin h, hp]
  · simp [htk h] at e
  · simp only [State.buildAgrees, hb]

/-! ### The end of a job -/

theorem Channel.sound.emptied {c : Channel} {b : Bool} (hc : c.sound b) : c.empty.sound b := by
  obtain ⟨hcause, htrack, hcount, hmove, hlines, hcells, hdamaged, -, hfit⟩ := hc
  exact ⟨hcause, htrack, hcount, hmove, hlines, hcells, hdamaged, nofun, hfit⟩

/-- The waiting writes leave channels sound. -/
theorem finishWrites_channelSound {s : State} (hs : ∀ h, s.channelSound h) : ∀ h, s.finishWrites.channelSound h := by
  refine finishWrites_keeps (P := fun t => ∀ h, t.channelSound h) (fun q t ht h => ?_) (fun t _ ht h => ht h) hs
  have key : (t.applyWrite q.write).channelSound h := by
    unfold State.applyWrite
    split
    · exact ht h
    · exact ht h
    · next k r clear _ =>
      dsimp only
      split
      · show ((State.setChan _ k _).chan h).sound (t.fitted h)
        rw [chan_setChan_eq_ite]
        split
        · next e =>
          rw [e]
          exact Channel.sound.cellsCleared (ht k)
        · exact ht h
      · exact ht h
  simpa only [State.finishWrite, channelSound_iff, queueReply_chan, queueReply_fitted] using key

theorem applyWrite_build (w : TableWrite) (s : State) : (s.applyWrite w).build = s.build := by
  unfold State.applyWrite
  split
  · rfl
  · rfl
  · dsimp only; split <;> rfl

theorem finishWrites_build (s : State) : s.finishWrites.build = s.build :=
  finishWrites_keeps (P := fun t => t.build = s.build)
    (fun _ _ e => (queueReply_build _ _ _).trans ((applyWrite_build _ _).trans e)) (fun _ _ e => e) rfl

theorem applyWrite_straps (w : TableWrite) (s : State) : (s.applyWrite w).straps = s.straps := by
  unfold State.applyWrite
  split
  · rfl
  · rfl
  · dsimp only; split <;> rfl

theorem finishWrites_straps (s : State) : s.finishWrites.straps = s.straps :=
  finishWrites_keeps (P := fun t => t.straps = s.straps)
    (fun _ _ e => (queueReply_straps _ _ _).trans ((applyWrite_straps _ _).trans e)) (fun _ _ e => e) rfl

/-- R31, R32: entry to ABORTED before the end of the band, whatever the queues hold. -/
theorem enterAborted_jobSound {s : State} (hhead : s.headerSound) (hc : s.run.counted)
    (ht : s.run.t ≠ s.run.header.tracksPerBand) (hchan : ∀ h, s.channelSound h) : s.enterAborted.jobSound := by
  obtain ⟨hret, hband, hsc, hhc, hslips, hdam, -, -, -⟩ := hc
  set u : State := State.abandonBuild { s with run := { s.run.stop .aborted .none with markers := [] } } with hu
  have hrun : u.run = { s.run.stop .aborted .none with markers := [] } := finishWrites_run _
  have hst : u.straps = s.straps := finishWrites_straps _
  have hb : u.build.inFlight = none := congrArg Builder.inFlight (finishWrites_build _)
  have huchan : ∀ h, u.channelSound h := finishWrites_channelSound hchan
  have hph : Run.phased { s.run.stop .aborted .none with markers := [] } :=
    Run.phased_stop (r := s.run) (by simp) (by simp) (by simp [ht])
  have hcount : Run.counted { s.run.stop .aborted .none with markers := [] } :=
    ⟨hret, hband, hsc, hhc, hslips, hdam, Nat.zero_le _, List.Pairwise.nil, nofun⟩
  have hempty : State.jobSound (u.mapChans fun _ c => c.empty) := by
    refine jobSound_of_empty ?_ ?_ ?_ ?_ ?_ (fun h => by rw [chan_mapChans]; rfl) (fun h => by rw [chan_mapChans]; rfl)
      (fun h => by rw [chan_mapChans]; rfl) hb (fun h => ?_)
    · simpa only [State.headerSound, State.fittedCount, mapChans_run, mapChans_straps, hrun, hst, stop_header] using hhead
    · rw [mapChans_run, hrun]
      exact (Run.sound_iff _).2 ⟨hcount, hph⟩
    · simp [hrun]
    · simp [hrun, JobState.onCopper]
    · simp [hrun]
    · rw [channelSound_iff, chan_mapChans]
      exact Channel.sound.emptied (huchan h)
  exact raise_jobSound _ (jobSound_congr (liftUsed_jobSound hempty) rfl rfl rfl rfl)

/-- R30: a record appended, if at all, leaves at most eight. -/
theorem counted_appendDamage {s : State} (r : DamageRecord) (hc : s.run.counted) : (s.appendDamage r).run.counted := by
  unfold State.appendDamage
  split
  · next hlt =>
    obtain ⟨hret, hband, hsc, hhc, hslips, -, hroom, hsorted, hahead⟩ := hc
    refine ⟨hret, hband, hsc, hhc, hslips, ?_, hroom, hsorted, hahead⟩
    show (s.run.damage ++ [r]).length ≤ 8
    rw [List.length_append]
    exact hlt
  · exact hc

/-- A damage record changes no other part of RUN's record than the list. -/
theorem run_appendDamage (s : State) (r : DamageRecord) :
    (s.appendDamage r).run = { s.run with damage := (s.appendDamage r).run.damage } := by
  unfold State.appendDamage; split <;> rfl

theorem appendDamage_eq (s : State) (r : DamageRecord) :
    s.appendDamage r = { s with run := (s.appendDamage r).run } := by
  unfold State.appendDamage; split <;> rfl

/-- R30: the lines in cut removed as damaged leave channels sound. -/
theorem removeDamaged_channelSound {s : State} (hs : ∀ h, s.channelSound h) (h : Head) :
    s.removeDamaged.channelSound h := by
  show ((s.command Channel.damage).chan h).sound (s.fitted h)
  rw [chan_command]
  split
  · exact damage_removesLine.sound (hs h)
  · exact hs h

/-- R32: an accepted JABORT, in phase CUT or not. -/
theorem abortJob_jobSound {s : State} (hs : s.jobSound) (hd : s.run.jobState ≠ .done) : s.abortJob.jobSound := by
  obtain ⟨hhead, -, -, hchan⟩ := id hs
  have hcount := counted_of_jobSound hs
  have hne := t_ne_of_jobSound hs hd
  unfold State.abortJob State.abortCut
  split
  · have hrun := run_appendDamage s (s.damageRecord .abort 0)
    have ewhole := appendDamage_eq s (s.damageRecord .abort 0)
    refine enterAborted_jobSound ?_ (counted_appendDamage _ hcount) ?_ (removeDamaged_channelSound fun h => ?_)
    · show State.headerSound (s.appendDamage _)
      rw [ewhole, hrun]
      exact hhead
    · show (s.appendDamage _).run.t ≠ (s.appendDamage _).run.header.tracksPerBand
      rw [hrun]
      exact hne
    · rw [ewhole]
      exact hchan h
  · exact enterAborted_jobSound hhead hcount hne hchan

/-- R146: a track in cut retired as damaged, or the ninth damage. -/
theorem retireDamaged_jobSound {s : State} (hs : s.jobSound) (hp : s.run.phase = .cut) (cause : Cause)
    (heads : BitVec 4) : (s.retireDamaged cause heads).jobSound := by
  have hj := running_of_cut hs hp
  have hne := t_ne_of_jobSound hs (by simp [hj])
  have hcount := counted_of_jobSound hs
  unfold State.retireDamaged
  split
  · have ea := run_appendDamage s (s.damageRecord cause heads)
    have ewhole := appendDamage_eq s (s.damageRecord cause heads)
    have hca := counted_appendDamage (s.damageRecord cause heads) hcount
    set a := s.appendDamage (s.damageRecord cause heads) with ha
    have erun : a.removeDamaged.pulseStep.fireMarkers.advanceTrack.run = a.run.advanced := run_advance _
    have eh : a.run.header = s.run.header := by rw [ea]
    have et : a.run.t = s.run.t := by rw [ea]
    have ej : a.run.jobState = s.run.jobState := by rw [ea]
    have hbetween : a.removeDamaged.pulseStep.fireMarkers.advanceTrack.betweenCuts := by
      refine betweenCuts_of_retired hs hp hj damage_removesLine ?_ ?_ ?_ ?_ ?_ ?_
      · rw [heads_advance]
        show (a.command Channel.damage).heads = _
        have ec : ∀ k, a.chan k = s.chan k := fun k => by rw [ewhole]; rfl
        have eu : ∀ k, a.used k = s.used k := fun k => by simp only [State.used, eh]
        exact heads_ext fun k => by simp only [chan_command, eu, ec]
      · rw [build_advance]; show a.build = s.build; rw [ewhole]
      · rw [straps_advance]; show a.straps = s.straps; rw [ewhole]
      · rw [erun]; exact eh
      · rw [erun]; exact congrArg (· + 1) et
      · rw [erun]; exact ej.trans hj
    have hadv : a.removeDamaged.pulseStep.fireMarkers.advanceTrack.run.counted := by
      rw [erun]
      refine Run.counted_advanced hca ?_
      rw [et, eh]
      exact lt_of_le_of_ne hcount.2.1 hne
    dsimp only
    split
    · next hend => exact enterDone_jobSound hbetween hadv hend
    · next hend => exact enterHeld_jobSound hbetween hadv hend (by decide)
  · obtain ⟨hhead, -, -, hchan⟩ := hs
    exact enterAborted_jobSound hhead hcount hne (removeDamaged_channelSound hchan)

/-! ### Index events and fault reports -/

/-- R139 to R142: an Index event in phase CUT. -/
theorem closeCut_jobSound {s : State} (hs : s.jobSound) (hp : s.run.phase = .cut) : s.closeCut.jobSound := by
  have hj := running_of_cut hs hp
  have hne := t_ne_of_jobSound hs (by simp [hj])
  have hcount := counted_of_jobSound hs
  unfold State.closeCut
  split
  · have hshort : State.jobSound (s.shortHeads.foldl (fun s h => s.shortCommand h) s) ∧
        (s.shortHeads.foldl (fun s h => s.shortCommand h) s).run = s.run :=
      foldHeads_keeps (P := fun t => t.jobSound ∧ t.run = s.run)
        (fun h t ht => ⟨(shortCommand_jobSound h ht.1).1, (shortCommand_jobSound h ht.1).2.trans ht.2⟩) _ ⟨hs, rfl⟩
    exact retireDamaged_jobSound hshort.1 (by rw [hshort.2]; exact hp) _ _
  · have erun : s.retireTrack.run = s.run.advanced :=
      (run_advance _).trans (congrArg Run.advanced (wearUsed_run (s.command Channel.retire)))
    have hbetween : s.retireTrack.betweenCuts :=
      betweenCuts_of_retired hs hp hj retire_removesLine ((heads_advance _).trans (wearUsed_heads _))
        ((build_advance _).trans (wearUsed_build _)) ((straps_advance _).trans (wearUsed_straps _))
        (by rw [erun]; rfl) (by rw [erun]; rfl) (by rw [erun]; exact hj)
    have hadv : s.retireTrack.run.counted := by
      rw [erun]
      exact Run.counted_advanced hcount (lt_of_le_of_ne hcount.2.1 hne)
    dsimp only
    split
    · next hend => exact enterDone_jobSound hbetween hadv hend
    · next hend =>
      split
      · exact enterHeld_jobSound hbetween hadv hend (by decide)
      · next hpend =>
        have hh : s.run.pendingHold = false := by simpa [erun, Run.advanced] using hpend
        obtain ⟨hj', hreason, hpending, -, hlimit, hrep⟩ := rolling_of_jobSound hs hj hh
        refine readiness_jobSound hbetween hadv ?_
        rw [erun] at hend ⊢
        exact ⟨hj', hreason, hpending, hend, hlimit, hrep⟩

/-- R138: an Index event in LOWERING. -/
theorem settle_jobSound {s : State} (hs : s.jobSound) (hj : s.run.jobState = .lowering) : s.settle.jobSound := by
  obtain ⟨hsettle, -, hreason, hpending, hend, -, hsettles, -, hrep⟩ := phased_of_jobSound hs
  obtain ⟨hret, hband, hsc, hhc, hslips, hdam, hroom, hsorted, hahead⟩ := counted_of_jobSound hs
  have hcopper : s.run.jobState.onCopper = true := by simp [hj, JobState.onCopper]
  have hp : s.run.phase = .settle := hsettle.2 hj
  have hlt : s.run.settleCounter < s.run.header.settleCount := hsettles hj
  have hle := (headerSound_of_jobSound hs).settleCount.2
  have hhold : s.run.pendingHold = false := by
    by_contra hh
    simpa [hp] using hpending (by simpa using hh)
  have hcounter : ∀ n, n < s.run.header.settleCount →
      State.jobSound { s with run := { s.run with settleCounter := n } } := fun n hn =>
    setRun_jobSound hs ((Run.sound_iff _).2
      ⟨⟨hret, hband, by show n ≤ 15; omega, hhc, hslips, hdam, hroom, hsorted, hahead⟩,
        Run.phased_lowering hj hp (hreason.2 (by simp [hj])) hhold (by simp [hend, hj]) hn fun x hx => (hrep x hx).1⟩)
      rfl rfl rfl rfl
  unfold State.settle
  split
  · dsimp only
    split
    · next hn =>
      refine readiness_jobSound ((betweenCuts_of_jobSound hs hcopper (by simp [hp])).setRun rfl rfl rfl)
        ⟨hret, hband, by show s.run.settleCounter + 1 ≤ 15; omega, Nat.zero_le _, hslips, hdam, hroom, hsorted, hahead⟩
        ⟨rfl, hreason.2 (by simp [hj]), hhold, by simp [hend, hj], ?_, fun x hx => (hrep x hx).1⟩
      show s.run.header.holdLimit = 0 ∨ 0 < s.run.header.holdLimit
      omega
    · next hn => exact hcounter _ (by omega)
  · exact hcounter 0 (by omega)

/-- R137 to R144: an Index event at RUN. -/
theorem indexEvent_jobSound {s : State} (hs : s.jobSound) : s.indexEvent.jobSound := by
  unfold State.indexEvent
  split
  · next hj => exact settle_jobSound hs hj
  · next hj =>
    split
    · next hp => exact closeCut_jobSound hs hp
    · next hp =>
      have hhold : s.run.pendingHold = false := by
        obtain ⟨-, -, -, hpending, -⟩ := phased_of_jobSound hs
        by_contra hh
        exact hp (hpending (by simpa using hh))
      exact readiness_jobSound (betweenCuts_of_jobSound hs (by simp [hj, JobState.onCopper]) hp)
        (counted_of_jobSound hs) (rolling_of_jobSound hs hj hhold)
  all_goals exact hs

/-- R25: HELD is entered from LOWERING or RUNNING outside a cut. -/
theorem enterHeld_jobSound_of_jobSound {s : State} (hs : s.jobSound)
    (hj : s.run.jobState = .lowering ∨ s.run.jobState = .running) (hp : s.run.phase ≠ .cut) {reason : HoldReason}
    (hr : reason ≠ .none) : (s.enterHeld reason).jobSound := by
  refine enterHeld_jobSound (betweenCuts_of_jobSound hs ?_ hp) (counted_of_jobSound hs) (t_ne_of_jobSound hs ?_) hr <;>
    rcases hj with hj | hj <;> simp [hj, JobState.onCopper]

/-- R26: RUN takes a fault report. -/
theorem takeReport_jobSound {s : State} (hs : s.jobSound) (r : FaultReport) : (s.takeReport r).jobSound := by
  unfold State.takeReport
  split
  · split
    · next hj =>
      refine enterHeld_jobSound_of_jobSound hs (.inl hj) (fun hp => ?_) (by decide)
      simp [running_of_cut hs hp] at hj
    · next hj =>
      split
      · next hp => exact retireDamaged_jobSound hs hp _ _
      · next hp => exact enterHeld_jobSound_of_jobSound hs (.inr hj) hp (by decide)
    all_goals exact hs
  · exact hs

/-- R26: a report leaves the list when RUN takes it. -/
theorem eraseReport_jobSound {s : State} (hs : s.jobSound) (r : FaultReport) :
    State.jobSound { s with run := { s.run with reports := s.run.reports.erase r } } :=
  setReports_jobSound hs fun x hx => reports_of_jobSound hs x (List.mem_of_mem_erase hx)

end Sys2Proof.Machine
end

section
/-!
The effects of the job's requests, of a MARKER and of BUILD's steps keep the job sound (R7, R9, R20, R23, R28, R100, R104,
R150).
-/

namespace Sys2Proof.Machine

/-! ### JSTART, JRESUME, JHOLD -/

/-- Dispatch passes a request only in the states in which it is accepted (R17). -/
theorem acceptedIn_of_dispatch {s : State} {l : Link} {c : ReqCode} {p : List Word} (h : s.dispatch l c p = none) :
    c.acceptedIn s.run.jobState = true := by
  unfold State.dispatch at h
  split_ifs at h with _ _ ha
  simpa using ha

/-- Like `serve_keeps`, for an owner that keeps the property in the states in which the request is accepted. -/
theorem serve_keeps_accepted {P : State → Prop} {s t : State} {l : Link} {c : ReqCode} {owner : List Word → State → Answer}
    (hport : ∀ (s : State) l x, P s → P (s.setPort l x))
    (howner : ∀ p s, P s → c.acceptedIn s.run.jobState = true → P (owner p s).state) (hs : P s)
    (h : serve c l owner s = .next t) : P t := by
  rcases serve_cases h with rfl | ⟨f, rest, _, _, ⟨cc, _, rfl⟩ | ⟨hd, rfl⟩⟩
  · exact hs
  · exact hport _ _ _ hs
  · refine hport _ _ _ (howner _ _ (hport _ _ _ hs) ?_)
    rw [taken_run]
    exact acceptedIn_of_dispatch hd

/-- R20: an accepted JSTART finds every queue empty and sets every pointer to track 0. -/
theorem startJob_jobSound {s : State} (hs : s.jobSound) (hj : s.run.jobState = .prepared) : s.startJob.jobSound := by
  have hcopper : s.run.jobState.onCopper = false := by simp [hj, JobState.onCopper]
  have hp : s.run.phase ≠ .cut := fun hp => by simp [running_of_cut hs hp] at hj
  have hnot := notInCut_of_jobSound hs hp
  obtain ⟨-, -, hreason, -, hend, hstart, -, -, hrep⟩ := phased_of_jobSound hs
  obtain ⟨hret, hband, -, -, hslips, hdam, hroom, hsorted, hahead⟩ := counted_of_jobSound hs
  obtain ⟨hhead, -, ⟨-, hempty, -, hlines, -, -, hbuild⟩, hchan⟩ := hs
  have hq : ∀ h, (s.chan h).queue = [] := fun h => hempty h (.inl hcopper)
  have ht : s.run.t = 0 := hstart (.inr hj)
  have hidle : s.build.inFlight = none := by
    unfold State.buildAgrees at hbuild
    split at hbuild
    · assumption
    · simp [hcopper] at hbuild
  refine lowerUsed_jobSound (jobSound_of_betweenCuts ⟨hhead, rfl, fun h _ => ?_, fun h _ => hq h, hlines,
    fun h => (hnot h).1, fun h => (hnot h).2, ?_, hchan⟩ ((Run.sound_iff _).2
    ⟨⟨hret, hband, Nat.zero_le _, Nat.zero_le _, hslips, hdam, hroom, hsorted, hahead⟩,
      Run.phased_lowering rfl rfl (hreason.2 (by simp [hj])) rfl (by simp [hend, hj]) ?_ fun x hx => (hrep x hx).1⟩)
      (by simp))
  · show ((s.chan h).queue).map Line.localTrack = List.range' s.run.t (s.chan h).queue.length ∧
      (Vector.replicate 4 0)[h.val] = s.run.t + (s.chan h).queue.length ∧ (s.chan h).queue.length ≤ 4 ∧
        (Vector.replicate 4 0)[h.val] ≤ s.run.header.tracksPerBand
    simp [hq h, ht]
  · simp only [State.buildAgrees, hidle]
  · exact ((headerSound_iff s).1 hhead).settleCount.1

/-- R28: an accepted JRESUME. -/
theorem resumeJob_jobSound {s : State} (hs : s.jobSound) (hj : s.run.jobState = .held) : s.resumeJob.jobSound := by
  have hp : s.run.phase ≠ .cut := fun hp => by simp [running_of_cut hs hp] at hj
  have hb := betweenCuts_of_jobSound hs (by simp [hj, JobState.onCopper]) hp
  have hne := t_ne_of_jobSound hs (by simp [hj])
  obtain ⟨hret, hband, -, hhc, hslips, hdam, hroom, hsorted, hahead⟩ := counted_of_jobSound hs
  exact lowerUsed_jobSound (jobSound_of_betweenCuts (hb.setRun rfl rfl rfl) ((Run.sound_iff _).2
    ⟨⟨hret, hband, Nat.zero_le _, hhc, hslips, hdam, hroom, hsorted, hahead⟩,
      Run.phased_lowering rfl rfl rfl rfl hne (headerSound_of_jobSound hs).settleCount.1
        fun x hx => (reports_of_jobSound hs x hx).1⟩) (by simp))

/-- R23: an accepted JHOLD, in phase CUT or not. -/
theorem holdJob_jobSound {s : State} (hs : s.jobSound) (hj : s.run.jobState = .lowering ∨ s.run.jobState = .running) :
    s.holdJob.jobSound := by
  unfold State.holdJob
  split
  · next hc =>
    obtain ⟨hcount, hsettle, hturn, hreason, -, hend, hstart, hsettles, hholds, hrep⟩ := (Run.sound_iff _).1 hs.2.1
    exact setRun_jobSound hs ((Run.sound_iff _).2
      ⟨hcount, hsettle, hturn, hreason, fun _ => hc.2, hend, hstart, hsettles, hholds, hrep⟩) rfl rfl rfl rfl
  · next hc =>
    exact enterHeld_jobSound_of_jobSound hs hj (fun hp => hc ⟨running_of_cut hs hp, hp⟩) (by decide)

/-! ### JOPEN and JCLOSE -/

theorem fieldsInRange_iff (h : JobHeader) : h.fieldsInRange = true ↔
    (512 ≤ h.cellsPerRev ∧ h.cellsPerRev ≤ 16384) ∧ (1 ≤ h.tracksPerBand ∧ h.tracksPerBand ≤ 16383) ∧
      (1 ≤ h.settleCount ∧ h.settleCount ≤ 15) ∧ h.holdSteps ≤ 15 ∧ h.holdUnit ≤ 1 ∧ h.declaredWindows ≤ 32 ∧
      h.declaredSlots ≤ 16 ∧ h.pGrants.toNat < 32 ∧ h.sGrants.toNat < 32 := by
  simp only [JobHeader.fieldsInRange, Bool.and_eq_true, decide_eq_true_eq, and_assoc]

theorem headsFit_iff (h : JobHeader) (n : Nat) :
    h.headsFit n = true ↔ h.headMask ≠ 0 ∧ h.headMask.toNat < 2 ^ n := by
  simp only [JobHeader.headsFit, Bool.and_eq_true, bne_iff_ne, decide_eq_true_eq]

theorem lockedListOk_iff (p : List Word) : lockedListOk p = true ↔
    p.length = 7 + lockedCount p ∧ lockedCount p ≤ 4 ∧ ∀ w ∈ p.drop 7, w ∈ lockable := by
  simp only [lockedListOk, Bool.and_eq_true, beq_iff_eq, decide_eq_true_eq, List.all_eq_true, List.contains_iff_mem,
    and_assoc]

/-- R6: the checks of JOPEN leave headers in their ranges only. -/
theorem header_sound_of_checkJopen {s : State} {p : List Word} (h : s.checkJopen p = none) :
    (JobHeader.ofWords p).stored.sound s.fittedCount := by
  unfold State.checkJopen at h
  dsimp only at h
  split_ifs at h with hsig hfields hheads hlocked
  obtain ⟨hN, hB, hsc, hsteps, hunit, hwin, hslots, hpg, hsg⟩ := (fieldsInRange_iff _).1 (by simpa using hfields)
  obtain ⟨-, hmask⟩ := (headsFit_iff _ _).1 (by simpa using hheads)
  obtain ⟨hlen, hcount, hall⟩ := (lockedListOk_iff _).1 (by simpa using hlocked)
  refine ⟨hN, hB, ?_, hsc, hsteps, hunit, hwin, hslots, hmask, hpg, hsg, ?_, hall⟩
  · show (if _ then 1 else 0) ≤ 1
    split <;> decide
  · show (p.drop 7).length ≤ 4
    rw [List.length_drop]
    omega

/-- R5, R7, R9: the record of a job opened, of one closed, and of power-on. -/
theorem Run.sound_opened {h : JobHeader} (hband : 1 ≤ h.tracksPerBand) {j : JobState}
    (hj : j = .none ∨ j = .prepared) : (Run.opened h j).sound := by
  refine (Run.sound_iff _).2 ⟨⟨rfl, Nat.zero_le _, Nat.zero_le _, Nat.zero_le _, Nat.zero_le _, Nat.zero_le _,
    Nat.zero_le _, List.Pairwise.nil, nofun⟩, ?_⟩
  have hne : (0 : Nat) ≠ h.tracksPerBand := by omega
  refine ⟨?_, ?_, ?_, nofun, ?_, fun _ => rfl, ?_, ?_, nofun⟩ <;>
    rcases hj with rfl | rfl <;> simp [Run.opened, Run.reset, hne]

/-- R7, R9: the job data cleared, for a sound header and a job not yet started. -/
theorem clearJobData_jobSound {s : State} (hs : s.jobSound) {h : JobHeader} (hh : h.sound s.fittedCount) {j : JobState}
    (hj : j = .none ∨ j = .prepared) : (s.clearJobData h j).jobSound := by
  have hchan : ∀ k, (s.clearJobData h j).chan k = (s.chan k).empty := fun k => chan_mapChans _ k _
  refine jobSound_of_empty hh (Run.sound_opened hh.tracksPerBand.1 hj) ?_ ?_ nofun (fun k => by rw [hchan]; rfl)
    (fun k => by rw [hchan]; rfl) (fun k => by rw [hchan]; rfl) rfl fun k => ?_
  · rcases hj with rfl | rfl <;> exact nofun
  · rcases hj with rfl | rfl <;> rfl
  · rw [channelSound_iff, hchan]
    exact (channelSound_of_jobSound hs k).emptied

theorem ownJopen_jobSound {s : State} (p : List Word) (hs : s.jobSound) : (ownJopen p s).state.jobSound := by
  unfold ownJopen
  split
  · exact hs
  · next hc => exact clearJobData_jobSound hs (header_sound_of_checkJopen hc) (.inr rfl)

/-! ### Markers -/

theorem length_insertMarker (m : Marker) (ms : List Marker) : (insertMarker m ms).length = ms.length + 1 := by
  induction ms with
  | nil => rfl
  | cons a ms ih =>
    unfold insertMarker
    split <;> simp [ih]

theorem mem_insertMarker {m x : Marker} {ms : List Marker} : x ∈ insertMarker m ms ↔ x = m ∨ x ∈ ms := by
  induction ms with
  | nil => simp [insertMarker]
  | cons a ms ih =>
    unfold insertMarker
    split
    · rw [List.mem_cons, ih, List.mem_cons]
      exact or_left_comm
    · simp

/-- R150: an insertion keeps the list in ascending order of tracks. -/
theorem pairwise_insertMarker {m : Marker} {ms : List Marker} (h : ms.Pairwise (fun a b => a.track ≤ b.track)) :
    (insertMarker m ms).Pairwise (fun a b => a.track ≤ b.track) := by
  induction ms with
  | nil => simp [insertMarker]
  | cons a ms ih =>
    obtain ⟨hle, hs⟩ := List.pairwise_cons.1 h
    unfold insertMarker
    split
    · next ha =>
      refine List.pairwise_cons.2 ⟨fun x hx => ?_, ih hs⟩
      rcases mem_insertMarker.1 hx with rfl | hx
      · exact ha
      · exact hle x hx
    · next ha =>
      refine List.pairwise_cons.2 ⟨fun x hx => ?_, h⟩
      rcases List.mem_cons.1 hx with rfl | hx
      · omega
      · have := hle x hx
        omega

/-- R150: RUN's handling of a MARKER. -/
theorem takeMarker_jobSound {s : State} (p : List Word) (hs : s.jobSound) : (s.takeMarker p).2.jobSound := by
  unfold State.takeMarker
  dsimp only
  split_ifs with hb hband hpast hroom
  · exact hs
  · exact raise_jobSound _ hs
  · exact hs
  · obtain ⟨⟨hret, hinband, hsc, hhc, hslips, hdam, -, hsorted, hahead⟩, hphased⟩ := (Run.sound_iff _).1 hs.2.1
    refine setRun_jobSound hs ((Run.sound_iff _).2
      ⟨⟨hret, hinband, hsc, hhc, hslips, hdam, ?_, pairwise_insertMarker hsorted, fun x hx => ?_⟩, hphased⟩) rfl rfl rfl rfl
    · show (insertMarker _ _).length ≤ 16
      rw [length_insertMarker]
      exact Nat.lt_of_not_le hroom
    · rcases mem_insertMarker.1 hx with rfl | hx
      · exact ⟨Nat.le_of_not_lt hpast, Nat.lt_of_not_le hband⟩
      · exact hahead x hx
  · exact hs

/-! ### Builds -/

/-- R100, R101: a build begun for an eligible head while the job is on the copper. -/
theorem beginBuild_jobSound {s : State} (hs : s.jobSound) {h : Head} (hc : s.choice = some h) :
    (s.beginBuild h).jobSound := by
  obtain ⟨hhead, hrun, ⟨hrunning, hempty, hdone, hlines, hin, htk, -⟩, hchan⟩ := hs
  refine ⟨hhead, hrun, ⟨hrunning, hempty, hdone, hlines, hin, htk, ?_⟩, hchan⟩
  unfold State.choice at hc
  split at hc
  · next hmay =>
    have helig := List.find?_some hc
    simp only [State.eligible, Bool.and_eq_true, decide_eq_true_eq] at helig
    simp only [State.mayChoose, Bool.and_eq_true] at hmay
    obtain ⟨⟨⟨hused, hroom⟩, hlt⟩, -⟩ := helig
    exact ⟨hmay.2, hused, rfl, hlt, hroom, rfl, by
      show ((List.range s.run.header.cellsPerRev).map _).length = s.run.header.cellsPerRev
      simp⟩
  · cases hc

/-- R103, R104: the line a build in flight produces is sound. -/
theorem line_lineSound {s : State} {b : BuildRecord}
    (hg : b.globalTrack = b.head.val * s.run.header.tracksPerBand + b.localTrack)
    (hcells : b.cells.length = s.run.header.cellsPerRev) : s.lineSound b.head b.line :=
  ⟨rfl, hg, hcells, hcells, List.countP_le_length⟩

/-- R103, R105: a queue of the lines for t, t + 1, … stays one when the line for the next track joins it. -/
theorem map_localTrack_concat {q : List Line} {x : Line} {t : Nat}
    (hq : q.map Line.localTrack = List.range' t q.length) (hx : x.localTrack = t + q.length) :
    (q ++ [x]).map Line.localTrack = List.range' t (q ++ [x]).length := by
  rw [List.map_append, hq, List.map_singleton, hx, List.length_append, List.length_singleton, List.range'_1_concat]

/-- R104, its four steps before the waiting writes take effect. -/
def State.lineQueued (b : BuildRecord) (s : State) : State :=
  { s.setChan b.head { s.chan b.head with queue := (s.chan b.head).queue ++ [b.line] } with
    build := { s.build with
      nextTrack := s.build.nextTrack.set b.head.val (s.build.nextTrack[b.head.val] + 1), inFlight := none }
    store := s.store.decrementAll b.rowList }

theorem completeBuild_eq (b : BuildRecord) (s : State) : s.completeBuild b = (s.lineQueued b).finishWrites := rfl

theorem queue_lineQueued (b : BuildRecord) (s : State) :
    ((s.lineQueued b).chan b.head).queue = (s.chan b.head).queue ++ [b.line] :=
  congrArg Channel.queue (chan_setChan s b.head _)

theorem chan_lineQueued_ne (b : BuildRecord) (s : State) {k : Head} (hk : k ≠ b.head) :
    (s.lineQueued b).chan k = s.chan k := chan_setChan_ne s _ hk

/-- A line that joins a queue changes nothing else of a channel. -/
theorem chan_lineQueued_eq (b : BuildRecord) (s : State) (k : Head) :
    (s.lineQueued b).chan k = { s.chan k with queue := ((s.lineQueued b).chan k).queue } := by
  by_cases hk : k = b.head
  · subst hk
    rw [queue_lineQueued]
    exact chan_setChan s b.head _
  · rw [chan_lineQueued_ne b s hk]

theorem nextTrack_lineQueued (b : BuildRecord) (s : State) :
    (s.lineQueued b).build.nextTrack[b.head.val] = s.build.nextTrack[b.head.val] + 1 := Vector.getElem_set_self _

theorem nextTrack_lineQueued_ne (b : BuildRecord) (s : State) {k : Head} (hk : k ≠ b.head) :
    (s.lineQueued b).build.nextTrack[k.val] = s.build.nextTrack[k.val] :=
  Vector.getElem_set_ne b.head.isLt k.isLt fun e => hk (Fin.ext e.symm)

/-- R105: the line of the build in flight is the next of its queue. -/
theorem lineQueued_queueAgrees {s : State} {b : BuildRecord} (hloc : b.localTrack = s.build.nextTrack[b.head.val])
    (hlt : b.localTrack < s.run.header.tracksPerBand) (hroom : (s.chan b.head).queue.length < 4) {h : Head}
    (hs : s.queueAgrees h) : (s.lineQueued b).queueAgrees h := by
  obtain ⟨hmap, hnext, hlen, hband, hcut⟩ := hs
  unfold State.queueAgrees
  by_cases hk : h = b.head
  · subst hk
    rw [queue_lineQueued, nextTrack_lineQueued]
    have hlen' : ((s.chan b.head).queue ++ [b.line]).length = (s.chan b.head).queue.length + 1 := List.length_append
    refine ⟨map_localTrack_concat hmap (hloc.trans hnext), ?_, ?_, ?_, fun _ => by simp⟩
    · show _ = s.run.t + _
      omega
    · omega
    · show _ ≤ s.run.header.tracksPerBand
      omega
  · rw [chan_lineQueued_ne b s hk, nextTrack_lineQueued_ne b s hk]
    exact ⟨hmap, hnext, hlen, hband, hcut⟩

/-- R104: a build completed: its line joins the queue and its head's pointer advances. -/
theorem completeBuild_jobSound {s : State} (hs : s.jobSound) {b : BuildRecord} (hb : s.build.inFlight = some b) :
    (s.completeBuild b).jobSound := by
  rw [completeBuild_eq]
  refine finishWrites_jobSound ?_
  obtain ⟨hhead, hrun, ⟨hrunning, hempty, hdone, hlines, hin, htk, hbuild⟩, hchan⟩ := hs
  simp only [State.buildAgrees, hb] at hbuild
  obtain ⟨hcopper, hused, hloc, hlt, hroom, hglob, hcells⟩ := hbuild
  have esame := chan_lineQueued_eq b s
  refine ⟨hhead, hrun, ⟨fun _ h hu => lineQueued_queueAgrees hloc hlt hroom (hrunning hcopper h hu), fun h hh => ?_,
    fun hd => ?_, fun h x hx => ?_, fun h => ?_, fun h => ?_, trivial⟩, fun h => ?_⟩
  · replace hh : s.run.jobState.onCopper = false ∨ s.used h = false := hh
    have hk : h ≠ b.head := by
      rintro rfl
      simp [hcopper, hused] at hh
    rw [chan_lineQueued_ne b s hk]
    exact hempty h hh
  · replace hd : s.run.jobState = .done := hd
    simp [hd, JobState.onCopper] at hcopper
  · by_cases hk : h = b.head
    · subst hk
      rw [queue_lineQueued] at hx
      rcases List.mem_append.1 hx with hx | hx
      · exact hlines _ x hx
      · rw [List.mem_singleton.1 hx]
        exact line_lineSound hglob hcells
    · rw [chan_lineQueued_ne b s hk] at hx
      exact hlines h x hx
  · rw [esame]
    exact hin h
  · rw [esame]
    exact htk h
  · rw [channelSound_iff, esame]
    exact hchan h

end Sys2Proof.Machine
end

section
/-!
Events and requests at a head channel, and both resets, keep the job sound (R116 to R123, R128, R132, R134, R164).
-/

namespace Sys2Proof.Machine

/-! ### Events at a head channel -/

/-- R121: an Index event at a channel. -/
theorem indexAtChannel_jobSound {s : State} (h : Head) (hs : s.jobSound) : (s.indexAtChannel h).jobSound := by
  have hc := channelSound_of_jobSound hs h
  have key : ∀ {x : HeadState} {cause : Cause}, (s.chan h).state = x → x = .lowering ∨ x = .lifting → cause ≠ .none →
      State.jobSound (if Config.timeoutLimit ≤ (s.chan h).timeoutCount + 1 then
        (s.setChan h { s.chan h with timeoutCount := (s.chan h).timeoutCount + 1 }).enterFaulted h cause
      else s.setChan h { s.chan h with timeoutCount := (s.chan h).timeoutCount + 1 }) := by
    rintro x cause rfl hx hcause
    have hb : s.fitted h = true := hc.fitted (by rcases hx with hx | hx <;> simp [hx])
    obtain ⟨hnone, htrack, -, hmove, hlines, hcells, hdamaged, hsend, hfit⟩ := id hc
    have hlt := hmove hx
    split
    · refine enterFaulted_jobSound ?_
      rw [setChan_setChan, chan_setChan]
      exact setChan_jobSound hs rfl rfl (inCut_of_taken hs) (hc.faulted hb hcause (t_le_of_jobSound hs) hlt)
    · next hle =>
      have hlt8 : (s.chan h).timeoutCount + 1 < 8 := Nat.lt_of_not_le hle
      exact setChan_jobSound hs rfl rfl (inCut_of_taken hs)
        ⟨hnone, htrack, hlt, fun _ => hlt8, hlines, hcells, hdamaged, hsend, hfit⟩
  unfold State.indexAtChannel
  dsimp only
  split
  · split
    · next hst => exact key hst (.inl rfl) (by decide)
    · next hst => exact key hst (.inr rfl) (by decide)
    all_goals exact hs
  · exact hs

/-- A channel that is not FAULTED and sends no line goes to another state with its count kept. -/
theorem setState_jobSound {s : State} (hs : s.jobSound) {h : Head} (hn : (s.chan h).state ≠ .faulted)
    (hd : (s.chan h).state ≠ .down) {x : HeadState} (hx : x ∈ [HeadState.absent, .parked, .down])
    (hb : x = .absent ∨ s.fitted h = true) : (s.setChan h { s.chan h with state := x }).jobSound := by
  have hc := channelSound_of_jobSound hs h
  have hstill : ∀ x ∈ [HeadState.absent, .parked, .down], x ≠ .faulted ∧ ¬ (x = .lowering ∨ x = .lifting) := by decide
  obtain ⟨hxf, hxm⟩ := hstill x hx
  exact setChan_jobSound hs rfl rfl (inCut_of_taken hs) (hc.goes hn hd hxf hb hc.timeoutCount fun e => absurd e hxm)

theorem downAck_jobSound {s : State} (h : Head) (hf : s.fitted h = true) (hs : s.jobSound) :
    (s.downAck h).jobSound := by
  unfold State.downAck
  split
  · next hst => exact setState_jobSound hs (by simp [hst]) (by simp [hst]) (by decide) (.inr hf)
  · exact enterFaulted_jobSound_of_fitted hs hf (by decide)
  all_goals exact hs

theorem upAck_jobSound {s : State} (h : Head) (hf : s.fitted h = true) (hs : s.jobSound) : (s.upAck h).jobSound := by
  unfold State.upAck
  split
  · next hst => exact setState_jobSound hs (by simp [hst]) (by simp [hst]) (by decide) (.inr hf)
  · exact enterFaulted_jobSound_of_fitted hs hf (by decide)
  all_goals exact hs

theorem presenceGained_jobSound {s : State} (h : Head) (hf : s.fitted h = true) (hs : s.jobSound) :
    (s.presenceGained h).jobSound := by
  unfold State.presenceGained
  split
  · next hst => exact enterLifting_jobSound_of_ne_faulted hs hf (by simp [hst])
  all_goals exact hs

theorem presenceLost_jobSound {s : State} (h : Head) (hf : s.fitted h = true) (hs : s.jobSound) :
    (s.presenceLost h).jobSound := by
  unfold State.presenceLost
  split
  · next hst => exact setState_jobSound hs (by simp [hst]) (by simp [hst]) (by decide) (.inl rfl)
  · exact enterFaulted_jobSound_of_fitted hs hf (by decide)
  · exact enterFaulted_jobSound_of_fitted hs hf (by decide)
  · exact enterFaulted_jobSound_of_fitted hs hf (by decide)
  all_goals exact hs

theorem driveFault_jobSound {s : State} (h : Head) (hf : s.fitted h = true) (hs : s.jobSound) :
    (s.driveFault h).jobSound := by
  unfold State.driveFault
  split
  · exact enterFaulted_jobSound_of_fitted hs hf (by decide)
  · exact enterFaulted_jobSound_of_fitted hs hf (by decide)
  · exact enterFaulted_jobSound_of_fitted hs hf (by decide)
  · exact enterFaulted_jobSound_of_fitted hs hf (by decide)
  all_goals exact hs

/-- R128: a line is taken only in cut. -/
theorem lineTaken_jobSound {s : State} (h : Head) (hs : s.jobSound) : (s.lineTaken h).jobSound := by
  unfold State.lineTaken
  dsimp only
  split
  · next hcut =>
    obtain ⟨hcause, htrack, hcount, hmove, hlines, hcells, hdamaged, -, hfit⟩ := channelSound_of_jobSound hs h
    exact setChan_jobSound hs rfl rfl (fun _ => hcut.2.1)
      ⟨hcause, htrack, hcount, hmove, hlines, hcells, hdamaged, nofun, hfit⟩
  · exact hs

/-- R113, R116: an edge of an input line, whose event a fitted channel alone sees. -/
theorem inputEdge_jobSound {s : State} (h : Head) (x : Pins) (isEvent : Bool) {event : Head → State → State}
    (he : ∀ {t : State}, t.fitted h = true → t.jobSound → (event h t).jobSound) (hs : s.jobSound) :
    (s.inputEdge h x isEvent event).jobSound := by
  unfold State.inputEdge
  dsimp only
  split
  · next hc =>
    rw [Bool.and_eq_true] at hc
    exact he hc.2 (setPin_jobSound h x hs)
  · exact setPin_jobSound h x hs

/-! ### HRESET -/

/-- R132: an accepted HRESET at a FAULTED channel. -/
theorem resetHead_jobSound {s : State} (hs : s.jobSound) {h : Head} (hst : (s.chan h).state = .faulted) :
    (s.resetHead h).jobSound := by
  have hc := channelSound_of_jobSound hs h
  have hf : s.fitted h = true := hc.fitted (by simp [hst])
  unfold State.resetHead
  dsimp only
  split
  · refine enterLifting_jobSound hf ?_
    rw [setChan_setChan, chan_setChan]
    exact setChan_jobSound hs rfl rfl (inCut_of_taken hs)
      (hc.cleared (by decide) (.inr hf) (Nat.zero_le _) (Nat.zero_le _) (by decide))
  · have hsend := hc.transferring (by simp [hst])
    refine setChan_jobSound hs rfl rfl (inCut_of_taken hs) ?_
    have := hc.cleared (x := .absent) (by decide) (.inl rfl) (Nat.zero_le 16383) hc.timeoutCount (by simp)
    rwa [← hsend] at this

theorem ownHreset_jobSound {s : State} (p : List Word) (hs : s.jobSound) : (ownHreset p s).state.jobSound := by
  unfold ownHreset
  split
  · dsimp only
    split
    · next hst => exact resetHead_jobSound hs hst
    · exact hs
  · exact hs

/-! ### Resets -/

theorem chan_cold (s : State) (straps : BitVec 2) (h : Head) : (s.cold straps).chan h = Channel.reset := by
  show (Vector.replicate 4 Channel.reset)[h.val] = _
  simp

/-- The part as a reset leaves it, before the heads that are present lift. -/
theorem cold_jobSound (s : State) (straps : BitVec 2) : (s.cold straps).jobSound := by
  refine jobSound_of_empty (JobHeader.sound_cleared _) (Run.sound_opened (Nat.le_refl 1) (.inl rfl)) nofun rfl nofun
    (fun h => by rw [chan_cold]; rfl) (fun h => by rw [chan_cold]; rfl) (fun h => by rw [chan_cold]; rfl) rfl fun h => ?_
  rw [channelSound_iff, chan_cold]
  exact ⟨by decide, by decide, by decide, by decide, by decide, by decide, by decide, by decide, fun _ => rfl⟩

/-- Entries to LIFTING of different fitted heads, none of them FAULTED. -/
theorem foldEnterLifting_jobSound {hs : List Head} (hn : hs.Nodup) {s : State} (h : s.jobSound)
    (hl : ∀ k ∈ hs, s.fitted k = true ∧ (s.chan k).state ≠ .faulted) :
    (hs.foldl (fun s h => s.enterLifting h) s).jobSound := by
  induction hs generalizing s with
  | nil => exact h
  | cons a hs ih =>
    obtain ⟨ha, hn⟩ := List.nodup_cons.1 hn
    obtain ⟨hf, hst⟩ := hl a (by simp)
    refine ih hn (enterLifting_jobSound_of_ne_faulted h hf hst) fun k hk => ?_
    have hne : k ≠ a := fun e => ha (e ▸ hk)
    rw [chan_enterLifting, if_neg hne]
    simpa [State.fitted, State.fittedCount] using hl k (by simp [hk])

/-- R134: after a reset the present heads lift. -/
theorem liftPresent_jobSound {s : State} (hs : s.jobSound) (hst : ∀ h, (s.chan h).state ≠ .faulted) :
    s.liftPresent.jobSound := by
  refine foldEnterLifting_jobSound ((by decide : allHeads.Nodup).filter _) hs fun k hk => ⟨?_, hst k⟩
  have := (List.mem_filter.1 hk).2
  rw [Bool.and_eq_true] at this
  exact this.1

theorem powerOn_jobSound (s : State) (straps : BitVec 2) : (s.powerOn straps).jobSound :=
  liftPresent_jobSound (cold_jobSound s straps) fun h => by rw [chan_cold]; decide

/-- R164: the reset of DRESET keeps each channel's count of cells. -/
theorem deviceReset_jobSound {s : State} (hs : s.jobSound) : s.deviceReset.jobSound := by
  unfold State.deviceReset
  dsimp only
  refine liftPresent_jobSound (jobSound_of_heads (cold_jobSound s s.straps) rfl rfl rfl (fun k => ?_) (fun k => ?_)
    (fun k => ?_) (fun k => ?_)) fun k => ?_
  · rw [chan_mapChans]; rfl
  · rw [chan_mapChans]; rfl
  · rw [chan_mapChans]; exact inCut_of_taken (cold_jobSound s s.straps)
  · obtain ⟨hcause, htrack, hcount, hmove, hlines, -, hdamaged, hsend, hfit⟩ :=
      channelSound_of_jobSound (cold_jobSound s s.straps) k
    rw [channelSound_iff, chan_mapChans]
    obtain ⟨-, -, -, -, -, hcells, -⟩ := channelSound_of_jobSound hs k
    exact ⟨hcause, htrack, hcount, hmove, hlines, hcells, hdamaged, hsend, hfit⟩
  · rw [chan_mapChans]
    show ((s.cold s.straps).chan k).state ≠ _
    rw [chan_cold]
    decide

end Sys2Proof.Machine
end

section
/-!
Every command keeps the job sound, and with it every step (O55).
-/

namespace Sys2Proof.Machine

/-! ### Commands by their shape -/

/-- A command that does nothing where its condition fails keeps what the state it makes there keeps. -/
theorem settleStep_keeps {P : State → Prop} {s t : State} {o : Option State} (hs : P s) (ho : ∀ u, o = some u → P u)
    (h : settleStep s o = .next t) : P t := by
  cases o with
  | none => injection h with h; exact h ▸ hs
  | some u => injection h with h; exact h ▸ ho u rfl

theorem takeFrame_jobSound {s u : State} {l : Link} {sort : InFrame → Bool} {f : InFrame} (hs : s.jobSound)
    (h : s.takeFrame l sort = some (f, u)) : u.jobSound := by
  obtain ⟨rest, -, -, rfl⟩ := (takeFrame_eq_some s l).1 h
  exact setPort_jobSound _ _ hs

/-- A request keeps the job sound where its owner does. -/
theorem serve_jobSound {s t : State} {l : Link} {c : ReqCode} {owner : List Word → State → Answer} (hs : s.jobSound)
    (ho : ∀ p (s : State), s.jobSound → (owner p s).state.jobSound) (h : serve c l owner s = .next t) : t.jobSound :=
  serve_keeps (fun _ _ _ ht => setPort_jobSound _ _ ht) ho hs h

/-- A request keeps the job sound where its owner does in the states in which it is accepted. -/
theorem serve_jobSound_accepted {s t : State} {l : Link} {c : ReqCode} {owner : List Word → State → Answer}
    (hs : s.jobSound)
    (ho : ∀ p (s : State), s.jobSound → c.acceptedIn s.run.jobState = true → (owner p s).state.jobSound)
    (h : serve c l owner s = .next t) : t.jobSound :=
  serve_keeps_accepted (fun _ _ _ ht => setPort_jobSound _ _ ht) ho hs h

theorem takeWrite_jobSound {s : State} (l : Link) (f : InFrame) (w : Option TableWrite) (hs : s.jobSound) :
    (s.takeWrite l f w).jobSound := by
  unfold State.takeWrite
  split
  · exact setPort_jobSound _ _ hs
  · split
    · exact setPort_jobSound _ _ (applyWrite_jobSound _ hs)
    · exact jobSound_congr hs rfl rfl rfl rfl

theorem serveWrite_jobSound {s t : State} {l : Link} {c : ReqCode} {parse : List Word → Option TableWrite}
    (hs : s.jobSound) (h : serveWrite c l parse s = .next t) : t.jobSound := by
  refine settleStep_keeps hs (fun u hu => ?_) h
  split at hu
  · cases hu
  · next hf =>
    have hf := takeFrame_jobSound hs hf
    split at hu <;> injection hu with hu <;> subst hu
    · exact setPort_jobSound _ _ hf
    · exact takeWrite_jobSound _ _ _ hf

/-! ### Requests to the job -/

theorem execJstart_jobSound {s t : State} {l : Link} (hs : s.jobSound) (h : execJstart l s = .next t) : t.jobSound := by
  refine serve_jobSound_accepted hs (fun p s hs ha => ?_) h
  unfold ownJstart
  split
  · exact hs
  · exact startJob_jobSound hs (by simpa [ReqCode.acceptedIn] using ha)

theorem execJresume_jobSound {s t : State} {l : Link} (hs : s.jobSound) (h : execJresume l s = .next t) : t.jobSound := by
  refine serve_jobSound_accepted hs (fun p s hs ha => ?_) h
  unfold ownJresume
  split
  · exact hs
  · exact resumeJob_jobSound hs (by simpa [ReqCode.acceptedIn] using ha)

theorem execJhold_jobSound {s t : State} {l : Link} (hs : s.jobSound) (h : execJhold l s = .next t) : t.jobSound :=
  serve_jobSound_accepted hs
    (fun _ _ hs ha => holdJob_jobSound hs (by simpa [ReqCode.acceptedIn, Bool.or_eq_true] using ha)) h

theorem execJabort_jobSound {s t : State} {l : Link} (hs : s.jobSound) (h : execJabort l s = .next t) : t.jobSound :=
  serve_jobSound_accepted hs (fun _ _ hs ha => abortJob_jobSound hs fun e => by
    rw [e] at ha
    cases ha) h

theorem execJclose_jobSound {s t : State} {l : Link} (hs : s.jobSound) (h : execJclose l s = .next t) : t.jobSound :=
  serve_jobSound hs (fun _ _ hs => clearJobData_jobSound hs (JobHeader.sound_cleared _) (.inl rfl)) h

/-! ### Requests to STORE, PLACE, EVENT and the heads -/

theorem execSdef_jobSound {s t : State} {l : Link} (hs : s.jobSound) (h : execSdef l s = .next t) : t.jobSound := by
  refine serve_jobSound hs (fun p s hs => ?_) h
  unfold ownSdef
  dsimp only
  split
  · exact hs
  · exact jobSound_congr hs rfl rfl rfl rfl

theorem execSrel_jobSound {s t : State} {l : Link} (hs : s.jobSound) (h : execSrel l s = .next t) : t.jobSound := by
  refine serve_jobSound hs (fun p s hs => ?_) h
  unfold ownSrel
  dsimp only
  split
  · exact hs
  · exact jobSound_congr hs rfl rfl rfl rfl

theorem execWset_jobSound {s t : State} {l : Link} (hs : s.jobSound) (h : execWset l s = .next t) : t.jobSound := by
  refine serve_jobSound hs (fun p s hs => ?_) h
  unfold ownWset
  dsimp only
  split
  · exact hs
  · split
    · exact hs
    · exact jobSound_congr hs rfl rfl rfl rfl

theorem execWread_jobSound {s t : State} {l : Link} (hs : s.jobSound) (h : execWread l s = .next t) : t.jobSound := by
  refine serve_jobSound hs (fun p s hs => ?_) h
  unfold ownWread
  dsimp only
  split <;> exact hs

theorem execTread_jobSound {s t : State} {l : Link} (hs : s.jobSound) (h : execTread l s = .next t) : t.jobSound := by
  refine serve_jobSound hs (fun p s hs => ?_) h
  unfold ownTread
  dsimp only
  split_ifs <;> exact hs

theorem execHquery_jobSound {s t : State} {l : Link} (hs : s.jobSound) (h : execHquery l s = .next t) : t.jobSound := by
  refine serve_jobSound hs (fun p s hs => ?_) h
  unfold ownHquery
  split <;> exact hs

/-- R167: an EVSET changes EVENT and its link. -/
theorem enable_jobSound {s : State} (l : Link) (m : StatusWord) (hs : s.jobSound) : (s.enable l m).jobSound := by
  have hmask : State.jobSound { s with event := s.event.setMask l (s.event.mask l ||| m) } :=
    jobSound_congr hs rfl rfl rfl rfl
  unfold State.enable
  dsimp only
  split
  · exact hmask
  · exact setPort_jobSound _ _ hmask

/-! ### Frames -/

/-- R45: a stored row changes STORE, and raises at most STORELOW. -/
theorem takeRow_jobSound {s : State} (p : List Word) (hs : s.jobSound) : (s.takeRow p).2.2.jobSound := by
  have halloc : ∀ k, (s.allocate k).jobSound := fun k => by
    unfold State.allocate
    dsimp only
    split
    · exact raise_jobSound _ (jobSound_congr hs rfl rfl rfl rfl)
    · exact jobSound_congr hs rfl rfl rfl rfl
  unfold State.takeRow
  dsimp only
  split
  · exact hs
  · exact hs
  · split
    · exact jobSound_congr hs rfl rfl rfl rfl
    · exact jobSound_congr (halloc _) rfl rfl rfl rfl

theorem execRow_jobSound {s t : State} {l : Link} (hs : s.jobSound) (h : execRow l s = .next t) : t.jobSound := by
  refine settleStep_keeps hs (fun u hu => ?_) h
  split at hu
  · cases hu
  · next hf =>
    have hf := takeFrame_jobSound hs hf
    split at hu <;> injection hu with hu <;> subst hu
    · exact setPort_jobSound _ _ hf
    · exact setPort_jobSound _ _ (takeRow_jobSound _ hf)

theorem execMarker_jobSound {s t : State} {l : Link} (hs : s.jobSound) (h : execMarker l s = .next t) : t.jobSound := by
  refine settleStep_keeps hs (fun u hu => ?_) h
  split at hu
  · cases hu
  · next hf =>
    have hf := takeFrame_jobSound hs hf
    split at hu <;> injection hu with hu <;> subst hu
    · exact setPort_jobSound _ _ hf
    · exact setPort_jobSound _ _ (takeMarker_jobSound _ hf)

theorem execUnknownRequest_jobSound {s t : State} {l : Link} (hs : s.jobSound)
    (h : execUnknownRequest l s = .next t) : t.jobSound := by
  refine settleStep_keeps hs (fun u hu => ?_) h
  split at hu
  · cases hu
  · next hf =>
    injection hu with hu
    subst hu
    exact setPort_jobSound _ _ (takeFrame_jobSound hs hf)

theorem execDreset_jobSound {s t : State} {l : Link} (hs : s.jobSound) (h : execDreset l s = .next t) : t.jobSound := by
  refine settleStep_keeps hs (fun u hu => ?_) h
  split at hu
  · cases hu
  · next hf =>
    have hf := takeFrame_jobSound hs hf
    split at hu <;> injection hu with hu <;> subst hu
    · exact setPort_jobSound _ _ hf
    · exact setPort_jobSound _ _ (setPort_jobSound _ _ hf)

theorem receiveFrame_jobSound {s : State} (l : Link) (ws : List Word) (fin : FrameEnd) (hs : s.jobSound) :
    (s.receiveFrame l ws fin).jobSound := by
  have hdiscard : ∀ {t : State}, t.jobSound → (t.discardFrame l).jobSound := fun ht =>
    raise_jobSound _ (setPort_jobSound _ _ ht)
  have hend := setPort_jobSound l ((s.port l).endFrame fin) hs
  unfold State.receiveFrame
  dsimp only
  split
  · exact hdiscard hend
  · split
    · exact setPort_jobSound _ _ hend
    · exact hdiscard hend

/-! ### Every command, every step -/

/-- What `exec` answers keeps the job sound, command by command. -/
theorem exec_jobSound {c : Instr} {s t : State} (hs : s.jobSound) (h : exec c s = .next t) : t.jobSound := by
  have plain : ∀ {u : State}, u.jobSound → (Host.Outcome.next u : Host.Outcome State Fault Refusal) = .next t →
      t.jobSound := fun hu e => by injection e with e; exact e ▸ hu
  have guarded : ∀ {b : Bool} {u : State}, u.jobSound → settleStep s (if b then some u else none) = .next t →
      t.jobSound := fun hu => settleStep_keeps hs fun v hv => by
    split at hv
    · injection hv with hv; exact hv ▸ hu
    · cases hv
  cases c with
  | powerOnReset x => exact plain (powerOn_jobSound s x) h
  | jopen l => exact serve_jobSound hs (fun p _ hs => ownJopen_jobSound p hs) h
  | jstart l => exact execJstart_jobSound hs h
  | jhold l => exact execJhold_jobSound hs h
  | jresume l => exact execJresume_jobSound hs h
  | jabort l => exact execJabort_jobSound hs h
  | jclose l => exact execJclose_jobSound hs h
  | jquery l | squery l | evread l | ident l => exact serve_jobSound hs (fun _ _ hs => hs) h
  | evclr l | evack l => exact serve_jobSound hs (fun _ _ hs => jobSound_congr hs rfl rfl rfl rfl) h
  | sdef l => exact execSdef_jobSound hs h
  | srel l => exact execSrel_jobSound hs h
  | wset l => exact execWset_jobSound hs h
  | wread l => exact execWread_jobSound hs h
  | tread l => exact execTread_jobSound hs h
  | hquery l => exact execHquery_jobSound hs h
  | tload l | mload l | htrim l => exact serveWrite_jobSound hs h
  | hreset l => exact serve_jobSound hs (fun p _ hs => ownHreset_jobSound p hs) h
  | evset l => exact serve_jobSound hs (fun _ _ hs => enable_jobSound _ _ hs) h
  | dreset l => exact execDreset_jobSound hs h
  | dresetTakesEffect => exact guarded (deviceReset_jobSound hs) h
  | row l => exact execRow_jobSound hs h
  | marker l => exact execMarker_jobSound hs h
  | unknownRequest l => exact execUnknownRequest_jobSound hs h
  | frameReceived l ws fin => exact plain (receiveFrame_jobSound l ws fin hs) h
  | frameSent l what => cases what <;> exact plain (setPort_jobSound _ _ hs) h
  | indexEvent => exact plain (indexEvent_jobSound hs) h
  | settleComplete | holdLimit => exact guarded (indexEvent_jobSound hs) h
  | indexAtChannel k => exact plain (indexAtChannel_jobSound k hs) h
  | lowerTimeout k | liftTimeout k => exact guarded (indexAtChannel_jobSound k hs) h
  | downAck k e => exact plain (inputEdge_jobSound k _ _ (downAck_jobSound k) hs) h
  | upAck k e => exact plain (inputEdge_jobSound k _ _ (upAck_jobSound k) hs) h
  | presenceGained k => exact plain (inputEdge_jobSound k _ _ (presenceGained_jobSound k) hs) h
  | presenceLost k => exact plain (inputEdge_jobSound k _ _ (presenceLost_jobSound k) hs) h
  | driveFault k e => exact plain (inputEdge_jobSound k _ _ (driveFault_jobSound k) hs) h
  | lineTakenReport k e => exact plain (inputEdge_jobSound k _ _ (fun _ => lineTaken_jobSound k) hs) h
  | faultReport k =>
    refine settleStep_keeps hs (fun u hu => ?_) h
    split at hu
    · cases hu
    · injection hu with hu
      exact hu ▸ takeReport_jobSound (eraseReport_jobSound hs _) _
  | buildChoice =>
    refine settleStep_keeps hs (fun u hu => ?_) h
    obtain ⟨k, hk, rfl⟩ := Option.map_eq_some_iff.1 hu
    exact beginBuild_jobSound hs hk
  | buildCompletion =>
    refine settleStep_keeps hs (fun u hu => ?_) h
    obtain ⟨b, hb, rfl⟩ := Option.map_eq_some_iff.1 hu
    exact completeBuild_jobSound hs hb

/-- Settles O55: a step is a command on the rest of the queue, which the soundness does not read. -/
theorem everyStepKeepsTheJobSound : Obligations.EveryStepKeepsTheJobSound := by
  intro s t hs h
  unfold step at h
  split at h
  · injection h with h
    exact h ▸ hs
  · refine exec_jobSound ?_ h
    exact jobSound_congr hs rfl rfl rfl rfl

end Sys2Proof.Machine
end

section
/-!
Zones and locks: the zone of a request, the zones a link holds, and what a link answers to a frame that fails the zone step
or the lock step (R10 to R13).
-/

namespace Sys2Proof.Machine

/-! ### A request that dispatch refuses -/

/-- R175: the reply of a refusal carries the request's tag and code, and no words. -/
theorem answer_requestFrame (tag : Byte) (c : ReqCode) (ops : List Word) (cc : CC) :
    (requestFrame tag c ops).answer cc [] = requestReply tag c cc [] := by
  simp only [InFrame.answer, ite_self]
  rfl

theorem serveWrite_of_refused {s : State} {l : Link} {c : ReqCode} {parse : List Word → Option TableWrite} {f : InFrame}
    {rest : List InFrame} {cc : CC} (ho : s.offers l f rest) (hf : f.isRequest c = true)
    (hd : s.dispatch l c f.payload = some cc) :
    serveWrite c l parse s = .next (s.answered l rest (f.answer cc [])) := by
  simp [serveWrite, settleStep, takeFrame_of_offers s l ho hf, hd, queueReply_taken]

theorem execDreset_of_refused {s : State} {l : Link} {f : InFrame} {rest : List InFrame} {cc : CC}
    (ho : s.offers l f rest) (hf : f.isRequest .dreset = true) (hd : s.dispatch l .dreset f.payload = some cc) :
    execDreset l s = .next (s.answered l rest (f.answer cc [])) := by
  simp [execDreset, settleStep, takeFrame_of_offers s l ho hf, hd, queueReply_taken]

/-- R160: a request of any code that a dispatch step refuses is answered with that step's code, and changes nothing. -/
theorem exec_command_refused {s : State} {l : Link} {tag : Byte} {c : ReqCode} {ops : List Word} {rest : List InFrame}
    {cc : CC} (ho : s.offers l (requestFrame tag c ops) rest) (hd : s.dispatch l c (c.word :: ops) = some cc) :
    exec (c.command l) s = .next (s.answered l rest (requestReply tag c cc [])) := by
  have hf := isRequest_requestFrame tag c ops
  rw [← answer_requestFrame tag c ops]
  cases c with
  | tload | mload | htrim => exact serveWrite_of_refused ho hf hd
  | dreset => exact execDreset_of_refused ho hf hd
  | _ => exact serve_of_refused s l ho hf hd

theorem dispatch_of_not_zonePasses {s : State} {l : Link} {c : ReqCode} (h : s.zonePasses l c = false) (p : List Word) :
    s.dispatch l c p = some .zone := by simp [State.dispatch, h]

theorem dispatch_of_not_lockPasses {s : State} {l : Link} {c : ReqCode} (hz : s.zonePasses l c = true)
    (h : s.lockPasses c = false) (p : List Word) : s.dispatch l c p = some .locked := by simp [State.dispatch, hz, h]

/-- R12: a request in a zone passes where its link holds the zone; DRESET is in none. -/
theorem zonePasses_of_zone {s : State} {l : Link} {c : ReqCode} {z : Zone} (h : c.zone = some z) :
    s.zonePasses l c = s.holdsZone l z := by
  have hne : c ≠ .dreset := by
    rintro rfl
    cases h
  simp [State.zonePasses, hne, h]

/-- R12: DRESET passes on the S-link alone. -/
theorem zonePasses_dreset (s : State) (l : Link) : s.zonePasses l .dreset = decide (l = .s) := rfl

/-! ### A ROW or MARKER that dispatch refuses -/

theorem execRow_of_refused {s : State} {l : Link} {f : InFrame} {rest : List InFrame} {cc : CC} (ho : s.offers l f rest)
    (hf : f.isRow = true) (hd : s.dispatchFrame l (2 ≤ f.payload.length) = some cc) :
    execRow l s = .next (s.answered l rest (s.rowReply f cc 0)) := by
  have hreply : (s.taken l rest).rowReply f cc 0 = s.rowReply f cc 0 := by
    simp only [State.rowReply, State.replyRows, taken_store]
  simp [execRow, settleStep, takeFrame_of_offers s l ho hf, hd, hreply, queueReply_taken]

theorem execMarker_of_refused {s : State} {l : Link} {f : InFrame} {rest : List InFrame} {cc : CC}
    (ho : s.offers l f rest) (hf : f.isMarker = true) (hd : s.dispatchFrame l (f.payload.length == 1) = some cc) :
    execMarker l s = .next (s.answered l rest (s.markerReply f cc)) := by
  have hreply : (s.taken l rest).markerReply f cc = s.markerReply f cc := by
    simp only [State.markerReply, taken_run]
  simp [execMarker, settleStep, takeFrame_of_offers s l ho hf, hd, hreply, queueReply_taken]

theorem dispatchFrame_of_not_holdsZone {s : State} {l : Link} (h : s.holdsZone l .place = false) (b : Bool) :
    s.dispatchFrame l b = some .zone := by simp [State.dispatchFrame, h]

/-! ### The zones a link holds -/

/-- R11: without an open job each link holds every zone. -/
theorem holdsZone_of_closed {s : State} (h : s.run.jobState.isOpen = false) (l : Link) (z : Zone) :
    s.holdsZone l z = true := by simp [State.holdsZone, h]

/-- R11: in an open job a link holds its fixed zones and its grants. -/
theorem holdsZone_of_open {s : State} (h : s.run.jobState.isOpen = true) (l : Link) (z : Zone) :
    s.holdsZone l z = true ↔ z.fixedTo l = true ∨ (s.run.header.grants l).getLsbD z.index = true := by
  simp [State.holdsZone, h]

theorem fixedTo_p_iff (z : Zone) : z.fixedTo .p = true ↔ z = .place ∨ z = .run := by cases z <;> decide

theorem fixedTo_s_iff (z : Zone) : z.fixedTo .s = true ↔ z = .trim ∨ z = .run := by cases z <;> decide

/-- Settles O12: the zone of each code by cases, the zones held by whether a job is open. -/
theorem zonesAndGrants : Obligations.ZonesAndGrants := by
  refine ⟨rfl, fun c => by cases c <;> decide, fun s => ⟨fun hj l z => ?_, fun hj z => ⟨?_, ?_⟩⟩⟩
  · have hclosed : ∀ j ∈ [JobState.none, .done, .aborted], j.isOpen = false := by decide
    exact holdsZone_of_closed (hclosed _ hj) l z
  all_goals
    have hopen : ∀ j ∈ [JobState.prepared, .lowering, .running, .held], j.isOpen = true := by decide
    rw [holdsZone_of_open (hopen _ hj)]
  · rw [fixedTo_p_iff, or_assoc]
    rfl
  · rw [fixedTo_s_iff, or_assoc]
    rfl

/-- Settles O13: the zone step stands first in each dispatch, and a refusal changes nothing but the link. -/
theorem requestOutsideItsZoneIsRefused : Obligations.RequestOutsideItsZoneIsRefused := by
  refine ⟨fun s => ⟨rfl, fun w p => rfl⟩, fun s l tag rest => ⟨fun c z ops ho hz hheld => ?_, fun p ho hheld => ?_,
    fun p ho hheld => ?_, fun ops ho => ?_⟩⟩
  · exact exec_command_refused ho (dispatch_of_not_zonePasses (zonePasses_of_zone hz ▸ hheld) _)
  · exact execRow_of_refused ho rfl (dispatchFrame_of_not_holdsZone hheld _)
  · exact execMarker_of_refused ho rfl (dispatchFrame_of_not_holdsZone hheld _)
  · exact exec_command_refused ho (dispatch_of_not_zonePasses (zonePasses_dreset s .p) _)

/-! ### Locks -/

/-- R13: the lock step refuses a request of the locked list while the heads are on the copper or may be. -/
theorem not_lockPasses_of_locked {s : State} {c : ReqCode} (hj : s.run.jobState.onCopper = true)
    (hc : c.word ∈ s.run.header.locked) : s.lockPasses c = false := by simp [State.lockPasses, hj, hc]

/-- Settles O14: the lock step stands second, after a zone step that passes. -/
theorem lockedRequestIsRefused : Obligations.LockedRequestIsRefused := by
  have hoff : ∀ j ∈ [JobState.none, .prepared, .done, .aborted], j.onCopper = false := by decide
  have hon : ∀ j ∈ [JobState.lowering, .running, .held], j.onCopper = true := by decide
  refine ⟨fun s c hj => lockPasses_offCopper (hoff _ hj) c, fun s c hs hc => lockPasses_of_headerSound hs hc,
    fun s l tag rest c ops ho hz hj hc => ?_⟩
  exact exec_command_refused ho (dispatch_of_not_lockPasses hz (not_lockPasses_of_locked (hon _ hj) hc) _)

end Sys2Proof.Machine
end

section
/-!
JOPEN and JCLOSE: the checks of a header in their order, and the job data cleared (R3, R6, R7, R9).
-/

namespace Sys2Proof.Machine

/-! ### The job data cleared -/

/-- R7, R9: the blocks that hold job data as JOPEN and JCLOSE leave them, as the statements write them out. -/
theorem clearJobData_eq (s : State) (h : JobHeader) (j : JobState) : s.clearJobData h j = s.jobDataCleared h j := by
  refine state_ext rfl rfl rfl rfl rfl (heads_ext fun k => ?_) rfl rfl (fun l => ?_) rfl rfl rfl
  · refine (chan_mapChans _ k _).trans ?_
    simp [State.chan, State.jobDataCleared, Channel.empty]
  · cases l <;> rfl

theorem taken_jobDataCleared (s : State) (l : Link) (rest : List InFrame) (h : JobHeader) (j : JobState) :
    (s.taken l rest).jobDataCleared h j = (s.jobDataCleared h j).taken l rest := by cases l <;> rfl

/-- The job data cleared while a frame is handled, and the frame answered. -/
theorem queueReply_clearJobData (s : State) (l : Link) (rest : List InFrame) (h : JobHeader) (j : JobState) (r : Reply) :
    ((s.taken l rest).clearJobData h j).queueReply l r = (s.jobDataCleared h j).answered l rest r := by
  rw [clearJobData_eq, taken_jobDataCleared, queueReply_taken]

/-! ### JOPEN -/

/-- R17: a request whose states exclude LOWERING, RUNNING and HELD meets no lock. -/
theorem lockPasses_of_closed {s : State} (h : s.run.jobState.isOpen = false) (c : ReqCode) : s.lockPasses c = true := by
  refine lockPasses_offCopper ?_ c
  revert h
  cases s.run.jobState <;> decide

theorem taken_checkJopen (s : State) (l : Link) (rest : List InFrame) (p : List Word) :
    (s.taken l rest).checkJopen p = s.checkJopen p := by cases l <;> rfl

section
variable {s : State} {l : Link} {tag : Byte} {ops : List Word} {rest : List InFrame}

/-- R6: JOPEN in NONE, DONE or ABORTED comes to RUN's checks. -/
theorem exec_jopen (ho : s.offers l (requestFrame tag .jopen ops) rest)
    (hj : s.run.jobState ∈ [JobState.none, .done, .aborted]) (hlen : 6 ≤ ops.length) :
    let a := ownJopen (ReqCode.jopen.word :: ops) (s.taken l rest)
    exec (.jopen l) s = .next (a.state.queueReply l
      (requestReply tag .jopen a.cc (if a.cc = .accepted then a.returned else []))) := by
  have hstate : ∀ j ∈ [JobState.none, .done, .aborted], j.isOpen = false ∧ ReqCode.jopen.acceptedIn j = true := by decide
  obtain ⟨hclosed, haccepted⟩ := hstate _ hj
  exact serve_accepted s l ho rfl (lockPasses_of_closed hclosed .jopen) haccepted
    (by simpa [ReqCode.fixedPart] using hlen) ownJopen

theorem exec_jopen_refused (ho : s.offers l (requestFrame tag .jopen ops) rest)
    (hj : s.run.jobState ∈ [JobState.none, .done, .aborted]) (hlen : 6 ≤ ops.length) {cc : CC}
    (hcc : s.checkJopen (ReqCode.jopen.word :: ops) = some cc) :
    exec (.jopen l) s = .next (s.answered l rest (requestReply tag .jopen cc [])) := by
  rw [exec_jopen ho hj hlen]
  simp [ownJopen, taken_checkJopen, hcc, State.refuse, queueReply_taken]

theorem exec_jopen_accepted (ho : s.offers l (requestFrame tag .jopen ops) rest)
    (hj : s.run.jobState ∈ [JobState.none, .done, .aborted]) (hlen : 6 ≤ ops.length)
    (hcc : s.checkJopen (ReqCode.jopen.word :: ops) = none) :
    exec (.jopen l) s = .next ((s.jobDataCleared (JobHeader.ofWords (ReqCode.jopen.word :: ops)).stored
      .prepared).answered l rest (requestReply tag .jopen .accepted [])) := by
  rw [exec_jopen ho hj hlen]
  simp [ownJopen, taken_checkJopen, hcc, State.accept, queueReply_clearJobData]

end

/-! ### RUN's checks of a header -/

section
variable {s : State} {p : List Word}

theorem checkJopen_of_signature (h : (JobHeader.ofWords p).signature ≠ Config.signature) :
    s.checkJopen p = some .signature := by simp [State.checkJopen, h]

theorem checkJopen_of_fields (hs : (JobHeader.ofWords p).signature = Config.signature)
    (h : ¬ (JobHeader.ofWords p).fieldsInRange = true) : s.checkJopen p = some .range := by
  simp [State.checkJopen, hs, h]

theorem checkJopen_of_heads (hs : (JobHeader.ofWords p).signature = Config.signature)
    (h : ¬ (JobHeader.ofWords p).headsFit s.fittedCount = true) : s.checkJopen p = some .range := by
  simp [State.checkJopen, hs, h]

theorem checkJopen_of_locked (hs : (JobHeader.ofWords p).signature = Config.signature)
    (h : ¬ lockedListOk p = true) : s.checkJopen p = some .range := by
  simp [State.checkJopen, hs, h]

theorem checkJopen_eq_none (hs : (JobHeader.ofWords p).signature = Config.signature)
    (hf : (JobHeader.ofWords p).fieldsInRange = true) (hm : (JobHeader.ofWords p).headsFit s.fittedCount = true)
    (hl : lockedListOk p = true) : s.checkJopen p = none := by
  simp [State.checkJopen, hs, hf, hm, hl]

end

/-- R6 check 5 on the words after the fixed part. -/
theorem lockedListOk_cons (w0 w1 w2 w3 w4 w5 w6 : Word) (codes : List Word) :
    lockedListOk (w0 :: ([w1, w2, w3, w4, w5, w6] ++ codes)) = true ↔
      codes.length = bits w5 7 0 ∧ codes.length ≤ 4 ∧ ∀ w ∈ codes, w ∈ lockable := by
  rw [lockedListOk_iff]
  have hlen : (w0 :: ([w1, w2, w3, w4, w5, w6] ++ codes)).length = 7 + codes.length := by
    simp only [List.length_cons, List.length_append, List.length_nil]
    omega
  show _ = 7 + bits w5 7 0 ∧ bits w5 7 0 ≤ 4 ∧ (∀ w ∈ codes, w ∈ lockable) ↔ _
  rw [hlen, Nat.add_left_cancel_iff]
  constructor
  · rintro ⟨he, hle, hall⟩
    exact ⟨he, he ▸ hle, hall⟩
  · rintro ⟨he, hle, hall⟩
    exact ⟨he, he ▸ hle, hall⟩

/-- Settles O21: RUN's checks in their order, each by the condition that the model's check computes. -/
theorem jopenOpensTheJobOrRefuses : Obligations.JopenOpensTheJobOrRefuses := by
  intro s l tag w1 w2 w3 w4 w5 w6 codes rest ho hj h
  have hlen : 6 ≤ ([w1, w2, w3, w4, w5, w6] ++ codes).length := by simp
  have hlocked := lockedListOk_cons ReqCode.jopen.word w1 w2 w3 w4 w5 w6 codes
  have hrefused : ∀ {cc}, s.checkJopen (ReqCode.jopen.word :: ([w1, w2, w3, w4, w5, w6] ++ codes)) = some cc →
      exec (.jopen l) s = .next (s.answered l rest (requestReply tag .jopen cc [])) := exec_jopen_refused ho hj hlen
  split_ifs with hsig hfields hheads hlist
  · exact hrefused (checkJopen_of_signature hsig)
  · refine hrefused (checkJopen_of_heads (not_not.1 hsig) fun hm => ?_)
    obtain ⟨hne, hlt⟩ := (headsFit_iff _ _).1 hm
    exact hheads.elim (fun he => hne he) (Nat.not_le_of_lt hlt)
  · refine hrefused (checkJopen_of_locked (not_not.1 hsig) fun hl => ?_)
    obtain ⟨hcount, hfour, hall⟩ := hlocked.1 hl
    rcases hlist with hne | hgt | ⟨w, hw, hnot⟩
    · exact hne hcount
    · omega
    · exact hnot (hall w hw)
  · simp only [not_or, not_not, not_exists, not_and, not_le, not_lt] at hheads hlist
    obtain ⟨hne, hlt⟩ := hheads
    obtain ⟨hcount, hfour, hall⟩ := hlist
    exact exec_jopen_accepted ho hj hlen (checkJopen_eq_none (not_not.1 hsig)
      ((fieldsInRange_iff _).2 hfields) ((headsFit_iff _ _).2 ⟨hne, hlt⟩) (hlocked.2 ⟨hcount, hfour, hall⟩))
  · exact hrefused (checkJopen_of_fields (not_not.1 hsig) fun hf => hfields ((fieldsInRange_iff _).1 hf))

/-! ### JCLOSE -/

/-- Settles O22: JCLOSE in DONE or ABORTED passes dispatch and clears the job data. -/
theorem jcloseClosesTheJob : Obligations.JcloseClosesTheJob := by
  intro s l tag rest ho hj
  have hstate : ∀ j ∈ [JobState.done, .aborted], j.isOpen = false ∧ ReqCode.jclose.acceptedIn j = true := by decide
  obtain ⟨hclosed, haccepted⟩ := hstate _ hj
  have hserve := serve_accepted s l ho
    ((zonePasses_of_zone (z := .run) rfl).trans (holdsZone_of_closed hclosed l .run))
    (lockPasses_of_closed hclosed .jclose) haccepted rfl ownJclose
  exact hserve.trans (congrArg _ (queueReply_clearJobData s l rest _ _ _))

end Sys2Proof.Machine
end
section
/-!
The state after reset, block by block.
-/

namespace Sys2Proof.Machine

/-- R37: page i of a run of pages from `first` on is page `first + i`. -/
theorem getElem?_pagesFrom (first n i : Nat) (h : i < n) : (pagesFrom first n)[i]? = some (Fin.ofNat 32768 (first + i)) := by
  induction n generalizing first i with
  | zero => omega
  | succ n ih =>
    cases i with
    | zero => rfl
    | succ i =>
      rw [pagesFrom, List.getElem?_cons_succ, ih (first + 1) i (by omega), Nat.add_right_comm, Nat.add_assoc]

theorem length_pagesFrom (first n : Nat) : (pagesFrom first n).length = n := by
  induction n generalizing first with
  | zero => rfl
  | succ n ih => rw [pagesFrom, List.length_cons, ih]

/-- R37: page i stands at position i of the free-page list after reset. -/
theorem getElem?_allPages {i : Nat} (h : i < 32768) : (allPages[i]?).map Fin.val = some i := by
  rw [allPages, getElem?_pagesFrom 0 Config.pageCount i h]
  simp [Nat.mod_eq_of_lt h]

/-- A member of a vector of equal members, past its end too where the default is that member. -/
theorem getD_replicate {α : Type} (n i : Nat) (x : α) : ((Vector.replicate n x)[i]?).getD x = x := by
  by_cases h : i < n <;> simp [h]

/-- Settles O4: RUN, EVENT and the ports by their values, the vectors member by member, the free pages by position. -/
theorem resetStateHoldsTheSpecValues : Obligations.ResetStateHoldsTheSpecValues := by
  refine ⟨⟨rfl, rfl, rfl, rfl, rfl, rfl, rfl, rfl, rfl, rfl, rfl, rfl, rfl, rfl⟩,
    ⟨rfl, rfl, rfl, rfl, rfl, rfl, rfl, rfl, rfl, rfl, rfl, rfl⟩,
    ⟨fun i hi => getElem?_allPages hi, length_pagesFrom _ _, fun n _ => getD_replicate 16 n Slot.reset⟩,
    fun n _ => getD_replicate 32 n Window.reset,
    ⟨fun n _ => getD_replicate 16 n ToneTable.reset, fun n _ => getD_replicate 8 n MarkPattern.reset, fun k => ?_, rfl⟩,
    ⟨rfl, rfl, rfl⟩, fun k => ?_, rfl, fun l => by cases l <;> rfl⟩
  · exact Vector.getElem_replicate k.isLt
  · exact Vector.getElem_replicate k.isLt

end Sys2Proof.Machine
end

section
/-!
The job states in which a frame is accepted, and the job requests JSTART, JRESUME, JHOLD and JABORT (R17 to R32).
-/

namespace Sys2Proof.Machine

/-! ### The state step -/

theorem dispatch_of_not_acceptedIn {s : State} {l : Link} {c : ReqCode} (hz : s.zonePasses l c = true)
    (hl : s.lockPasses c = true) (h : c.acceptedIn s.run.jobState = false) (p : List Word) :
    s.dispatch l c p = some .state := by simp [State.dispatch, hz, hl, h]

/-- R17: without an open job a ROW or MARKER passes the zone step and fails the state step. -/
theorem dispatchFrame_of_closed {s : State} (h : s.run.jobState.isOpen = false) (l : Link) (b : Bool) :
    s.dispatchFrame l b = some .state := by simp [State.dispatchFrame, holdsZone_of_closed h, h]

theorem isOpen_iff (j : JobState) :
    j.isOpen = true ↔ j ∈ [JobState.prepared, .lowering, .running, .held] := by cases j <;> decide

/-- R17: the job states of each request, as one table. -/
theorem acceptedIn_iff (c : ReqCode) (j : JobState) : c.acceptedIn j = true ↔
    (c = .jopen ∧ j ∈ [JobState.none, .done, .aborted]) ∨ (c = .jstart ∧ j = .prepared) ∨
    (c = .jhold ∧ j ∈ [JobState.lowering, .running]) ∨ (c = .jresume ∧ j = .held) ∨
    (c = .jabort ∧ j ∈ [JobState.prepared, .lowering, .running, .held]) ∨
    (c = .jclose ∧ j ∈ [JobState.done, .aborted]) ∨ (c ∈ [ReqCode.sdef, .srel, .wset] ∧ j = .prepared) ∨
    c ∈ [ReqCode.tload, .mload, .htrim, .hreset, .ident, .wread, .tread, .squery, .jquery, .hquery, .evset, .evclr,
      .evack, .evread, .dreset] := by
  cases c with
  | jabort => simpa [ReqCode.acceptedIn] using isOpen_iff j
  | _ => simp [ReqCode.acceptedIn, or_assoc]

/-- Settles O15: the table of R17 code by code, and the state step that stands third in each dispatch. -/
theorem requestOutOfStateIsRefused : Obligations.RequestOutOfStateIsRefused := by
  have hclosed : ∀ j ∈ [JobState.none, .done, .aborted], j.isOpen = false := by decide
  refine ⟨acceptedIn_iff, fun s l tag rest => ⟨fun c ops ho hz hl hj => ?_, fun p ho hj => ?_, fun p ho hj => ?_⟩⟩
  · exact exec_command_refused ho (dispatch_of_not_acceptedIn hz hl hj _)
  · exact execRow_of_refused ho rfl (dispatchFrame_of_closed (hclosed _ hj) l _)
  · exact execMarker_of_refused ho rfl (dispatchFrame_of_closed (hclosed _ hj) l _)

/-! ### A request in Z-RUN -/

/-- R11: each link holds Z-RUN in every job state. -/
theorem holdsZone_run (s : State) (l : Link) : s.holdsZone l .run = true := by
  cases l <;> simp [State.holdsZone, Zone.fixedTo]

/-- R160: a request in Z-RUN without operands, not locked and in its states, is answered by RUN. -/
theorem serve_run {s : State} {l : Link} {tag : Byte} {c : ReqCode} {rest : List InFrame}
    (ho : s.offers l (requestFrame tag c []) rest) (hz : c.zone = some .run) (hl : s.lockPasses c = true)
    (ha : c.acceptedIn s.run.jobState = true) (hf : c.fixedPart 1 = true) (owner : List Word → State → Answer) :
    let a := owner [c.word] (s.taken l rest)
    serve c l owner s = .next (a.state.queueReply l
      (requestReply tag c a.cc (if a.cc = .accepted then a.returned else []))) :=
  serve_accepted s l ho ((zonePasses_of_zone hz).trans (holdsZone_run s l)) hl ha hf owner

@[simp] theorem taken_usedHeads (s : State) (l : Link) (rest : List InFrame) :
    (s.taken l rest).usedHeads = s.usedHeads := by cases l <;> rfl

/-- R161: a refusal of the owner is answered with its code and no words, and nothing else changes. -/
theorem queueReply_refuse (s : State) (l : Link) (rest : List InFrame) (tag : Byte) (c : ReqCode) (cc : CC) :
    let a := (s.taken l rest).refuse cc
    a.state.queueReply l (requestReply tag c a.cc (if a.cc = .accepted then a.returned else [])) =
      s.answered l rest (requestReply tag c cc []) := by
  exact (queueReply_taken s l rest _).trans
    (congrArg (fun ws => s.answered l rest (requestReply tag c cc ws)) (ite_self []))

/-! ### The checks of JSTART and JRESUME -/

theorem any_usedHeads {s : State} {p : Head → Bool} :
    s.usedHeads.any p = true ↔ ∃ h, s.used h = true ∧ p h = true := by
  simp only [List.any_eq_true, mem_usedHeads]

theorem all_usedHeads {s : State} {p : Head → Bool} :
    s.usedHeads.all p = true ↔ ∀ h, s.used h = true → p h = true := by
  simp only [List.all_eq_true, mem_usedHeads]

/-- R19 checks 2 and 3, by what each finds. -/
theorem checkHeads_eq (s : State) : s.checkHeads =
    if ∃ h, s.used h = true ∧ (s.chan h).state = .absent then some .absent
    else if ∃ h, s.used h = true ∧ (s.chan h).state ≠ .parked then some .state
    else none := by
  simp only [State.checkHeads, any_usedHeads, beq_iff_eq, bne_iff_ne]

/-- R19 check 1: the counts that JSTART compares with the header's. -/
theorem checkJstart_eq (s : State) : s.checkJstart =
    if (s.place.toList.countP fun w => decide (w.firstTrack ≤ w.lastTrack)) ≠ s.run.header.declaredWindows ∨
        (s.store.slots.toList.countP fun x => decide (x.state ≠ .empty)) ≠ s.run.header.declaredSlots then some .count
    else s.checkHeads := by
  have hslots : s.slotsInUse = s.store.slots.toList.countP fun x => decide (x.state ≠ .empty) :=
    congrArg (List.countP · _) (funext fun x => by cases x.state <;> rfl)
  rw [State.checkJstart, hslots]
  rfl

theorem taken_checkJstart (s : State) (l : Link) (rest : List InFrame) :
    (s.taken l rest).checkJstart = s.checkJstart := by cases l <;> rfl

theorem taken_checkHeads (s : State) (l : Link) (rest : List InFrame) :
    (s.taken l rest).checkHeads = s.checkHeads := by cases l <;> rfl

/-! ### The lowering of the used heads -/

theorem mapChans_congr {s : State} {f g : Head → Channel → Channel} (h : ∀ k, f k (s.chan k) = g k (s.chan k)) :
    s.mapChans f = s.mapChans g := by
  simp only [State.mapChans, h]

/-- R117: the lower command at used heads that are all PARKED. -/
theorem command_lower_of_parked {s : State} (h : ∀ k, s.used k = true → (s.chan k).state = .parked) :
    s.command Channel.lower =
      s.mapChans fun k c => if s.used k then { c with state := .lowering, timeoutCount := 0 } else c := by
  refine mapChans_congr fun k => ?_
  by_cases hu : s.used k = true
  · simp [hu, Channel.lower, h k hu]
  · simp [hu]

theorem taken_startJob (s : State) (l : Link) (rest : List InFrame) :
    (s.taken l rest).startJob = s.startJob.taken l rest := by cases l <;> rfl

theorem taken_resumeJob (s : State) (l : Link) (rest : List InFrame) :
    (s.taken l rest).resumeJob = s.resumeJob.taken l rest := by cases l <;> rfl

section
variable {s : State} {l : Link} {tag : Byte} {rest : List InFrame}

/-- R19, R20: JSTART in PREPARED comes to RUN's checks. -/
theorem exec_jstart (ho : s.offers l (requestFrame tag .jstart []) rest) (hj : s.run.jobState = .prepared) :
    exec (.jstart l) s = .next (match s.checkJstart with
      | some cc => s.answered l rest (requestReply tag .jstart cc [])
      | none => s.startJob.answered l rest (requestReply tag .jstart .accepted [])) := by
  refine (serve_run ho rfl (lockPasses_offCopper (by rw [hj]; rfl) .jstart) (by rw [hj]; rfl) rfl ownJstart).trans ?_
  rw [ownJstart, taken_checkJstart, taken_startJob]
  cases s.checkJstart with
  | none => exact congrArg _ (queueReply_taken _ l rest _)
  | some cc => exact congrArg _ (queueReply_refuse s l rest tag _ cc)

/-- R28: JRESUME in HELD comes to RUN's checks. -/
theorem exec_jresume (hs : s.headerSound) (ho : s.offers l (requestFrame tag .jresume []) rest)
    (hj : s.run.jobState = .held) :
    exec (.jresume l) s = .next (match s.checkHeads with
      | some cc => s.answered l rest (requestReply tag .jresume cc [])
      | none => s.resumeJob.answered l rest (requestReply tag .jresume .accepted [])) := by
  refine (serve_run ho rfl (lockPasses_of_headerSound hs (by decide)) (by rw [hj]; rfl) rfl ownJresume).trans ?_
  rw [ownJresume, taken_checkHeads, taken_resumeJob]
  cases s.checkHeads with
  | none => exact congrArg _ (queueReply_taken _ l rest _)
  | some cc => exact congrArg _ (queueReply_refuse s l rest tag _ cc)

end

/-- Settles O23: dispatch passes, the checks stand in their order, and where all pass every used head is PARKED. -/
theorem jstartAndJresumeLowerTheHeads : Obligations.JstartAndJresumeLowerTheHeads := by
  refine fun s l tag rest => ⟨fun ho hj => ?_, fun hs ho hj => ?_⟩
  · rw [exec_jstart ho hj, checkJstart_eq, checkHeads_eq]
    split_ifs with hcount habsent hparked
    · rfl
    · rfl
    · rfl
    · push Not at hparked
      rw [State.startJob, command_lower_of_parked (by exact hparked)]
      rfl
  · rw [exec_jresume hs ho hj, checkHeads_eq]
    split_ifs with habsent hparked
    · rfl
    · rfl
    · push Not at hparked
      rw [State.resumeJob, command_lower_of_parked (by exact hparked)]
      rfl

/-! ### JHOLD and JABORT -/

/-- Settles O24: dispatch passes, and the hold takes effect at once out of phase CUT. -/
theorem jholdHoldsOrPends : Obligations.JholdHoldsOrPends := by
  intro s l tag rest hs ho hj
  have haccepted : ReqCode.jhold.acceptedIn s.run.jobState = true := by
    rcases hj with hj | hj <;> rw [hj] <;> rfl
  refine (serve_run ho rfl (lockPasses_of_headerSound hs (by decide)) haccepted rfl ownJhold).trans ?_
  simp only [ownJhold, State.accept, State.holdJob, taken_run, ite_self]
  split_ifs with hcut
  · cases l <;> rfl
  · rfl

/-- R30: the damage list once a record has been appended if the list has room. -/
theorem appendDamage_ite (s : State) (r : DamageRecord) : s.appendDamage r =
    { s with run := { s.run with
      damage := if s.run.damage.length < 8 then s.run.damage ++ [r] else s.run.damage } } := by
  unfold State.appendDamage
  split_ifs with h1 h2 h2
  · rfl
  · exact absurd h1 h2
  · exact absurd h2 h1
  · rfl

/-- Settles O25: dispatch passes in an open job, and the record of the track in cut is appended if the list has room. -/
theorem jabortEndsTheJob : Obligations.JabortEndsTheJob := by
  intro s l tag rest hs ho hj s1 record damage s2
  have haccepted : ∀ j ∈ [JobState.prepared, .lowering, .running, .held], ReqCode.jabort.acceptedIn j = true := by decide
  have hcut : s1.abortCut = s2 := by
    simp only [State.abortCut, s1, s2, taken_run]
    split_ifs
    · rw [appendDamage_ite, State.damageRecord, taken_usedHeads]
      simp only [taken_run]
      rfl
    · rfl
  refine (serve_run ho rfl (lockPasses_of_headerSound hs (by decide)) (haccepted _ hj) rfl ownJabort).trans ?_
  rw [← hcut]
  rfl

end Sys2Proof.Machine
end

section
/-!
JQUERY, SQUERY and HQUERY: the records they return, word by word, in the codes of 11.4 (R35, R56, R133, R175).
-/

namespace Sys2Proof.Machine

/-! ### A request in no zone, and a read -/

theorem zonePasses_of_no_zone {c : ReqCode} (hz : c.zone = none) (hne : c ≠ .dreset) (s : State) (l : Link) :
    s.zonePasses l c = true := by simp [State.zonePasses, hne, hz]

/-- R160: a request in no zone and accepted in every job state is answered by its owner. -/
theorem serve_query {s : State} {l : Link} {tag : Byte} {c : ReqCode} {ops : List Word} {rest : List InFrame}
    (hs : s.headerSound) (ho : s.offers l (requestFrame tag c ops) rest) (hc : c ∈ [ReqCode.squery, .jquery, .hquery])
    (hf : c.fixedPart (ops.length + 1) = true) (owner : List Word → State → Answer) :
    let a := owner (c.word :: ops) (s.taken l rest)
    serve c l owner s = .next (a.state.queueReply l
      (requestReply tag c a.cc (if a.cc = .accepted then a.returned else []))) := by
  have hquery : ∀ c ∈ [ReqCode.squery, .jquery, .hquery],
      c.zone = none ∧ c ≠ .dreset ∧ c ∉ [ReqCode.tload, .mload, .htrim, .hreset] := by decide
  obtain ⟨hzone, hne, hlock⟩ := hquery c hc
  have haccepted : c.acceptedIn s.run.jobState = true := by fin_cases hc <;> rfl
  exact serve_accepted s l ho (zonePasses_of_no_zone hzone hne s l) (lockPasses_of_headerSound hs hlock) haccepted hf owner

/-! ### The words of each record -/

theorem taken_headWords (s : State) (l : Link) (rest : List InFrame) (h : Head) :
    (s.taken l rest).headWords h = s.headWords h := by cases l <;> rfl

/-- R113: the flags of HQUERY, the levels of a head that is not fitted read low. -/
theorem headFlags_eq (s : State) (h : Head) :
    let c := s.chan h
    let x := if s.fitted h then s.pin h else ⟨false, false, false, false, false⟩
    s.headFlags h = put 0 0 (s.fitted h).toNat ||| put 1 1 c.inCut.toNat ||| put 2 2 c.taken.toNat |||
      put 3 3 x.hpres.toNat ||| put 4 4 x.hdown.toNat ||| put 5 5 x.hup.toNat ||| put 6 6 x.hflt.toNat := by
  unfold State.headFlags
  cases s.fitted h <;> rfl

/-- 11.6: HQUERY's words in the order of their layout. -/
theorem headWords_eq (s : State) (h : Head) :
    let c := s.chan h
    let r := s.trim h
    s.headWords h =
      [put 31 24 h.val ||| put 23 16 c.state.code ||| put 15 8 c.faultCause.code ||| s.headFlags h,
       put 31 16 c.faultTrack ||| put 15 8 c.timeoutCount ||| put 7 0 c.queue.length] ++
      (c.queue.flatMap fun y => [put 31 16 y.localTrack ||| put 15 0 y.globalTrack,
                                 put 31 16 y.nonzeroCells ||| put 0 0 y.phase.toNat]) ++
      [put 31 0 c.linesCut, put 15 0 (c.cellsCut / 2 ^ 32), put 31 0 c.cellsCut, put 31 0 c.damagedLines,
       put 31 16 r.gain ||| put 15 0 (BitVec.ofInt 16 r.offset).toNat, put 31 16 r.clamp,
       put 15 0 (r.wearLimit / 2 ^ 32), put 31 0 r.wearLimit] := by
  simp only [State.headWords, List.append_assoc]
  rfl

/-- Settles O26: each query passes dispatch, and its words are those of the record's layout. -/
theorem queriesReturnTheirRecords : Obligations.QueriesReturnTheirRecords := by
  refine ⟨rfl, rfl, rfl, rfl, rfl, rfl, fun s l tag rest hs ho => ?_, fun s l tag rest hs ho => ?_,
    fun s l tag w1 rest hs ho => ⟨fun hw => ?_, fun h hw => ?_⟩⟩
  · refine (serve_query hs ho (by decide) rfl ownJquery).trans ?_
    simp only [ownJquery, State.returns, taken_run]
    exact congrArg _ (queueReply_taken s l rest _)
  · refine (serve_query hs ho (by decide) rfl ownSquery).trans ?_
    simp only [ownSquery, State.returns, taken_store]
    exact congrArg _ (queueReply_taken s l rest _)
  · refine (serve_query hs ho (by decide) rfl ownHquery).trans ?_
    have hout : ownHquery [ReqCode.hquery.word, w1] (s.taken l rest) = (s.taken l rest).refuse .range :=
      dif_neg (Nat.not_lt.2 hw)
    rw [hout]
    exact congrArg _ (queueReply_refuse s l rest tag .hquery .range)
  · refine (serve_query hs ho (by decide) rfl ownHquery).trans ?_
    have hin : ownHquery [ReqCode.hquery.word, w1] (s.taken l rest) =
        (s.taken l rest).returns (s.headWords h) := by
      have hlt : w1.toNat < 4 := hw ▸ h.isLt
      have hhead : (⟨w1.toNat, hlt⟩ : Head) = h := Fin.ext hw
      refine (dif_pos hlt).trans ?_
      rw [← taken_headWords s l rest, ← hhead]
      rfl
    rw [hin, headWords_eq, headFlags_eq]
    exact congrArg _ (queueReply_taken s l rest _)

end Sys2Proof.Machine
end

section
/-!
The entries to HELD, DONE and ABORTED, and what the writes waiting behind an abandoned build leave (R25, R29, R31, R90,
R107).
-/

namespace Sys2Proof.Machine

/-! ### Entry to HELD and to DONE -/

/-- R25, R29: the used heads lifted once RUN's record has left LOWERING and RUNNING, and the entry's bit raised. -/
theorem liftsUsedHeads_of_stopped (s : State) {r : Run} (h1 : r.jobState ≠ .lowering) (h2 : r.jobState ≠ .running)
    (hhead : r.header = s.run.header) (ht : r.t = s.run.t) (b : StatusBit) :
    s.liftsUsedHeads ((({ s with run := r }).forUsed State.liftCommand).raise b) b := by
  have hused : ∀ h, State.used { s with run := r } h = s.used h := fun h => congrArg (JobHeader.used · h) hhead
  obtain ⟨-, hchan, hstatus, hport⟩ := liftUsed_spec { s with run := r } h1 h2
  refine ⟨by simp, by simp, by simp, by simp, by simp, by simp, by simp, by simp, fun h => ?_, by simp, by simp,
    fun i => ?_, fun l => ?_⟩
  · rw [raise_chan, hchan h, hused h]
    simp only [ht]
    rfl
  · rw [raise_getLsbD, hstatus i]
    simp only [hused, or_assoc]
    exact or_congr_right or_comm
  · have key := sameButNotices_trans (hport l) (raise_sameButNotices _ b l)
    cases l <;> exact key

/-- Settles O27: RUN's record stops before the lifts, so that no lift sends a report. -/
theorem entryToHeldAndDone : Obligations.EntryToHeldAndDone := fun s =>
  ⟨fun reason => ⟨run_enterHeld s reason,
      liftsUsedHeads_of_stopped s (r := s.run.stop .held reason) (by simp) (by simp) rfl rfl .held⟩,
    run_enterDone s, liftsUsedHeads_of_stopped s (r := s.run.stop .done .none) (by simp) (by simp) rfl rfl .done⟩

/-! ### The waiting writes -/

/-- R90: an accepted write replaces tables and, for a trim that clears it, one cells_cut; nothing else. -/
theorem applyWrite_eq (w : TableWrite) (s : State) :
    s.applyWrite w = { s with tables := (s.applyWrite w).tables, heads := (s.applyWrite w).heads } := by
  unfold State.applyWrite
  split
  · rfl
  · rfl
  · dsimp only; split <;> rfl

/-- R90: what a write does to tables and channels reads tables and channels alone. -/
theorem applyWrite_congr {s t : State} (htables : t.tables = s.tables) (hheads : t.heads = s.heads) (w : TableWrite) :
    (t.applyWrite w).tables = (s.applyWrite w).tables ∧ (t.applyWrite w).heads = (s.applyWrite w).heads := by
  cases w with
  | tone n es => simp [State.applyWrite, htables, hheads]
  | pattern n m => simp [State.applyWrite, htables, hheads]
  | trim h r clear => cases clear <;> simp [State.applyWrite, State.setChan, State.chan, htables, hheads]

/-- The reply that answers a waiting write once it has taken effect (R90). -/
def QueuedWrite.answer (q : QueuedWrite) : OutFrame := .reply ⟨.request, q.tag, q.write.code, .accepted, []⟩

theorem applyWrite_port (w : TableWrite) (s : State) (l : Link) : (s.applyWrite w).port l = s.port l := by
  rw [applyWrite_eq]; cases l <;> rfl

/-- R90: the link of a write gets its reply and returns to READY; the other link is left. -/
theorem finishWrite_port (q : QueuedWrite) (s : State) (l : Link) : (s.finishWrite q).port l =
    if q.link = l then { s.port l with out := (s.port l).out ++ [q.answer], handling := .ready } else s.port l := by
  unfold State.finishWrite
  split
  · next e => rw [e, port_queueReply, applyWrite_port]; rfl
  · next e => rw [port_queueReply_ne _ (fun hl => e hl.symm), applyWrite_port]

theorem finishWrite_tables (q : QueuedWrite) (s : State) : (s.finishWrite q).tables = (s.applyWrite q.write).tables :=
  queueReply_tables _ _ _

theorem finishWrite_heads (q : QueuedWrite) (s : State) : (s.finishWrite q).heads = (s.applyWrite q.write).heads :=
  queueReply_heads _ _ _

/-- R90: the waiting writes act on tables and channels in their order, whatever their replies do to the links. -/
theorem foldFinish_writes (qs : List QueuedWrite) {s t : State} (htables : t.tables = s.tables)
    (hheads : t.heads = s.heads) :
    let u := qs.foldl (fun s q => s.finishWrite q) t
    let v := qs.foldl (fun s q => s.applyWrite q.write) s
    u.tables = v.tables ∧ u.heads = v.heads := by
  induction qs generalizing s t with
  | nil => exact ⟨htables, hheads⟩
  | cons q qs ih =>
    obtain ⟨et, eh⟩ := applyWrite_congr htables hheads q.write
    exact ih ((finishWrite_tables q t).trans et) ((finishWrite_heads q t).trans eh)

/-- R90: the replies of the waiting writes, each on its own link. -/
theorem foldFinish_port (qs : List QueuedWrite) (s : State) (l : Link) :
    (qs.foldl (fun s q => s.finishWrite q) s).port l =
      { s.port l with
        out := (s.port l).out ++ (qs.filter fun q => q.link == l).map QueuedWrite.answer
        handling := if 0 < qs.countP (fun q => q.link == l) then .ready else (s.port l).handling } := by
  induction qs generalizing s with
  | nil => simp
  | cons q qs ih =>
    rw [List.foldl_cons, ih, finishWrite_port]
    by_cases e : q.link = l <;> simp [e]

/-- R90: the waiting writes leave all but tables, channels and links. -/
theorem finishWrites_eq (s : State) : s.finishWrites =
    { s with tables := s.finishWrites.tables, heads := s.finishWrites.heads, pLink := s.finishWrites.pLink
             sLink := s.finishWrites.sLink } := by
  refine finishWrites_keeps (s := s) (P := fun t => t =
    { s with tables := t.tables, heads := t.heads, pLink := t.pLink, sLink := t.sLink }) (fun q t ht => ?_)
    (fun t _ ht => ?_) rfl
  · rw [State.finishWrite, applyWrite_eq, ht]
    cases q.link <;> rfl
  · rw [ht]

/-- R85, R90: a write leaves the state of every channel. -/
theorem applyWrite_chan_state (w : TableWrite) (s : State) (h : Head) :
    ((s.applyWrite w).chan h).state = (s.chan h).state := by
  unfold State.applyWrite
  split
  · rfl
  · rfl
  · next k r clear =>
    dsimp only
    split
    · rw [chan_setChan_eq_ite]
      split
      · next e => rw [e]; rfl
      · rfl
    · rfl

theorem writesApplied_chan_state (s : State) (h : Head) : (s.writesApplied.chan h).state = (s.chan h).state := by
  have key : ∀ (qs : List QueuedWrite) (t : State),
      ((qs.foldl (fun s q => s.applyWrite q.write) t).chan h).state = (t.chan h).state := by
    intro qs
    induction qs with
    | nil => exact fun t => rfl
    | cons q qs ih => exact fun t => (ih _).trans (applyWrite_chan_state q.write t h)
  exact key _ s

/-! ### Entry to ABORTED -/

/-- RUN's record and BUILD's as a job ends as ABORTED (R31, R32, R107). -/
def State.ending (s : State) : State :=
  { s with run := { s.run.stop .aborted .none with markers := [] }, build := { s.build with inFlight := none } }

/-- The part as a job ends as ABORTED, before the lifts: the waiting writes in effect and every queue emptied (R91, R107). -/
def State.drained (s : State) : State := s.ending.finishWrites.mapChans fun _ c => c.empty

theorem enterAborted_eq (s : State) : s.enterAborted =
    State.raise .aborted { s.drained.forUsed State.liftCommand with
      store := (s.drained.forUsed State.liftCommand).store.abortRelease } := rfl

/-- All that stands before the lifts but tables, channels and links. -/
theorem drained_eq (s : State) : s.drained =
    { s.ending with tables := s.drained.tables, heads := s.drained.heads, pLink := s.drained.pLink
                    sLink := s.drained.sLink } := by
  conv_lhs => rw [State.drained, finishWrites_eq]
  rfl

theorem drained_run (s : State) : s.drained.run = s.ending.run := by rw [drained_eq]
theorem drained_store (s : State) : s.drained.store = s.store := by rw [drained_eq]; rfl
theorem drained_place (s : State) : s.drained.place = s.place := by rw [drained_eq]; rfl
theorem drained_build (s : State) : s.drained.build = { s.build with inFlight := none } := by rw [drained_eq]; rfl
theorem drained_pins (s : State) : s.drained.pins = s.pins := by rw [drained_eq]; rfl
theorem drained_event (s : State) : s.drained.event = s.event := by rw [drained_eq]; rfl
theorem drained_straps (s : State) : s.drained.straps = s.straps := by rw [drained_eq]; rfl
theorem drained_stepPulses (s : State) : s.drained.stepPulses = s.stepPulses := by rw [drained_eq]; rfl
theorem drained_pending (s : State) : s.drained.pending = s.pending := by rw [drained_eq]; rfl

theorem drained_tables (s : State) : s.drained.tables = { s.writesApplied.tables with writeQueue := [] } :=
  congrArg (fun x : Tables => { x with writeQueue := [] })
    (foldFinish_writes s.tables.writeQueue (s := s) (t := s.ending) rfl rfl).1

theorem drained_chan (s : State) (h : Head) : s.drained.chan h = (s.writesApplied.chan h).empty := by
  refine (chan_mapChans _ h _).trans (congrArg Channel.empty ?_)
  exact congrArg (fun x : Vector Channel 4 => x[h.val])
    (foldFinish_writes s.tables.writeQueue (s := s) (t := s.ending) rfl rfl).2

theorem drained_port (s : State) (l : Link) : s.drained.port l =
    { s.port l with
      out := (s.port l).out ++ (s.tables.writeQueue.filter fun q => q.link == l).map QueuedWrite.answer
      handling := if 0 < s.waitingWrites l then .ready else (s.port l).handling } := by
  have key := foldFinish_port s.tables.writeQueue s.ending l
  cases l <;> exact key

theorem drained_used (s : State) (h : Head) : s.drained.used h = s.used h := by rw [drained_eq]; rfl

theorem drained_pin (s : State) (h : Head) : s.drained.pin h = s.pin h := by rw [drained_eq]; rfl

/-- R91: an emptied channel is lifted, or faulted by the lift, as it would have been before. -/
theorem drained_faultsOnLift (s : State) (h : Head) :
    (s.drained.chan h).faultsOnLift (s.pin h) = (s.chan h).faultsOnLift (s.pin h) := by
  have hstate : (s.drained.chan h).state = (s.chan h).state := by
    rw [drained_chan]
    exact writesApplied_chan_state s h
  simp only [Channel.faultsOnLift, hstate]

theorem filter_isReply_answers (qs : List QueuedWrite) :
    (qs.map QueuedWrite.answer).filter OutFrame.isReply = qs.map QueuedWrite.answer :=
  List.filter_eq_self.2 (by simp [QueuedWrite.answer, OutFrame.isReply])

/-- Settles O28: the blocks but the heads before the lifts, then the lifts, of which a notice and the head's bit alone
show besides its channel. -/
theorem entryToAborted : Obligations.EntryToAborted := by
  intro s
  rw [enterAborted_eq]
  intro t
  obtain ⟨-, hchan, hstatus, hport⟩ := liftUsed_spec s.drained (by rw [drained_run]; nofun) (by rw [drained_run]; nofun)
  have hlinks : ∀ l, (s.drained.port l).sameButNotices (t.port l) := fun l => by
    have key := sameButNotices_trans (hport l) (raise_sameButNotices
      { s.drained.forUsed State.liftCommand with
        store := (s.drained.forUsed State.liftCommand).store.abortRelease } .aborted l)
    cases l <;> exact key
  refine ⟨run_enterAborted s, ?_, ?_, ?_, ?_, ?_, ?_, ?_, ?_, fun h => ?_, ?_, ?_, fun i => ?_, fun l => ?_⟩
  · exact (liftUsed_build s.drained).trans (drained_build s)
  · exact (liftUsed_tables s.drained).trans (drained_tables s)
  · exact congrArg Store.abortRelease ((liftUsed_store s.drained).trans (drained_store s))
  · exact (liftUsed_place s.drained).trans (drained_place s)
  · exact (liftUsed_pins s.drained).trans (drained_pins s)
  · exact (liftUsed_straps s.drained).trans (drained_straps s)
  · exact (liftUsed_stepPulses s.drained).trans (drained_stepPulses s)
  · exact (liftUsed_pending s.drained).trans (drained_pending s)
  · refine (hchan h).trans ?_
    rw [drained_used, drained_pin, drained_chan, drained_run]
    rfl
  · exact (liftUsed_pMask s.drained).trans (congrArg EventUnit.pMask (drained_event s))
  · exact (liftUsed_sMask s.drained).trans (congrArg EventUnit.sMask (drained_event s))
  · refine (raise_getLsbD _ .aborted i).trans ((or_congr_left (hstatus i)).trans ?_)
    simp only [drained_used, drained_pin, drained_faultsOnLift, or_assoc]
    rw [drained_event]
    exact or_congr_right or_comm
  · obtain ⟨hreceiving, hinput, hhandling, hsending, herrors, hout⟩ := hlinks l
    rw [drained_port] at hreceiving hinput hhandling hsending herrors hout
    refine ⟨hreceiving, hinput, hsending, herrors, hhandling, hout.trans ?_⟩
    rw [List.filter_append, filter_isReply_answers]
    rfl

end Sys2Proof.Machine
end

section
/-!
The Index event and the fault reports: settle, the readiness step, the retirement of a track, normal or damaged (R26, R138 to
R146).
-/

namespace Sys2Proof.Machine

/-! ### The readiness step -/

/-- R143: the line for t stands at the head of the queue. -/
theorem lineReady_iff (s : State) (h : Head) :
    s.lineReady h = true ↔ ∃ x rest, (s.chan h).queue = x :: rest ∧ x.localTrack = s.run.t := by
  unfold State.lineReady
  cases (s.chan h).queue with
  | nil => simp
  | cons x rest => simp

theorem allReady_iff (s : State) : s.allReady = true ↔
    ∀ h, s.used h = true → ∃ x rest, (s.chan h).queue = x :: rest ∧ x.localTrack = s.run.t := by
  simp only [State.allReady, all_usedHeads, lineReady_iff]

theorem readiness_of_ready {s : State} (h : s.allReady = true) : s.readiness = s.startCut := if_pos h

/-- R144: a revolution without every line slips, and holds the job where the count has reached the limit. -/
theorem readiness_of_not_ready {s : State} (h : ¬ s.allReady = true) : s.readiness =
    if s.run.header.holdLimit ≠ 0 ∧ min 65535 (s.run.holdCounter + 1) = s.run.header.holdLimit then
      s.slip.enterHeld .starved
    else s.slip := if_neg h

/-- Settles O50: the lines at the heads of the used queues decide between the cut and the slip, the counter between the
slip and the hold. -/
theorem readinessCutsOrSlips : Obligations.ReadinessCutsOrSlips := by
  refine fun s => ⟨fun hready => ?_, fun hnot hlimit => ?_, fun hnot hne hlimit => ?_⟩
  · exact readiness_of_ready ((allReady_iff s).2 hready)
  · refine (readiness_of_not_ready fun h => hnot ((allReady_iff s).1 h)).trans (if_neg ?_)
    rintro ⟨hne, heq⟩
    exact hlimit.elim hne (fun h => h heq)
  · exact (readiness_of_not_ready fun h => hnot ((allReady_iff s).1 h)).trans (if_pos ⟨hne, hlimit⟩)

/-! ### Settle -/

theorem allDown_iff (s : State) : s.allDown = true ↔ ∀ h, s.used h = true → (s.chan h).state = .down := by
  simp only [State.allDown, all_usedHeads, beq_iff_eq]

theorem indexEvent_of_lowering {s : State} (h : s.run.jobState = .lowering) : s.indexEvent = s.settle := by
  simp only [State.indexEvent, h]

theorem indexEvent_of_slip {s : State} (h : s.run.jobState = .running) (hp : s.run.phase ≠ .cut) :
    s.indexEvent = s.readiness := by
  simp only [State.indexEvent, h, if_neg hp]

theorem indexEvent_of_cut {s : State} (h : s.run.jobState = .running) (hp : s.run.phase = .cut) :
    s.indexEvent = s.closeCut := by
  simp only [State.indexEvent, h, if_pos hp]

/-! ### The track in cut retired -/

/-- R125: the short command faults a channel that is DOWN. -/
theorem shortCommand_eq (h : Head) (s : State) :
    s.shortCommand h = if (s.chan h).state = .down then s.enterFaulted h .short else s := by
  unfold State.shortCommand
  cases (s.chan h).state <;> rfl

/-- R131: no raise changes what the wear comparisons of the later heads compare. -/
theorem foldWear_eq (hs : List Head) {r s : State} (htables : s.tables = r.tables) (hheads : s.heads = r.heads) :
    hs.foldl (fun s h => s.wearCheck h) s = hs.foldl (fun x h =>
      if (r.trim h).wearLimit ≠ 0 ∧ (r.trim h).wearLimit ≤ (r.chan h).cellsCut then x.raise .wear else x) s := by
  induction hs generalizing s with
  | nil => rfl
  | cons h hs ih =>
    have htrim : s.trim h = r.trim h := by simp only [State.trim, htables]
    have hchan : s.chan h = r.chan h := by simp only [State.chan, hheads]
    rw [List.foldl_cons, List.foldl_cons, State.wearCheck, htrim, hchan]
    split
    · exact ih htables hheads
    · exact ih htables hheads

/-- R141, R146, the steps after the lines are removed: one STEP, the markers of t, the advance of t. -/
theorem advance_eq (s : State) :
    let marks := (s.run.markers.takeWhile fun m => m.track == s.run.t).map fun m => StatusBit.mark m.bit
    let fired := ({ s with
      stepPulses := s.stepPulses + 1
      run := { s.run with markers := s.run.markers.dropWhile fun m => m.track == s.run.t } }).raiseAll marks
    s.pulseStep.fireMarkers.advanceTrack =
      { fired with run := { fired.run with t := s.run.t + 1, retiredTracks := s.run.retiredTracks + 1 } } := by
  intro marks fired
  have hrun : fired.run = { s.run with markers := s.run.markers.dropWhile fun m => m.track == s.run.t } :=
    raiseAll_run _ _
  have ht : fired.run.t = s.run.t := (congrArg Run.t hrun :)
  have hretired : fired.run.retiredTracks = s.run.retiredTracks := (congrArg Run.retiredTracks hrun :)
  rw [← ht, ← hretired]
  rfl

/-- R141: RUN's record once a track is retired. -/
theorem run_retireTrack (s : State) : s.retireTrack.run = s.run.advanced := by
  rw [State.retireTrack, run_advance, wearUsed_run, command_run]

/-- R140: a track not taken by every used head is retired as damaged, after the short commands. -/
theorem closeCut_of_short {s : State} (h : s.shortHeads ≠ []) : s.closeCut =
    (s.shortHeads.foldl (fun x h => if (x.chan h).state = .down then x.enterFaulted h .short else x) s).retireDamaged
      .short (headMaskOf s.shortHeads) := by
  rw [State.closeCut, if_pos h]
  simp only [shortCommand_eq]

/-- R141, R142: a track taken by every used head is retired, and the job is done, held or goes on. -/
theorem closeCut_of_taken {s : State} (h : s.shortHeads = []) : s.closeCut =
    if s.run.t + 1 = s.run.header.tracksPerBand then s.retireTrack.enterDone
    else if s.run.pendingHold = true then s.retireTrack.enterHeld .request
    else s.retireTrack.readiness := by
  rw [State.closeCut, if_neg (not_not.2 h)]
  simp only [run_retireTrack]
  rfl

/-! ### The commands that drive the run -/

theorem execSettleComplete_of_due {s : State} (h : s.settleDue = true) : execSettleComplete s = .next s.indexEvent := by
  simp [execSettleComplete, settleStep, h]

theorem execHoldLimit_of_due {s : State} (h : s.holdLimitDue = true) : execHoldLimit s = .next s.indexEvent := by
  simp [execHoldLimit, settleStep, h]

/-- Settles O49: settle by whether the used heads are DOWN, the cut by whether each has taken its line. -/
theorem indexDrivesTheRun : Obligations.IndexDrivesTheRun := by
  refine ⟨?_, ?_, ?_⟩
  · intro s hj n down running
    refine ⟨fun hnot => ?_, fun hdown hn => ?_, fun hdown hn => ?_⟩
    · have hset : s.settle = { s with run := { s.run with settleCounter := 0 } } :=
        if_neg fun h => hnot ((allDown_iff s).1 h)
      exact congrArg _ ((indexEvent_of_lowering hj).trans hset)
    · have hset : s.settle = { s with run := { s.run with settleCounter := n } } :=
        (if_pos ((allDown_iff s).2 hdown)).trans (if_neg hn)
      exact congrArg _ ((indexEvent_of_lowering hj).trans hset)
    · have hset : s.settle = running.readiness := (if_pos ((allDown_iff s).2 hdown)).trans (if_pos hn)
      have hindex := (indexEvent_of_lowering hj).trans hset
      have hdue : s.settleDue = true := by
        simpa [State.settleDue, hj, (allDown_iff s).2 hdown] using hn
      exact ⟨congrArg _ hindex, (execSettleComplete_of_due hdue).trans (congrArg _ hindex)⟩
  · intro s hj hp
    refine ⟨congrArg _ (indexEvent_of_slip hj hp), fun hslip hshort hne hlimit => ?_⟩
    obtain ⟨h, hu, hq⟩ := hshort
    have hnot : s.allReady = false := by
      refine Bool.eq_false_iff.2 fun hready => ?_
      obtain ⟨x, rest, he, ht⟩ := (allReady_iff s).1 hready h hu
      exact hq x rest he ht
    have hdue : s.holdLimitDue = true := by
      simp only [State.holdLimitDue, hj, hslip, hnot, Bool.and_eq_true, bne_iff_ne, beq_iff_eq]
      exact ⟨⟨⟨⟨trivial, trivial⟩, rfl⟩, hne⟩, hlimit⟩
    exact (execHoldLimit_of_due hdue).trans (congrArg _ (indexEvent_of_slip hj hp))
  · intro s hj hp short retired worn marks fired next
    refine ⟨fun hshort => ?_, fun hshort => ?_⟩
    · exact congrArg _ ((indexEvent_of_cut hj hp).trans (closeCut_of_short hshort))
    · have hworn : (s.command Channel.retire).forUsed State.wearCheck = worn :=
        foldWear_eq s.usedHeads (r := retired) (s := retired) rfl rfl
      have hrun : worn.run = s.run := by rw [← hworn]; simp
      have hpulses : worn.stepPulses = s.stepPulses := by rw [← hworn]; simp
      have hnext : s.retireTrack = next := by
        rw [State.retireTrack, hworn, advance_eq, hrun, hpulses]
      rw [← hnext]
      exact congrArg _ ((indexEvent_of_cut hj hp).trans (closeCut_of_taken hshort))

/-! ### A mask of heads -/

theorem getLsbD_headBit (h k : Head) : (BitVec.ofNat 4 (2 ^ h.val)).getLsbD k.val = decide (k = h) := by
  revert h k; decide

/-- 11.4: bit n of a head mask is set for each head n of the set. -/
theorem getLsbD_headMaskOf (hs : List Head) (k : Head) : (headMaskOf hs).getLsbD k.val = true ↔ k ∈ hs := by
  have key : ∀ m : BitVec 4, (hs.foldl (fun m h => m ||| BitVec.ofNat 4 (2 ^ h.val)) m).getLsbD k.val = true ↔
      m.getLsbD k.val = true ∨ k ∈ hs := by
    induction hs with
    | nil => simp
    | cons h hs ih =>
      intro m
      rw [List.foldl_cons, ih, BitVec.getLsbD_or, Bool.or_eq_true, getLsbD_headBit, decide_eq_true_eq, List.mem_cons,
        or_assoc]
  exact (key 0).trans (by simp)

theorem headMaskOf_singleton (h : Head) : headMaskOf [h] = BitVec.ofNat 4 (2 ^ h.val) := BitVec.zero_or

/-! ### Fault reports -/

/-- R26: what a report does, by the job's state and phase. -/
theorem takeReport_eq (s : State) (r : FaultReport) : s.takeReport r =
    if s.used r.head = true ∧ s.run.jobState = .running ∧ s.run.phase = .cut then
      s.retireDamaged r.cause (BitVec.ofNat 4 (2 ^ r.head.val))
    else if s.used r.head = true ∧ (s.run.jobState = .lowering ∨ s.run.jobState = .running) then s.enterHeld .fault
    else s := by
  unfold State.takeReport
  by_cases hu : s.used r.head = true
  · cases hj : s.run.jobState <;> simp [hu, headMaskOf_singleton]
  · simp [hu]

/-- R26: the oldest report of a head is taken from the list. -/
theorem execFaultReport_of_oldest {s : State} {before after : List FaultReport} {r : FaultReport}
    (hreports : s.run.reports = before ++ r :: after) (holdest : ∀ x ∈ before, x.head ≠ r.head) :
    execFaultReport r.head s =
      .next (({ s with run := { s.run with reports := before ++ after } }).takeReport r) := by
  have hfind : (s.run.reports.find? fun x => x.head == r.head) = some r :=
    List.find?_eq_some_iff_append.2 ⟨by simp, before, after, hreports, by simpa using holdest⟩
  have herase : s.run.reports.erase r = before ++ after := by
    have hnot : r ∉ before := fun h => holdest r h rfl
    rw [hreports, List.erase_append_right _ hnot, List.erase_cons_head]
  simp only [execFaultReport, settleStep, hfind, herase, Option.getD_some]

theorem execFaultReport_of_no_reports {s : State} (h : s.run.reports = []) (k : Head) : execFaultReport k s = .next s := by
  simp [execFaultReport, settleStep, h]

/-! ### A track retired as damaged -/

/-- R146: a track retired as damaged, with room in the damage list. -/
theorem retireDamaged_of_room {s : State} (h : s.run.damage.length < 8) (cause : Cause) (heads : BitVec 4) :
    let s1 := ({ s with run := { s.run with
      damage := s.run.damage ++ [s.damageRecord cause heads] } }).removeDamaged.pulseStep.fireMarkers.advanceTrack
    s.retireDamaged cause heads =
      if s.run.t + 1 = s.run.header.tracksPerBand then s1.enterDone else s1.enterHeld .fault := by
  intro s1
  have happend : s.appendDamage (s.damageRecord cause heads) =
      { s with run := { s.run with damage := s.run.damage ++ [s.damageRecord cause heads] } } := if_pos h
  have hrun : s1.run = Run.advanced { s.run with damage := s.run.damage ++ [s.damageRecord cause heads] } := run_advance _
  rw [State.retireDamaged, if_pos (show s.run.damage.length < Config.damageDepth from h), happend]
  show (if s1.run.t = s1.run.header.tracksPerBand then _ else _) = _
  rw [hrun]
  rfl

theorem retireDamaged_of_full {s : State} (h : ¬ s.run.damage.length < 8) (cause : Cause) (heads : BitVec 4) :
    s.retireDamaged cause heads = s.removeDamaged.enterAborted := if_neg h

/-- Settles O51: the damage list decides the retirement, the job's state and phase what a report does; a track retired as
damaged leaves no report under way. -/
theorem damagedRetirementAndFaultReports : Obligations.DamagedRetirementAndFaultReports := by
  refine ⟨fun s h => ⟨rfl, ?_, fun hs => getLsbD_headMaskOf hs h⟩, ?_, ?_, fun s cause heads h => ?_⟩
  · rw [Bool.eq_iff_iff, getLsbD_headMaskOf, mem_usedHeads]
  · intro s cause heads removed marks s1 s2 s3
    by_cases hroom : s.run.damage.length < 8
    · rw [if_pos hroom, retireDamaged_of_room hroom, advance_eq]
      rfl
    · rw [if_neg hroom, retireDamaged_of_full hroom]
      rfl
  · intro s before after r hreports holdest s1
    refine (execFaultReport_of_oldest hreports holdest).trans ?_
    rw [takeReport_eq]
    rfl
  · exact execFaultReport_of_no_reports (retireDamaged_stops s cause heads).1 h

end Sys2Proof.Machine
end

section
/-!
STORE at every step: the pages are conserved and the page memory stays canonical, move by move (R36, R37, R39).
-/

namespace Sys2Proof.Machine

/-! ### One step as a move -/

/-- Everything a step can do to STORE, PLACE and the header: the command in front is taken, and makes its move. -/
theorem step_moves {s t : State} (h : step s = .next t) : ImageMove s t := by
  unfold step at h
  split at h
  · injection h with h
    exact h ▸ .kept (keepsImage_refl s)
  · next rest _ =>
    exact .of_keeps (s' := { s with pending := rest }) ⟨rfl, rfl, rfl⟩ rfl (keepsImage_refl t) (exec_moves h)

/-! ### The checks that guard the moves -/

/-- A chain of checks passes where its first check does and the rest of the chain passes. -/
theorem check_eq_none {p : Prop} [Decidable p] {cc : CC} {rest : Option CC} :
    (if p then some cc else rest) = none ↔ ¬ p ∧ rest = none := by
  by_cases h : p <;> simp [h]

theorem checkSdef_eq_none {s : State} {n width height : Nat} : s.checkSdef n width height = none ↔
    n < 16 ∧ (s.store.slot n).state = .empty ∧ (1 ≤ width ∧ width ≤ s.run.header.cellsPerRev) ∧
      1 ≤ height ∧ height ≤ 65535 := by
  simp only [State.checkSdef, check_eq_none]
  simp only [Config.slotCount, not_or, not_le, not_lt, not_not, and_true, and_assoc, ne_eq]

theorem slotNamed_iff (s : State) (n : Nat) :
    s.slotNamed n = true ↔ ∃ w ∈ s.place.toList, w.isImage = true ∧ w.source = n := by
  simp only [State.slotNamed, List.any_eq_true, Bool.and_eq_true, beq_iff_eq]

theorem checkSrel_eq_none {s : State} {n : Nat} : s.checkSrel n = none ↔ n < 16 ∧ s.slotNamed n = false := by
  simp only [State.checkSrel, check_eq_none]
  simp only [Config.slotCount, not_le, Bool.not_eq_true, and_true]

theorem checkRow_eq_none {s : State} {o : RowOperands} {length u : Nat} : s.checkRow o length u = none ↔
    o.slot < 16 ∧ (s.store.slot o.slot).state = .opened ∧
      (o.row < (s.store.slot o.slot).height ∧ o.toneCount = (s.store.slot o.slot).width ∧
        length = 2 + toneWords o.toneCount) ∧
      o.row = (s.store.slot o.slot).rowsReceived ∧
      (u ≠ 0 → (s.store.slot o.slot).pagesPerRow ≤ s.store.freePages.length) := by
  simp only [State.checkRow, check_eq_none]
  simp only [Config.slotCount, Store.freeCount, not_or, not_and, not_le, not_lt, ne_eq, not_not, and_true]

/-! ### The slots after each move -/

theorem slot_cleared (st : Store) (n : Nat) : st.cleared.slot n = Slot.reset := getD_replicate 16 n Slot.reset

theorem heldPages_cleared (st : Store) : st.cleared.heldPages = [] := by
  show (Vector.replicate 16 Slot.reset).toList.flatMap (fun x => directoryPages x.directory) = []
  simp [Slot.reset, directoryPages]

theorem slot_abortRelease (st : Store) (n : Nat) :
    st.abortRelease.slot n = { st.slot n with directory := [] } := by
  by_cases h : n < 16
  · rw [slot_of_lt h, slot_of_lt h]
    exact Vector.getElem_map _ h
  · rw [slot_of_ge (by omega), slot_of_ge (by omega)]
    rfl

theorem slot_defineSlot (s : State) (n width height m : Nat) : (s.defineSlot n width height).store.slot m =
    if n = m ∧ m < 16 then ⟨.opened, width, height, pagesPerRow width, 0, []⟩ else s.store.slot m :=
  slot_setSlot _ _ _ _

theorem slot_releaseSlot (s : State) (n m : Nat) :
    (s.releaseSlot n).store.slot m = if n = m ∧ m < 16 then Slot.reset else s.store.slot m :=
  slot_setSlot _ _ _ _

theorem slot_countRow (s : State) (o : RowOperands) (m : Nat) : (s.countRow o).store.slot m =
    if o.slot = m ∧ m < 16 then (s.store.slot o.slot).received (s.store.slot o.slot).directory
    else s.store.slot m :=
  slot_setSlot _ _ _ _

/-- R45 step 3: the record of a row stored. -/
def State.newRecord (s : State) (o : RowOperands) (u : Nat) : RowRecord :=
  ⟨o.row, u, s.store.freePages.take (s.store.slot o.slot).pagesPerRow⟩

/-- R45: STORE after a row is stored. -/
theorem storeRow_store (s : State) (o : RowOperands) (u : Nat) (tones : List Byte) : (s.storeRow o u tones).store =
    { s.store.setSlot o.slot
        ((s.store.slot o.slot).received ((s.store.slot o.slot).directory ++ [s.newRecord o u])) with
      freePages := s.store.freePages.drop (s.store.slot o.slot).pagesPerRow
      memory := Memory.writeRow s.store.memory (s.newRecord o u).pages tones } := by
  simp only [State.storeRow, allocate_store]
  rfl

theorem slot_storeRow (s : State) (o : RowOperands) (u : Nat) (tones : List Byte) (m : Nat) :
    (s.storeRow o u tones).store.slot m = if o.slot = m ∧ m < 16 then
      (s.store.slot o.slot).received ((s.store.slot o.slot).directory ++ [s.newRecord o u])
    else s.store.slot m := by
  rw [storeRow_store]
  exact slot_setSlot _ _ _ _

theorem slot_decrement (st : Store) (e : Nat × Nat) (m : Nat) : (st.decrement e).slot m =
    if e.1 = m ∧ m < 16 then
      { st.slot e.1 with directory := (takeUse e.2 (st.slot e.1).directory).1 }
    else st.slot m :=
  slot_setSlot _ _ _ _

/-- R46: a row received leaves its slot OPEN or makes it FULL. -/
theorem received_ne_empty {x : Slot} (h : x.state = .opened) (d : List RowRecord) : (x.received d).state ≠ .empty := by
  simp only [Slot.received, h]
  split <;> simp

/-! ### Pages -/

/-- R37, R39, of STORE by itself: `State.pagesConserved` reads nothing else. -/
def Store.pagesConserved (st : Store) : Prop :=
  (st.freePages ++ st.heldPages).Perm allPages ∧ ∀ n, (st.slot n).state = .empty → (st.slot n).directory = []

theorem pagesConserved_iff (s : State) : s.pagesConserved ↔ s.store.pagesConserved := Iff.rfl

/-- A move that replaces one slot and keeps the pages conserves them. -/
theorem Store.pagesConserved.replace {st st' : Store} (hst : st.pagesConserved)
    (hpages : (st'.freePages ++ st'.heldPages).Perm (st.freePages ++ st.heldPages)) {n : Nat} {x : Slot}
    (hslots : ∀ m, st'.slot m = if n = m ∧ m < 16 then x else st.slot m)
    (hx : x.state = .empty → x.directory = []) : st'.pagesConserved := by
  refine ⟨hpages.trans hst.1, fun m => ?_⟩
  rw [hslots m]
  split
  · exact hx
  · exact hst.2 m

theorem cleared_pagesConserved (st : Store) : st.cleared.pagesConserved := by
  refine ⟨?_, fun n _ => ?_⟩
  · rw [heldPages_cleared, List.append_nil]
    exact List.Perm.refl _
  · rw [slot_cleared]
    rfl

theorem abortRelease_pagesConserved {st : Store} (hst : st.pagesConserved) : st.abortRelease.pagesConserved := by
  refine ⟨?_, fun n _ => ?_⟩
  · rw [abortRelease_pages]
    exact hst.1
  · rw [slot_abortRelease]

/-- R52: an EMPTY slot holds no page, so defining it moves none. -/
theorem defineSlot_pages {s : State} {n : Nat} (h : n < 16) (hempty : (s.store.slot n).directory = [])
    (width height : Nat) :
    ((s.defineSlot n width height).store.freePages ++ (s.defineSlot n width height).store.heldPages).Perm
      (s.store.freePages ++ s.store.heldPages) := by
  have hheld := heldPages_setSlot s.store n ⟨.opened, width, height, pagesPerRow width, 0, []⟩ h
  rw [hempty] at hheld
  exact ((List.perm_append_right_iff _).1 hheld).append_left _

theorem decrement_pagesConserved {st : Store} (hst : st.pagesConserved) (e : Nat × Nat) :
    (st.decrement e).pagesConserved := by
  refine hst.replace (decrement_pages e st) (slot_decrement st e) fun hempty => ?_
  show (takeUse e.2 (st.slot e.1).directory).1 = []
  rw [hst.2 e.1 hempty]
  rfl

theorem decrementAll_pagesConserved {st : Store} (hst : st.pagesConserved) (rows : List (Nat × Nat)) :
    (st.decrementAll rows).pagesConserved := by
  induction rows generalizing st with
  | nil => exact hst
  | cons e rows ih => exact ih (decrement_pagesConserved hst e)

/-- Each move of STORE conserves the pages. -/
theorem ImageMove.pagesConserved {s t : State} (h : ImageMove s t) (hs : s.store.pagesConserved) :
    t.store.pagesConserved := by
  cases h with
  | kept h => exact h.1 ▸ hs
  | cleared hstore _ _ => exact hstore ▸ cleared_pagesConserved s.store
  | defined n width height hcheck hstore _ _ =>
    obtain ⟨hn, hempty, -, -⟩ := checkSdef_eq_none.1 hcheck
    rw [hstore]
    exact hs.replace (defineSlot_pages hn (hs.2 n hempty) width height) (slot_defineSlot s n width height) fun _ => rfl
  | released n hcheck hstore _ _ =>
    rw [hstore]
    exact hs.replace (releaseSlot_pages n s (checkSrel_eq_none.1 hcheck).1) (slot_releaseSlot s n) fun _ => rfl
  | counted o length hcheck _ hstore _ _ =>
    obtain ⟨hn, hopen, -, -, -⟩ := checkRow_eq_none.1 hcheck
    rw [hstore]
    exact hs.replace (countRow_pages o s hn) (slot_countRow s o) fun he => absurd he (received_ne_empty hopen _)
  | stored o length tones hcheck _ hstore _ _ =>
    obtain ⟨hn, hopen, -, -, -⟩ := checkRow_eq_none.1 hcheck
    rw [hstore]
    exact hs.replace (storeRow_pages o _ tones s hn) (slot_storeRow s o _ tones)
      fun he => absurd he (received_ne_empty hopen _)
  | aborted hstore _ _ => exact hstore ▸ abortRelease_pagesConserved hs
  | completed rows hstore _ _ => exact hstore ▸ decrementAll_pagesConserved hs rows
  | windowSet n w _ hstore _ _ => exact hstore ▸ hs

/-- Settles O53: a step makes one move, and each move takes pages from the free-page list or the directories to the
other. -/
theorem everyStepConservesPages : Obligations.EveryStepConservesPages := fun _ _ hs h =>
  (step_moves h).pagesConserved hs

/-! ### The page memory -/

/-- Each move of STORE keeps the page memory, but the storing of a row, which writes its pages. -/
theorem ImageMove.memory {s t : State} (h : ImageMove s t) :
    t.store.memory = s.store.memory ∨ ∃ ps tones, t.store.memory = Memory.writeRow s.store.memory ps tones := by
  cases h with
  | kept h => exact .inl (by rw [h.1])
  | stored o length tones _ _ hstore _ _ => exact .inr ⟨_, tones, by rw [hstore, storeRow_store]⟩
  | completed rows hstore _ _ => exact .inl (by rw [hstore, decrementAll_memory])
  | cleared hstore _ _ | defined _ _ _ _ hstore _ _ | released _ _ hstore _ _ | counted _ _ _ _ hstore _ _
  | aborted hstore _ _ | windowSet _ _ _ hstore _ _ => exact .inl ((congrArg Store.memory hstore :))

/-- Settles O54: a row stored is the one write of the page memory, and it keeps the canonical form. -/
theorem everyStepKeepsMemoryCanonical : Obligations.EveryStepKeepsMemoryCanonical := by
  intro s t hs h
  rcases (step_moves h).memory with hmem | ⟨ps, tones, hmem⟩ <;> rw [hmem]
  · exact hs
  · exact Memory.writeRow_wf hs ps tones

end Sys2Proof.Machine
end

section
/-!
Slots and windows at every step: slots and directories stay sound, and the cutting windows stay disjoint (R39, R41,
R53, R73).
-/

namespace Sys2Proof.Machine

/-! ### A slot's record by itself -/

theorem Slot.sound_reset : Slot.reset.sound := by unfold Slot.sound; decide

theorem Slot.sound_defined {width height : Nat} (hw : 1 ≤ width) (hh : 1 ≤ height) (hmax : height ≤ 65535) :
    Slot.sound ⟨.opened, width, height, (width + 255) / 256, 0, []⟩ := by
  refine ⟨nofun, fun _ => ⟨hw, hh, hmax⟩, rfl, Nat.zero_le _, ⟨nofun, fun h => ?_⟩, .nil, nofun⟩
  obtain ⟨-, hfull⟩ := h
  exact absurd hfull (by simp; omega)

/-- R41: what each record of a slot's directory satisfies, below a row and with the slot's pages per row. -/
def RowRecord.sound (rows pages : Nat) (r : RowRecord) : Prop :=
  r.rowIndex < rows ∧ (1 ≤ r.useCount ∧ r.useCount ≤ 32) ∧ r.pages.length = pages

/-- R45 step 4, R46: one more row received by an OPEN slot that has room for it. -/
theorem Slot.sound.received {x : Slot} (hx : x.sound) (hopen : x.state = .opened) (hroom : x.rowsReceived < x.height)
    {d : List RowRecord} (hd : d.Pairwise fun a b => a.rowIndex < b.rowIndex)
    (hrecords : ∀ r ∈ d, r.sound (x.rowsReceived + 1) x.pagesPerRow) : (x.received d).sound := by
  obtain ⟨-, hsize, hpages, -, -, -, -⟩ := hx
  have hne := received_ne_empty hopen d
  refine ⟨fun he => absurd he hne, fun _ => hsize (by simp [hopen]), hpages, hroom, ?_, hd, hrecords⟩
  simp only [Slot.received, hopen]
  split <;> simp_all

/-- R46: a row counted and not stored leaves the directory. -/
theorem Slot.sound.counted {x : Slot} (hx : x.sound) (hopen : x.state = .opened) (hroom : x.rowsReceived < x.height) :
    (x.received x.directory).sound := by
  obtain ⟨-, -, -, -, -, hd, hrecords⟩ := id hx
  refine hx.received hopen hroom hd fun r hr => ?_
  obtain ⟨hrow, huse, hlen⟩ := hrecords r hr
  exact ⟨Nat.lt_succ_of_lt hrow, huse, hlen⟩

/-- R45: the record of a row stored joins the directory's end, above every row before it. -/
theorem Slot.sound.stored {x : Slot} (hx : x.sound) (hopen : x.state = .opened) (hroom : x.rowsReceived < x.height)
    {r : RowRecord} (hrow : r.rowIndex = x.rowsReceived) (huse : 1 ≤ r.useCount ∧ r.useCount ≤ 32)
    (hlen : r.pages.length = x.pagesPerRow) : (x.received (x.directory ++ [r])).sound := by
  obtain ⟨-, -, -, -, -, hd, hrecords⟩ := id hx
  refine hx.received hopen hroom ?_ fun q hq => ?_
  · refine List.pairwise_append.2 ⟨hd, List.pairwise_singleton _ _, fun q hq r' hr' => ?_⟩
    rw [List.mem_singleton.1 hr', hrow]
    exact (hrecords q hq).1
  · rcases List.mem_append.1 hq with hq | hq
    · obtain ⟨hrow', huse', hlen'⟩ := hrecords q hq
      exact ⟨Nat.lt_succ_of_lt hrow', huse', hlen'⟩
    · rw [List.mem_singleton.1 hq]
      exact ⟨by omega, huse, hlen⟩

/-- R54: a slot whose records are freed. -/
theorem Slot.sound.emptied {x : Slot} (hx : x.sound) : Slot.sound { x with directory := [] } := by
  obtain ⟨hempty, hsize, hpages, hrows, hfull, -, -⟩ := hx
  refine ⟨fun he => ?_, hsize, hpages, hrows, hfull, .nil, nofun⟩
  rw [hempty he]
  rfl

/-- R50, R51: the rows that a directory still records after a use is taken, in their order. -/
theorem takeUse_rows (row : Nat) (d : List RowRecord) :
    ((takeUse row d).1.map RowRecord.rowIndex).Sublist (d.map RowRecord.rowIndex) := by
  induction d with
  | nil => exact .slnil
  | cons r d ih =>
    unfold takeUse
    split
    · split
      · exact List.sublist_cons_self _ _
      · exact List.Sublist.refl _
    · exact ih.cons_cons _

/-- R50: a use taken keeps every record that stays sound. -/
theorem takeUse_records {rows pages row : Nat} {d : List RowRecord} (hd : ∀ r ∈ d, r.sound rows pages) :
    ∀ r ∈ (takeUse row d).1, r.sound rows pages := by
  induction d with
  | nil => nofun
  | cons r d ih =>
    obtain ⟨hr, hd⟩ := List.forall_mem_cons.1 hd
    unfold takeUse
    split
    · split
      · exact hd
      · obtain ⟨hrow, huse, hlen⟩ := hr
        exact List.forall_mem_cons.2 ⟨⟨hrow, by dsimp only; omega, hlen⟩, hd⟩
    · exact List.forall_mem_cons.2 ⟨hr, ih hd⟩

/-- R50, R51: a slot from whose directory a use is taken. -/
theorem Slot.sound.takeUse {x : Slot} (hx : x.sound) (row : Nat) :
    Slot.sound { x with directory := (takeUse row x.directory).1 } := by
  obtain ⟨hempty, hsize, hpages, hrows, hfull, hd, hrecords⟩ := hx
  refine ⟨fun he => ?_, hsize, hpages, hrows, hfull, ?_, takeUse_records hrecords⟩
  · rw [hempty he]
    rfl
  · exact List.pairwise_map.1 ((List.pairwise_map.2 hd).sublist (takeUse_rows row x.directory))

/-! ### The slots and the windows that name them -/

theorem useCount_le (s : State) (n r : Nat) : s.useCount n r ≤ 32 := by
  simpa [State.useCount] using List.countP_le_length (p := Window.uses n r) (l := s.place.toList)

theorem window_of_lt (s : State) {i : Nat} (h : i < 32) : s.window i = s.place[i] := by simp [State.window, h]

theorem window_of_ge (s : State) {i : Nat} (h : 32 ≤ i) : s.window i = Window.reset := by
  simp [State.window, Vector.getElem?_eq_none_iff.2 h]

theorem window_congr {s t : State} (hp : t.place = s.place) (i : Nat) : t.window i = s.window i := by
  simp only [State.window, hp]

theorem window_cleared {t : State} (hp : t.place = clearedPlace) (i : Nat) : t.window i = Window.reset := by
  simp only [State.window, hp]
  exact getD_replicate 32 i Window.reset

/-- R53: an enabled IMAGE window that names a slot stands in the table SREL looks through. -/
theorem source_ne_of_not_named {s : State} {n i : Nat} (h : s.slotNamed n = false)
    (hi : (s.window i).isImage = true) : (s.window i).source ≠ n := by
  intro hsource
  by_cases hlt : i < 32
  · refine absurd ((slotNamed_iff s n).2 ⟨s.window i, ?_, hi, hsource⟩) (by simp [h])
    rw [window_of_lt s hlt]
    simp
  · rw [window_of_ge s (by omega)] at hi
    cases hi

theorem slotsSound_congr {s t : State} (hs : s.slotsSound) (hstore : t.store = s.store) (hp : t.place = s.place)
    (hh : t.run.header = s.run.header) : t.slotsSound := by
  simpa only [State.slotsSound, State.window, hstore, hp, hh] using hs

/-- A move that replaces one slot by a sound one, not EMPTY where a window names it. -/
theorem State.slotsSound.replace {s t : State} (hs : s.slotsSound) {st : Store} (hstore : t.store = st)
    (hp : t.place = s.place) (hh : t.run.header = s.run.header) {n : Nat} {x : Slot}
    (hslots : ∀ m, st.slot m = if n = m ∧ m < 16 then x else s.store.slot m)
    (hx : x.sound) (hwidth : x.width ≤ s.run.header.cellsPerRev)
    (hnamed : x.state = .empty → ∀ i, (s.window i).isImage = true → (s.window i).source ≠ n) : t.slotsSound := by
  obtain ⟨hsound, hsource⟩ := hs
  subst hstore
  refine ⟨fun m => ?_, fun i hi => ?_⟩
  · rw [hslots, hh]
    split
    · exact ⟨hx, hwidth⟩
    · exact hsound m
  · rw [window_congr hp] at hi ⊢
    obtain ⟨hlt, hne⟩ := hsource i hi
    refine ⟨hlt, ?_⟩
    rw [hslots]
    split
    · next hn => exact fun he => hnamed he i hi hn.1.symm
    · exact hne

theorem cleared_slotsSound {s t : State} (hstore : t.store = s.store.cleared) (hp : t.place = clearedPlace) :
    t.slotsSound := by
  refine ⟨fun n => ?_, fun i hi => ?_⟩
  · rw [hstore, slot_cleared]
    exact ⟨Slot.sound_reset, Nat.zero_le _⟩
  · rw [window_cleared hp] at hi
    cases hi

theorem abortRelease_slotsSound {s t : State} (hs : s.slotsSound) (hstore : t.store = s.store.abortRelease)
    (hp : t.place = s.place) (hh : t.run.header = s.run.header) : t.slotsSound := by
  obtain ⟨hsound, hsource⟩ := hs
  refine ⟨fun n => ?_, fun i hi => ?_⟩
  · rw [hstore, slot_abortRelease, hh]
    exact ⟨(hsound n).1.emptied, (hsound n).2⟩
  · rw [window_congr hp] at hi ⊢
    rw [hstore, slot_abortRelease]
    exact hsource i hi

/-- R50: the decrements of a completion, one after the other. -/
theorem decrementAll_slotsSound {s : State} (hs : s.slotsSound) (rows : List (Nat × Nat)) :
    State.slotsSound { s with store := s.store.decrementAll rows } := by
  induction rows generalizing s with
  | nil => exact hs
  | cons e rows ih =>
    refine ih (s := { s with store := s.store.decrement e }) ?_
    obtain ⟨hslot, hwidth⟩ := hs.1 e.1
    refine hs.replace rfl rfl rfl (slot_decrement s.store e) (hslot.takeUse e.2) hwidth fun he i hi hsource => ?_
    exact (hs.2 i hi).2 (hsource ▸ he)

/-! ### What WSET's checks leave -/

theorem checkWset_eq_none {s : State} {n : Nat} {w : Window} : s.checkWset n w = none ↔
    (n < 32 ∧ w.fieldsInRange s.run.header.cellsPerRev = true) ∧
      (w.enabled = true → w.inUsedBands s.run.header = true) ∧
      (s.standsInWay (s.window n) = false ∧ s.standsInWay w = false) ∧
      (w.enabled = true → s.sourceReady w = true) ∧ (w.enabled = true → s.insideImage w = true) ∧
      (w.enabled = true → s.conflicts n w = false) := by
  simp only [State.checkWset, check_eq_none]
  simp only [Config.windowCount, not_or, not_le, Bool.and_eq_true, Bool.or_eq_true, Bool.not_eq_true', not_and,
    Bool.not_eq_true, Bool.not_eq_false, and_true]

theorem isImage_iff (w : Window) : w.isImage = true ↔ w.enabled = true ∧ w.kind = .image := by simp [Window.isImage]

theorem cuts_iff (w : Window) : w.cuts = true ↔ w.enabled = true ∧ w.kind ≠ .keepout := by simp [Window.cuts]

theorem window_setIfInBounds {s t : State} {n : Nat} {w : Window} (hp : t.place = s.place.setIfInBounds n w)
    (i : Nat) : t.window i = if n = i ∧ i < 32 then w else s.window i := by
  simp only [State.window, hp, Vector.getElem?_setIfInBounds]
  split
  · next h => subst h; split <;> simp_all
  · next h => simp [h]

/-- R68, R71: an enabled IMAGE window stored names a defined slot. -/
theorem windowSet_slotsSound {s t : State} {n : Nat} {w : Window} (hs : s.slotsSound) (hcheck : s.checkWset n w = none)
    (hstore : t.store = s.store) (hp : t.place = s.place.setIfInBounds n w) (hh : t.run.header = s.run.header) :
    t.slotsSound := by
  obtain ⟨hsound, hsource⟩ := hs
  refine ⟨fun m => hstore ▸ hh ▸ hsound m, fun i hi => ?_⟩
  rw [window_setIfInBounds hp] at hi ⊢
  rw [hstore]
  by_cases hn : n = i ∧ i < 32
  · rw [if_pos hn] at hi ⊢
    obtain ⟨⟨-, hfields⟩, -, -, hready, -, -⟩ := checkWset_eq_none.1 hcheck
    obtain ⟨hen, hkind⟩ := (isImage_iff w).1 hi
    have hready := hready hen
    simp only [Window.fieldsInRange, hkind, Bool.and_eq_true, decide_eq_true_eq] at hfields
    simp only [State.sourceReady, hkind, Bool.and_eq_true, bne_iff_ne, ne_eq] at hready
    obtain ⟨-, hlt, -⟩ := hfields
    exact ⟨hlt, hready.1⟩
  · rw [if_neg hn] at hi ⊢
    exact hsource i hi

/-- Each move keeps slots and directories sound, and the windows on defined slots. -/
theorem ImageMove.slotsSound {s t : State} (h : ImageMove s t) (hs : s.slotsSound) : t.slotsSound := by
  cases h with
  | kept h =>
    obtain ⟨hstore, hp, hh⟩ := h
    exact slotsSound_congr hs hstore hp hh
  | cleared hstore hp _ => exact cleared_slotsSound hstore hp
  | defined n width height hcheck hstore hp hh =>
    obtain ⟨-, -, ⟨hw, hN⟩, hheight, hmax⟩ := checkSdef_eq_none.1 hcheck
    exact hs.replace hstore hp hh (slot_defineSlot s n width height) (Slot.sound_defined hw hheight hmax) hN nofun
  | released n hcheck hstore hp hh =>
    exact hs.replace hstore hp hh (slot_releaseSlot s n) Slot.sound_reset (Nat.zero_le _)
      fun _ i hi => source_ne_of_not_named (checkSrel_eq_none.1 hcheck).2 hi
  | counted o length hcheck _ hstore hp hh =>
    obtain ⟨-, hopen, ⟨hrow, -, -⟩, hnext, -⟩ := checkRow_eq_none.1 hcheck
    obtain ⟨hslot, hwidth⟩ := hs.1 o.slot
    exact hs.replace hstore hp hh (slot_countRow s o) (hslot.counted hopen (hnext ▸ hrow)) hwidth
      fun he => absurd he (received_ne_empty hopen _)
  | stored o length tones hcheck hu hstore hp hh =>
    obtain ⟨-, hopen, ⟨hrow, -, -⟩, hnext, hroom⟩ := checkRow_eq_none.1 hcheck
    obtain ⟨hslot, hwidth⟩ := hs.1 o.slot
    have hrecord := hslot.stored hopen (hnext ▸ hrow) (r := s.newRecord o (s.useCount o.slot o.row)) hnext
      ⟨Nat.one_le_iff_ne_zero.2 hu, useCount_le s o.slot o.row⟩ (List.length_take_of_le (hroom hu))
    exact hs.replace hstore hp hh (slot_storeRow s o _ tones) hrecord hwidth
      fun he => absurd he (received_ne_empty hopen _)
  | aborted hstore hp hh => exact abortRelease_slotsSound hs hstore hp hh
  | completed rows hstore hp hh => exact slotsSound_congr (decrementAll_slotsSound hs rows) hstore hp hh
  | windowSet n w hcheck hstore hp hh => exact windowSet_slotsSound hs hcheck hstore hp hh

/-! ### Windows that share a cell -/

/-- R73: a cell below N that a window covers lies in a run of its around range. -/
theorem exists_run_of_coversCell {w : Window} {n c : Nat} (hc : c < n) (h : w.coversCell c = true) :
    ∃ r ∈ w.runs n, r.1 ≤ c ∧ c ≤ r.2 := by
  by_cases hwraps : w.wraps = true
  · simp only [Window.coversCell, hwraps, if_true, Bool.or_eq_true, decide_eq_true_eq] at h
    simp only [Window.runs, hwraps, if_true]
    rcases h with h | h
    · exact ⟨(w.firstCell, n - 1), by simp, h, Nat.le_sub_one_of_lt hc⟩
    · exact ⟨(0, w.lastCell), by simp, Nat.zero_le c, h⟩
  · simp only [Window.coversCell, hwraps, Bool.false_eq_true, if_false, Bool.and_eq_true, decide_eq_true_eq] at h
    simp only [Window.runs, hwraps, Bool.false_eq_true, if_false]
    exact ⟨(w.firstCell, w.lastCell), by simp, h⟩

/-- R73: two windows that cover a cell in common overlap. -/
theorem overlaps_of_covers {a b : Window} {n g c : Nat} (hc : c < n) (ha : a.covers g c = true)
    (hb : b.covers g c = true) : a.overlaps n b = true := by
  simp only [Window.covers, Window.coversTrack, Bool.and_eq_true, decide_eq_true_eq] at ha hb
  obtain ⟨⟨ha1, ha2⟩, hac⟩ := ha
  obtain ⟨⟨hb1, hb2⟩, hbc⟩ := hb
  obtain ⟨x, hx, hx1, hx2⟩ := exists_run_of_coversCell hc hac
  obtain ⟨y, hy, hy1, hy2⟩ := exists_run_of_coversCell hc hbc
  simp only [Window.overlaps, runsMeet, Bool.and_eq_true, List.any_eq_true, decide_eq_true_eq]
  exact ⟨⟨by omega, by omega⟩, x, hx, y, hy, by omega, by omega⟩

/-- R73: a cutting window without a conflict shares no cell with another cutting window of the table. -/
theorem covers_false_of_not_conflicts {s : State} {n j g c : Nat} {w : Window} (hcut : w.cuts = true)
    (hconflict : w.enabled = true → s.conflicts n w = false) (hj : j ≠ n) (hjcut : (s.window j).cuts = true)
    (hc : c < s.run.header.cellsPerRev) (hw : w.covers g c = true) : (s.window j).covers g c = false := by
  by_contra hcov
  rw [Bool.not_eq_false] at hcov
  obtain ⟨hen, hkind⟩ := (cuts_iff w).1 hcut
  have hlt : j < 32 := by
    by_contra hge
    rw [window_of_ge s (by omega)] at hjcut
    cases hjcut
  have hmem : s.window j ∈ s.place.toList.eraseIdx n :=
    List.mem_eraseIdx_iff_getElem?.2 ⟨j, hj, by simp [window_of_lt s hlt, hlt]⟩
  refine absurd (hconflict hen) (Bool.not_eq_false _ ▸ ?_)
  simp only [State.conflicts, Bool.and_eq_true, bne_iff_ne, List.any_eq_true]
  exact ⟨hkind, _, hmem, hjcut, overlaps_of_covers hc hw hcov⟩

theorem windowsDisjoint_congr {s t : State} (hs : s.windowsDisjoint) (hp : t.place = s.place)
    (hh : t.run.header = s.run.header) : t.windowsDisjoint := by
  simpa only [State.windowsDisjoint, State.window, hp, hh] using hs

theorem cleared_windowsDisjoint {t : State} (hp : t.place = clearedPlace) (hN : 512 ≤ t.run.header.cellsPerRev) :
    t.windowsDisjoint := by
  refine ⟨fun i => ?_, fun i j g c _ hi => ?_⟩
  · rw [window_cleared hp]
    exact ⟨Nat.lt_of_lt_of_le (by decide) hN, Nat.lt_of_lt_of_le (by decide) hN⟩
  · rw [window_cleared hp] at hi
    cases hi

/-- R68, R73: the window that WSET stores lies inside the revolution and apart from the others. -/
theorem windowSet_windowsDisjoint {s t : State} {n : Nat} {w : Window} (hs : s.windowsDisjoint)
    (hcheck : s.checkWset n w = none) (hp : t.place = s.place.setIfInBounds n w)
    (hh : t.run.header = s.run.header) : t.windowsDisjoint := by
  obtain ⟨hcells, hdisjoint⟩ := hs
  obtain ⟨⟨-, hfields⟩, -, -, -, -, hconflict⟩ := checkWset_eq_none.1 hcheck
  simp only [Window.fieldsInRange, Bool.and_eq_true, decide_eq_true_eq] at hfields
  obtain ⟨⟨⟨hfirst, hlast⟩, -⟩, -⟩ := hfields
  refine ⟨fun i => ?_, fun i j g c hij hi hj hc hcov => ?_⟩
  · rw [window_setIfInBounds hp, hh]
    split
    · exact ⟨hfirst, hlast⟩
    · exact hcells i
  · rw [window_setIfInBounds hp] at hi hj hcov ⊢
    rw [hh] at hc
    split at hi <;> split at hj
    · next h1 h2 => exact absurd (h1.1.symm.trans h2.1) hij
    · next h1 h2 =>
      rw [if_pos h1] at hcov
      rw [if_neg h2]
      exact covers_false_of_not_conflicts hi hconflict (fun e => hij (h1.1.symm.trans e.symm)) hj hc hcov
    · next h1 h2 =>
      rw [if_neg h1] at hcov
      rw [if_pos h2]
      by_contra hw
      rw [Bool.not_eq_false] at hw
      have hfalse := covers_false_of_not_conflicts hj hconflict (fun e => hij (e.trans h2.1)) hi hc hw
      rw [hcov] at hfalse
      cases hfalse
    · next h1 h2 =>
      rw [if_neg h1] at hcov
      rw [if_neg h2]
      exact hdisjoint i j g c hij hi hj hc hcov

/-- Each move keeps the windows inside the revolution and the cutting windows disjoint: WSET alone writes one. -/
theorem ImageMove.windowsDisjoint {s t : State} (h : ImageMove s t) (hs : s.windowsDisjoint) : t.windowsDisjoint := by
  cases h with
  | kept h =>
    obtain ⟨-, hp, hh⟩ := h
    exact windowsDisjoint_congr hs hp hh
  | cleared _ hp hh => exact cleared_windowsDisjoint hp hh.1
  | windowSet n w hcheck _ hp hh => exact windowSet_windowsDisjoint hs hcheck hp hh
  | defined _ _ _ _ _ hp hh | released _ _ _ hp hh | counted _ _ _ _ _ hp hh | stored _ _ _ _ _ _ hp hh
  | aborted _ hp hh | completed _ _ hp hh => exact windowsDisjoint_congr hs hp hh

/-- Settles O58: the one move of a step, for the slots and for the windows. -/
theorem everyStepKeepsSlotsAndWindowsSound : Obligations.EveryStepKeepsSlotsAndWindowsSound :=
  fun _ _ hslots hwindows h => ⟨(step_moves h).slotsSound hslots, (step_moves h).windowsDisjoint hwindows⟩

end Sys2Proof.Machine
end

section
/-!
The requests to STORE and the ROW frame: SDEF, SREL, use counts, and a row counted, stored or refused (R38,
R42 to R48, R52, R53).
-/

namespace Sys2Proof.Machine

/-! ### SDEF and SREL -/

/-- R10, R17: a request of PLACE that is accepted in PREPARED comes to its owner there. -/
theorem serve_prepared {s : State} {l : Link} {tag : Byte} {c : ReqCode} {ops : List Word} {rest : List InFrame}
    (ho : s.offers l (requestFrame tag c ops) rest) (hheld : s.holdsZone l .place = true)
    (hj : s.run.jobState = .prepared) (hz : c.zone = some .place) (ha : c.acceptedIn .prepared = true)
    (hf : c.fixedPart (ops.length + 1) = true) (owner : List Word → State → Answer) :
    let a := owner (c.word :: ops) (s.taken l rest)
    serve c l owner s = .next (a.state.queueReply l
      (requestReply tag c a.cc (if a.cc = .accepted then a.returned else []))) :=
  serve_accepted s l ho ((zonePasses_of_zone hz).trans hheld) (lockPasses_offCopper (by rw [hj]; rfl) c) (hj ▸ ha) hf
    owner

/-- A change of STORE made while a frame is handled, and the frame answered. -/
theorem queueReply_taken_store (s : State) (l : Link) (rest : List InFrame) (st : Store) (r : Reply) :
    ({ s.taken l rest with store := st }).queueReply l r = ({ s with store := st }).answered l rest r := by
  cases l <;> rfl

section
variable {s : State} {l : Link} {tag : Byte} {w1 w2 : Word} {rest : List InFrame}

theorem taken_checkSdef (s : State) (l : Link) (rest : List InFrame) (n width height : Nat) :
    (s.taken l rest).checkSdef n width height = s.checkSdef n width height := by
  simp only [State.checkSdef, taken_store, taken_run]

theorem taken_checkSrel (s : State) (l : Link) (rest : List InFrame) (n : Nat) :
    (s.taken l rest).checkSrel n = s.checkSrel n := by cases l <;> rfl

/-- R52: SDEF in PREPARED, refused by a check of STORE. -/
theorem exec_sdef_refused (ho : s.offers l (requestFrame tag .sdef [w1, w2]) rest) (hheld : s.holdsZone l .place = true)
    (hj : s.run.jobState = .prepared) {cc : CC}
    (hcc : s.checkSdef w1.toNat (bits w2 31 16) (bits w2 15 0) = some cc) :
    exec (.sdef l) s = .next (s.answered l rest (requestReply tag .sdef cc [])) := by
  have howner : ownSdef [ReqCode.sdef.word, w1, w2] (s.taken l rest) = (s.taken l rest).refuse cc := by
    simp only [ownSdef, taken_checkSdef]
    exact hcc ▸ rfl
  refine (serve_prepared ho hheld hj rfl rfl rfl ownSdef).trans ?_
  rw [howner]
  exact congrArg _ (queueReply_refuse s l rest tag .sdef cc)

/-- R52: SDEF in PREPARED, accepted. -/
theorem exec_sdef_accepted (ho : s.offers l (requestFrame tag .sdef [w1, w2]) rest)
    (hheld : s.holdsZone l .place = true) (hj : s.run.jobState = .prepared)
    (hcc : s.checkSdef w1.toNat (bits w2 31 16) (bits w2 15 0) = none) :
    exec (.sdef l) s = .next ((s.defineSlot w1.toNat (bits w2 31 16) (bits w2 15 0)).answered l rest
      (requestReply tag .sdef .accepted [])) := by
  have howner : ownSdef [ReqCode.sdef.word, w1, w2] (s.taken l rest) =
      ((s.taken l rest).defineSlot w1.toNat (bits w2 31 16) (bits w2 15 0)).accept := by
    simp only [ownSdef, taken_checkSdef]
    exact hcc ▸ rfl
  refine (serve_prepared ho hheld hj rfl rfl rfl ownSdef).trans ?_
  rw [howner]
  simp only [State.defineSlot, taken_store]
  exact congrArg _ (queueReply_taken_store s l rest _ _)

/-- R53: SREL in PREPARED, refused by a check of STORE. -/
theorem exec_srel_refused (ho : s.offers l (requestFrame tag .srel [w1]) rest) (hheld : s.holdsZone l .place = true)
    (hj : s.run.jobState = .prepared) {cc : CC} (hcc : s.checkSrel w1.toNat = some cc) :
    exec (.srel l) s = .next (s.answered l rest (requestReply tag .srel cc [])) := by
  have howner : ownSrel [ReqCode.srel.word, w1] (s.taken l rest) = (s.taken l rest).refuse cc := by
    simp only [ownSrel, taken_checkSrel]
    exact hcc ▸ rfl
  refine (serve_prepared ho hheld hj rfl rfl rfl ownSrel).trans ?_
  rw [howner]
  exact congrArg _ (queueReply_refuse s l rest tag .srel cc)

/-- R53: SREL in PREPARED, accepted. -/
theorem exec_srel_accepted (ho : s.offers l (requestFrame tag .srel [w1]) rest) (hheld : s.holdsZone l .place = true)
    (hj : s.run.jobState = .prepared) (hcc : s.checkSrel w1.toNat = none) :
    exec (.srel l) s = .next ((s.releaseSlot w1.toNat).answered l rest (requestReply tag .srel .accepted [])) := by
  have howner : ownSrel [ReqCode.srel.word, w1] (s.taken l rest) =
      ((s.taken l rest).releaseSlot w1.toNat).accept := by
    simp only [ownSrel, taken_checkSrel]
    exact hcc ▸ rfl
  refine (serve_prepared ho hheld hj rfl rfl rfl ownSrel).trans ?_
  rw [howner]
  simp only [State.releaseSlot, taken_store]
  exact congrArg _ (queueReply_taken_store s l rest _ _)

end

/-- R53: the statement's form of the window that keeps a slot from its release. -/
theorem slotNamed_iff_exists (s : State) (n : Nat) : s.slotNamed n = true ↔
    ∃ w ∈ s.place.toList, w.firstTrack ≤ w.lastTrack ∧ w.kind = .image ∧ w.source = n := by
  simp only [slotNamed_iff, isImage_iff, Window.enabled, decide_eq_true_eq, and_assoc]

/-- Settles O29: each check in its order by what the ones before it leave; then the slot defined or released. -/
theorem sdefAndSrelActOnTheirSlot : Obligations.SdefAndSrelActOnTheirSlot := by
  intro s l tag w1 w2 rest hheld hj n width height
  refine ⟨fun ho => ?_, fun ho => ?_⟩
  · have hmax : height ≤ 65535 := Nat.le_of_lt_succ (Nat.mod_lt _ (by decide))
    split_ifs with hn hstate hsize
    · exact exec_sdef_refused ho hheld hj (if_pos hn)
    · exact exec_sdef_refused ho hheld hj ((if_neg hn).trans (if_pos hstate))
    · refine exec_sdef_refused ho hheld hj ((if_neg hn).trans ((if_neg hstate).trans (if_pos ?_)))
      show width < 1 ∨ _ < width ∨ height < 1 ∨ 65535 < height
      omega
    · exact exec_sdef_accepted ho hheld hj
        (checkSdef_eq_none.2 ⟨Nat.lt_of_not_le hn, not_not.1 hstate, by omega, by omega, hmax⟩)
  · split_ifs with hn hnamed
    · exact exec_srel_refused ho hheld hj (if_pos hn)
    · exact exec_srel_refused ho hheld hj ((if_neg hn).trans (if_pos ((slotNamed_iff_exists s n).2 hnamed)))
    · rw [← slotNamed_iff_exists, Bool.not_eq_true] at hnamed
      exact exec_srel_accepted ho hheld hj (checkSrel_eq_none.2 ⟨Nat.lt_of_not_le hn, hnamed⟩)

/-! ### Use counts -/

/-- R42: the windows that give a row a use, as conditions on their fields. -/
theorem uses_eq (n r : Nat) (w : Window) : w.uses n r =
    decide (w.firstTrack ≤ w.lastTrack ∧ w.kind = .image ∧ w.source = n ∧ w.rowOffset ≤ r ∧
      w.firstTrack + (r - w.rowOffset) ≤ w.lastTrack) := by
  rw [Bool.eq_iff_iff]
  simp only [Window.uses, Bool.and_eq_true, isImage_iff, Window.enabled, beq_iff_eq, decide_eq_true_eq, and_assoc]

/-- Settles O30: the count is the model's, the bound the table's size, the track by arithmetic on the row read. -/
theorem useCountCountsTheWindowsThatReadTheRow : Obligations.UseCountCountsTheWindowsThatReadTheRow := by
  intro s n r
  refine ⟨List.countP_congr fun w _ => by rw [uses_eq], useCount_le s n r, fun w g hg => ?_⟩
  simp only [Window.coversTrack, Bool.and_eq_true, decide_eq_true_eq] at hg
  simp only [Window.rowAt]
  omega

/-! ### A ROW -/

/-- R48: the reply to a ROW by its three values. -/
def rowAnswer (tag : Byte) (cc : CC) (free u rows : Nat) : Reply :=
  ⟨.row, tag, 0, cc, [put 31 0 free, put 31 0 u, put 31 0 rows]⟩

theorem rowReply_eq (s : State) (tag : Byte) (w0 w1 : Word) (data : List Word) (cc : CC) (u : Nat) :
    s.rowReply ⟨.row, tag, w0 :: w1 :: data⟩ cc u = rowAnswer tag cc s.store.freePages.length u
      (if bits w0 31 24 < 16 then (s.store.slot (bits w0 31 24)).rowsReceived else 0) := rfl

/-- R160: a ROW whose link holds Z-PLACE in an open job comes to STORE with its fixed words. -/
theorem execRow_of_offers {s : State} {l : Link} {tag : Byte} {w0 w1 : Word} {data : List Word} {rest : List InFrame}
    (ho : s.offers l ⟨.row, tag, w0 :: w1 :: data⟩ rest) (hheld : s.holdsZone l .place = true)
    (hj : s.run.jobState.isOpen = true) :
    let r := (s.taken l rest).takeRow (w0 :: w1 :: data)
    exec (.row l) s = .next (r.2.2.queueReply l (r.2.2.rowReply ⟨.row, tag, w0 :: w1 :: data⟩ r.1 r.2.1)) := by
  have hd : s.dispatchFrame l (2 ≤ (w0 :: w1 :: data).length) = none := by simp [State.dispatchFrame, hheld, hj]
  show execRow l s = _
  simp only [execRow, settleStep, takeFrame_of_offers s l (sort := InFrame.isRow) ho rfl, taken_dispatchFrame, hd,
    Option.getD_some]

section
variable {s : State} {p : List Word} {o : RowOperands}

/-- R44: a ROW that a check refuses changes nothing; ROOM alone gives its use count. -/
theorem takeRow_refused (hp : RowOperands.ofWords p = o) {cc : CC}
    (h : s.checkRow o p.length (s.useCount o.slot o.row) = some cc) :
    s.takeRow p = (cc, if cc = .room then s.useCount o.slot o.row else 0, s) := by
  simp only [State.takeRow, hp, h]
  cases cc <;> rfl

/-- R46: a ROW with use count 0 that passes the checks is counted. -/
theorem takeRow_counted (hp : RowOperands.ofWords p = o) (hu : s.useCount o.slot o.row = 0)
    (h : s.checkRow o p.length 0 = none) : s.takeRow p = (.accepted, 0, s.countRow o) := by
  simp only [State.takeRow, hp, hu, h, if_true]

/-- R45: a ROW with uses that passes the checks is stored. -/
theorem takeRow_stored (hp : RowOperands.ofWords p = o) (hu : s.useCount o.slot o.row ≠ 0)
    (h : s.checkRow o p.length (s.useCount o.slot o.row) = none) :
    s.takeRow p = (.accepted, s.useCount o.slot o.row,
      s.storeRow o (s.useCount o.slot o.row) (readTones o.toneCount (p.drop 2))) := by
  simp only [State.takeRow, hp, h, if_neg hu]

end

/-- R38: an allocation that brings the free count below 2,048 raises STORELOW. -/
theorem allocate_of_low {s : State} {k : Nat}
    (h : 2048 ≤ s.store.freePages.length ∧ s.store.freePages.length - k < 2048) :
    s.allocate k = State.raise .storelow
      { s with store := { s.store with freePages := s.store.freePages.drop k } } := by
  refine if_pos ?_
  show 2048 ≤ s.store.freePages.length ∧ (s.store.freePages.drop k).length < 2048
  rw [List.length_drop]
  exact h

theorem allocate_of_not_low {s : State} {k : Nat}
    (h : ¬ (2048 ≤ s.store.freePages.length ∧ s.store.freePages.length - k < 2048)) :
    s.allocate k = { s with store := { s.store with freePages := s.store.freePages.drop k } } := by
  refine if_neg ?_
  show ¬ (2048 ≤ s.store.freePages.length ∧ (s.store.freePages.drop k).length < 2048)
  rw [List.length_drop]
  exact h

/-- R45, R38: a row stored is a change of STORE, and STORELOW raised where the free count falls below 2,048. -/
theorem storeRow_eq (s : State) (o : RowOperands) (u : Nat) (tones : List Byte) : s.storeRow o u tones =
    if 2048 ≤ s.store.freePages.length ∧
        s.store.freePages.length - (s.store.slot o.slot).pagesPerRow < 2048 then
      State.raise .storelow { s with store := (s.storeRow o u tones).store }
    else { s with store := (s.storeRow o u tones).store } := by
  have hallocate : s.storeRow o u tones =
      { s.allocate (s.store.slot o.slot).pagesPerRow with store := (s.storeRow o u tones).store } := rfl
  generalize (s.storeRow o u tones).store = st at hallocate ⊢
  rw [hallocate]
  split
  · next hlow =>
    rw [allocate_of_low hlow]
    rfl
  · next hlow => rw [allocate_of_not_low hlow]

section
variable {s : State} {l : Link} {tag : Byte} {w0 w1 : Word} {data : List Word} {rest : List InFrame}

theorem taken_checkRow (s : State) (l : Link) (rest : List InFrame) (o : RowOperands) (length u : Nat) :
    (s.taken l rest).checkRow o length u = s.checkRow o length u := by
  simp only [State.checkRow, taken_store]

theorem taken_useCount (s : State) (l : Link) (rest : List InFrame) (n r : Nat) :
    (s.taken l rest).useCount n r = s.useCount n r := by
  simp only [State.useCount, taken_place]

/-- R44, R48: a ROW refused by a check of STORE. -/
theorem exec_row_refused (ho : s.offers l ⟨.row, tag, w0 :: w1 :: data⟩ rest) (hheld : s.holdsZone l .place = true)
    (hj : s.run.jobState.isOpen = true) {cc : CC}
    (hcc : s.checkRow ⟨bits w0 31 24, bits w0 15 0, bits w1 15 0⟩ (data.length + 2)
      (s.useCount (bits w0 31 24) (bits w1 15 0)) = some cc) :
    exec (.row l) s = .next (s.answered l rest (rowAnswer tag cc s.store.freePages.length
      (if cc = .room then s.useCount (bits w0 31 24) (bits w1 15 0) else 0)
      (if bits w0 31 24 < 16 then (s.store.slot (bits w0 31 24)).rowsReceived else 0))) := by
  refine (execRow_of_offers ho hheld hj).trans ?_
  rw [takeRow_refused rfl (cc := cc) (by rw [taken_checkRow, taken_useCount]; exact hcc), taken_useCount]
  simp only [rowReply_eq, taken_store]
  exact congrArg _ (queueReply_taken s l rest _)

/-- R46, R48: a ROW without uses, counted. -/
theorem exec_row_counted (ho : s.offers l ⟨.row, tag, w0 :: w1 :: data⟩ rest) (hheld : s.holdsZone l .place = true)
    (hj : s.run.jobState.isOpen = true) (hu : s.useCount (bits w0 31 24) (bits w1 15 0) = 0)
    (hcc : s.checkRow ⟨bits w0 31 24, bits w0 15 0, bits w1 15 0⟩ (data.length + 2) 0 = none) :
    exec (.row l) s = .next ((s.countRow ⟨bits w0 31 24, bits w0 15 0, bits w1 15 0⟩).answered l rest
      (rowAnswer tag .accepted s.store.freePages.length 0 ((s.store.slot (bits w0 31 24)).rowsReceived + 1))) := by
  have hn : bits w0 31 24 < 16 := (checkRow_eq_none.1 hcc).1
  refine (execRow_of_offers ho hheld hj).trans ?_
  rw [takeRow_counted rfl (by rw [taken_useCount]; exact hu) (by rw [taken_checkRow]; exact hcc)]
  simp only [rowReply_eq, slot_countRow]
  rw [if_pos hn, if_pos ⟨rfl, hn⟩]
  simp only [State.countRow, taken_store]
  exact congrArg _ (queueReply_taken_store s l rest _ _)

/-- R45, R48: a ROW with uses, stored. -/
theorem exec_row_stored (ho : s.offers l ⟨.row, tag, w0 :: w1 :: data⟩ rest) (hheld : s.holdsZone l .place = true)
    (hj : s.run.jobState.isOpen = true) (hu : s.useCount (bits w0 31 24) (bits w1 15 0) ≠ 0)
    (hcc : s.checkRow ⟨bits w0 31 24, bits w0 15 0, bits w1 15 0⟩ (data.length + 2)
      (s.useCount (bits w0 31 24) (bits w1 15 0)) = none) :
    exec (.row l) s = .next (((s.taken l rest).storeRow ⟨bits w0 31 24, bits w0 15 0, bits w1 15 0⟩
        (s.useCount (bits w0 31 24) (bits w1 15 0)) (readTones (bits w0 15 0) data)).queueReply l
      (rowAnswer tag .accepted (s.store.freePages.length - (s.store.slot (bits w0 31 24)).pagesPerRow)
        (s.useCount (bits w0 31 24) (bits w1 15 0)) ((s.store.slot (bits w0 31 24)).rowsReceived + 1))) := by
  have hn : bits w0 31 24 < 16 := (checkRow_eq_none.1 hcc).1
  refine (execRow_of_offers ho hheld hj).trans ?_
  rw [takeRow_stored rfl (by rw [taken_useCount]; exact hu) (by rw [taken_checkRow, taken_useCount]; exact hcc),
    taken_useCount]
  simp only [rowReply_eq, slot_storeRow]
  rw [if_pos hn, if_pos ⟨rfl, hn⟩, storeRow_store]
  simp only [List.length_drop, taken_store]
  rfl

end

/-- Settles O31: each check in its order by what the ones before it leave; then the row counted or stored. -/
theorem rowIsStoredCountedOrRefused : Obligations.RowIsStoredCountedOrRefused := by
  intro s l tag w0 w1 data rest ho hheld hj n count r x u free reply next pages s1 s2 s3
  have hrefused : ∀ {cc}, s.checkRow ⟨n, count, r⟩ (data.length + 2) u = some cc →
      exec (.row l) s = .next (s.answered l rest (reply cc free (if cc = .room then u else 0)
        (if n < 16 then x.rowsReceived else 0))) := exec_row_refused ho hheld hj
  split_ifs with hn hstate hshape hrow hroom hu
  · rw [hrefused (if_pos hn), if_neg (Nat.not_lt.2 hn)]
    rfl
  all_goals have hlt : n < 16 := Nat.lt_of_not_le hn
  · rw [hrefused ((if_neg hn).trans (if_pos hstate)), if_pos hlt]
    rfl
  · rw [hrefused ((if_neg hn).trans ((if_neg hstate).trans (if_pos ?_))), if_pos hlt]
    · rfl
    · show x.height ≤ r ∨ count ≠ x.width ∨ data.length + 2 ≠ 2 + (count + 3) / 4
      omega
  all_goals
    have hshape' : ¬ (x.height ≤ r ∨ count ≠ x.width ∨ data.length + 2 ≠ 2 + (count + 3) / 4) := by omega
  · rw [hrefused ((if_neg hn).trans ((if_neg hstate).trans ((if_neg hshape').trans (if_pos hrow)))), if_pos hlt]
    rfl
  · rw [hrefused ((if_neg hn).trans ((if_neg hstate).trans ((if_neg hshape').trans ((if_neg hrow).trans
      (if_pos hroom))))), if_pos hlt]
    rfl
  all_goals
    have hcc : s.checkRow ⟨n, count, r⟩ (data.length + 2) u = none :=
      (if_neg hn).trans ((if_neg hstate).trans ((if_neg hshape').trans ((if_neg hrow).trans (if_neg hroom))))
  · rw [hu] at hcc
    exact exec_row_counted ho hheld hj hu hcc
  · refine (exec_row_stored ho hheld hj hu hcc).trans ?_
    rw [storeRow_eq, storeRow_store]
    simp only [State.newRecord, taken_store]
    rfl

end Sys2Proof.Machine
end

section
/-!
A row's tones in the page memory, the uses a completion takes, how a cell resolves, and the soundness of the state
after reset (R36, R45, R50, R57, R63 to R65, R104).
-/

namespace Sys2Proof.Machine

/-! ### Tones -/

/-- R173: tone x of packed words stands in word x div 4, the first of a word in its bits 31-24. -/
theorem getElem?_tones (ws : List Word) (x : Nat) : (ws.flatMap tonesOfWord)[x]? =
    (ws[x / 4]?).map fun w => BitVec.ofNat 8 (bits w (31 - 8 * (x % 4)) (24 - 8 * (x % 4))) := by
  induction ws generalizing x with
  | nil => simp
  | cons w ws ih =>
    rw [List.flatMap_cons]
    by_cases hx : x < 4
    · rw [List.getElem?_append_left hx, Nat.div_eq_of_lt hx, Nat.mod_eq_of_lt hx]
      interval_cases x <;> rfl
    · obtain ⟨y, rfl⟩ := Nat.exists_eq_add_of_le' (Nat.le_of_not_lt hx)
      rw [List.getElem?_append_right (Nat.le_of_not_lt hx), Nat.add_div_right y (by decide), Nat.add_mod_right]
      exact ih y

/-- R45: position x of a row reads as the payload's tone, and past the last tone as 0. -/
theorem getD_readTones {count : Nat} {data : List Word} (hlen : data.length = (count + 3) / 4) (x : Nat) :
    (readTones count data).getD x 0 =
      if x < count then BitVec.ofNat 8 (bits (word data (x / 4)) (31 - 8 * (x % 4)) (24 - 8 * (x % 4))) else 0 := by
  rw [List.getD_eq_getElem?_getD, readTones]
  split
  · next hx =>
    have hword : x / 4 < data.length := by omega
    rw [List.getElem?_take_of_lt hx, getElem?_tones]
    simp [word, hword]
  · next hx => simp [hx]

/-- Settles O32: the memory's own laws, with a row's position x in page x div 256 at x mod 256. -/
theorem rowTonesAreWrittenInTheirPages : Obligations.RowTonesAreWrittenInTheirPages := by
  intro m pages count data hm hnodup hlen m'
  refine ⟨Memory.writeRow_wf hm pages _, fun x hx => ?_, fun a ha => Memory.read_writeRow_other hm pages _ ha⟩
  have hread := Memory.read_writeRow hm hnodup (readTones count data) hx (Nat.mod_lt x (by decide : 256 > 0))
  rw [Nat.div_add_mod] at hread
  exact hread.trans (getD_readTones hlen x)

/-! ### A completion and its decrements -/

theorem takeUse_of_no_record {row : Nat} {d : List RowRecord} (h : ∀ x ∈ d, x.rowIndex ≠ row) :
    takeUse row d = (d, []) := by
  induction d with
  | nil => rfl
  | cons r d ih =>
    obtain ⟨hr, hd⟩ := List.forall_mem_cons.1 h
    rw [takeUse, if_neg hr, ih hd]

/-- R50, R51: a use is taken from the first record of its row; the last use removes the record. -/
theorem takeUse_of_record {row : Nat} {before after : List RowRecord} {r : RowRecord} (hr : r.rowIndex = row)
    (h : ∀ x ∈ before, x.rowIndex ≠ row) : takeUse row (before ++ r :: after) =
      if r.useCount ≤ 1 then (before ++ after, r.pages)
      else (before ++ { r with useCount := r.useCount - 1 } :: after, []) := by
  induction before with
  | nil => exact if_pos hr
  | cons x before ih =>
    obtain ⟨hx, hbefore⟩ := List.forall_mem_cons.1 h
    rw [List.cons_append, takeUse, if_neg hx, ih hbefore]
    split <;> rfl

/-- A slot put back as it is changes nothing. -/
theorem setSlot_slot (st : Store) (n : Nat) : st.setSlot n (st.slot n) = st := by
  by_cases h : n < 16
  · have hslots : st.slots.setIfInBounds n st.slots[n] = st.slots := by
      ext i hi
      rw [Vector.getElem_setIfInBounds]
      split
      · next e => subst e; rfl
      · rfl
    rw [slot_of_lt h, Store.setSlot, hslots]
  · exact setSlot_of_ge (Nat.le_of_not_lt h)

theorem release_nil (st : Store) : st.release [] = st := by simp [Store.release]

/-- Settles O42: the completion by its definition, a decrement by the record it finds. -/
theorem buildCompletionQueuesTheLine : Obligations.BuildCompletionQueuesTheLine := by
  refine ⟨fun s b hb => ?_, fun st n row before after r _ hdir hr hbefore => ?_, fun st n row hnone => ?_⟩
  · have hnonzero : b.line.nonzeroCells = b.cells.countP fun v => decide (v ≠ 0) :=
      List.countP_congr fun v _ => by simp
    show settleStep s (s.build.inFlight.map fun b => s.completeBuild b) = _
    rw [hb, ← hnonzero]
    rfl
  · simp only [Store.decrement, hdir, takeUse_of_record hr hbefore]
    split
    · rfl
    · exact release_nil _
  · simp only [Store.decrement, takeUse_of_no_record hnone, release_nil]
    exact setSlot_slot st n

/-! ### How a cell resolves -/

/-- The reset entry of the window table covers no cell. -/
theorem reset_covers (g c : Nat) : Window.reset.covers g c = false := by
  by_contra h
  simp only [Window.covers, Window.coversTrack, Bool.not_eq_false, Bool.and_eq_true, decide_eq_true_eq] at h
  obtain ⟨⟨hfirst, hlast⟩, -⟩ := h
  exact absurd (Nat.le_trans hfirst hlast) (by decide)

/-- R58: a window that covers a cell is an entry of the table. -/
theorem lt_of_covers {s : State} {i g c : Nat} (h : (s.window i).covers g c = true) : i < 32 := by
  by_contra hge
  rw [window_of_ge s (Nat.le_of_not_lt hge), reset_covers] at h
  cases h

theorem enabled_of_covers {w : Window} {g c : Nat} (h : w.covers g c = true) : w.enabled = true := by
  simp only [Window.covers, Window.coversTrack, Bool.and_eq_true, decide_eq_true_eq] at h
  simp only [Window.enabled, decide_eq_true_eq]
  omega

theorem mem_place_iff {s : State} {w : Window} : w ∈ s.place.toList ↔ ∃ i < 32, s.window i = w := by
  rw [List.mem_iff_getElem]
  simp only [Vector.length_toList, Vector.getElem_toList]
  exact ⟨fun ⟨i, hi, e⟩ => ⟨i, hi, (window_of_lt s hi).trans e⟩,
    fun ⟨i, hi, e⟩ => ⟨i, hi, (window_of_lt s hi).symm.trans e⟩⟩

/-- R63: no entry of a kind covers the cell. -/
theorem covering_eq_none {s : State} {k : WindowKind} {g c : Nat} :
    s.covering k g c = none ↔ ∀ i, (s.window i).kind = k → (s.window i).covers g c = false := by
  simp only [State.covering, List.find?_eq_none, mem_place_iff, Bool.and_eq_true, beq_iff_eq, not_and,
    Bool.not_eq_true]
  constructor
  · intro h i hkind
    by_contra hcov
    exact hcov (h _ ⟨i, lt_of_covers (Bool.not_eq_false _ ▸ hcov), rfl⟩ hkind)
  · rintro h w ⟨i, -, rfl⟩ hkind
    exact h i hkind

/-- R63: the entry found covers the cell and has the kind. -/
theorem exists_of_covering {s : State} {k : WindowKind} {g c : Nat} {w : Window} (h : s.covering k g c = some w) :
    ∃ i, s.window i = w ∧ w.kind = k ∧ w.covers g c = true := by
  have hprop := List.find?_some h
  obtain ⟨i, -, hi⟩ := mem_place_iff.1 (List.mem_of_find?_eq_some h)
  simp only [Bool.and_eq_true, beq_iff_eq] at hprop
  exact ⟨i, hi, hprop⟩

section
variable {s : State} {g c i : Nat}

/-- R73: a cell below N has one cutting window at most. -/
theorem eq_of_cutting_covers (hd : s.windowsDisjoint) (hc : c < s.run.header.cellsPerRev) {j : Nat}
    (hi : (s.window i).covers g c = true) (hj : (s.window j).covers g c = true)
    (hik : (s.window i).kind ≠ .keepout) (hjk : (s.window j).kind ≠ .keepout) : i = j := by
  by_contra hne
  have hfalse := hd.2 i j g c hne ((cuts_iff _).2 ⟨enabled_of_covers hi, hik⟩)
    ((cuts_iff _).2 ⟨enabled_of_covers hj, hjk⟩) hc hi
  rw [hj] at hfalse
  cases hfalse

/-- R63, R73: the covering window of a cutting kind is the one that covers the cell. -/
theorem covering_of_covers (hd : s.windowsDisjoint) (hc : c < s.run.header.cellsPerRev)
    (hi : (s.window i).covers g c = true) (hk : (s.window i).kind ≠ .keepout) :
    s.covering (s.window i).kind g c = some (s.window i) := by
  cases hfound : s.covering (s.window i).kind g c with
  | none =>
    rw [covering_eq_none.1 hfound i rfl] at hi
    cases hi
  | some w =>
    obtain ⟨j, rfl, hkind, hcov⟩ := exists_of_covering hfound
    rw [eq_of_cutting_covers hd hc hi hcov hk (hkind ▸ hk)]

/-- R63, R73: where a MARK window covers a cell no IMAGE window does. -/
theorem covering_image_of_mark (hd : s.windowsDisjoint) (hc : c < s.run.header.cellsPerRev)
    (hi : (s.window i).covers g c = true) (hk : (s.window i).kind = .mark) : s.covering .image g c = none := by
  refine covering_eq_none.2 fun j hj => ?_
  by_contra hcov
  have hij := eq_of_cutting_covers hd hc hi (Bool.not_eq_false _ ▸ hcov) (by simp [hk]) (by simp [hj])
  rw [← hij, hk] at hj
  cases hj

theorem resolveCell_of_keepout (h : Head) (hk : (s.window i).kind = .keepout) (hi : (s.window i).covers g c = true) :
    s.resolveCell h g c = 0 := by
  refine if_pos ?_
  rw [Option.isSome_iff_ne_none]
  intro hnone
  rw [covering_eq_none.1 hnone i hk] at hi
  cases hi

theorem resolveCell_of_image (h : Head) {w : Window} (hk : s.covering .keepout g c = none)
    (hi : s.covering .image g c = some w) : s.resolveCell h g c = s.imageCell h w g c := by
  simp [State.resolveCell, hk, hi]

theorem resolveCell_of_mark (h : Head) {w : Window} (hk : s.covering .keepout g c = none)
    (hi : s.covering .image g c = none) (hm : s.covering .mark g c = some w) :
    s.resolveCell h g c = s.markCell h w g c := by
  simp [State.resolveCell, hk, hi, hm]

theorem resolveCell_of_uncovered (h : Head) (hnone : ∀ i, (s.window i).covers g c = false) :
    s.resolveCell h g c = 0 := by
  have hk : ∀ k, s.covering k g c = none := fun k => covering_eq_none.2 fun i _ => hnone i
  simp [State.resolveCell, hk]

end

/-- R87: a drive value of depth 0 is 0. -/
theorem drive_zero (r : Trim) : r.drive 0 = 0 := rfl

/-- R65: a MARK window gives its pattern's depth where the pattern is on. -/
theorem markCell_eq (s : State) (h : Head) (w : Window) (g c : Nat) : s.markCell h w g c =
    if (s.tables.pattern w.source).isOn (w.rowAt g % (s.tables.pattern w.source).height)
        ((w.aroundDistance s.run.header.cellsPerRev c + w.cellOffset) % (s.tables.pattern w.source).width) then
      (s.trim h).drive (s.tables.pattern w.source).depth
    else 0 := by
  rw [State.markCell, MarkPattern.depthAt, apply_ite (s.trim h).drive, drive_zero]

/-- R57: a tone of a row that its slot's directory holds is read from its page. -/
theorem toneAt_of_record {s : State} {n x : Nat} {before after : List RowRecord} {d : RowRecord} {p : Page}
    (hdir : (s.store.slot n).directory = before ++ d :: after) (hbefore : ∀ e ∈ before, e.rowIndex ≠ d.rowIndex)
    (hp : d.pages[x / 256]? = some p) :
    s.toneAt n d.rowIndex x = Memory.read s.store.memory (p.val * 256 + x % 256) := by
  have hnone : before.find? (fun e => e.rowIndex == d.rowIndex) = none :=
    List.find?_eq_none.2 fun e he => by simpa using hbefore e he
  have hfind : (s.store.slot n).directory.find? (fun e => e.rowIndex == d.rowIndex) = some d := by
    rw [hdir, List.find?_append, hnone, Option.none_or]
    exact List.find?_cons_of_pos (beq_self_eq_true _)
  have htone : s.toneAt n d.rowIndex x = Memory.tone s.store.memory n d.rowIndex d.pages x := by
    simp only [State.toneAt, hfind]
  rw [htone, Memory.tone, show d.pages[x / Config.tonesPerPage]? = some p from hp]
  rfl

/-- Settles O43: KEEPOUT first, then the one cutting window that covers the cell by its kind. -/
theorem cellsResolveByTheirWindow : Obligations.CellsResolveByTheirWindow := by
  intro s h g c hd hc N
  refine ⟨fun ⟨i, hkind, hcov⟩ => resolveCell_of_keepout h hkind hcov, fun i hkeep => ?_, resolveCell_of_uncovered h,
    fun n before after d x p => toneAt_of_record⟩
  intro w around row hcov
  refine ⟨fun hkind => ?_, fun hkind => ?_⟩
  all_goals have hfound := covering_of_covers hd hc hcov (by simp [show (s.window i).kind = _ from hkind])
  · rw [show (s.window i).kind = .image from hkind] at hfound
    exact resolveCell_of_image h (covering_eq_none.2 hkeep) hfound
  · rw [show (s.window i).kind = .mark from hkind] at hfound
    refine (resolveCell_of_mark h (covering_eq_none.2 hkeep) (covering_image_of_mark hd hc hcov hkind) hfound).trans ?_
    exact markCell_eq s h w g c

/-! ### The state after reset -/

theorem reset_linksSound : State.reset.linksSound := by
  refine ⟨fun l => ?_, fun l => by cases l <;> rfl, nofun, fun _ => rfl⟩
  unfold Port.sound
  cases l <;> decide

theorem ToneTable.sound_reset : ToneTable.reset.sound :=
  ⟨List.length_replicate, fun _ he => List.eq_of_mem_replicate he ▸ by decide, rfl⟩

theorem MarkPattern.sound_reset : MarkPattern.reset.sound := by
  refine ⟨rfl, nofun, fun r c hr _ _ => ?_⟩
  have hrow : (List.replicate 16 (0 : BitVec 16)).getD r 0 = 0 := by
    rw [List.getD_eq_getElem?_getD, List.getElem?_replicate, if_pos hr, Option.getD_some]
  show ((List.replicate 16 (0 : BitVec 16)).getD r 0).getLsbD (15 - c) = false
  rw [hrow]
  exact BitVec.getLsbD_zero

theorem Trim.sound_reset : Trim.reset.sound := by unfold Trim.sound; decide

/-- What holds of an entry holds of every entry of a table of its copies. -/
theorem forall_mem_replicate {α : Type} {P : α → Prop} {x : α} (h : P x) (n : Nat) :
    ∀ y ∈ (Vector.replicate n x).toList, P y := by
  intro y hy
  rw [Vector.toList_replicate] at hy
  exact List.eq_of_mem_replicate hy ▸ h

theorem reset_tablesSound : State.reset.tablesSound :=
  ⟨forall_mem_replicate ToneTable.sound_reset 16, forall_mem_replicate MarkPattern.sound_reset 8,
    forall_mem_replicate Trim.sound_reset 4, nofun⟩

/-- The state after reset is the one a power-on sets its blocks to. -/
theorem cold_reset : State.reset.cold 3 = State.reset := rfl

/-- Settles O59: STORE and PLACE are as a clearing leaves them, the job as a power-on does; links and tables entry by
entry. -/
theorem resetIsSound : Obligations.ResetIsSound :=
  ⟨cleared_pagesConserved Store.reset, Memory.wf_nil, cold_reset ▸ cold_jobSound State.reset 3, reset_linksSound,
    reset_tablesSound, cleared_slotsSound (s := State.reset) rfl rfl, cleared_windowsDisjoint rfl (Nat.le_refl 512)⟩

end Sys2Proof.Machine
end

section
/-!
The extent of a window: enabling, coverage, span and around distance, and the cell that two overlapping windows share
(R59 to R62, R73).
-/

namespace Sys2Proof.Machine

/-! ### One window -/

theorem enabled_iff (w : Window) : w.enabled = true ↔ w.firstTrack ≤ w.lastTrack := decide_eq_true_iff

theorem coversTrack_iff (w : Window) (g : Nat) : w.coversTrack g = true ↔ w.firstTrack ≤ g ∧ g ≤ w.lastTrack := by
  simp only [Window.coversTrack, Bool.and_eq_true, decide_eq_true_eq]

/-- R61: a choice by whether the around range wraps, by the order of its ends. -/
theorem ite_wraps {α : Type} (w : Window) (a b : α) :
    (if w.wraps = true then a else b) = if w.firstCell ≤ w.lastCell then b else a := by
  by_cases h : w.firstCell ≤ w.lastCell
  · simp [Window.wraps, h, Nat.not_lt.2 h]
  · simp [Window.wraps, h, Nat.lt_of_not_le h]

theorem span_eq (w : Window) (n : Nat) : w.span n =
    if w.firstCell ≤ w.lastCell then w.lastCell - w.firstCell + 1 else n - w.firstCell + w.lastCell + 1 :=
  ite_wraps w _ _

theorem coversCell_eq (w : Window) (c : Nat) : w.coversCell c =
    if w.firstCell ≤ w.lastCell then decide (w.firstCell ≤ c) && decide (c ≤ w.lastCell)
    else decide (w.firstCell ≤ c) || decide (c ≤ w.lastCell) :=
  ite_wraps w _ _

theorem coversCell_iff (w : Window) (c : Nat) : w.coversCell c = true ↔
    if w.firstCell ≤ w.lastCell then w.firstCell ≤ c ∧ c ≤ w.lastCell else w.firstCell ≤ c ∨ c ≤ w.lastCell := by
  rw [coversCell_eq]
  split <;> simp

theorem covers_iff (w : Window) (g c : Nat) : w.covers g c = true ↔
    (w.firstTrack ≤ g ∧ g ≤ w.lastTrack) ∧ w.coversCell c = true := by
  rw [Window.covers, Bool.and_eq_true, coversTrack_iff]

/-! ### The span counts the covered cells -/

theorem countP_range_between (a b n : Nat) :
    (List.range n).countP (fun c => decide (a ≤ c) && decide (c ≤ b)) = min n (b + 1) - a := by
  induction n with
  | zero => simp
  | succ n ih =>
    simp only [List.range_succ, List.countP_append, ih, List.countP_singleton, Bool.and_eq_true, decide_eq_true_eq]
    split <;> omega

theorem countP_range_outside {a b : Nat} (h : b < a) (n : Nat) :
    (List.range n).countP (fun c => decide (a ≤ c) || decide (c ≤ b)) = min n (b + 1) + (n - a) := by
  induction n with
  | zero => simp
  | succ n ih =>
    simp only [List.range_succ, List.countP_append, ih, List.countP_singleton, Bool.or_eq_true, decide_eq_true_eq]
    split <;> omega

/-- R61: the span is the number of cells in the around range. -/
theorem countP_coversCell {w : Window} {n : Nat} (hfirst : w.firstCell < n) (hlast : w.lastCell < n) :
    (List.range n).countP w.coversCell = w.span n := by
  rw [funext (coversCell_eq w), span_eq]
  by_cases h : w.firstCell ≤ w.lastCell
  · simp only [h, if_true, countP_range_between]
    omega
  · simp only [h, if_false, countP_range_outside (Nat.lt_of_not_le h)]
    omega

/-! ### The around distance -/

/-- R62: the around distance without the modulus: past the index mark it counts on from the end of the revolution. -/
theorem aroundDistance_eq {w : Window} {n c : Nat} (hfirst : w.firstCell < n) (hc : c < n) :
    w.aroundDistance n c = if w.firstCell ≤ c then c - w.firstCell else c + n - w.firstCell := by
  unfold Window.aroundDistance
  split
  · next h => rw [Nat.sub_add_comm h, Nat.add_mod_right, Nat.mod_eq_of_lt (by omega)]
  · next h => exact Nat.mod_eq_of_lt (by omega)

theorem aroundDistance_lt_span {w : Window} {n c : Nat} (hfirst : w.firstCell < n) (hc : c < n)
    (hcov : w.coversCell c = true) : w.aroundDistance n c < w.span n := by
  rw [coversCell_iff] at hcov
  rw [aroundDistance_eq hfirst hc, span_eq]
  split_ifs at hcov ⊢ <;> omega

theorem firstCell_add_aroundDistance {w : Window} {n c : Nat} (hfirst : w.firstCell < n) (hc : c < n) :
    (w.firstCell + w.aroundDistance n c) % n = c := by
  rw [aroundDistance_eq hfirst hc]
  split
  · next h => rw [Nat.add_sub_of_le h, Nat.mod_eq_of_lt hc]
  · next h => rw [Nat.add_sub_of_le (by omega), Nat.add_mod_right, Nat.mod_eq_of_lt hc]

/-! ### Two windows -/

/-- R73: the runs of an around range hold only cells below N that the window covers. -/
theorem coversCell_of_mem_run {w : Window} {n c : Nat} {r : Nat × Nat} (hlast : w.lastCell < n) (hr : r ∈ w.runs n)
    (h1 : r.1 ≤ c) (h2 : c ≤ r.2) : c < n ∧ w.coversCell c = true := by
  rw [Window.runs, ite_wraps] at hr
  rw [coversCell_iff]
  by_cases h : w.firstCell ≤ w.lastCell
  · simp only [h, if_true, List.mem_singleton] at hr ⊢
    subst hr
    exact ⟨by omega, h1, h2⟩
  · simp only [h, if_false, List.mem_cons, List.not_mem_nil, or_false] at hr ⊢
    rcases hr with rfl | rfl
    · exact ⟨by omega, .inl h1⟩
    · exact ⟨by omega, .inr h2⟩

theorem fst_le_snd_of_mem_run {w : Window} {n : Nat} {r : Nat × Nat} (hfirst : w.firstCell < n) (hr : r ∈ w.runs n) :
    r.1 ≤ r.2 := by
  rw [Window.runs, ite_wraps] at hr
  split at hr
  · next h => exact List.mem_singleton.1 hr ▸ h
  · simp only [List.mem_cons, List.not_mem_nil, or_false] at hr
    rcases hr with rfl | rfl
    · exact Nat.le_sub_one_of_lt hfirst
    · exact Nat.zero_le _

/-- R73: overlapping windows share the greater of the two first tracks, and the greater of the first cells of two runs
that meet. -/
theorem exists_covers_of_overlaps {a b : Window} {n : Nat} (hafirst : a.firstCell < n) (ha : a.lastCell < n)
    (hbfirst : b.firstCell < n) (hb : b.lastCell < n) (haen : a.enabled = true) (hben : b.enabled = true)
    (h : a.overlaps n b = true) :
    ∃ g c, c < n ∧ a.covers g c = true ∧ b.covers g c = true := by
  rw [enabled_iff] at haen hben
  simp only [Window.overlaps, runsMeet, Bool.and_eq_true, List.any_eq_true, decide_eq_true_eq] at h
  obtain ⟨⟨htrack1, htrack2⟩, x, hx, y, hy, hmeet1, hmeet2⟩ := h
  have hxle := fst_le_snd_of_mem_run hafirst hx
  have hyle := fst_le_snd_of_mem_run hbfirst hy
  obtain ⟨hc, hacov⟩ := coversCell_of_mem_run ha hx (Nat.le_max_left x.1 y.1) (Nat.max_le.2 ⟨hxle, hmeet2⟩)
  obtain ⟨-, hbcov⟩ := coversCell_of_mem_run hb hy (Nat.le_max_right x.1 y.1) (Nat.max_le.2 ⟨hmeet1, hyle⟩)
  exact ⟨max a.firstTrack b.firstTrack, max x.1 y.1, hc,
    (covers_iff ..).2 ⟨⟨Nat.le_max_left _ _, Nat.max_le.2 ⟨haen, htrack2⟩⟩, hacov⟩,
    (covers_iff ..).2 ⟨⟨Nat.le_max_right _ _, Nat.max_le.2 ⟨htrack1, hben⟩⟩, hbcov⟩⟩

/-- Settles O33: each clause by the order of the window's cells; windows overlap exactly where they share a cell. -/
theorem coverageSpanAndOverlap : Obligations.CoverageSpanAndOverlap := by
  intro n w hfirst hlast
  refine ⟨enabled_iff w, fun c _ => coversCell_iff w c, span_eq w n, countP_coversCell hfirst hlast,
    fun c hc hcov => ?_, fun v hvfirst hvlast hwen hven =>
      ⟨fun h => ?_, fun ⟨g, c, hc, hw, hv⟩ => overlaps_of_covers hc hw hv⟩⟩
  · exact ⟨aroundDistance_lt_span hfirst hc hcov, firstCell_add_aroundDistance hfirst hc⟩
  · exact exists_covers_of_overlaps hfirst hlast hvfirst hvlast hwen hven h

end Sys2Proof.Machine
end

section
/-!
WSET: each of its six checks as a condition on the fields of the entry, and the entry stored or refused (R67 to R75).
-/

namespace Sys2Proof.Machine

/-! ### The entry a WSET carries -/

/-- 11.4, R173: a code above 2 is no window kind. -/
theorem ofCode_eq (code : Nat) : WindowKind.ofCode code =
    if 2 < code then none else some (if code = 0 then .image else if code = 1 then .mark else .keepout) := by
  match code with
  | 0 | 1 | 2 => rfl
  | code + 3 => simp [WindowKind.ofCode]

/-! ### The checks by the fields of the entry -/

/-- R68: what check 1 refuses. -/
theorem not_fieldsInRange_iff (w : Window) (n : Nat) : w.fieldsInRange n = false ↔
    n ≤ w.firstCell ∨ n ≤ w.lastCell ∨ 16383 < w.cellOffset ∨ (w.kind = .image ∧ (15 < w.source ∨ 15 < w.table)) ∨
      (w.kind = .mark ∧ 7 < w.source) := by
  simp only [Window.fieldsInRange, Bool.and_eq_false_iff, decide_eq_false_iff_not, not_lt, not_le, or_assoc]
  cases w.kind <;> simp only [Bool.and_eq_false_iff, decide_eq_false_iff_not, not_lt, reduceCtorEq, true_and, false_and,
    or_false, false_or]
  all_goals exact Iff.rfl

/-- R69: each band from the first track's to the last track's holds a track between the two. -/
theorem exists_track_of_band {first last b h : Nat} (hb : 0 < b) (hfirst : first / b ≤ h) (hlast : h ≤ last / b)
    (hle : first ≤ last) : ∃ g, first ≤ g ∧ g ≤ last ∧ g / b = h := by
  have hband : h * b ≤ last := (Nat.le_div_iff_mul_le hb).1 hlast
  refine ⟨max first (h * b), Nat.le_max_left _ _, Nat.max_le.2 ⟨hle, hband⟩, ?_⟩
  apply Nat.le_antisymm
  · rw [← Nat.lt_succ_iff, Nat.div_lt_iff_lt_mul hb]
    have hlt : first < (h + 1) * b := (Nat.div_lt_iff_lt_mul hb).1 (Nat.lt_succ_of_le hfirst)
    exact Nat.max_lt.2 ⟨hlt, Nat.mul_lt_mul_of_pos_right (Nat.lt_succ_self h) hb⟩
  · exact (Nat.le_div_iff_mul_le hb).2 (Nat.le_max_right _ _)

theorem mem_allHeads : ∀ h : Head, h ∈ allHeads := by decide

theorem all_allHeads_eq_false {p : Head → Bool} : allHeads.all p = false ↔ ∃ h, p h = false := by
  simp only [List.all_eq_false, mem_allHeads, true_and, Bool.not_eq_true]

/-- R69: what check 2 refuses of an enabled entry, track by track. -/
theorem not_inUsedBands_iff (w : Window) (hd : JobHeader) :
    (w.firstTrack ≤ w.lastTrack ∧ w.inUsedBands hd = false) ↔
      w.firstTrack ≤ w.lastTrack ∧ ((List.range (w.lastTrack + 1)).any fun g => decide (w.firstTrack ≤ g) &&
        (decide (4 * hd.tracksPerBand ≤ g) || !hd.headMask.getLsbD (g / hd.tracksPerBand))) = true := by
  refine and_congr_right fun hen => ?_
  simp only [List.any_eq_true, List.mem_range, Nat.lt_succ_iff, Bool.and_eq_true, Bool.or_eq_true, decide_eq_true_eq,
    Bool.not_eq_true', Bool.not_eq_false', Window.inUsedBands, Bool.and_eq_false_iff, Bool.or_eq_false_iff,
    all_allHeads_eq_false, decide_eq_false_iff_not, not_lt, and_assoc]
  constructor
  · rintro (hpast | hband)
    · exact ⟨w.lastTrack, Nat.le_refl _, hen, .inl hpast⟩
    · obtain ⟨h, hfirst, hlast, hunused⟩ := hband
      rcases Nat.eq_zero_or_pos hd.tracksPerBand with hb | hb
      · exact ⟨w.lastTrack, Nat.le_refl _, hen, .inl (by rw [hb]; exact Nat.zero_le _)⟩
      · obtain ⟨g, hg1, hg2, hg⟩ := exists_track_of_band hb hfirst hlast hen
        exact ⟨g, hg2, hg1, .inr (hg ▸ hunused)⟩
  · rintro ⟨g, hlast, hfirst, hpast | hunused⟩
    · exact .inl (Nat.le_trans hpast hlast)
    · by_cases hpast : 4 * hd.tracksPerBand ≤ w.lastTrack
      · exact .inl hpast
      · have hh : g / hd.tracksPerBand < 4 := Nat.div_lt_of_lt_mul (by omega)
        exact .inr ⟨⟨_, hh⟩, Nat.div_le_div_right hfirst, Nat.div_le_div_right hlast, hunused⟩

theorem standsInWay_iff (s : State) (w : Window) : s.standsInWay w = true ↔
    w.firstTrack ≤ w.lastTrack ∧ w.kind = .image ∧ 0 < (s.store.slot w.source).rowsReceived := by
  simp only [State.standsInWay, Bool.and_eq_true, isImage_iff, enabled_iff, decide_eq_true_eq, and_assoc]

/-- R71: what check 4 refuses of an enabled entry. -/
theorem not_sourceReady_iff (s : State) (w : Window) : s.sourceReady w = false ↔
    (w.kind = .image ∧ ((s.store.slot w.source).state = .empty ∨ (s.tables.tone w.table).valid = false)) ∨
      (w.kind = .mark ∧ (s.tables.pattern w.source).valid = false) := by
  unfold State.sourceReady
  cases w.kind <;> simp [imp_iff_not_or]

/-- R72: what check 5 refuses of an enabled entry. -/
theorem not_insideImage_iff (s : State) (w : Window) : s.insideImage w = false ↔
    w.kind = .image ∧ ((s.store.slot w.source).height ≤ w.rowOffset + (w.lastTrack - w.firstTrack) ∨
      (s.store.slot w.source).width < w.cellOffset + w.span s.run.header.cellsPerRev) := by
  simp only [State.insideImage, Bool.or_eq_false_iff, bne_eq_false_iff_eq, Bool.and_eq_false_iff,
    decide_eq_false_iff_not, not_lt, not_le]

/-- The entries of the table but entry n, by their index. -/
theorem mem_eraseIdx_place_iff {s : State} {n : Nat} {w : Window} :
    w ∈ s.place.toList.eraseIdx n ↔ ∃ i < 32, i ≠ n ∧ s.window i = w := by
  simp only [List.mem_eraseIdx_iff_getElem?, Vector.getElem?_toList, Vector.getElem?_eq_some_iff]
  exact ⟨fun ⟨i, hne, hi, e⟩ => ⟨i, hi, hne, (window_of_lt s hi).trans e⟩,
    fun ⟨i, hi, hne, e⟩ => ⟨i, hne, hi, (window_of_lt s hi).symm.trans e⟩⟩

/-- R73: what check 6 refuses of an enabled entry. -/
theorem conflicts_iff (s : State) (n : Nat) (w : Window) : s.conflicts n w = true ↔
    w.kind ≠ .keepout ∧ ((List.range 32).any fun i =>
      decide (i ≠ n) && decide ((s.window i).firstTrack ≤ (s.window i).lastTrack) &&
        decide ((s.window i).kind ≠ .keepout) && w.overlaps s.run.header.cellsPerRev (s.window i)) = true := by
  simp only [State.conflicts, Bool.and_eq_true, bne_iff_ne, List.any_eq_true, mem_eraseIdx_place_iff, cuts_iff,
    enabled_iff, List.mem_range, decide_eq_true_eq, and_assoc]
  refine and_congr_right fun _ => ⟨?_, ?_⟩
  · rintro ⟨_, ⟨i, hi, hne, rfl⟩, h⟩
    exact ⟨i, hi, hne, h⟩
  · rintro ⟨i, hi, hne, h⟩
    exact ⟨_, ⟨i, hi, hne, rfl⟩, h⟩

/-- R67, R74: the six checks in order, a disabled entry by checks 1 and 3 alone. -/
theorem checkWset_eq (s : State) (n : Nat) (w : Window) : s.checkWset n w =
    let N := s.run.header.cellsPerRev
    let B := s.run.header.tracksPerBand
    let x := s.store.slot w.source
    let old := s.window n
    if 32 ≤ n ∨ N ≤ w.firstCell ∨ N ≤ w.lastCell ∨ 16383 < w.cellOffset ∨
        (w.kind = .image ∧ (15 < w.source ∨ 15 < w.table)) ∨ (w.kind = .mark ∧ 7 < w.source) then some .range
    else if w.firstTrack ≤ w.lastTrack ∧ ((List.range (w.lastTrack + 1)).any fun g =>
        decide (w.firstTrack ≤ g) && (decide (4 * B ≤ g) || !s.run.header.headMask.getLsbD (g / B))) = true then
      some .range
    else if (old.firstTrack ≤ old.lastTrack ∧ old.kind = .image ∧ 0 < (s.store.slot old.source).rowsReceived) ∨
        (w.firstTrack ≤ w.lastTrack ∧ w.kind = .image ∧ 0 < x.rowsReceived) then some .referenced
    else if w.firstTrack ≤ w.lastTrack ∧
        ((w.kind = .image ∧ (x.state = .empty ∨ (s.tables.tone w.table).valid = false)) ∨
          (w.kind = .mark ∧ (s.tables.pattern w.source).valid = false)) then some .state
    else if w.firstTrack ≤ w.lastTrack ∧ w.kind = .image ∧
        (x.height ≤ w.rowOffset + (w.lastTrack - w.firstTrack) ∨ x.width < w.cellOffset + w.span N) then some .range
    else if w.firstTrack ≤ w.lastTrack ∧ w.kind ≠ .keepout ∧ ((List.range 32).any fun i =>
        decide (i ≠ n) && decide ((s.window i).firstTrack ≤ (s.window i).lastTrack) &&
          decide ((s.window i).kind ≠ .keepout) && w.overlaps N (s.window i)) = true then some .conflict
    else none := by
  simp only [State.checkWset, Bool.and_eq_true, Bool.or_eq_true, Bool.not_eq_true', enabled_iff, not_fieldsInRange_iff,
    not_inUsedBands_iff, standsInWay_iff, not_sourceReady_iff, not_insideImage_iff, conflicts_iff]
  rfl

/-! ### The entry stored or refused -/

theorem taken_checkWset (s : State) (l : Link) (rest : List InFrame) (n : Nat) (w : Window) :
    (s.taken l rest).checkWset n w = s.checkWset n w := by cases l <;> rfl

/-- A window stored while a frame is handled, and the frame answered. -/
theorem queueReply_taken_writeWindow (s : State) (l : Link) (rest : List InFrame) (n : Nat) (w : Window) (r : Reply) :
    ((s.taken l rest).writeWindow n w).queueReply l r =
      { s with place := s.place.setIfInBounds n w }.answered l rest r := by
  cases l <;> rfl

section
variable {s : State} {l : Link} {tag : Byte} {w1 e0 e1 e2 e3 : Word} {rest : List InFrame}

/-- R68, R173: WSET in PREPARED, its kind code no kind. -/
theorem exec_wset_of_no_kind (ho : s.offers l (requestFrame tag .wset [w1, e0, e1, e2, e3]) rest)
    (hheld : s.holdsZone l .place = true) (hj : s.run.jobState = .prepared) (hw : Window.ofWords e0 e1 e2 e3 = none) :
    exec (.wset l) s = .next (s.answered l rest (requestReply tag .wset .range [])) := by
  have howner : ownWset [ReqCode.wset.word, w1, e0, e1, e2, e3] (s.taken l rest) = (s.taken l rest).refuse .range := by
    simp only [ownWset, word, List.getD_cons_succ, List.getD_cons_zero, hw]
  refine (serve_prepared ho hheld hj rfl rfl rfl ownWset).trans ?_
  rw [howner]
  exact congrArg _ (queueReply_refuse s l rest tag .wset .range)

/-- R67, R75: WSET in PREPARED of an entry comes to PLACE's checks. -/
theorem exec_wset (ho : s.offers l (requestFrame tag .wset [w1, e0, e1, e2, e3]) rest)
    (hheld : s.holdsZone l .place = true) (hj : s.run.jobState = .prepared) {w : Window}
    (hw : Window.ofWords e0 e1 e2 e3 = some w) :
    exec (.wset l) s = .next (match s.checkWset w1.toNat w with
      | some cc => s.answered l rest (requestReply tag .wset cc [])
      | none => { s with place := s.place.setIfInBounds w1.toNat w }.answered l rest
          (requestReply tag .wset .accepted [])) := by
  refine (serve_prepared ho hheld hj rfl rfl rfl ownWset).trans ?_
  cases hcheck : s.checkWset w1.toNat w with
  | some cc =>
    have howner : ownWset [ReqCode.wset.word, w1, e0, e1, e2, e3] (s.taken l rest) = (s.taken l rest).refuse cc := by
      simp only [ownWset, word, List.getD_cons_succ, List.getD_cons_zero, hw, taken_checkWset, hcheck]
    rw [howner]
    exact congrArg _ (queueReply_refuse s l rest tag .wset cc)
  | none =>
    have howner : ownWset [ReqCode.wset.word, w1, e0, e1, e2, e3] (s.taken l rest) =
        ((s.taken l rest).writeWindow w1.toNat w).accept := by
      simp only [ownWset, word, List.getD_cons_succ, List.getD_cons_zero, hw, taken_checkWset, hcheck]
    rw [howner]
    exact congrArg _ (queueReply_taken_writeWindow s l rest w1.toNat w _)

end

/-- Settles O34: a code that is no kind fails check 1; of an entry, the model's checks are those of the statement. -/
theorem wsetStoresTheEntryOrRefuses : Obligations.WsetStoresTheEntryOrRefuses := by
  intro s l tag w1 e0 e1 e2 e3 rest ho hheld hj n N B code w x old refused
  by_cases hcode : 2 < code
  · have hw : Window.ofWords e0 e1 e2 e3 = none := by rw [Window.ofWords, ofCode_eq, if_pos hcode, Option.map_none]
    rw [if_pos (.inr (.inl hcode))]
    exact exec_wset_of_no_kind ho hheld hj hw
  · have hw : Window.ofWords e0 e1 e2 e3 = some w := by
      rw [Window.ofWords, ofCode_eq, if_neg hcode, Option.map_some]
    rw [exec_wset ho hheld hj hw, checkWset_eq]
    simp only [hcode, false_or]
    split_ifs <;> rfl

end Sys2Proof.Machine
end

section
/-!
The reads of PLACE and TABLES: 16-bit values packed two to a word, the words WREAD and TREAD return, and their refusals
(R78, R94, R173, R175).
-/

namespace Sys2Proof.Machine

/-! ### Values packed in words -/

theorem toNat_put_high (a : Nat) : (put 31 16 a).toNat = a % 65536 * 65536 := by
  rw [put, BitVec.toNat_ofNat]
  omega

theorem toNat_put_low (b : Nat) : (put 15 0 b).toNat = b % 65536 := by
  rw [put, BitVec.toNat_ofNat]
  omega

/-- R173: the first of two 16-bit values stands in bits 31-16, the second in bits 15-0. -/
theorem toNat_put_halves (a b : Nat) : (put 31 16 a ||| put 15 0 b).toNat = a % 65536 * 65536 + b % 65536 := by
  have hb : b % 65536 < 2 ^ 16 := Nat.mod_lt _ (by decide)
  rw [BitVec.toNat_or, toNat_put_high, toNat_put_low, Nat.mul_comm]
  exact (Nat.two_pow_add_eq_or_of_lt hb (a % 65536)).symm

theorem put_word (w : Word) : put 31 0 w.toNat = w := by
  apply BitVec.eq_of_toNat_eq
  rw [put, BitVec.toNat_ofNat]
  have hlt := w.isLt
  omega

theorem length_packHalves (vs : List Nat) : (packHalves vs).length = (vs.length + 1) / 2 := by
  induction vs using packHalves.induct with
  | case1 => rfl
  | case2 a => simp [packHalves]
  | case3 a b rest ih =>
    simp only [packHalves, List.length_cons, ih]
    omega

/-- R173: word k of packed values holds values 2k and 2k + 1, an odd last one padded with 0. -/
theorem toNat_word_packHalves {vs : List Nat} {k : Nat} (hk : k < (packHalves vs).length) :
    (word (packHalves vs) k).toNat = vs.getD (2 * k) 0 % 65536 * 65536 + vs.getD (2 * k + 1) 0 % 65536 := by
  induction vs using packHalves.induct generalizing k with
  | case1 => exact absurd hk (Nat.not_lt_zero k)
  | case2 a =>
    obtain rfl : k = 0 := Nat.lt_one_iff.1 hk
    simp [packHalves, word, toNat_put_high]
  | case3 a b rest ih =>
    cases k with
    | zero => exact toNat_put_halves a b
    | succ k => exact ih (Nat.lt_of_succ_lt_succ hk)

/-! ### WREAD and TREAD -/

/-- R160: a request in no zone that no header may lock is answered by its owner in its states. -/
theorem serve_of_no_zone {s : State} {l : Link} {tag : Byte} {c : ReqCode} {ops : List Word} {rest : List InFrame}
    (hs : s.headerSound) (ho : s.offers l (requestFrame tag c ops) rest) (hzone : c.zone = none) (hne : c ≠ .dreset)
    (hlock : c ∉ [ReqCode.tload, .mload, .htrim, .hreset]) (ha : c.acceptedIn s.run.jobState = true)
    (hf : c.fixedPart (ops.length + 1) = true) (owner : List Word → State → Answer) :
    let a := owner (c.word :: ops) (s.taken l rest)
    serve c l owner s = .next (a.state.queueReply l
      (requestReply tag c a.cc (if a.cc = .accepted then a.returned else []))) :=
  serve_accepted s l ho (zonePasses_of_no_zone hzone hne s l) (lockPasses_of_headerSound hs hlock) ha hf owner

/-- A read made while its frame is handled, and the frame answered with the words. -/
theorem queueReply_returns (s : State) (l : Link) (rest : List InFrame) (tag : Byte) (c : ReqCode) (ws : List Word) :
    let a := (s.taken l rest).returns ws
    a.state.queueReply l (requestReply tag c a.cc (if a.cc = .accepted then a.returned else [])) =
      s.answered l rest (requestReply tag c .accepted ws) :=
  queueReply_taken s l rest _

theorem taken_windowWords (s : State) (l : Link) (rest : List InFrame) (n : Nat) :
    (s.taken l rest).windowWords n = s.windowWords n := by cases l <;> rfl

/-- 11.5, 11.6: WREAD's words in the order of their layout. -/
theorem windowWords_eq (s : State) (w1 : Word) :
    let w := s.window w1.toNat
    let N := s.run.header.cellsPerRev
    let enabled := decide (w.firstTrack ≤ w.lastTrack)
    let wraps := decide (w.lastCell < w.firstCell)
    let span := if w.firstCell ≤ w.lastCell then w.lastCell - w.firstCell + 1 else N - w.firstCell + w.lastCell + 1
    s.windowWords w1.toNat =
      [w1, put 31 16 w.firstTrack ||| put 15 0 w.lastTrack, put 31 16 w.firstCell ||| put 15 0 w.lastCell,
       put 31 24 w.kind.code ||| put 23 16 w.source ||| put 15 8 w.table,
       put 31 16 w.rowOffset ||| put 15 0 w.cellOffset,
       put 31 16 (if enabled then span else 0) ||| put 1 1 (enabled && wraps).toNat ||| put 0 0 enabled.toNat] := by
  simp only [State.windowWords, put_word, span_eq]
  rfl

section
variable {s : State} {l : Link} {tag : Byte} {w1 w2 : Word} {rest : List InFrame}

/-- R78: WREAD comes to PLACE, which looks at the window number alone. -/
theorem exec_wread (hs : s.headerSound) (ho : s.offers l (requestFrame tag .wread [w1]) rest) :
    exec (.wread l) s = .next (s.answered l rest (
      if w1.toNat < 32 then requestReply tag .wread .accepted (s.windowWords w1.toNat)
      else requestReply tag .wread .range [])) := by
  refine (serve_of_no_zone hs ho rfl nofun (by decide) rfl rfl ownWread).trans ?_
  have howner : ownWread [ReqCode.wread.word, w1] (s.taken l rest) =
      if w1.toNat < 32 then (s.taken l rest).returns (s.windowWords w1.toNat) else (s.taken l rest).refuse .range := by
    rw [← taken_windowWords s l rest]
    rfl
  rw [howner]
  by_cases hn : w1.toNat < 32
  · rw [if_pos hn, if_pos hn]
    exact congrArg _ (queueReply_returns s l rest tag .wread _)
  · rw [if_neg hn, if_neg hn]
    exact congrArg _ (queueReply_refuse s l rest tag .wread .range)

/-- R94: TREAD comes to TABLES, which looks at the kind and the number. -/
theorem exec_tread (hs : s.headerSound) (ho : s.offers l (requestFrame tag .tread [w1, w2]) rest) :
    exec (.tread l) s = .next (s.answered l rest (
      if w1 = 0 ∧ w2.toNat < 16 then requestReply tag .tread .accepted (s.tables.tone w2.toNat).words
      else if w1 = 1 ∧ w2.toNat < 8 then requestReply tag .tread .accepted (s.tables.pattern w2.toNat).words
      else requestReply tag .tread .range [])) := by
  refine (serve_of_no_zone hs ho rfl nofun (by decide) rfl rfl ownTread).trans ?_
  have howner : ownTread [ReqCode.tread.word, w1, w2] (s.taken l rest) =
      if w1 = 0 ∧ w2.toNat < 16 then (s.taken l rest).returns (s.tables.tone w2.toNat).words
      else if w1 = 1 ∧ w2.toNat < 8 then (s.taken l rest).returns (s.tables.pattern w2.toNat).words
      else (s.taken l rest).refuse .range := by
    simp only [← BitVec.toNat_inj]
    rw [← taken_tables s l rest]
    rfl
  rw [howner]
  by_cases htone : w1 = 0 ∧ w2.toNat < 16
  · rw [if_pos htone, if_pos htone]
    exact congrArg _ (queueReply_returns s l rest tag .tread _)
  rw [if_neg htone, if_neg htone]
  by_cases hpattern : w1 = 1 ∧ w2.toNat < 8
  · rw [if_pos hpattern, if_pos hpattern]
    exact congrArg _ (queueReply_returns s l rest tag .tread _)
  · rw [if_neg hpattern, if_neg hpattern]
    exact congrArg _ (queueReply_refuse s l rest tag .tread .range)

end

/-- Settles O35: the packing by its recursion; each read passes dispatch and returns its record, or is out of range. -/
theorem wreadAndTreadReturnTheirEntry : Obligations.WreadAndTreadReturnTheirEntry := by
  refine ⟨rfl, fun vs => ⟨length_packHalves vs, fun k => toNat_word_packHalves⟩, ?_⟩
  intro s l tag w1 w2 rest hs w N enabled wraps span x m
  exact ⟨fun ho => windowWords_eq s w1 ▸ exec_wread hs ho, fun ho => exec_tread hs ho⟩

end Sys2Proof.Machine
end

section
/-!
BUILD_CHOICE: which heads are eligible, the order in which a choice looks at them, and the build it begins (R66, R98,
R100 to R102).
-/

namespace Sys2Proof.Machine

/-! ### Eligible heads -/

/-- R98: the conditions under which a head is eligible. -/
theorem eligible_iff (s : State) (h : Head) : s.eligible h = true ↔
    s.used h = true ∧ (s.chan h).queue.length < 4 ∧ s.build.nextTrack[h.val] < s.run.header.tracksPerBand ∧
      ∀ e ∈ s.rowList (h.val * s.run.header.tracksPerBand + s.build.nextTrack[h.val]),
        e.2 < (s.store.slot e.1).rowsReceived := by
  simp only [State.eligible, Bool.and_eq_true, decide_eq_true_eq, List.all_eq_true, and_assoc]
  exact Iff.rfl

/-- R66: the windows whose rows a track reads; one that covers a track is enabled. -/
theorem isImage_and_coversTrack (w : Window) (g : Nat) : (w.isImage && w.coversTrack g) =
    decide (w.firstTrack ≤ g ∧ g ≤ w.lastTrack ∧ w.kind = .image) := by
  rw [Bool.eq_iff_iff, Bool.and_eq_true, isImage_iff, enabled_iff, coversTrack_iff, decide_eq_true_eq]
  constructor
  · rintro ⟨⟨-, hkind⟩, hfirst, hlast⟩
    exact ⟨hfirst, hlast, hkind⟩
  · rintro ⟨hfirst, hlast, hkind⟩
    exact ⟨⟨Nat.le_trans hfirst hlast, hkind⟩, hfirst, hlast⟩

/-- R66: the row list, window by window. -/
theorem rowList_eq (s : State) (g : Nat) : s.rowList g = s.place.toList.filterMap fun w =>
    if w.firstTrack ≤ g ∧ g ≤ w.lastTrack ∧ w.kind = .image then some (w.source, g - w.firstTrack + w.rowOffset)
    else none := by
  simp only [State.rowList, isImage_and_coversTrack, ← List.filterMap_eq_filter, List.map_filterMap, Option.map_guard,
    decide_eq_true_eq]
  rfl

/-! ### The order of a choice -/

/-- R100: a head stands in the order of a choice at its distance after the head last served, behind the nearer ones. -/
theorem choiceOrder_split : ∀ last h : Head,
    let d := (h - last - 1).val
    choiceOrder last = (choiceOrder last).take d ++ h :: (choiceOrder last).drop (d + 1) ∧
      ∀ k ∈ (choiceOrder last).take d, (k - last - 1).val < d := by decide

/-- R100: the first head of the order that has a property. -/
theorem find_choiceOrder {p : Head → Bool} {last h : Head} (hp : p h = true)
    (hfirst : ∀ k : Head, (k - last - 1).val < (h - last - 1).val → p k = false) :
    (choiceOrder last).find? p = some h := by
  obtain ⟨hsplit, hnearer⟩ := choiceOrder_split last h
  exact List.find?_eq_some_iff_append.2 ⟨hp, _, _, hsplit, fun k hk => by rw [hfirst k (hnearer k hk)]; rfl⟩

theorem execBuildChoice_of_found {s : State} {h : Head} (hmay : s.mayChoose = true)
    (hfind : (choiceOrder s.build.lastServed).find? s.eligible = some h) :
    exec .buildChoice s = .next (s.beginBuild h) := by
  show execBuildChoice s = _
  rw [execBuildChoice, State.choice, if_pos hmay, hfind]
  rfl

theorem execBuildChoice_of_none {s : State} (hnone : ∀ h, s.eligible h = false) : exec .buildChoice s = .next s := by
  have hfind : (choiceOrder s.build.lastServed).find? s.eligible = none :=
    List.find?_eq_none.2 fun h _ => by rw [hnone h]; exact Bool.false_ne_true
  show execBuildChoice s = _
  rw [execBuildChoice, State.choice, hfind, ite_self]
  rfl

/-- R101, R102: the record of the build begun, field by field. -/
theorem beginBuild_eq (s : State) (h : Head) :
    let p := s.build.nextTrack[h.val]
    let g := h.val * s.run.header.tracksPerBand + p
    s.beginBuild h = { s with build := { s.build with
      lastServed := h
      inFlight := some { head := h, localTrack := p, globalTrack := g
                         phase := decide (s.run.header.shiftMode = 1 ∧ g % 2 = 1), rowList := s.rowList g
                         cells := (List.range s.run.header.cellsPerRev).map (s.resolveCell h g) } } } := by
  simp only [Bool.decide_and]
  rfl

/-- Settles O41: the choice finds the eligible head nearest after the last served, and its record is the one begun. -/
theorem buildChoiceTakesTheNextEligibleHead : Obligations.BuildChoiceTakesTheNextEligibleHead := by
  refine ⟨eligible_iff, rowList_eq, fun s hidle hqueue hcopper => ⟨?_, execBuildChoice_of_none⟩⟩
  intro h hel hfirst p g
  have hmay : s.mayChoose = true := by simp [State.mayChoose, hidle, hqueue, hcopper]
  rw [execBuildChoice_of_found hmay (find_choiceOrder hel hfirst), beginBuild_eq]

end Sys2Proof.Machine
end

section
/-!
What every command does to the links, TABLES and the build in flight, said once: a condition on them that the
operations of LINK and TABLES keep is kept by the job, the heads, BUILD and the owners of requests (R89, R90, R156 to
R160).
-/

namespace Sys2Proof.Machine

/-- A condition on links, TABLES and the build in flight: `P none` between commands, `P (some l)` while link l handles
the frame it has taken (R158). The fields are the operations by which a command reaches these three. -/
structure LinkInvariant (P : Option Link → State → Prop) : Prop where
  /-- Nothing else is read. -/
  congr {b : Option Link} {s t : State} (hs : P b s) (hp : t.pLink = s.pLink) (hl : t.sLink = s.sLink)
    (ht : t.tables = s.tables) (hb : t.build.inFlight = s.build.inFlight) : P b t
  raise {b : Option Link} {s : State} (x : StatusBit) (hs : P b s) : P b (s.raise x)
  noticeDue {b : Option Link} {s : State} (l : Link) (n : Notice) (hs : P b s) :
    P b (s.setPort l ((s.port l).noticeDue n))
  abandonBuild {b : Option Link} {s : State} (hs : P b s) : P b s.abandonBuild
  taken {s : State} {l : Link} {f : InFrame} {rest : List InFrame} (hs : P none s) (ho : s.offers l f rest) :
    P (some l) (s.taken l rest)
  queueReply {s : State} {l : Link} (r : Reply) (hs : P (some l) s) : P none (s.queueReply l r)
  closeLink {s : State} (r : Reply) (hs : P (some .s) s) : P none (s.closeLink .s r)
  applyWrite {s : State} {l : Link} {w : TableWrite} (hs : P (some l) s) (hw : w.sound) : P (some l) (s.applyWrite w)
  deferWrite {s : State} {l : Link} {w : TableWrite} (tag : Byte) (hs : P (some l) s) (hw : w.sound)
    (hb : s.build.inFlight ≠ none) : P none (s.deferWrite l tag w)
  beginBuild {s : State} (h : Head) (hs : P none s) : P none (s.beginBuild h)
  receiveFrame {s : State} (l : Link) (ws : List Word) (fin : FrameEnd) (hs : P none s) :
    P none (s.receiveFrame l ws fin)
  beginSending {s : State} (l : Link) (hs : P none s) : P none (s.setPort l (s.port l).beginSending)
  endSending {s : State} (l : Link) (hs : P none s) : P none (s.setPort l (s.port l).endSending)
  cold (s : State) (straps : BitVec 2) : P none (s.cold straps)
  coldKept {s : State} (hs : P none s) :
    P none { s.cold s.straps with tables := { s.tables with writeQueue := [] } }

namespace LinkInvariant

variable {P : Option Link → State → Prop} (hP : LinkInvariant P) {b : Option Link} {s : State}
include hP

/-! ### Head channels -/

theorem setChan (h : Head) (c : Channel) (hs : P b s) : P b (s.setChan h c) := hP.congr hs rfl rfl rfl rfl

theorem mapChans (f : Head → Channel → Channel) (hs : P b s) : P b (s.mapChans f) := hP.congr hs rfl rfl rfl rfl

theorem enterFaulted (h : Head) (c : Cause) (hs : P b s) : P b (s.enterFaulted h c) := by
  have hraised := hP.raise (.hfault h) (hP.setChan h { s.chan h with
    state := .faulted, faultCause := c, faultTrack := s.run.t, transferring := false } hs)
  simp only [State.enterFaulted]
  split
  · exact hP.congr hraised rfl rfl rfl rfl
  · exact hraised

theorem enterLifting (h : Head) (hs : P b s) : P b (s.enterLifting h) := by
  simp only [State.enterLifting]
  split
  · exact hP.enterFaulted h .drive (hP.setChan h _ hs)
  · split <;> exact hP.congr hs rfl rfl rfl rfl

theorem liftCommand (h : Head) (hs : P b s) : P b (s.liftCommand h) := by
  rw [liftCommand_eq]
  split
  · exact hP.enterLifting h hs
  · exact hs

theorem liftUsed (hs : P b s) : P b (s.forUsed State.liftCommand) :=
  forUsed_keeps (fun h _ ht => hP.liftCommand h ht) hs

theorem liftPresent (hs : P b s) : P b s.liftPresent := foldHeads_keeps (fun h _ ht => hP.enterLifting h ht) _ hs

theorem shortCommand (h : Head) (hs : P b s) : P b (s.shortCommand h) := by
  unfold State.shortCommand
  split
  · exact hP.enterFaulted h .short hs
  all_goals exact hs

theorem indexAtChannel (h : Head) (hs : P b s) : P b (s.indexAtChannel h) := by
  unfold State.indexAtChannel
  dsimp only
  split
  · cases (s.chan h).state <;> dsimp only
    case lowering | lifting =>
      split
      · exact hP.enterFaulted h _ (hP.setChan h _ hs)
      · exact hP.setChan h _ hs
    all_goals exact hs
  · exact hs

theorem downAck (h : Head) (hs : P b s) : P b (s.downAck h) := by
  unfold State.downAck
  split
  · exact hP.congr hs rfl rfl rfl rfl
  · exact hP.enterFaulted h .dropped hs
  all_goals exact hs

theorem upAck (h : Head) (hs : P b s) : P b (s.upAck h) := by
  unfold State.upAck
  split
  · exact hP.congr hs rfl rfl rfl rfl
  · exact hP.enterFaulted h .lifted hs
  all_goals exact hs

theorem presenceGained (h : Head) (hs : P b s) : P b (s.presenceGained h) := by
  unfold State.presenceGained
  split
  · exact hP.enterLifting h hs
  all_goals exact hs

theorem presenceLost (h : Head) (hs : P b s) : P b (s.presenceLost h) := by
  unfold State.presenceLost
  cases (s.chan h).state with
  | parked => exact hP.congr hs rfl rfl rfl rfl
  | lowering | down | lifting => exact hP.enterFaulted h .presence hs
  | absent | faulted => exact hs

theorem driveFault (h : Head) (hs : P b s) : P b (s.driveFault h) := by
  unfold State.driveFault
  cases (s.chan h).state with
  | parked | lowering | down | lifting => exact hP.enterFaulted h .drive hs
  | absent | faulted => exact hs

theorem lineTaken (h : Head) (hs : P b s) : P b (s.lineTaken h) := by
  unfold State.lineTaken
  dsimp only
  split
  · exact hP.congr hs rfl rfl rfl rfl
  · exact hs

theorem inputEdge (h : Head) (x : Pins) (isEvent : Bool) {event : Head → State → State}
    (he : ∀ {t : State}, P b t → P b (event h t)) (hs : P b s) : P b (s.inputEdge h x isEvent event) := by
  have hpin : P b (s.setPin h x) := hP.congr hs rfl rfl rfl rfl
  unfold State.inputEdge
  dsimp only
  split
  · exact he hpin
  · exact hpin

theorem resetHead (h : Head) (hs : P b s) : P b (s.resetHead h) := by
  unfold State.resetHead
  dsimp only
  split
  · exact hP.enterLifting h (hP.congr hs rfl rfl rfl rfl)
  · exact hP.congr hs rfl rfl rfl rfl

/-! ### The moves of the job -/

theorem enterHeld (r : HoldReason) (hs : P b s) : P b (s.enterHeld r) :=
  hP.raise .held (hP.liftUsed (hP.congr hs rfl rfl rfl rfl))

theorem enterDone (hs : P b s) : P b s.enterDone := hP.raise .done (hP.liftUsed (hP.congr hs rfl rfl rfl rfl))

/-- R31, R32: the waiting writes of a job that ends as ABORTED take effect with its build abandoned. -/
theorem enterAborted (hs : P b s) : P b s.enterAborted := by
  have hwrites := hP.abandonBuild (hP.congr
    (t := { s with run := { s.run.stop .aborted .none with markers := [] } }) hs rfl rfl rfl rfl)
  have hlifts := hP.liftUsed (hP.mapChans (fun _ c => c.empty) hwrites)
  exact hP.raise .aborted (hP.congr hlifts rfl rfl rfl rfl)

theorem appendDamage (r : DamageRecord) (hs : P b s) : P b (s.appendDamage r) := by
  unfold State.appendDamage
  split
  · exact hP.congr hs rfl rfl rfl rfl
  · exact hs

theorem removeDamaged (hs : P b s) : P b s.removeDamaged := hP.raise .damage (hP.congr hs rfl rfl rfl rfl)

/-- R141, R146: one STEP, the markers of t, and the advance of t. -/
theorem advance (hs : P b s) : P b s.pulseStep.fireMarkers.advanceTrack := by
  have hfired : P b s.pulseStep.fireMarkers :=
    raiseAll_keeps (fun _ x ht => hP.raise x ht) _ (hP.congr hs rfl rfl rfl rfl)
  exact hP.congr hfired rfl rfl rfl rfl

theorem retireDamaged (c : Cause) (m : BitVec 4) (hs : P b s) : P b (s.retireDamaged c m) := by
  unfold State.retireDamaged
  split
  · have hnext := hP.advance (hP.removeDamaged (hP.appendDamage (s.damageRecord c m) hs))
    dsimp only
    split
    · exact hP.enterDone hnext
    · exact hP.enterHeld .fault hnext
  · exact hP.enterAborted (hP.removeDamaged hs)

theorem retireTrack (hs : P b s) : P b s.retireTrack :=
  hP.advance (wearUsed_keeps (fun _ ht => hP.raise .wear ht) (hP.congr hs rfl rfl rfl rfl))

theorem readiness (hs : P b s) : P b s.readiness := by
  have hslip : P b s.slip := hP.raise .slip (hP.congr hs rfl rfl rfl rfl)
  unfold State.readiness
  split
  · exact hP.congr hs rfl rfl rfl rfl
  · dsimp only
    split
    · exact hP.enterHeld .starved hslip
    · exact hslip

theorem closeCut (hs : P b s) : P b s.closeCut := by
  unfold State.closeCut
  split
  · exact hP.retireDamaged .short _ (foldHeads_keeps (fun h _ ht => hP.shortCommand h ht) _ hs)
  · have hnext := hP.retireTrack hs
    dsimp only
    split
    · exact hP.enterDone hnext
    · split
      · exact hP.enterHeld .request hnext
      · exact hP.readiness hnext

theorem settle (hs : P b s) : P b s.settle := by
  unfold State.settle
  split
  · dsimp only
    split
    · exact hP.readiness (hP.congr hs rfl rfl rfl rfl)
    · exact hP.congr hs rfl rfl rfl rfl
  · exact hP.congr hs rfl rfl rfl rfl

theorem indexEvent (hs : P b s) : P b s.indexEvent := by
  unfold State.indexEvent
  cases s.run.jobState with
  | lowering => exact hP.settle hs
  | running =>
    dsimp only
    split
    · exact hP.closeCut hs
    · exact hP.readiness hs
  | none | prepared | held | done | aborted => exact hs

theorem takeReport (r : FaultReport) (hs : P b s) : P b (s.takeReport r) := by
  unfold State.takeReport
  split
  · cases s.run.jobState with
    | lowering => exact hP.enterHeld .fault hs
    | running =>
      dsimp only
      split
      · exact hP.retireDamaged _ _ hs
      · exact hP.enterHeld .fault hs
    | none | prepared | held | done | aborted => exact hs
  · exact hs

/-- R104: a completion ends the build in flight as an abandonment does, and the waiting writes take effect. -/
theorem completeBuild (r : BuildRecord) (hs : P b s) : P b (s.completeBuild r) :=
  hP.abandonBuild (s := { s.lineQueued r with build := { (s.lineQueued r).build with inFlight := s.build.inFlight } })
    (hP.congr hs rfl rfl rfl rfl)

/-! ### Owners of requests -/

theorem ownJstart (p : List Word) (hs : P b s) : P b (ownJstart p s).state := by
  unfold Machine.ownJstart
  split
  · exact hs
  · exact hP.congr hs rfl rfl rfl rfl

theorem ownJresume (p : List Word) (hs : P b s) : P b (ownJresume p s).state := by
  unfold Machine.ownJresume
  split
  · exact hs
  · exact hP.congr hs rfl rfl rfl rfl

theorem ownJhold (p : List Word) (hs : P b s) : P b (ownJhold p s).state := by
  show P b s.holdJob
  unfold State.holdJob
  split
  · exact hP.congr hs rfl rfl rfl rfl
  · exact hP.enterHeld .request hs

theorem ownJabort (p : List Word) (hs : P b s) : P b (ownJabort p s).state := by
  refine hP.enterAborted ?_
  unfold State.abortCut
  split
  · exact hP.removeDamaged (hP.appendDamage _ hs)
  · exact hs

theorem ownSdef (p : List Word) (hs : P b s) : P b (ownSdef p s).state := by
  unfold Machine.ownSdef
  dsimp only
  split
  · exact hs
  · exact hP.congr hs rfl rfl rfl rfl

theorem ownSrel (p : List Word) (hs : P b s) : P b (ownSrel p s).state := by
  unfold Machine.ownSrel
  dsimp only
  split
  · exact hs
  · exact hP.congr hs rfl rfl rfl rfl

theorem ownWset (p : List Word) (hs : P b s) : P b (ownWset p s).state := by
  unfold Machine.ownWset
  dsimp only
  split
  · exact hs
  · split
    · exact hs
    · exact hP.congr hs rfl rfl rfl rfl

theorem ownHreset (p : List Word) (hs : P b s) : P b (ownHreset p s).state := by
  unfold Machine.ownHreset
  split
  · dsimp only
    split
    · exact hP.resetHead _ hs
    · exact hs
  · exact hs

theorem ownEvset (l : Link) (p : List Word) (hs : P b s) : P b (ownEvset l p s).state := by
  have hmask : P b { s with event := s.event.setMask l (s.event.mask l ||| maskOperand p) } :=
    hP.congr hs rfl rfl rfl rfl
  show P b (s.enable l (maskOperand p))
  unfold State.enable
  dsimp only
  split
  · exact hmask
  · exact hP.noticeDue l _ hmask

theorem takeRow (p : List Word) (hs : P b s) : P b (s.takeRow p).2.2 := by
  have halloc : ∀ k, P b (s.allocate k) := fun k => by
    unfold State.allocate
    dsimp only
    split
    · exact hP.raise .storelow (hP.congr hs rfl rfl rfl rfl)
    · exact hP.congr hs rfl rfl rfl rfl
  unfold State.takeRow
  dsimp only
  split
  · exact hs
  · exact hs
  · split
    · exact hP.congr hs rfl rfl rfl rfl
    · exact hP.congr (halloc _) rfl rfl rfl rfl

theorem takeMarker (p : List Word) (hs : P b s) : P b (s.takeMarker p).2 := by
  unfold State.takeMarker
  dsimp only
  split
  · split
    · exact hs
    · split
      · exact hP.raise _ hs
      · split
        · exact hs
        · exact hP.congr hs rfl rfl rfl rfl
  · exact hs

end LinkInvariant

/-- An owner that reads leaves the state as it is. -/
theorem ownWread_state (p : List Word) (s : State) : (ownWread p s).state = s := by
  unfold ownWread
  dsimp only
  split <;> rfl

theorem ownTread_state (p : List Word) (s : State) : (ownTread p s).state = s := by
  unfold ownTread
  dsimp only
  split_ifs <;> rfl

theorem ownHquery_state (p : List Word) (s : State) : (ownHquery p s).state = s := by
  unfold ownHquery
  split <;> rfl

end Sys2Proof.Machine
end

section
/-!
The writes of TABLES: the checks of TLOAD, MLOAD and HTRIM, a write taken at once or queued behind a build, the
waiting writes, and the trim function (R82, R84, R86, R87, R89, R90).
-/

namespace Sys2Proof.Machine

/-! ### What the checks accept -/

/-- R82: TLOAD's checks, the entries as the payload gives them. -/
theorem parseTload_eq_some {p : List Word} {w : TableWrite} : parseTload p = some w ↔
    ∃ k : Fin 16, (word p 1).toNat = k.val ∧ (toneEntries p).length = 256 ∧ (∀ e ∈ toneEntries p, e ≤ 1023) ∧
      (toneEntries p).head? = some 0 ∧ w = .tone k (toneEntries p) := by
  unfold parseTload
  dsimp only
  constructor
  · intro h
    split_ifs at h with hn hc
    injection h with h
    obtain ⟨hlen, hmax, hfirst⟩ := hc
    exact ⟨⟨_, hn⟩, rfl, hlen, by simpa using hmax, hfirst, h.symm⟩
  · rintro ⟨k, hk, hlen, hmax, hfirst, rfl⟩
    rw [dif_pos (hk ▸ k.isLt), if_pos ⟨hlen, by simpa using hmax, hfirst⟩]
    exact congrArg (fun n => some (TableWrite.tone n _)) (Fin.ext hk)

/-- R84: MLOAD's checks, the pattern as it is stored. -/
theorem parseMload_eq_some {p : List Word} {w : TableWrite} : parseMload p = some w ↔
    ∃ k : Fin 8, (word p 1).toNat = k.val ∧
      ((1 ≤ bits (word p 2) 31 24 ∧ bits (word p 2) 31 24 ≤ 16) ∧
        (1 ≤ bits (word p 2) 23 16 ∧ bits (word p 2) 23 16 ≤ 16) ∧
        1 ≤ bits (word p 2) 15 0 ∧ bits (word p 2) 15 0 ≤ 1023) ∧
      p.length = 11 ∧ w = .pattern k (MarkPattern.ofWords p) := by
  unfold parseMload
  dsimp only
  constructor
  · intro h
    split_ifs at h with hn hc
    injection h with h
    obtain ⟨hw, hw', hh, hh', hd, hd', hlen⟩ := hc
    exact ⟨⟨_, hn⟩, rfl, ⟨⟨hw, hw'⟩, ⟨hh, hh'⟩, hd, hd'⟩, hlen, h.symm⟩
  · rintro ⟨k, hk, ⟨⟨hw, hw'⟩, ⟨hh, hh'⟩, hd, hd'⟩, hlen, rfl⟩
    rw [dif_pos (hk ▸ k.isLt), if_pos ⟨hw, hw', hh, hh', hd, hd', hlen⟩]
    exact congrArg (fun n => some (TableWrite.pattern n _)) (Fin.ext hk)

/-- R86: a trim record in the ranges HTRIM checks. -/
def Trim.inRange (r : Trim) : Prop :=
  (500 ≤ r.gain ∧ r.gain ≤ 1500) ∧ (-128 ≤ r.offset ∧ r.offset ≤ 127) ∧ 1 ≤ r.clamp ∧ r.clamp ≤ 1023

/-- R86: HTRIM's checks, with the record and clear_count as the payload gives them. -/
theorem parseHtrim_eq_some {p : List Word} {w : TableWrite} : parseHtrim p = some w ↔
    ∃ k : Fin 4, (word p 1).toNat = k.val ∧
      (Trim.ofWords (word p 2) (word p 3) (word p 4) (word p 5)).inRange ∧
      w = .trim k (Trim.ofWords (word p 2) (word p 3) (word p 4) (word p 5)) ((word p 3).getLsbD 0) := by
  unfold parseHtrim
  dsimp only
  constructor
  · intro h
    split_ifs at h with hn hc
    injection h with h
    obtain ⟨hg, hg', hf, hf', hc, hc'⟩ := hc
    exact ⟨⟨_, hn⟩, rfl, ⟨⟨hg, hg'⟩, ⟨hf, hf'⟩, hc, hc'⟩, h.symm⟩
  · rintro ⟨k, hk, ⟨⟨hg, hg'⟩, ⟨hf, hf'⟩, hc, hc'⟩, rfl⟩
    rw [dif_pos (hk ▸ k.isLt), if_pos ⟨hg, hg', hf, hf', hc, hc'⟩]
    exact congrArg (fun n => some (TableWrite.trim n _ _)) (Fin.ext hk)

/-! ### The map of a pattern -/

/-- R173: value x of packed words stands in word x div 2, the first of a word in its bits 31-16. -/
theorem getElem?_halves (ws : List Word) (x : Nat) : (ws.flatMap halvesOfWord)[x]? =
    (ws[x / 2]?).map fun w => if x % 2 = 0 then bits w 31 16 else bits w 15 0 := by
  induction ws generalizing x with
  | nil => simp
  | cons w ws ih =>
    rw [List.flatMap_cons]
    match x with
    | 0 | 1 => rfl
    | x + 2 =>
      rw [List.getElem?_append_right (Nat.le_add_left 2 x), Nat.add_div_right x (by decide), Nat.add_mod_right]
      exact ih x

theorem length_halves (ws : List Word) : (ws.flatMap halvesOfWord).length = 2 * ws.length := by
  simp [List.length_flatMap, halvesOfWord, Nat.mul_comm]

theorem length_map_ofWords {p : List Word} (hp : p.length = 11) : (MarkPattern.ofWords p).map.length = 16 := by
  rw [MarkPattern.ofWords, maskMap, List.length_mapIdx, mapRows, List.length_map, length_halves, List.length_drop, hp]

/-- 11.5: bit i of the first of a word's two 16-bit values is its bit 16 + i, of the second its bit i. -/
theorem getLsbD_half (w : Word) (x : Nat) {i : Nat} (hi : i < 16) :
    (BitVec.ofNat 16 (if x % 2 = 0 then bits w 31 16 else bits w 15 0)).getLsbD i =
      w.getLsbD (if x % 2 = 0 then 16 + i else i) := by
  rw [BitVec.getLsbD_ofNat, decide_eq_true hi, Bool.true_and]
  split
  all_goals rw [bits, Nat.testBit_mod_two_pow, decide_eq_true (by omega), Bool.true_and, Nat.testBit_div_two_pow,
    BitVec.testBit_toNat]
  · rw [Nat.add_comm]
  · rfl

/-- 11.5: the mask of a width has bit 15 - c for each column c below it. -/
theorem getLsbD_columnMask (width : Nat) {c : Nat} (hc : c < 16) :
    (columnMask width).getLsbD (15 - c) = decide (c < width) := by
  rw [columnMask, BitVec.getLsbD_not, BitVec.getLsbD_ushiftRight]
  by_cases h : c < width
  · rw [BitVec.getLsbD_of_ge _ _ (by omega)]
    simp [h, show 15 - c < 16 by omega]
  · have hones : (0xFFFF#16) = BitVec.allOnes 16 := by decide
    rw [hones, BitVec.getLsbD_allOnes]
    simp [h, show width + (15 - c) < 16 by omega]

/-- R84, 11.5: row r of a payload's map. -/
theorem getElem?_mapRows {p : List Word} (hp : p.length = 11) {r : Nat} (hr : r < 16) : (mapRows p)[r]? =
    some (BitVec.ofNat 16 (if r % 2 = 0 then bits (word p (3 + r / 2)) 31 16 else bits (word p (3 + r / 2)) 15 0)) := by
  have hlt : 3 + r / 2 < p.length := by omega
  simp only [mapRows, List.getElem?_map, getElem?_halves, List.getElem?_drop, List.getElem?_eq_getElem hlt,
    Option.map_some, word, List.getD_eq_getElem?_getD, Option.getD_some]

/-- R84: an entry of a stored map is on where it lies inside width and height and is on as sent. -/
theorem isOn_ofWords {p : List Word} (hp : p.length = 11) {r c : Nat} (hr : r < 16) (hc : c < 16) :
    (MarkPattern.ofWords p).isOn r c = true ↔ r < bits (word p 2) 23 16 ∧ c < bits (word p 2) 31 24 ∧
      (word p (3 + r / 2)).getLsbD (if r % 2 = 0 then 31 - c else 15 - c) = true := by
  have hbit : (if r % 2 = 0 then 16 + (15 - c) else 15 - c) = if r % 2 = 0 then 31 - c else 15 - c := by
    split <;> omega
  simp only [MarkPattern.isOn, MarkPattern.ofWords, maskMap, List.getD_eq_getElem?_getD, List.getElem?_mapIdx,
    getElem?_mapRows hp hr, Option.map_some, Option.getD_some]
  by_cases hh : r < bits (word p 2) 23 16
  · rw [if_pos hh, BitVec.getLsbD_and, getLsbD_half _ _ (by omega), hbit, getLsbD_columnMask _ hc]
    simp [hh, and_comm]
  · simp [hh]

/-! ### What is accepted lies in its ranges -/

theorem parseTload_sound {p : List Word} {w : TableWrite} (h : parseTload p = some w) : w.sound := by
  obtain ⟨k, -, hlen, hmax, hfirst, rfl⟩ := parseTload_eq_some.1 h
  exact ⟨hlen, hmax, hfirst⟩

theorem parseMload_sound {p : List Word} {w : TableWrite} (h : parseMload p = some w) : w.sound := by
  obtain ⟨k, -, hranges, hlen, rfl⟩ := parseMload_eq_some.1 h
  refine ⟨length_map_ofWords hlen, fun _ => hranges, fun r c hr hc hout => ?_⟩
  rw [← Bool.not_eq_true, isOn_ofWords hlen hr hc]
  rintro ⟨hrow, hcol, -⟩
  rcases hout with hout | hout
  · exact Nat.not_le_of_lt hrow hout
  · exact Nat.not_le_of_lt hcol hout

/-- R173: a 48-bit value fits its field. -/
theorem read48_le (hi lo : Word) : read48 hi lo ≤ max48 := by
  have hhi : bits hi 15 0 < 65536 := Nat.mod_lt _ (by decide)
  have hlo := lo.isLt
  unfold read48 max48
  omega

theorem parseHtrim_sound {p : List Word} {w : TableWrite} (h : parseHtrim p = some w) : w.sound := by
  obtain ⟨k, -, ⟨hgain, hoffset, hclamp⟩, rfl⟩ := parseHtrim_eq_some.1 h
  exact ⟨hgain, hoffset, hclamp, read48_le _ _⟩

/-! ### A write refused, taken at once, or queued -/

/-- R160: a request of a zone that its link holds, not locked, in its states and of its size passes dispatch. -/
theorem dispatch_of_holdsZone {s : State} {l : Link} {c : ReqCode} {z : Zone} {p : List Word} (hz : c.zone = some z)
    (hheld : s.holdsZone l z = true) (hlock : s.lockPasses c = true) (ha : c.acceptedIn s.run.jobState = true)
    (hf : c.fixedPart p.length = true) : s.dispatch l c p = none := by
  have hzone : s.zonePasses l c = true := (zonePasses_of_zone hz).trans hheld
  simp [State.dispatch, hzone, hlock, ha, hf]

theorem applyWrite_writeQueue (w : TableWrite) (s : State) :
    (s.applyWrite w).tables.writeQueue = s.tables.writeQueue := by
  unfold State.applyWrite
  split
  · rfl
  · rfl
  · dsimp only
    split <;> rfl

/-- A write of TABLES and a link's port are replaced independently. -/
theorem applyWrite_setPort (w : TableWrite) (s : State) (l : Link) (x : Port) :
    (s.setPort l x).applyWrite w = (s.applyWrite w).setPort l x := by
  cases w with
  | tone n es => cases l <;> rfl
  | pattern n m => cases l <;> rfl
  | trim h r clear => cases clear <;> cases l <;> rfl

section
variable {s : State} {l : Link} {tag : Byte} {c : ReqCode} {ops : List Word} {rest : List InFrame}
  {parse : List Word → Option TableWrite} {w : TableWrite}

theorem serveWrite_of_offers (ho : s.offers l (requestFrame tag c ops) rest)
    (hd : s.dispatch l c (c.word :: ops) = none) : serveWrite c l parse s =
      .next ((s.taken l rest).takeWrite l (requestFrame tag c ops) (parse (c.word :: ops))) := by
  have hd' : s.dispatch l c (requestFrame tag c ops).payload = none := hd
  simp only [serveWrite, settleStep, takeFrame_of_offers s l ho (isRequest_requestFrame tag c ops), taken_dispatch, hd',
    Option.getD_some]
  rfl

/-- R82, R84, R86: a write that fails its checks is answered RANGE and changes nothing. -/
theorem serveWrite_out_of_range (ho : s.offers l (requestFrame tag c ops) rest)
    (hd : s.dispatch l c (c.word :: ops) = none) (hw : parse (c.word :: ops) = none) :
    serveWrite c l parse s = .next (s.answered l rest (requestReply tag c .range [])) := by
  rw [serveWrite_of_offers ho hd, hw, ← queueReply_taken, ← answer_requestFrame tag c ops]
  rfl

/-- R89: with no build in flight an accepted write takes effect and is answered. -/
theorem serveWrite_at_once (ho : s.offers l (requestFrame tag c ops) rest)
    (hd : s.dispatch l c (c.word :: ops) = none) (hw : parse (c.word :: ops) = some w)
    (hb : s.build.inFlight = none) :
    serveWrite c l parse s = .next ((s.applyWrite w).answered l rest (requestReply tag c .accepted [])) := by
  have htaken : (s.taken l rest).applyWrite w = (s.applyWrite w).taken l rest := by
    rw [State.taken, applyWrite_setPort, ← applyWrite_port w s l, ← State.taken]
  rw [serveWrite_of_offers ho hd, hw, ← queueReply_taken, ← htaken, ← answer_requestFrame tag c ops]
  simp only [State.takeWrite, taken_build, hb]

/-- R89: with a build in flight an accepted write joins the write queue and is not answered. -/
theorem serveWrite_deferred (ho : s.offers l (requestFrame tag c ops) rest)
    (hd : s.dispatch l c (c.word :: ops) = none) (hw : parse (c.word :: ops) = some w)
    (hb : s.build.inFlight ≠ none) :
    serveWrite c l parse s = .next { s.taken l rest with
      tables := { s.tables with writeQueue := s.tables.writeQueue ++ [⟨l, tag, w⟩] } } := by
  obtain ⟨b, hb⟩ := Option.ne_none_iff_exists'.1 hb
  rw [serveWrite_of_offers ho hd, hw]
  simp only [State.takeWrite, taken_build, hb, State.deferWrite, taken_tables]
  rfl

end

/-! ### TLOAD, MLOAD and HTRIM -/

/-- Settles O36: the entries the statement names are those TLOAD checks. -/
theorem tloadReplacesATable : Obligations.TloadReplacesATable := by
  intro s l tag w1 data rest ho hheld hlock entries n
  have hd : s.dispatch l .tload (ReqCode.tload.word :: w1 :: data) = none :=
    dispatch_of_holdsZone rfl hheld hlock rfl (by simp [ReqCode.fixedPart])
  refine ⟨fun hbad => ?_, fun k hn hlen hmax hfirst => ?_⟩
  · refine serveWrite_out_of_range ho hd (Option.eq_none_iff_forall_ne_some.2 fun w hw => ?_)
    obtain ⟨k, hn, hlen, hmax, hfirst, -⟩ := parseTload_eq_some.1 hw
    rcases hbad with hbad | hbad | ⟨e, he, hbad⟩ | hbad
    · exact absurd (lt_of_eq_of_lt hn k.isLt) (Nat.not_lt_of_le hbad)
    · exact hbad hlen
    · exact absurd (hmax e he) (Nat.not_le_of_lt hbad)
    · exact hbad hfirst
  · have hw := (parseTload_eq_some (p := ReqCode.tload.word :: w1 :: data)).2 ⟨k, hn, hlen, hmax, hfirst, rfl⟩
    exact ⟨serveWrite_at_once ho hd hw, serveWrite_deferred ho hd hw⟩

/-- Settles O37: the pattern is the payload's as it is stored, its entries outside width and height off. -/
theorem mloadReplacesAPattern : Obligations.MloadReplacesAPattern := by
  intro s l tag w1 w2 data rest ho hheld hlock width height depth n
  have hd : s.dispatch l .mload (ReqCode.mload.word :: w1 :: w2 :: data) = none :=
    dispatch_of_holdsZone rfl hheld hlock rfl (by simp [ReqCode.fixedPart])
  refine ⟨fun hbad => ?_, fun k hn hwidth hheight hdepth hlen => ?_⟩
  · refine serveWrite_out_of_range ho hd (Option.eq_none_iff_forall_ne_some.2 fun w hw => ?_)
    obtain ⟨k, hn, ⟨hwidth, hheight, hdepth⟩, hlen, -⟩ := parseMload_eq_some.1 hw
    have hk : n < 8 := lt_of_eq_of_lt hn k.isLt
    have hwidth : 1 ≤ width ∧ width ≤ 16 := hwidth
    have hheight : 1 ≤ height ∧ height ≤ 16 := hheight
    have hdepth : 1 ≤ depth ∧ depth ≤ 1023 := hdepth
    simp only [List.length_cons] at hlen
    omega
  · have hlen : (ReqCode.mload.word :: w1 :: w2 :: data).length = 11 := by simp [hlen]
    have hw := (parseMload_eq_some (p := ReqCode.mload.word :: w1 :: w2 :: data)).2
      ⟨k, hn, ⟨hwidth, hheight, hdepth⟩, hlen, rfl⟩
    refine ⟨_, rfl, rfl, rfl, rfl, length_map_ofWords hlen, fun r c hr hc => ?_, serveWrite_at_once ho hd hw,
      serveWrite_deferred ho hd hw⟩
    rw [isOn_ofWords hlen hr hc, Nat.add_comm 3]
    rfl

/-- 11.5: the offset of a trim record is the low half of its first word, signed. -/
theorem ofNat_bits_low (w : Word) : BitVec.ofNat 16 (bits w 15 0) = w.setWidth 16 := by
  apply BitVec.eq_of_toNat_eq
  simp [bits, BitVec.toNat_setWidth]

/-- Settles O38: the record the statement names is the one HTRIM checks. -/
theorem htrimReplacesATrim : Obligations.HtrimReplacesATrim := by
  intro s l tag w1 t0 t1 t2 t3 rest ho hheld hlock r clear n
  have hr : Trim.ofWords t0 t1 t2 t3 = r := by rw [Trim.ofWords, ofNat_bits_low]; rfl
  have hd : s.dispatch l .htrim [ReqCode.htrim.word, w1, t0, t1, t2, t3] = none :=
    dispatch_of_holdsZone rfl hheld hlock rfl rfl
  refine ⟨fun hbad => ?_, fun k hn hgain hoffset hclamp => ?_⟩
  · refine serveWrite_out_of_range ho hd (Option.eq_none_iff_forall_ne_some.2 fun w hw => ?_)
    obtain ⟨k, hn, hrange, -⟩ := parseHtrim_eq_some.1 hw
    have hk : n < 4 := lt_of_eq_of_lt hn k.isLt
    obtain ⟨hgain, hoffset, hclamp⟩ : r.inRange := hr ▸ hrange
    omega
  · have hrange : (Trim.ofWords t0 t1 t2 t3).inRange := hr ▸ ⟨hgain, hoffset, hclamp⟩
    have hw : parseHtrim [ReqCode.htrim.word, w1, t0, t1, t2, t3] = some (.trim k r clear) := by
      rw [← hr]
      exact parseHtrim_eq_some.2 ⟨k, hn, hrange, rfl⟩
    exact ⟨serveWrite_at_once ho hd hw, serveWrite_deferred ho hd hw⟩

/-! ### The waiting writes -/

theorem finishWrites_tables (s : State) : s.finishWrites.tables = { s.writesApplied.tables with writeQueue := [] } :=
  congrArg (fun x : Tables => { x with writeQueue := [] })
    (foldFinish_writes s.tables.writeQueue (s := s) (t := s) rfl rfl).1

theorem finishWrites_heads (s : State) : s.finishWrites.heads = s.writesApplied.heads :=
  (foldFinish_writes s.tables.writeQueue (s := s) (t := s) rfl rfl).2

/-- R90: each link gets the replies to its own waiting writes and is READY again. -/
theorem finishWrites_port (s : State) (l : Link) : s.finishWrites.port l = { s.port l with
    out := (s.port l).out ++ (s.tables.writeQueue.filter fun q => q.link == l).map QueuedWrite.answer
    handling := if 0 < s.waitingWrites l then .ready else (s.port l).handling } := by
  have hport := foldFinish_port s.tables.writeQueue s l
  cases l <;> exact hport

/-- Settles O39: the writes act on tables and channels in their order, each reply on its own link. -/
theorem waitingWritesTakeEffectInOrder : Obligations.WaitingWritesTakeEffectInOrder := by
  intro s t
  refine ⟨?_, finishWrites_tables s, finishWrites_heads s, finishWrites_port s⟩
  rw [show t = _ from finishWrites_eq s]

/-! ### The trim function -/

/-- R87: the scaled value of a depth, before it is raised to 1 or lowered to the clamp. -/
def Trim.scaled (r : Trim) (d : Nat) : Int := (d * r.gain / 1000 : Nat) + r.offset

theorem drive_eq (r : Trim) {d : Nat} (hd : d ≠ 0) : r.drive d =
    if r.scaled d < 1 then 1 else if (r.clamp : Int) < r.scaled d then r.clamp else (r.scaled d).toNat := if_neg hd

theorem scaled_le {r : Trim} (hr : r.sound) {d : Nat} (hd : d ≤ 1023) : r.scaled d ≤ 1661 := by
  obtain ⟨⟨-, hgain⟩, ⟨-, hoffset⟩, -⟩ := hr
  have hmul : d * r.gain ≤ 1023 * 1500 := Nat.mul_le_mul hd hgain
  unfold Trim.scaled
  omega

/-- R87: the drive value of a depth other than 0 lies between 1 and the clamp. -/
theorem drive_bounds {r : Trim} (hclamp : 1 ≤ r.clamp) {d : Nat} (hd : d ≠ 0) :
    1 ≤ r.drive d ∧ r.drive d ≤ r.clamp := by
  rw [drive_eq r hd]
  split
  · exact ⟨Nat.le_refl 1, hclamp⟩
  · split
    · exact ⟨hclamp, Nat.le_refl _⟩
    · omega

/-- Settles O40: the three cases of the scaled value, each between 1 and the clamp. -/
theorem trimFunctionGivesTheDriveValue : Obligations.TrimFunctionGivesTheDriveValue := by
  intro r d hr hd
  have hscaled := scaled_le hr hd
  obtain ⟨-, -, ⟨hclamp, hmax⟩, -⟩ := hr
  have hle : r.drive d ≤ r.clamp := by
    rcases eq_or_ne d 0 with rfl | h
    · exact Nat.zero_le _
    · exact (drive_bounds hclamp h).2
  refine ⟨fun h => if_pos h, fun h v hv => ?_, hle, hle.trans hmax, fun h => ?_, fun h => if_pos h⟩
  · obtain rfl : v = r.scaled d := hv
    rw [drive_eq r h]
    refine ⟨fun hlow => if_pos hlow, fun hhigh => ?_, fun hlow hhigh => ?_, hscaled⟩
    · rw [if_neg (by omega), if_pos hhigh]
    · rw [if_neg (by omega), if_neg (by omega), Int.toNat_of_nonneg (by omega)]
  · by_contra hne
    exact absurd (drive_bounds hclamp hne).1 (by omega)

end Sys2Proof.Machine
end

section
/-!
Every command keeps a condition on links, TABLES and the build in flight that LINK's and TABLES's operations keep,
command by command; and with it every step.
-/

namespace Sys2Proof.Machine

/-- R12: DRESET passes dispatch on the S-link alone. -/
theorem eq_s_of_dispatch_dreset {s : State} {l : Link} {p : List Word} (h : s.dispatch l .dreset p = none) :
    l = .s := by
  by_contra hl
  rw [dispatch_of_not_zonePasses (by rw [zonePasses_dreset]; exact decide_eq_false hl)] at h
  cases h

/-- R17: JOPEN and JCLOSE are accepted with no head on the copper. -/
theorem offCopper_of_acceptedIn {c : ReqCode} (hc : c = .jopen ∨ c = .jclose) {j : JobState}
    (ha : c.acceptedIn j = true) : j.onCopper = false := by
  revert ha
  rcases hc with rfl | rfl <;> cases j <;> decide

namespace LinkInvariant

variable {P : Option Link → State → Prop} (hP : LinkInvariant P) {s t : State} {l : Link}
include hP

/-! ### Frames taken -/

theorem takeFrame {u : State} {sort : InFrame → Bool} {f : InFrame} (hs : P none s)
    (h : s.takeFrame l sort = some (f, u)) : P (some l) u := by
  obtain ⟨rest, ho, -, rfl⟩ := (takeFrame_eq_some s l).1 h
  exact hP.taken hs ho

/-- A request keeps the condition where its owner does, in the states in which it is accepted. -/
theorem serve_keeps_accepted {c : ReqCode} {owner : List Word → State → Answer} (hs : P none s)
    (ho : ∀ p (u : State), u.build = s.build → c.acceptedIn s.run.jobState = true → P (some l) u →
      P (some l) (owner p u).state)
    (h : serve c l owner s = .next t) : P none t := by
  rcases serve_cases h with rfl | ⟨f, rest, hoff, -, ⟨cc, -, rfl⟩ | ⟨hd, rfl⟩⟩
  · exact hs
  · exact queueReply_taken s l rest _ ▸ hP.queueReply _ (hP.taken hs hoff)
  · exact hP.queueReply _ (ho _ _ (taken_build s l rest) (acceptedIn_of_dispatch hd) (hP.taken hs hoff))

theorem serve_keeps {c : ReqCode} {owner : List Word → State → Answer} (hs : P none s)
    (ho : ∀ p (u : State), P (some l) u → P (some l) (owner p u).state) (h : serve c l owner s = .next t) :
    P none t := hP.serve_keeps_accepted hs (fun p u _ _ => ho p u) h

/-- R89: a write of TABLES that its checks accept only in its ranges. -/
theorem serveWrite_keeps {c : ReqCode} {parse : List Word → Option TableWrite}
    (hparse : ∀ p w, parse p = some w → w.sound) (hs : P none s) (h : serveWrite c l parse s = .next t) :
    P none t := by
  refine settleStep_keeps hs (fun u hu => ?_) h
  split at hu
  · cases hu
  · next hf =>
    have htaken := hP.takeFrame hs hf
    split at hu <;> injection hu with hu <;> subst hu
    · exact hP.queueReply _ htaken
    · unfold State.takeWrite
      split
      · exact hP.queueReply _ htaken
      · next w hw =>
        split
        · exact hP.queueReply _ (hP.applyWrite htaken (hparse _ _ hw))
        · next b hb => exact hP.deferWrite _ htaken (hparse _ _ hw) (by rw [hb]; nofun)

theorem row_keeps (hs : P none s) (h : execRow l s = .next t) : P none t := by
  refine settleStep_keeps hs (fun u hu => ?_) h
  split at hu
  · cases hu
  · next hf =>
    have htaken := hP.takeFrame hs hf
    split at hu <;> injection hu with hu <;> subst hu
    · exact hP.queueReply _ htaken
    · exact hP.queueReply _ (hP.takeRow _ htaken)

theorem marker_keeps (hs : P none s) (h : execMarker l s = .next t) : P none t := by
  refine settleStep_keeps hs (fun u hu => ?_) h
  split at hu
  · cases hu
  · next hf =>
    have htaken := hP.takeFrame hs hf
    split at hu <;> injection hu with hu <;> subst hu
    · exact hP.queueReply _ htaken
    · exact hP.queueReply _ (hP.takeMarker _ htaken)

theorem unknownRequest_keeps (hs : P none s) (h : execUnknownRequest l s = .next t) : P none t := by
  refine settleStep_keeps hs (fun u hu => ?_) h
  split at hu
  · cases hu
  · next hf =>
    injection hu with hu
    subst hu
    exact hP.queueReply _ (hP.takeFrame hs hf)

theorem dreset_keeps (hs : P none s) (h : execDreset l s = .next t) : P none t := by
  refine settleStep_keeps hs (fun u hu => ?_) h
  split at hu
  · cases hu
  · next hf =>
    have htaken := hP.takeFrame hs hf
    split at hu <;> injection hu with hu <;> subst hu
    · exact hP.queueReply _ htaken
    · next hd =>
      obtain rfl := eq_s_of_dispatch_dreset hd
      exact hP.closeLink _ htaken

/-! ### Every command, every step -/

/-- What `exec` answers keeps the condition, where JOPEN and JCLOSE do. -/
theorem exec_keeps {c : Instr}
    (hclear : s.run.jobState.onCopper = false → ∀ l (u : State) h j, u.build = s.build → P (some l) u →
      P (some l) (u.clearJobData h j))
    (hs : P none s) (h : exec c s = .next t) : P none t := by
  have plain : ∀ {u : State}, P none u → (Host.Outcome.next u : Host.Outcome State Fault Refusal) = .next t →
      P none t := fun hu e => by injection e with e; exact e ▸ hu
  have guarded : ∀ {b : Bool} {u : State}, P none u → settleStep s (if b then some u else none) = .next t →
      P none t := fun hu => settleStep_keeps hs fun v hv => by
    split at hv
    · injection hv with hv; exact hv ▸ hu
    · cases hv
  cases c with
  | powerOnReset x => exact plain (hP.liftPresent (hP.cold s x)) h
  | jopen l =>
    refine hP.serve_keeps_accepted hs (fun p u hb ha hu => ?_) h
    unfold ownJopen
    split
    · exact hu
    · exact hclear (offCopper_of_acceptedIn (.inl rfl) ha) l u _ _ hb hu
  | jclose l =>
    exact hP.serve_keeps_accepted hs
      (fun p u hb ha hu => hclear (offCopper_of_acceptedIn (.inr rfl) ha) l u _ _ hb hu) h
  | jstart l => exact hP.serve_keeps hs (fun p _ hu => hP.ownJstart p hu) h
  | jhold l => exact hP.serve_keeps hs (fun p _ hu => hP.ownJhold p hu) h
  | jresume l => exact hP.serve_keeps hs (fun p _ hu => hP.ownJresume p hu) h
  | jabort l => exact hP.serve_keeps hs (fun p _ hu => hP.ownJabort p hu) h
  | jquery l | squery l | evread l | ident l => exact hP.serve_keeps hs (fun _ _ hu => hu) h
  | wread l => exact hP.serve_keeps hs (fun p u hu => (ownWread_state p u).symm ▸ hu) h
  | tread l => exact hP.serve_keeps hs (fun p u hu => (ownTread_state p u).symm ▸ hu) h
  | hquery l => exact hP.serve_keeps hs (fun p u hu => (ownHquery_state p u).symm ▸ hu) h
  | evclr l | evack l => exact hP.serve_keeps hs (fun _ _ hu => hP.congr hu rfl rfl rfl rfl) h
  | evset l => exact hP.serve_keeps hs (fun p _ hu => hP.ownEvset l p hu) h
  | sdef l => exact hP.serve_keeps hs (fun p _ hu => hP.ownSdef p hu) h
  | srel l => exact hP.serve_keeps hs (fun p _ hu => hP.ownSrel p hu) h
  | wset l => exact hP.serve_keeps hs (fun p _ hu => hP.ownWset p hu) h
  | hreset l => exact hP.serve_keeps hs (fun p _ hu => hP.ownHreset p hu) h
  | tload l => exact hP.serveWrite_keeps (parse := parseTload) (fun _ _ => parseTload_sound) hs h
  | mload l => exact hP.serveWrite_keeps (parse := parseMload) (fun _ _ => parseMload_sound) hs h
  | htrim l => exact hP.serveWrite_keeps (parse := parseHtrim) (fun _ _ => parseHtrim_sound) hs h
  | dreset l => exact hP.dreset_keeps hs h
  | dresetTakesEffect => exact guarded (hP.liftPresent (hP.mapChans _ (hP.coldKept hs))) h
  | row l => exact hP.row_keeps hs h
  | marker l => exact hP.marker_keeps hs h
  | unknownRequest l => exact hP.unknownRequest_keeps hs h
  | frameReceived l ws fin => exact plain (hP.receiveFrame l ws fin hs) h
  | frameSent l what =>
    cases what with
    | begun => exact plain (hP.beginSending l hs) h
    | ended => exact plain (hP.endSending l hs) h
  | indexEvent => exact plain (hP.indexEvent hs) h
  | settleComplete | holdLimit => exact guarded (hP.indexEvent hs) h
  | indexAtChannel k => exact plain (hP.indexAtChannel k hs) h
  | lowerTimeout k | liftTimeout k => exact guarded (hP.indexAtChannel k hs) h
  | downAck k e => exact plain (hP.inputEdge k _ _ (hP.downAck k) hs) h
  | upAck k e => exact plain (hP.inputEdge k _ _ (hP.upAck k) hs) h
  | presenceGained k => exact plain (hP.inputEdge k _ _ (hP.presenceGained k) hs) h
  | presenceLost k => exact plain (hP.inputEdge k _ _ (hP.presenceLost k) hs) h
  | driveFault k e => exact plain (hP.inputEdge k _ _ (hP.driveFault k) hs) h
  | lineTakenReport k e => exact plain (hP.inputEdge k _ _ (hP.lineTaken k) hs) h
  | faultReport k =>
    refine settleStep_keeps hs (fun u hu => ?_) h
    split at hu
    · cases hu
    · injection hu with hu
      exact hu ▸ hP.takeReport _ (hP.congr hs rfl rfl rfl rfl)
  | buildChoice =>
    refine settleStep_keeps hs (fun u hu => ?_) h
    obtain ⟨k, -, rfl⟩ := Option.map_eq_some_iff.1 hu
    exact hP.beginBuild k hs
  | buildCompletion =>
    refine settleStep_keeps hs (fun u hu => ?_) h
    obtain ⟨b, -, rfl⟩ := Option.map_eq_some_iff.1 hu
    exact hP.completeBuild b hs

/-- A step is a command on the rest of the queue, which the condition does not read. -/
theorem step_keeps
    (hclear : s.run.jobState.onCopper = false → ∀ l (u : State) h j, u.build = s.build → P (some l) u →
      P (some l) (u.clearJobData h j))
    (hs : P none s) (h : step s = .next t) : P none t := by
  unfold step at h
  split at h
  · injection h with h
    exact h ▸ hs
  · next rest _ => exact hP.exec_keeps (s := { s with pending := rest }) hclear (hP.congr hs rfl rfl rfl rfl) h

end LinkInvariant

end Sys2Proof.Machine
end

section
/-!
Every step keeps tone tables, patterns, trims and waiting writes in their ranges (O57; R81, R83 to R85).
-/

namespace Sys2Proof.Machine

/-- The ranges are a condition on TABLES alone. -/
theorem tablesSound_congr {s t : State} (hs : s.tablesSound) (ht : t.tables = s.tables) : t.tablesSound := by
  unfold State.tablesSound
  rw [ht]
  exact hs

/-- What holds of every entry and of a new one holds of every entry once the new one is stored. -/
theorem forall_mem_set {α : Type} {P : α → Prop} {n : Nat} {v : Vector α n} (hv : ∀ y ∈ v.toList, P y)
    {x : α} (hx : P x) (i : Nat) (hi : i < n) : ∀ y ∈ (v.set i x hi).toList, P y := by
  intro y hy
  rw [Vector.toList_set] at hy
  rcases List.mem_or_eq_of_mem_set hy with hy | rfl
  · exact hv y hy
  · exact hx

/-- R90: a write that carries contents the tables may hold keeps the ranges. -/
theorem applyWrite_tablesSound {s : State} {w : TableWrite} (hw : w.sound) (hs : s.tablesSound) :
    (s.applyWrite w).tablesSound := by
  obtain ⟨htones, hpatterns, htrims, hqueue⟩ := hs
  cases w with
  | tone n es => exact ⟨forall_mem_set htones hw _ n.isLt, hpatterns, htrims, hqueue⟩
  | pattern n m => exact ⟨htones, forall_mem_set hpatterns hw _ n.isLt, htrims, hqueue⟩
  | trim h r clear =>
    have htrim : State.tablesSound { s with tables := { s.tables with trims := s.tables.trims.set h.val r } } :=
      ⟨htones, hpatterns, forall_mem_set htrims hw _ h.isLt, hqueue⟩
    cases clear with
    | false => exact htrim
    | true => exact tablesSound_congr htrim rfl

theorem foldWrites_tablesSound {qs : List QueuedWrite} (hqs : ∀ q ∈ qs, q.write.sound)
    {s : State} (hs : s.tablesSound) : (qs.foldl (fun s q => s.applyWrite q.write) s).tablesSound := by
  induction qs generalizing s with
  | nil => exact hs
  | cons q qs ih =>
    obtain ⟨hq, hqs⟩ := List.forall_mem_cons.1 hqs
    exact ih hqs (applyWrite_tablesSound hq hs)

/-- R90: the waiting writes take effect, each in its ranges, and none waits any more. -/
theorem finishWrites_tablesSound {s : State} (hs : s.tablesSound) : s.finishWrites.tablesSound := by
  obtain ⟨-, -, -, hqueue⟩ := id hs
  obtain ⟨htones, hpatterns, htrims, -⟩ := foldWrites_tablesSound hqueue hs
  unfold State.tablesSound
  rw [finishWrites_tables]
  exact ⟨htones, hpatterns, htrims, nofun⟩

/-- TABLES is written by its own requests, by the end of the waiting writes and by a reset, and by nothing else. -/
theorem tablesSound_linkInvariant : LinkInvariant fun _ s => s.tablesSound where
  congr hs _ _ ht _ := tablesSound_congr hs ht
  raise _ hs := hs
  noticeDue _ _ hs := tablesSound_congr hs (setPort_tables _ _ _)
  abandonBuild hs := finishWrites_tablesSound (tablesSound_congr hs rfl)
  taken hs _ := tablesSound_congr hs (taken_tables _ _ _)
  queueReply _ hs := tablesSound_congr hs (queueReply_tables _ _ _)
  closeLink _ hs := tablesSound_congr hs rfl
  applyWrite hs hw := applyWrite_tablesSound hw hs
  deferWrite _ hs hw _ := by
    obtain ⟨htones, hpatterns, htrims, hqueue⟩ := hs
    exact ⟨htones, hpatterns, htrims, List.forall_mem_append.2 ⟨hqueue, List.forall_mem_singleton.2 hw⟩⟩
  beginBuild _ hs := tablesSound_congr hs rfl
  receiveFrame l ws fin hs := by
    unfold State.receiveFrame State.discardFrame
    dsimp only
    split
    · exact tablesSound_congr hs (by simp)
    · split <;> exact tablesSound_congr hs (by simp)
  beginSending _ hs := tablesSound_congr hs (setPort_tables _ _ _)
  endSending _ hs := tablesSound_congr hs (setPort_tables _ _ _)
  cold _ _ := tablesSound_congr reset_tablesSound rfl
  coldKept hs := by
    obtain ⟨htones, hpatterns, htrims, -⟩ := hs
    exact ⟨htones, hpatterns, htrims, nofun⟩

/-- Settles O57: JOPEN and JCLOSE leave TABLES, and every other command keeps its ranges by its operations. -/
theorem everyStepKeepsTheTablesSound : Obligations.EveryStepKeepsTheTablesSound := fun _ _ hs h =>
  tablesSound_linkInvariant.step_keeps (fun _ _ _ _ _ _ hu => tablesSound_congr hu rfl) hs h

end Sys2Proof.Machine
end

section
/-!
Every step keeps the links' buffers, queues and handling states and the write queue in bounds and in agreement (O56;
R89, R90, R157 to R159, R170).
-/

namespace Sys2Proof.Machine

/-! ### One link's port -/

/-- R159: frames that join the queue have not begun to be sent. -/
theorem waiting_append {x : Port} (hx : x.sending = true → x.out ≠ []) (fs : List OutFrame) (h : Handling) :
    ({ x with out := x.out ++ fs, handling := h } : Port).waiting = x.waiting ++ fs := by
  unfold Port.waiting
  dsimp only
  split
  · next hsend => exact List.drop_append_of_le_length (List.length_pos_iff.2 (hx hsend))
  · rfl

@[simp] theorem endSending_handling (x : Port) : x.endSending.handling = x.handling := by
  unfold Port.endSending
  split <;> rfl

/-- R170: a notice taken anew stays a notice, so a count of frames by their sort stays. -/
theorem countP_retake {p : OutFrame → Bool} {n : Notice} (hp : ∀ f, p (OutFrame.retake n f) = p f)
    (fs : List OutFrame) : (fs.map (OutFrame.retake n)).countP p = fs.countP p := by
  rw [List.countP_map]
  exact congrArg (List.countP · fs) (funext hp)

namespace Port.sound

variable {x y : Port}

theorem sending_ne_nil (hx : x.sound) : x.sending = true → x.out ≠ [] := by
  obtain ⟨-, -, -, -, -, hsend⟩ := hx
  exact hsend

/-- Other outbound frames with no more unsent replies and at most one pending notice keep a port in its bounds. -/
theorem of_waiting (hx : x.sound) (hin : y.input = x.input) (herr : y.errors = x.errors)
    (hhandling : y.handling = x.handling) (hreplies : y.unsentReplies ≤ x.unsentReplies)
    (hnotices : y.waiting.countP OutFrame.isNotice ≤ 1) (hsend : y.sending = true → y.out ≠ []) : y.sound := by
  obtain ⟨hbuffer, herrors, htwo, hone, -, -⟩ := hx
  exact ⟨hin ▸ hbuffer, herr ▸ herrors, hreplies.trans htwo, fun h => hreplies.trans (hone (hhandling ▸ h)), hnotices,
    hsend⟩

/-- R159: frames that are sent leave fewer unsent. -/
theorem of_sublist (hx : x.sound) (hin : y.input = x.input) (herr : y.errors = x.errors)
    (hhandling : y.handling = x.handling) (hsub : y.waiting.Sublist x.waiting) (hsend : y.sending = true → y.out ≠ []) :
    y.sound := by
  obtain ⟨-, -, -, -, hnotices, -⟩ := id hx
  exact hx.of_waiting hin herr hhandling hsub.countP_le (hsub.countP_le.trans hnotices) hsend

/-- R170: a pending notice taken anew. -/
theorem takeAnew (hx : x.sound) (n : Notice) : (x.takeAnew n).sound := by
  obtain ⟨-, -, -, -, hnotices, hsend⟩ := id hx
  refine hx.of_waiting rfl rfl rfl ?_ ?_ fun h => ?_
  · rw [Port.unsentReplies, waiting_takeAnew, countP_retake fun f => by cases f <;> rfl]
    exact Nat.le_refl _
  · rw [waiting_takeAnew, countP_retake fun f => by cases f <;> rfl]
    exact hnotices
  · have hlen : (x.takeAnew n).out.length = x.out.length := by
      rw [← begun_append_waiting x]
      simp [Port.takeAnew]
    have hne := List.length_pos_iff.2 (hsend h)
    exact List.length_pos_iff.1 (hlen ▸ hne)

/-- R170: a notice due is the link's only pending one. -/
theorem noticeDue (hx : x.sound) (n : Notice) : (x.noticeDue n).sound := by
  unfold Port.noticeDue
  split
  · exact hx.takeAnew n
  · next hnone =>
    have hwaiting := waiting_append hx.sending_ne_nil [.notice n] x.handling
    have hzero : x.waiting.countP OutFrame.isNotice = 0 := by
      rw [List.countP_eq_zero]
      simpa [Port.hasNotice] using hnone
    refine hx.of_waiting rfl rfl rfl ?_ ?_ fun _ => by simp
    · rw [Port.unsentReplies, hwaiting]
      simp [Port.unsentReplies, OutFrame.isReply]
    · rw [hwaiting, List.countP_append, hzero]
      simp [OutFrame.isNotice]

/-- R165: a raise, as a link hears it. -/
theorem hearRaise (hx : x.sound) (b : StatusBit) (was : Bool) (m : StatusWord) (n : Notice) :
    (x.hearRaise b was m n).sound := by
  unfold Port.hearRaise
  split
  · split
    · split
      · exact hx.takeAnew n
      · exact hx
    · exact hx.noticeDue n
  · exact hx

/-- R159: a frame begun is waiting no more. -/
theorem beginSending (hx : x.sound) : x.beginSending.sound := by
  refine hx.of_sublist rfl rfl rfl ?_ fun h => ?_
  · unfold Port.beginSending Port.waiting
    cases x.sending with
    | true => exact List.Sublist.refl _
    | false =>
      dsimp only
      split
      · exact List.drop_sublist 1 x.out
      · exact List.Sublist.refl _
  · rw [Port.beginSending, Bool.or_eq_true, Bool.and_eq_true] at h
    rcases h with h | ⟨h, -⟩
    · exact hx.sending_ne_nil h
    · simpa [Port.beginSending] using h

/-- R159: the frame sent leaves the queue. -/
theorem endSending (hx : x.sound) : x.endSending.sound := by
  unfold Port.endSending
  split
  · exact hx
  · refine beginSending (hx.of_sublist rfl rfl rfl ?_ nofun)
    unfold Port.waiting
    cases x.sending with
    | true => exact List.Sublist.refl _
    | false => exact List.drop_sublist 1 x.out

/-- R158: a link that takes a frame had fewer than two replies unsent. -/
theorem taken (hx : x.sound) {f : InFrame} {rest : List InFrame} (hin : x.input = f :: rest)
    (hunsent : x.unsentReplies < 2) : ({ x with input := rest, handling := .waiting } : Port).sound := by
  obtain ⟨hbuffer, herrors, htwo, -, hnotices, hsend⟩ := hx
  rw [hin] at hbuffer
  exact ⟨Nat.le_of_succ_le hbuffer, herrors, htwo, fun _ => Nat.le_of_lt_succ hunsent, hnotices, hsend⟩

/-- R158, R159: a WAITING link's reply is at most its second unsent. -/
theorem replied (hx : x.sound) (hw : x.handling = .waiting) (r : Reply) {h : Handling} (hh : h ≠ .waiting) :
    ({ x with out := x.out ++ [.reply r], handling := h } : Port).sound := by
  obtain ⟨hbuffer, herrors, -, hone, hnotices, hsend⟩ := hx
  have hwaiting := waiting_append hsend [.reply r] h
  refine ⟨hbuffer, herrors, ?_, fun e => absurd e hh, ?_, fun _ => by simp⟩
  · rw [Port.unsentReplies, hwaiting, List.countP_append]
    exact Nat.add_le_add_right (hone hw) 1
  · rw [hwaiting, List.countP_append]
    exact hnotices

end Port.sound

/-! ### The two links and the write queue -/

theorem port_setPort_eq_ite (s : State) (l m : Link) (x : Port) :
    (s.setPort l x).port m = if m = l then x else s.port m := by
  split
  · next e => rw [e, port_setPort]
  · next e => exact port_setPort_ne s l x e

/-- `State.linksSound` while a link handles the frame it has taken: that link is WAITING, and no write of its
own waits. -/
structure State.linksAgree (busy : Option Link) (s : State) : Prop where
  ports (l : Link) : (s.port l).sound
  writes (l : Link) : s.waitingWrites l = if (s.port l).handling = .waiting ∧ busy ≠ some l then 1 else 0
  handles (l : Link) (h : busy = some l) : (s.port l).handling = .waiting
  opened : (s.port .p).handling ≠ .closing
  idle (h : s.build.inFlight = none) : s.tables.writeQueue = []

theorem linksSound_iff (s : State) : s.linksSound ↔ s.linksAgree none := by
  constructor
  · rintro ⟨hports, hwrites, hopen, hidle⟩
    exact ⟨hports, fun l => by simpa using hwrites l, nofun, hopen, hidle⟩
  · rintro ⟨hports, hwrites, -, hopen, hidle⟩
    exact ⟨hports, fun l => by simpa using hwrites l, hopen, hidle⟩

namespace State.linksAgree

variable {busy : Option Link} {s t : State} {l : Link}

/-- Ports in their bounds with the same handling states agree with the same write queue. -/
theorem of_ports (hs : s.linksAgree busy) (hports : ∀ l, (t.port l).sound)
    (hhandling : ∀ l, (t.port l).handling = (s.port l).handling) (hq : t.tables.writeQueue = s.tables.writeQueue)
    (hb : t.build.inFlight = s.build.inFlight) : t.linksAgree busy where
  ports := hports
  writes k := by
    rw [State.waitingWrites, hq, hhandling k]
    exact hs.writes k
  handles k h := (hhandling k).trans (hs.handles k h)
  opened := hhandling .p ▸ hs.opened
  idle h := hq.trans (hs.idle (hb.symm.trans h))

theorem congr (hs : s.linksAgree busy) (hp : t.pLink = s.pLink) (hl : t.sLink = s.sLink) (ht : t.tables = s.tables)
    (hb : t.build.inFlight = s.build.inFlight) : t.linksAgree busy := by
  have hport : ∀ l, t.port l = s.port l := fun l => by
    cases l
    · exact hp
    · exact hl
  exact hs.of_ports (fun l => hport l ▸ hs.ports l) (fun l => congrArg Port.handling (hport l)) (by rw [ht]) hb

/-- One port replaced by another in its bounds with the same handling state. -/
theorem setPort (hs : s.linksAgree busy) (l : Link) {x : Port} (hx : x.sound)
    (hh : x.handling = (s.port l).handling) : (s.setPort l x).linksAgree busy := by
  refine hs.of_ports (fun k => ?_) (fun k => ?_) (by simp) (by simp)
  · rw [port_setPort_eq_ite]
    split
    · exact hx
    · exact hs.ports k
  · rw [port_setPort_eq_ite]
    split
    · next hk => rw [hh, hk]
    · rfl

theorem raise (hs : s.linksAgree busy) (b : StatusBit) : (s.raise b).linksAgree busy := by
  refine hs.of_ports (fun k => ?_) (fun k => raise_port_handling s k b) rfl rfl
  rw [raise_port]
  exact (hs.ports k).hearRaise _ _ _ _

/-- R158: the link that takes a frame is READY, so no write of its own waits. -/
theorem taken (hs : s.linksAgree none) {f : InFrame} {rest : List InFrame} (ho : s.offers l f rest) :
    (s.taken l rest).linksAgree (some l) := by
  obtain ⟨hin, hready, hunsent⟩ := ho
  have hnone : s.waitingWrites l = 0 := by rw [hs.writes l, hready]; rfl
  refine ⟨fun k => ?_, fun k => ?_, fun k hk => ?_, ?_, fun hb => ?_⟩
  · rw [State.taken, port_setPort_eq_ite]
    split
    · exact (hs.ports l).taken hin hunsent
    · exact hs.ports k
  · rw [State.waitingWrites, taken_tables]
    by_cases hk : k = l
    · subst hk
      simpa [State.waitingWrites] using hnone
    · rw [port_taken_ne s hk]
      simpa [State.waitingWrites, Ne.symm hk] using hs.writes k
  · injection hk with hk
    subst hk
    rw [port_taken]
  · rw [State.taken, port_setPort_eq_ite]
    split
    · nofun
    · exact hs.opened
  · rw [taken_tables]
    exact hs.idle (taken_build s l rest ▸ hb)

/-- R90: a write that takes effect leaves the links and the write queue. -/
theorem applyWrite (hs : s.linksAgree busy) (w : TableWrite) : (s.applyWrite w).linksAgree busy :=
  hs.of_ports (fun k => applyWrite_port w s k ▸ hs.ports k) (fun k => by rw [applyWrite_port])
    (applyWrite_writeQueue w s) (by rw [applyWrite_build])

/-- R158, R159, R164: a link answers the frame it has taken, and is READY again or, the S-link alone, CLOSING. -/
theorem replied (hs : s.linksAgree (some l)) (r : Reply) {h : Handling} (hh : h ≠ .waiting)
    (hclosing : l = .p → h ≠ .closing) :
    (s.setPort l { s.port l with out := (s.port l).out ++ [.reply r], handling := h }).linksAgree none := by
  refine ⟨fun k => ?_, fun k => ?_, nofun, ?_, fun hb => ?_⟩
  · rw [port_setPort_eq_ite]
    split
    · exact (hs.ports l).replied (hs.handles l rfl) r hh
    · exact hs.ports k
  · rw [State.waitingWrites, setPort_tables, port_setPort_eq_ite]
    have hk := hs.writes k
    split
    · next e =>
      subst e
      simpa [hh, State.waitingWrites] using hk
    · next e => simpa [Ne.symm e, State.waitingWrites] using hk
  · rw [port_setPort_eq_ite]
    split
    · next e => exact hclosing e.symm
    · exact hs.opened
  · rw [setPort_build] at hb
    rw [setPort_tables]
    exact hs.idle hb

/-- R89: the write of a link that has taken its request waits, and the link with it. -/
theorem deferWrite (hs : s.linksAgree (some l)) (tag : Byte) (w : TableWrite) (hb : s.build.inFlight ≠ none) :
    (s.deferWrite l tag w).linksAgree none := by
  have hport : ∀ k, (s.deferWrite l tag w).port k = s.port k := fun k => by cases k <;> rfl
  refine ⟨fun k => hport k ▸ hs.ports k, fun k => ?_, nofun, hs.opened, fun h => absurd h hb⟩
  rw [hport, State.waitingWrites, State.deferWrite, List.countP_append, ← State.waitingWrites, hs.writes k]
  by_cases hk : l = k
  · subst hk
    simp [hs.handles l rfl]
  · simp [hk]

/-- R89: with a build in flight the write queue may hold writes. -/
theorem beginBuild (hs : s.linksAgree busy) (h : Head) : (s.beginBuild h).linksAgree busy := by
  have hport : ∀ k, (s.beginBuild h).port k = s.port k := fun k => by cases k <;> rfl
  exact ⟨fun k => hport k ▸ hs.ports k, fun k => hport k ▸ hs.writes k, fun k hk => hport k ▸ hs.handles k hk,
    hs.opened, nofun⟩

/-- R90: a link with a waiting write gets one reply and is READY again; a link without one is left. -/
theorem abandonBuild_port (hs : s.linksAgree busy) (k : Link) :
    ((s.port k).handling = .waiting ∧ busy ≠ some k → ∃ r : Reply, s.abandonBuild.port k =
      { s.port k with out := (s.port k).out ++ [.reply r], handling := .ready }) ∧
    (¬ ((s.port k).handling = .waiting ∧ busy ≠ some k) → s.abandonBuild.port k = s.port k) := by
  have hport : s.abandonBuild.port k = { s.port k with
      out := (s.port k).out ++ (s.tables.writeQueue.filter fun q => q.link == k).map QueuedWrite.answer
      handling := if 0 < s.waitingWrites k then .ready else (s.port k).handling } := by
    have key := finishWrites_port { s with build := { s.build with inFlight := none } } k
    cases k <;> exact key
  have hcount : (s.tables.writeQueue.filter fun q => q.link == k).length = s.waitingWrites k :=
    List.countP_eq_length_filter.symm
  rw [hs.writes k] at hport hcount
  refine ⟨fun hk => ?_, fun hk => ?_⟩
  · rw [if_pos hk] at hport hcount
    obtain ⟨q, hq⟩ := List.length_eq_one_iff.1 hcount
    rw [hq] at hport
    exact ⟨_, hport⟩
  · rw [if_neg hk] at hport hcount
    rw [List.length_eq_zero_iff.1 hcount, List.map_nil, List.append_nil] at hport
    exact hport

/-- R90, R107: with the build gone no write waits, and no link for one. -/
theorem abandonBuild (hs : s.linksAgree busy) : s.abandonBuild.linksAgree busy := by
  refine ⟨fun k => ?_, fun k => ?_, fun k hk => ?_, ?_, fun _ => rfl⟩
  · by_cases hk : (s.port k).handling = .waiting ∧ busy ≠ some k
    · obtain ⟨r, hr⟩ := (hs.abandonBuild_port k).1 hk
      rw [hr]
      exact (hs.ports k).replied hk.1 r nofun
    · rw [(hs.abandonBuild_port k).2 hk]
      exact hs.ports k
  · have hempty : s.abandonBuild.waitingWrites k = 0 := rfl
    rw [hempty]
    by_cases hk : (s.port k).handling = .waiting ∧ busy ≠ some k
    · obtain ⟨r, hr⟩ := (hs.abandonBuild_port k).1 hk
      rw [hr]
      rfl
    · rw [(hs.abandonBuild_port k).2 hk, if_neg hk]
  · rw [(hs.abandonBuild_port k).2 fun h => h.2 hk]
    exact hs.handles k hk
  · by_cases hk : (s.port .p).handling = .waiting ∧ busy ≠ some .p
    · obtain ⟨r, hr⟩ := (hs.abandonBuild_port .p).1 hk
      rw [hr]
      nofun
    · rw [(hs.abandonBuild_port .p).2 hk]
      exact hs.opened

/-- R156: the end of a frame: it joins a buffer with room, or is discarded and counted. -/
theorem receiveFrame (hs : s.linksAgree busy) (l : Link) (ws : List Word) (fin : FrameEnd) :
    (s.receiveFrame l ws fin).linksAgree busy := by
  obtain ⟨hbuffer, herrors, htwo, hone, hnotices, hsend⟩ := hs.ports l
  have hend : (s.setPort l ((s.port l).endFrame fin)).linksAgree busy := hs.setPort l (hs.ports l) rfl
  have hdiscard : ((s.setPort l ((s.port l).endFrame fin)).discardFrame l).linksAgree busy := by
    refine State.linksAgree.raise (hend.setPort l ?_ ?_) .linkerr
    · rw [port_setPort]
      exact ⟨hbuffer, Nat.min_le_left _ _, htwo, hone, hnotices, hsend⟩
    · rfl
  unfold State.receiveFrame
  dsimp only
  split
  · exact hdiscard
  · split
    · next hroom =>
      refine hend.setPort l ?_ rfl
      rw [port_setPort]
      refine ⟨?_, herrors, htwo, hone, hnotices, hsend⟩
      rw [List.length_append]
      exact hroom
    · exact hdiscard

end State.linksAgree

theorem reset_linksAgree : State.reset.linksAgree none := (linksSound_iff _).1 reset_linksSound

/-- The links and the write queue are reached by LINK's operations, by those of a write, by the end of a build and by a
reset, and by nothing else. -/
theorem linksAgree_linkInvariant : LinkInvariant State.linksAgree where
  congr hs hp hl ht hb := hs.congr hp hl ht hb
  raise b hs := hs.raise b
  noticeDue l n hs := hs.setPort l ((hs.ports l).noticeDue n) (noticeDue_handling n _)
  abandonBuild hs := hs.abandonBuild
  taken hs ho := hs.taken ho
  queueReply r hs := hs.replied r nofun fun _ => nofun
  closeLink r hs := by
    have h := hs.replied r (h := .closing) nofun nofun
    simpa [State.closeLink, State.queueReply] using h
  applyWrite hs _ := hs.applyWrite _
  deferWrite tag hs _ hb := hs.deferWrite tag _ hb
  beginBuild h hs := hs.beginBuild h
  receiveFrame l ws fin hs := hs.receiveFrame l ws fin
  beginSending l hs := hs.setPort l (hs.ports l).beginSending rfl
  endSending l hs := hs.setPort l (hs.ports l).endSending (endSending_handling _)
  cold _ _ := reset_linksAgree.congr rfl rfl rfl rfl
  coldKept _ := reset_linksAgree.of_ports reset_linksAgree.ports (fun l => by cases l <;> rfl) rfl rfl

/-- R97, R105: no build is in flight with no head on the copper. -/
theorem inFlight_of_offCopper {s : State} (hs : s.jobSound) (hj : s.run.jobState.onCopper = false) :
    s.build.inFlight = none := by
  obtain ⟨-, -, ⟨-, -, -, -, -, -, hbuild⟩, -⟩ := hs
  unfold State.buildAgrees at hbuild
  split at hbuild
  · next hnone => exact hnone
  · obtain ⟨hcopper, -⟩ := hbuild
    exact absurd hcopper (by simp [hj])

/-- Settles O56: JOPEN and JCLOSE, accepted with no build in flight, clear none; every other command keeps the
agreement by its operations. -/
theorem everyStepKeepsTheLinksSound : Obligations.EveryStepKeepsTheLinksSound := by
  intro s t hjob hs h
  refine (linksSound_iff t).2 (linksAgree_linkInvariant.step_keeps (fun hj l u _ _ hb hu => ?_)
    ((linksSound_iff s).1 hs) h)
  exact hu.congr rfl rfl rfl (by rw [hb, inFlight_of_offCopper hjob hj]; rfl)

end Sys2Proof.Machine
end

section
/-!
A head channel: the levels it drives, its entries to FAULTED and LIFTING, and what an edge of an input line, an Index
event and HRESET do to it (R113 to R128, R132).
-/

namespace Sys2Proof.Machine

/-! ### The levels a channel drives -/

theorem fitted_iff (s : State) (h : Head) : s.fitted h = true ↔ h.val < s.straps.toNat + 1 := decide_eq_true_iff

/-- R115: HLOWERn is high while the head is on its way to the copper or on it. -/
theorem hlower_iff (s : State) (h : Head) :
    s.hlower h = true ↔ s.fitted h = true ∧ ((s.chan h).state = .lowering ∨ (s.chan h).state = .down) := by
  unfold State.hlower
  cases (s.chan h).state <;> simp

/-- R115: HLIFTn is high while the head is lifted, after a fault too. -/
theorem hlift_iff (s : State) (h : Head) :
    s.hlift h = true ↔ s.fitted h = true ∧ ((s.chan h).state = .lifting ∨ (s.chan h).state = .faulted) := by
  unfold State.hlift
  cases (s.chan h).state <;> simp

theorem hdata_of_queue {s : State} {h : Head} {x : Line} {rest : List Line} (hq : (s.chan h).queue = x :: rest) :
    s.hdata h = if (s.chan h).transferring then some (x.phase, x.driveValues) else none := by
  simp [State.hdata, hq]

/-! ### The entries to FAULTED and LIFTING -/

/-- R124: the record and the raise of an entry to FAULTED, and its report where the rule calls for one. -/
theorem enterFaulted_eq (s : State) (h : Head) (cause : Cause) :
    let s1 := (s.setChan h { s.chan h with
      state := .faulted, faultCause := cause, faultTrack := s.run.t, transferring := false }).raise (.hfault h)
    s.enterFaulted h cause =
      if s.used h = true ∧ (s.run.jobState = .lowering ∨ s.run.jobState = .running) ∧ cause ≠ .short then
        { s1 with run := { s1.run with reports := s1.run.reports ++ [⟨h, cause⟩] } }
      else s1 := by
  simp [State.enterFaulted, and_assoc]

/-- R116: the entry check looks at HFLTn first; without a fault the level of HUPn gives the state. -/
theorem enterLifting_eq (s : State) (h : Head) :
    let lifting := { s.chan h with state := .lifting, timeoutCount := 0, transferring := false }
    s.enterLifting h =
      if (s.pin h).hflt then (s.setChan h lifting).enterFaulted h .drive
      else s.setChan h { lifting with state := if (s.pin h).hup then .parked else .lifting } := by
  simp only [State.enterLifting, setChan_setChan]
  split
  · rfl
  · split <;> rfl

/-- Settles O44: the entries and the levels by the equation of each. -/
theorem channelEntriesAndOutputs : Obligations.ChannelEntriesAndOutputs :=
  ⟨fun s h => ⟨enterFaulted_eq s h, enterLifting_eq s h⟩,
    fun s h => ⟨fitted_iff s h, hlower_iff s h, hlift_iff s h, fun _ _ hq => hdata_of_queue hq, fun _ => rfl⟩⟩

/-! ### An edge of an input line -/

/-- R113, R116: an edge moves the level, and a fitted channel alone takes its event. -/
theorem inputEdge_of_event (s : State) (h : Head) (x : Pins) (event : Head → State → State) :
    s.inputEdge h x true event = if s.fitted h = true then event h (s.setPin h x) else s.setPin h x := by
  simp [State.inputEdge]

/-- The state after an edge that is an event, from what the event does at the level the edge leaves. -/
theorem next_inputEdge {s t : State} {h : Head} {x : Pins} {event : Head → State → State}
    (ht : (if s.fitted h = true then event h (s.setPin h x) else s.setPin h x) = t) :
    (.next (s.inputEdge h x true event) : Host.Outcome State Fault Refusal) = .next t :=
  congrArg _ ((inputEdge_of_event s h x event).trans ht)

theorem downAck_eq (s : State) (h : Head) : s.downAck h =
    if (s.chan h).state = .lowering then s.setChan h { s.chan h with state := .down }
    else if (s.chan h).state = .parked then s.enterFaulted h .dropped
    else s := by
  unfold State.downAck
  cases (s.chan h).state <;> rfl

theorem upAck_eq (s : State) (h : Head) : s.upAck h =
    if (s.chan h).state = .lifting then s.setChan h { s.chan h with state := .parked }
    else if (s.chan h).state = .down then s.enterFaulted h .lifted
    else s := by
  unfold State.upAck
  cases (s.chan h).state <;> rfl

theorem presenceGained_eq (s : State) (h : Head) : s.presenceGained h =
    if (s.chan h).state = .absent then s.enterLifting h else s := by
  unfold State.presenceGained
  cases (s.chan h).state <;> rfl

theorem presenceLost_eq (s : State) (h : Head) : s.presenceLost h =
    if (s.chan h).state = .parked then s.setChan h { s.chan h with state := .absent }
    else if (s.chan h).state = .lowering ∨ (s.chan h).state = .down ∨ (s.chan h).state = .lifting then
      s.enterFaulted h .presence
    else s := by
  unfold State.presenceLost
  cases (s.chan h).state <;> simp

theorem driveFault_eq (s : State) (h : Head) : s.driveFault h =
    if (s.chan h).state = .parked ∨ (s.chan h).state = .lowering ∨ (s.chan h).state = .down ∨
        (s.chan h).state = .lifting then
      s.enterFaulted h .drive
    else s := by
  unfold State.driveFault
  cases (s.chan h).state <;> simp

theorem lineTaken_eq (s : State) (h : Head) : s.lineTaken h =
    if (s.chan h).state = .down ∧ (s.chan h).inCut = true ∧ (s.chan h).taken = false then
      s.setChan h { s.chan h with taken := true, transferring := false }
    else s := by
  simp [State.lineTaken]

/-- A condition shared by two branches stands once before them. -/
theorem ite_and_ite_and {α : Type} (p q r : Prop) [Decidable p] [Decidable q] [Decidable r] (x y z : α) :
    (if p ∧ q then x else if p ∧ r then y else z) = if p then if q then x else if r then y else z else z := by
  by_cases hp : p <;> simp [hp]

/-- Settles O45: an edge is its event at a fitted channel and a level elsewhere, and each event is decided by the
channel's record, which the level does not touch. -/
theorem inputEdgesMoveTheChannel : Obligations.InputEdgesMoveTheChannel := by
  refine ⟨fun s h => ⟨?_, ?_, rfl, rfl⟩, fun s h => ⟨?_, ?_⟩, fun s h => ⟨?_, ?_, rfl, rfl⟩⟩
  · exact next_inputEdge (by rw [downAck_eq, setPin_chan, ← ite_and_ite_and]; rfl)
  · exact next_inputEdge (by rw [upAck_eq, setPin_chan, ← ite_and_ite_and]; rfl)
  · exact next_inputEdge (by rw [presenceGained_eq, setPin_chan, ← ite_and])
  · exact next_inputEdge (by rw [presenceLost_eq, setPin_chan, ← ite_and_ite_and])
  · exact next_inputEdge (by rw [driveFault_eq, setPin_chan, ← ite_and]; rfl)
  · exact next_inputEdge (by rw [lineTaken_eq, setPin_chan, ← ite_and]; rfl)

/-! ### An Index event at a channel -/

/-- R121: the part once a moving channel has counted an Index event. -/
def State.indexCounted (s : State) (h : Head) : State :=
  s.setChan h { s.chan h with timeoutCount := (s.chan h).timeoutCount + 1 }

/-- R113, R121: an Index event is none to a channel that is not fitted or does not move. -/
theorem indexAtChannel_of_still {s : State} {h : Head}
    (hs : s.fitted h = false ∨ ((s.chan h).state ≠ .lowering ∧ (s.chan h).state ≠ .lifting)) :
    s.indexAtChannel h = s := by
  unfold State.indexAtChannel
  cases hx : (s.chan h).state <;> simp_all

theorem indexAtChannel_of_lowering {s : State} {h : Head} (hf : s.fitted h = true)
    (hs : (s.chan h).state = .lowering) : s.indexAtChannel h =
      if 7 ≤ (s.chan h).timeoutCount then (s.indexCounted h).enterFaulted h .lowerTimeout else s.indexCounted h := by
  simp [State.indexAtChannel, hf, hs, Config.timeoutLimit, State.indexCounted]

theorem indexAtChannel_of_lifting {s : State} {h : Head} (hf : s.fitted h = true)
    (hs : (s.chan h).state = .lifting) : s.indexAtChannel h =
      if 7 ≤ (s.chan h).timeoutCount then (s.indexCounted h).enterFaulted h .liftTimeout else s.indexCounted h := by
  simp [State.indexAtChannel, hf, hs, Config.timeoutLimit, State.indexCounted]

theorem timeoutDue_iff (s : State) (h : Head) (x : HeadState) : s.timeoutDue h x = true ↔
    s.fitted h = true ∧ (s.chan h).state = x ∧ 7 ≤ (s.chan h).timeoutCount := by
  simp [State.timeoutDue, Config.timeoutLimit, and_assoc]

theorem execLowerTimeout_of_due {s : State} {h : Head} (hd : s.timeoutDue h .lowering = true) :
    execLowerTimeout h s = .next (s.indexAtChannel h) := by
  simp [execLowerTimeout, settleStep, hd]

theorem execLiftTimeout_of_due {s : State} {h : Head} (hd : s.timeoutDue h .lifting = true) :
    execLiftTimeout h s = .next (s.indexAtChannel h) := by
  simp [execLiftTimeout, settleStep, hd]

/-- Settles O46: the two moving states count alike and differ in the cause; a timeout command is the Index event that
is due. -/
theorem indexCountsTowardsTheTimeout : Obligations.IndexCountsTowardsTheTimeout := by
  intro s h _
  refine ⟨fun hf hmove hlt => ?_, fun hf hs h7 => ?_, fun hf hs h7 => ?_, fun hstill => ?_⟩
  · refine congrArg Host.Outcome.next ?_
    rcases hmove with hs | hs
    · exact (indexAtChannel_of_lowering hf hs).trans (if_neg (Nat.not_le_of_lt hlt))
    · exact (indexAtChannel_of_lifting hf hs).trans (if_neg (Nat.not_le_of_lt hlt))
  · have hindex := (indexAtChannel_of_lowering hf hs).trans (if_pos h7.ge)
    exact ⟨congrArg _ hindex, hindex ▸ execLowerTimeout_of_due ((timeoutDue_iff s h _).2 ⟨hf, hs, h7.ge⟩)⟩
  · have hindex := (indexAtChannel_of_lifting hf hs).trans (if_pos h7.ge)
    exact ⟨congrArg _ hindex, hindex ▸ execLiftTimeout_of_due ((timeoutDue_iff s h _).2 ⟨hf, hs, h7.ge⟩)⟩
  · exact congrArg Host.Outcome.next (indexAtChannel_of_still hstill)

/-! ### HRESET -/

/-- R132, R160: HRESET, its zone held and not locked, is answered by the channel. -/
theorem exec_hreset {s : State} {l : Link} {tag : Byte} {w1 : Word} {rest : List InFrame}
    (ho : s.offers l (requestFrame tag .hreset [w1]) rest) (hheld : s.holdsZone l .trim = true)
    (hlock : s.lockPasses .hreset = true) :
    let a := ownHreset [ReqCode.hreset.word, w1] (s.taken l rest)
    exec (.hreset l) s = .next (a.state.queueReply l
      (requestReply tag .hreset a.cc (if a.cc = .accepted then a.returned else []))) :=
  serve_accepted s l ho ((zonePasses_of_zone rfl).trans hheld) hlock rfl rfl ownHreset

theorem ownHreset_of_no_head {code w1 : Word} (hw : 4 ≤ w1.toNat) (s : State) :
    ownHreset [code, w1] s = s.refuse .range := dif_neg (Nat.not_lt_of_le hw)

theorem ownHreset_of_head {code w1 : Word} {h : Head} (hw : w1.toNat = h.val) (s : State) : ownHreset [code, w1] s =
    if (s.chan h).state = .faulted then (s.resetHead h).accept else s.refuse .state := by
  have hlt : (word [code, w1] 1).toNat < 4 := lt_of_eq_of_lt hw h.isLt
  have hhead : (⟨(word [code, w1] 1).toNat, hlt⟩ : Head) = h := Fin.ext hw
  rw [ownHreset, dif_pos hlt]
  simp only [hhead]

/-- The taking of a frame and the record of a channel are replaced independently. -/
theorem taken_setChan (s : State) (l : Link) (rest : List InFrame) (h : Head) (c : Channel) :
    (s.taken l rest).setChan h c = (s.setChan h c).taken l rest := by cases l <;> rfl

/-- Settles O47: the head's number and its channel's state decide the answer, HPRESn the effect. -/
theorem hresetClearsTheFault : Obligations.HresetClearsTheFault := by
  intro s l tag w1 rest ho hheld hlock
  have hserve := exec_hreset ho hheld hlock
  refine ⟨fun hw => ?_, fun h hw => ?_⟩
  · rw [hserve, ownHreset_of_no_head hw]
    exact congrArg _ (queueReply_refuse s l rest tag .hreset .range)
  · rw [ownHreset_of_head hw, taken_chan] at hserve
    refine ⟨fun hs => ?_, fun hs hpres => ?_, fun hs hpres => ?_⟩
    · rw [hserve, if_neg hs]
      exact congrArg _ (queueReply_refuse s l rest tag .hreset .state)
    · rw [hserve, if_pos hs, State.resetHead, taken_pin, hpres, taken_chan, ← queueReply_taken, ← taken_setChan]
      rfl
    · rw [hserve, if_pos hs, State.resetHead, taken_pin, hpres, taken_chan]
      rfl

end Sys2Proof.Machine
end

section
/-!
The resets: the channels, the status word and the links once the heads that are present have lifted, and power-on reset
block by block (R113, R116, R134, R172).
-/

namespace Sys2Proof.Machine

/-! ### One entry to LIFTING -/

@[simp] theorem enterLifting_pin (s : State) (h k : Head) : (s.enterLifting h).pin k = s.pin k := by simp [State.pin]

@[simp] theorem enterLifting_fitted (s : State) (h k : Head) : (s.enterLifting h).fitted k = s.fitted k := by
  simp [State.fitted, State.fittedCount]

/-- R116: the record of a channel that enters LIFTING on track t, from its head's input levels. -/
def Channel.enteredLifting (c : Channel) (x : Pins) (t : Nat) : Channel :=
  if x.hflt then { c with state := .faulted, faultCause := .drive, faultTrack := t, timeoutCount := 0,
                          transferring := false }
  else { c with state := if x.hup then .parked else .lifting, timeoutCount := 0, transferring := false }

theorem chan_enterLifting_own (s : State) (h : Head) :
    (s.enterLifting h).chan h = (s.chan h).enteredLifting (s.pin h) s.run.t := by
  rw [chan_enterLifting, if_pos rfl, Channel.enteredLifting]
  split
  · rfl
  · split <;> rfl

theorem chan_enterLifting_ne (s : State) {h k : Head} (e : k ≠ h) : (s.enterLifting h).chan k = s.chan k := by
  rw [chan_enterLifting, if_neg e]

/-- From s to t only RUN's record, the channels, the status word and the links may differ. -/
def State.keepsBlocks (s t : State) : Prop :=
  t.store = s.store ∧ t.place = s.place ∧ t.tables = s.tables ∧ t.build = s.build ∧ t.pins = s.pins ∧
    t.straps = s.straps ∧ t.stepPulses = s.stepPulses ∧ t.pending = s.pending ∧ t.event.pMask = s.event.pMask ∧
    t.event.sMask = s.event.sMask

theorem enterLifting_keepsBlocks {s t : State} (hst : s.keepsBlocks t) (h : Head) :
    s.keepsBlocks (t.enterLifting h) := by
  simpa [State.keepsBlocks] using hst

/-- R124: an entry to FAULTED reaches a link by its raise alone. -/
theorem enterFaulted_port (s : State) (h : Head) (c : Cause) (l : Link) :
    let c' := { s.chan h with state := .faulted, faultCause := c, faultTrack := s.run.t, transferring := false }
    (s.enterFaulted h c).port l = ((s.setChan h c').raise (.hfault h)).port l := by
  simp only [State.enterFaulted]
  split
  · cases l <;> rfl
  · rfl

/-- R170: with both enable masks 0 a raise reaches no link. -/
theorem raise_port_of_masks {s : State} (hp : s.event.pMask = 0) (hs : s.event.sMask = 0) (b : StatusBit) (l : Link) :
    (s.raise b).port l = s.port l := by
  have hmask : s.event.mask l = 0 := by cases l <;> assumption
  simp [raise_port, Port.hearRaise, hmask]

theorem enterLifting_port_of_masks {s : State} (hp : s.event.pMask = 0) (hs : s.event.sMask = 0) (h : Head)
    (l : Link) : (s.enterLifting h).port l = s.port l := by
  simp only [State.enterLifting]
  split
  · rw [enterFaulted_port]
    exact (raise_port_of_masks hp hs _ l).trans (by simp)
  · split <;> simp

/-! ### Entries to LIFTING of several heads -/

/-- R116: outside LOWERING and RUNNING the entries send RUN no report. -/
theorem run_foldEnterLifting (hs : List Head) {s : State} (h1 : s.run.jobState ≠ .lowering)
    (h2 : s.run.jobState ≠ .running) : (hs.foldl (fun s h => s.enterLifting h) s).run = s.run :=
  foldHeads_keeps (P := fun t => t.run = s.run)
    (fun h t ht => (run_enterLifting_off t h (by rwa [ht]) (by rwa [ht])).trans ht) hs rfl

theorem chan_foldEnterLifting {hs : List Head} (hn : hs.Nodup) {s : State} (h1 : s.run.jobState ≠ .lowering)
    (h2 : s.run.jobState ≠ .running) (k : Head) : (hs.foldl (fun s h => s.enterLifting h) s).chan k =
      if k ∈ hs then (s.chan k).enteredLifting (s.pin k) s.run.t else s.chan k := by
  induction hs generalizing s with
  | nil => simp
  | cons h hs ih =>
    obtain ⟨hh, hn⟩ := List.nodup_cons.1 hn
    have hrun := run_enterLifting_off s h h1 h2
    rw [List.foldl_cons, ih hn (by rwa [hrun]) (by rwa [hrun]), enterLifting_pin, hrun]
    by_cases hk : k = h
    · subst hk
      rw [if_neg hh, if_pos List.mem_cons_self, chan_enterLifting_own]
    · simp [chan_enterLifting_ne s hk, hk]

theorem status_foldEnterLifting (hs : List Head) (s : State) (i : Nat) :
    (hs.foldl (fun s h => s.enterLifting h) s).event.status.getLsbD i = true ↔
      s.event.status.getLsbD i = true ∨ ∃ h ∈ hs, (s.pin h).hflt = true ∧ i = 8 + h.val := by
  induction hs generalizing s with
  | nil => simp
  | cons h hs ih => simp [ih, enterLifting_getLsbD, or_assoc]

theorem port_foldEnterLifting (hs : List Head) {s : State} (hp : s.event.pMask = 0) (hm : s.event.sMask = 0)
    (l : Link) : (hs.foldl (fun s h => s.enterLifting h) s).port l = s.port l := by
  induction hs generalizing s with
  | nil => rfl
  | cons h hs ih =>
    exact (ih (by simpa using hp) (by simpa using hm)).trans (enterLifting_port_of_masks hp hm h l)

/-! ### The heads that are present after a reset -/

/-- R116, R134: the heads that lift after a reset. -/
def State.presentHeads (s : State) : List Head := allHeads.filter fun h => s.fitted h && (s.pin h).hpres

theorem mem_presentHeads (s : State) (h : Head) :
    h ∈ s.presentHeads ↔ s.fitted h = true ∧ (s.pin h).hpres = true := by
  simp [State.presentHeads, mem_allHeads]

theorem presentHeads_nodup (s : State) : s.presentHeads.Nodup := (by decide : allHeads.Nodup).filter _

theorem liftPresent_eq (s : State) : s.liftPresent = s.presentHeads.foldl (fun s h => s.enterLifting h) s := rfl

theorem liftPresent_keepsBlocks (s : State) : s.keepsBlocks s.liftPresent :=
  foldHeads_keeps (P := fun t => s.keepsBlocks t) (fun h _ ht => enterLifting_keepsBlocks ht h) _
    ⟨rfl, rfl, rfl, rfl, rfl, rfl, rfl, rfl, rfl, rfl⟩

@[simp] theorem liftPresent_fitted (s : State) (h : Head) : s.liftPresent.fitted h = s.fitted h := by
  obtain ⟨-, -, -, -, -, hstraps, -⟩ := liftPresent_keepsBlocks s
  simp [State.fitted, State.fittedCount, hstraps]

theorem channelAfterReset_eq (x : Pins) (fitted : Bool) (cells : Nat) : x.channelAfterReset fitted cells =
    if fitted = true ∧ x.hpres = true then Channel.enteredLifting { Channel.reset with cellsCut := cells } x 0
    else { Channel.reset with cellsCut := cells } := by
  simp only [Pins.channelAfterReset, Bool.and_eq_true, Channel.enteredLifting]
  split_ifs <;> rfl

/-- R134: the channels after a reset, whose record of RUN and of each channel is that of power-on but for cells_cut. -/
theorem chan_liftPresent_of_reset {s : State} (hrun : s.run = Run.reset) {cells : Head → Nat}
    (hchan : ∀ h, s.chan h = { Channel.reset with cellsCut := cells h }) (h : Head) :
    s.liftPresent.chan h = (s.pin h).channelAfterReset (s.fitted h) (cells h) := by
  rw [liftPresent_eq, chan_foldEnterLifting (presentHeads_nodup s) (by rw [hrun]; decide) (by rw [hrun]; decide),
    channelAfterReset_eq, hchan, hrun]
  simp only [mem_presentHeads]
  rfl

/-- R134: from a cleared status word, the lifts of the present heads set the HFAULT bits of the faulted ones alone. -/
theorem onlyResetFaults_liftPresent {s r : State} (hpin : ∀ h, s.pin h = r.pin h) (hstatus : s.event.status = 0) :
    r.onlyResetFaults s.liftPresent := by
  intro i
  rw [liftPresent_eq, status_foldEnterLifting, ← liftPresent_eq, hstatus, BitVec.ofNat_eq_ofNat, BitVec.getLsbD_zero]
  simp only [Bool.false_eq_true, false_or, mem_presentHeads, liftPresent_fitted, hpin]
  exact exists_congr fun h => by tauto

/-- Settles O5: power-on sets every block, and the lifts of the present heads then reach the channels and HFAULT bits
alone. -/
theorem powerOnResetSetsEveryBlock : Obligations.PowerOnResetSetsEveryBlock := by
  intro s straps
  obtain ⟨hstore, hplace, htables, hbuild, hpins, hstraps, hpulses, hpending, hpmask, hsmask⟩ :=
    liftPresent_keepsBlocks (s.cold straps)
  refine ⟨s.powerOn straps, rfl, hstraps, run_foldEnterLifting _ nofun nofun, hstore, hplace, htables, hbuild,
    fun h => ?_, onlyResetFaults_liftPresent (fun _ => rfl) rfl, hpmask, hsmask,
    fun l => (port_foldEnterLifting _ rfl rfl l).trans (by cases l <;> rfl), hpulses, hpins, hpending⟩
  rw [State.powerOn, liftPresent_fitted]
  exact chan_liftPresent_of_reset (s := s.cold straps) rfl (cells := fun _ => 0) (chan_cold s straps) h

end Sys2Proof.Machine
end

section
/-!
What comes to the part from outside it, the levels of the input lines, the straps and the queue of commands, is no
command's to change but an edge's and power-on reset's (R113, R116).
-/

namespace Sys2Proof.Machine

/-- The levels of the input lines, the straps as sampled, and the queue of commands. -/
def State.outside (s : State) : Vector Pins 4 × BitVec 2 × List Instr := (s.pins, s.straps, s.pending)

theorem outside_eq_iff {s t : State} :
    t.outside = s.outside ↔ t.pins = s.pins ∧ t.straps = s.straps ∧ t.pending = s.pending := by
  simp [State.outside]

/-! ### Links, EVENT and TABLES -/

theorem setPort_outside (s : State) (l : Link) (x : Port) : (s.setPort l x).outside = s.outside := by
  simp [State.outside]

theorem raiseAll_outside (bs : List StatusBit) (s : State) : (s.raiseAll bs).outside = s.outside := by
  simp [State.outside]

theorem enable_outside (l : Link) (m : StatusWord) (s : State) : (s.enable l m).outside = s.outside := by
  unfold State.enable
  dsimp only
  split
  · rfl
  · exact setPort_outside _ _ _

theorem applyWrite_outside (w : TableWrite) (s : State) : (s.applyWrite w).outside = s.outside := by
  rw [applyWrite_eq]; rfl

theorem finishWrites_outside (s : State) : s.finishWrites.outside = s.outside := by
  rw [finishWrites_eq]; rfl

theorem takeWrite_outside (s : State) (l : Link) (f : InFrame) (w : Option TableWrite) :
    (s.takeWrite l f w).outside = s.outside := by
  unfold State.takeWrite
  split
  · exact setPort_outside _ _ _
  · split
    · exact (setPort_outside _ _ _).trans (applyWrite_outside _ s)
    · rfl

theorem receiveFrame_outside (l : Link) (ws : List Word) (fin : FrameEnd) (s : State) :
    (s.receiveFrame l ws fin).outside = s.outside := by
  have hdiscard : ∀ t : State, (t.discardFrame l).outside = t.outside := fun t => setPort_outside t l _
  unfold State.receiveFrame
  dsimp only
  split
  · exact (hdiscard _).trans (setPort_outside s l _)
  · split
    · exact (setPort_outside _ l _).trans (setPort_outside s l _)
    · exact (hdiscard _).trans (setPort_outside s l _)

/-! ### Head channels -/

theorem enterFaulted_outside (h : Head) (c : Cause) (s : State) : (s.enterFaulted h c).outside = s.outside := by
  simp [State.outside]

theorem enterLifting_outside (h : Head) (s : State) : (s.enterLifting h).outside = s.outside := by
  simp [State.outside]

theorem liftUsed_outside (s : State) : (s.forUsed State.liftCommand).outside = s.outside := by
  simp [State.outside]

theorem liftPresent_outside (s : State) : s.liftPresent.outside = s.outside := by
  obtain ⟨-, -, -, -, hpins, hstraps, -, hpending, -⟩ := liftPresent_keepsBlocks s
  exact outside_eq_iff.2 ⟨hpins, hstraps, hpending⟩

/-- R164: the reset of DRESET keeps the straps. -/
theorem deviceReset_outside (s : State) : s.deviceReset.outside = s.outside := liftPresent_outside _

theorem shortCommand_outside (h : Head) (s : State) : (s.shortCommand h).outside = s.outside := by
  rw [shortCommand_eq]
  split
  · exact enterFaulted_outside h .short s
  · rfl

theorem indexAtChannel_outside (h : Head) (s : State) : (s.indexAtChannel h).outside = s.outside := by
  unfold State.indexAtChannel
  dsimp only
  split
  · cases (s.chan h).state with
    | lowering =>
      dsimp only
      split
      · exact enterFaulted_outside h .lowerTimeout _
      · rfl
    | lifting =>
      dsimp only
      split
      · exact enterFaulted_outside h .liftTimeout _
      · rfl
    | absent | parked | down | faulted => rfl
  · rfl

theorem resetHead_outside (h : Head) (s : State) : (s.resetHead h).outside = s.outside := by
  unfold State.resetHead
  dsimp only
  split
  · exact enterLifting_outside h _
  · rfl

theorem downAck_outside (h : Head) (s : State) : (s.downAck h).outside = s.outside := by
  rw [downAck_eq]
  split_ifs
  · rfl
  · exact enterFaulted_outside _ _ _
  · rfl

theorem upAck_outside (h : Head) (s : State) : (s.upAck h).outside = s.outside := by
  rw [upAck_eq]
  split_ifs
  · rfl
  · exact enterFaulted_outside _ _ _
  · rfl

theorem presenceGained_outside (h : Head) (s : State) : (s.presenceGained h).outside = s.outside := by
  rw [presenceGained_eq]
  split
  · exact enterLifting_outside _ _
  · rfl

theorem presenceLost_outside (h : Head) (s : State) : (s.presenceLost h).outside = s.outside := by
  rw [presenceLost_eq]
  split_ifs
  · rfl
  · exact enterFaulted_outside _ _ _
  · rfl

theorem driveFault_outside (h : Head) (s : State) : (s.driveFault h).outside = s.outside := by
  rw [driveFault_eq]
  split
  · exact enterFaulted_outside _ _ _
  · rfl

theorem lineTaken_outside (h : Head) (s : State) : (s.lineTaken h).outside = s.outside := by
  rw [lineTaken_eq]
  split <;> rfl

/-- R116: an edge moves the level of its own line; its event moves no other. -/
theorem inputEdge_outside (s : State) (h : Head) (x : Pins) (isEvent : Bool) {event : Head → State → State}
    (he : ∀ h s, (event h s).outside = s.outside) :
    (s.inputEdge h x isEvent event).outside = (s.setPin h x).outside := by
  unfold State.inputEdge
  dsimp only
  split
  · exact he h _
  · rfl

/-! ### The moves of the job -/

theorem enterHeld_outside (r : HoldReason) (s : State) : (s.enterHeld r).outside = s.outside := liftUsed_outside _

theorem enterDone_outside (s : State) : s.enterDone.outside = s.outside := liftUsed_outside _

theorem enterAborted_outside (s : State) : s.enterAborted.outside = s.outside :=
  (liftUsed_outside s.drained).trans (finishWrites_outside s.ending)

theorem appendDamage_outside (r : DamageRecord) (s : State) : (s.appendDamage r).outside = s.outside := by
  rw [appendDamage_eq]; rfl

theorem advance_outside (s : State) : s.pulseStep.fireMarkers.advanceTrack.outside = s.outside :=
  raiseAll_outside _ _

theorem retireDamaged_outside (c : Cause) (m : BitVec 4) (s : State) : (s.retireDamaged c m).outside = s.outside := by
  unfold State.retireDamaged
  split
  · have hnext := (advance_outside (s.appendDamage (s.damageRecord c m)).removeDamaged).trans
      (appendDamage_outside _ s)
    dsimp only
    split
    · exact (enterDone_outside _).trans hnext
    · exact (enterHeld_outside .fault _).trans hnext
  · exact enterAborted_outside _

theorem retireTrack_outside (s : State) : s.retireTrack.outside = s.outside :=
  (advance_outside _).trans (wearUsed_keeps (P := fun t => t.outside = s.outside) (fun _ ht => ht) rfl)

theorem readiness_outside (s : State) : s.readiness.outside = s.outside := by
  by_cases hready : s.allReady = true
  · rw [readiness_of_ready hready]; rfl
  · rw [readiness_of_not_ready hready]
    split
    · exact enterHeld_outside .starved s.slip
    · rfl

theorem closeCut_outside (s : State) : s.closeCut.outside = s.outside := by
  unfold State.closeCut
  split
  · exact (retireDamaged_outside .short _ _).trans (foldHeads_keeps (P := fun t => t.outside = s.outside)
      (fun h t ht => (shortCommand_outside h t).trans ht) _ rfl)
  · dsimp only
    split_ifs
    · exact (enterDone_outside _).trans (retireTrack_outside s)
    · exact (enterHeld_outside .request _).trans (retireTrack_outside s)
    · exact (readiness_outside _).trans (retireTrack_outside s)

theorem settle_outside (s : State) : s.settle.outside = s.outside := by
  unfold State.settle
  dsimp only
  split_ifs
  · exact readiness_outside _
  · rfl
  · rfl

theorem indexEvent_outside (s : State) : s.indexEvent.outside = s.outside := by
  unfold State.indexEvent
  cases s.run.jobState with
  | lowering => exact settle_outside s
  | running =>
    dsimp only
    split
    · exact closeCut_outside s
    · exact readiness_outside s
  | none | prepared | held | done | aborted => rfl

theorem takeReport_outside (r : FaultReport) (s : State) : (s.takeReport r).outside = s.outside := by
  unfold State.takeReport
  split
  · cases s.run.jobState with
    | lowering => exact enterHeld_outside .fault s
    | running =>
      dsimp only
      split
      · exact retireDamaged_outside _ _ s
      · exact enterHeld_outside .fault s
    | none | prepared | held | done | aborted => rfl
  · rfl

/-! ### Owners of requests -/

theorem ownJopen_outside (p : List Word) (s : State) : (ownJopen p s).state.outside = s.outside := by
  unfold ownJopen
  split <;> rfl

theorem ownJstart_outside (p : List Word) (s : State) : (ownJstart p s).state.outside = s.outside := by
  unfold ownJstart
  split <;> rfl

theorem ownJresume_outside (p : List Word) (s : State) : (ownJresume p s).state.outside = s.outside := by
  unfold ownJresume
  split <;> rfl

theorem ownJhold_outside (p : List Word) (s : State) : (ownJhold p s).state.outside = s.outside := by
  show s.holdJob.outside = s.outside
  unfold State.holdJob
  split
  · rfl
  · exact enterHeld_outside .request s

theorem ownJabort_outside (p : List Word) (s : State) : (ownJabort p s).state.outside = s.outside := by
  refine (enterAborted_outside s.abortCut).trans ?_
  unfold State.abortCut
  split
  · exact appendDamage_outside _ s
  · rfl

theorem ownSdef_outside (p : List Word) (s : State) : (ownSdef p s).state.outside = s.outside := by
  unfold ownSdef
  dsimp only
  split <;> rfl

theorem ownSrel_outside (p : List Word) (s : State) : (ownSrel p s).state.outside = s.outside := by
  unfold ownSrel
  dsimp only
  split <;> rfl

theorem ownWset_outside (p : List Word) (s : State) : (ownWset p s).state.outside = s.outside := by
  unfold ownWset
  dsimp only
  split
  · rfl
  · split <;> rfl

theorem ownHreset_outside (p : List Word) (s : State) : (ownHreset p s).state.outside = s.outside := by
  unfold ownHreset
  split
  · dsimp only
    split
    · exact resetHead_outside _ s
    · rfl
  · rfl

theorem takeRow_outside (p : List Word) (s : State) : (s.takeRow p).2.2.outside = s.outside := by
  have halloc : ∀ k, (s.allocate k).outside = s.outside := fun k => by
    unfold State.allocate
    dsimp only
    split <;> rfl
  unfold State.takeRow
  dsimp only
  split
  · rfl
  · rfl
  · split
    · rfl
    · exact halloc _

theorem takeMarker_outside (p : List Word) (s : State) : (s.takeMarker p).2.outside = s.outside := by
  unfold State.takeMarker
  dsimp only
  split_ifs <;> rfl

/-! ### Frames taken -/

section
variable {s t u : State} {l : Link} {c : ReqCode}

theorem takeFrame_outside {sort : InFrame → Bool} {f : InFrame} (h : s.takeFrame l sort = some (f, u)) :
    u.outside = s.outside := by
  obtain ⟨rest, -, -, rfl⟩ := (takeFrame_eq_some s l).1 h
  exact setPort_outside _ _ _

theorem serve_outside {owner : List Word → State → Answer} (ho : ∀ p s, (owner p s).state.outside = s.outside)
    (h : serve c l owner s = .next t) : t.outside = s.outside :=
  serve_keeps (P := fun t => t.outside = s.outside) (fun _ _ _ ht => (setPort_outside _ _ _).trans ht)
    (fun p u hu => (ho p u).trans hu) rfl h

theorem serveWrite_outside {parse : List Word → Option TableWrite} (h : serveWrite c l parse s = .next t) :
    t.outside = s.outside := by
  refine settleStep_keeps (P := fun t => t.outside = s.outside) rfl (fun u hu => ?_) h
  split at hu
  · cases hu
  · next hf =>
    split at hu <;> injection hu with hu <;> subst hu
    · exact (setPort_outside _ _ _).trans (takeFrame_outside hf)
    · exact (takeWrite_outside _ _ _ _).trans (takeFrame_outside hf)

theorem execDreset_outside (h : execDreset l s = .next t) : t.outside = s.outside := by
  refine settleStep_keeps (P := fun t => t.outside = s.outside) rfl (fun u hu => ?_) h
  split at hu
  · cases hu
  · next hf =>
    split at hu <;> injection hu with hu <;> subst hu
    · exact (setPort_outside _ _ _).trans (takeFrame_outside hf)
    · exact (setPort_outside _ _ _).trans ((setPort_outside _ _ _).trans (takeFrame_outside hf))

theorem execRow_outside (h : execRow l s = .next t) : t.outside = s.outside := by
  refine settleStep_keeps (P := fun t => t.outside = s.outside) rfl (fun u hu => ?_) h
  split at hu
  · cases hu
  · next hf =>
    split at hu <;> injection hu with hu <;> subst hu
    · exact (setPort_outside _ _ _).trans (takeFrame_outside hf)
    · exact (setPort_outside _ _ _).trans ((takeRow_outside _ _).trans (takeFrame_outside hf))

theorem execMarker_outside (h : execMarker l s = .next t) : t.outside = s.outside := by
  refine settleStep_keeps (P := fun t => t.outside = s.outside) rfl (fun u hu => ?_) h
  split at hu
  · cases hu
  · next hf =>
    split at hu <;> injection hu with hu <;> subst hu
    · exact (setPort_outside _ _ _).trans (takeFrame_outside hf)
    · exact (setPort_outside _ _ _).trans ((takeMarker_outside _ _).trans (takeFrame_outside hf))

theorem execUnknownRequest_outside (h : execUnknownRequest l s = .next t) : t.outside = s.outside := by
  refine settleStep_keeps (P := fun t => t.outside = s.outside) rfl (fun u hu => ?_) h
  split at hu
  · cases hu
  · next hf =>
    injection hu with hu
    subst hu
    exact (setPort_outside _ _ _).trans (takeFrame_outside hf)

end

/-! ### Every command -/

/-- R113, R116: what a command does to the input lines, the straps and the queue of commands: power-on reset samples the
straps, an edge moves its head's lines, and no other command does anything to them. -/
theorem exec_outside {c : Instr} {s t : State} (h : exec c s = .next t) :
    t.outside = s.outside ∨ (∃ x, c = .powerOnReset x ∧ t.outside = (s.pins, x, s.pending)) ∨
      ∃ k x, c.pinOf = some k ∧ t.outside = (s.setPin k x).outside := by
  have plain : ∀ {u : State}, u.outside = s.outside →
      (Host.Outcome.next u : Host.Outcome State Fault Refusal) = .next t → t.outside = s.outside :=
    fun hu e => by injection e with e; exact e ▸ hu
  have guarded : ∀ {b : Bool} {u : State}, u.outside = s.outside →
      settleStep s (if b then some u else none) = .next t → t.outside = s.outside :=
    fun hu => settleStep_keeps (P := fun t => t.outside = s.outside) rfl fun v hv => by
      split at hv
      · injection hv with hv; exact hv ▸ hu
      · cases hv
  have edge : ∀ {k : Head} {x : Pins} {b : Bool} {event : Head → State → State},
      (∀ h s, (event h s).outside = s.outside) →
      (Host.Outcome.next (s.inputEdge k x b event) : Host.Outcome State Fault Refusal) = .next t →
      t.outside = (s.setPin k x).outside :=
    fun he e => by injection e with e; exact e ▸ inputEdge_outside s _ _ _ he
  cases c with
  | powerOnReset x =>
    refine .inr (.inl ⟨x, rfl, ?_⟩)
    injection h with h
    exact h ▸ liftPresent_outside (s.cold x)
  | downAck k e => exact .inr (.inr ⟨k, _, rfl, edge downAck_outside h⟩)
  | upAck k e => exact .inr (.inr ⟨k, _, rfl, edge upAck_outside h⟩)
  | presenceGained k => exact .inr (.inr ⟨k, _, rfl, edge presenceGained_outside h⟩)
  | presenceLost k => exact .inr (.inr ⟨k, _, rfl, edge presenceLost_outside h⟩)
  | driveFault k e => exact .inr (.inr ⟨k, _, rfl, edge driveFault_outside h⟩)
  | lineTakenReport k e => exact .inr (.inr ⟨k, _, rfl, edge lineTaken_outside h⟩)
  | jopen l => exact .inl (serve_outside ownJopen_outside h)
  | jstart l => exact .inl (serve_outside ownJstart_outside h)
  | jhold l => exact .inl (serve_outside ownJhold_outside h)
  | jresume l => exact .inl (serve_outside ownJresume_outside h)
  | jabort l => exact .inl (serve_outside ownJabort_outside h)
  | jclose l | jquery l | squery l | evclr l | evack l | evread l | ident l =>
    exact .inl (serve_outside (fun _ _ => rfl) h)
  | sdef l => exact .inl (serve_outside ownSdef_outside h)
  | srel l => exact .inl (serve_outside ownSrel_outside h)
  | wset l => exact .inl (serve_outside ownWset_outside h)
  | wread l => exact .inl (serve_outside (fun p u => congrArg State.outside (ownWread_state p u)) h)
  | tread l => exact .inl (serve_outside (fun p u => congrArg State.outside (ownTread_state p u)) h)
  | hquery l => exact .inl (serve_outside (fun p u => congrArg State.outside (ownHquery_state p u)) h)
  | hreset l => exact .inl (serve_outside ownHreset_outside h)
  | evset l => exact .inl (serve_outside (fun _ => enable_outside l _) h)
  | tload l | mload l | htrim l => exact .inl (serveWrite_outside h)
  | dreset l => exact .inl (execDreset_outside h)
  | dresetTakesEffect => exact .inl (guarded (deviceReset_outside s) h)
  | row l => exact .inl (execRow_outside h)
  | marker l => exact .inl (execMarker_outside h)
  | unknownRequest l => exact .inl (execUnknownRequest_outside h)
  | frameReceived l ws fin => exact .inl (plain (receiveFrame_outside l ws fin s) h)
  | frameSent l what => cases what <;> exact .inl (plain (setPort_outside s l _) h)
  | indexEvent => exact .inl (plain (indexEvent_outside s) h)
  | settleComplete | holdLimit => exact .inl (guarded (indexEvent_outside s) h)
  | indexAtChannel k => exact .inl (plain (indexAtChannel_outside k s) h)
  | lowerTimeout k | liftTimeout k => exact .inl (guarded (indexAtChannel_outside k s) h)
  | faultReport k =>
    refine .inl (settleStep_keeps (P := fun t => t.outside = s.outside) rfl (fun u hu => ?_) h)
    split at hu
    · cases hu
    · injection hu with hu
      exact hu ▸ takeReport_outside _ _
  | buildChoice =>
    refine .inl (settleStep_keeps (P := fun t => t.outside = s.outside) rfl (fun u hu => ?_) h)
    obtain ⟨k, -, rfl⟩ := Option.map_eq_some_iff.1 hu
    rfl
  | buildCompletion =>
    refine .inl (settleStep_keeps (P := fun t => t.outside = s.outside) rfl (fun u hu => ?_) h)
    obtain ⟨b, -, rfl⟩ := Option.map_eq_some_iff.1 hu
    exact finishWrites_outside (s.lineQueued b)

/-- No command stops the part or lacks a meaning. -/
theorem exists_next_exec (c : Instr) (s : State) : ∃ t, exec c s = .next t := by
  cases c <;> exact ⟨_, rfl⟩

theorem pin_setPin_ne {h k : Head} (hk : k ≠ h) (s : State) (x : Pins) : (s.setPin h x).pin k = s.pin k :=
  Vector.getElem_set_ne h.isLt k.isLt fun e => hk (Fin.ext e.symm)

/-- Settles O2: each command answers a state, and a reset's straps and an edge's own pin are all it changes of what
comes from outside. -/
theorem everyCommandCompletes : Obligations.EveryCommandCompletes := by
  intro c s
  obtain ⟨t, h⟩ := exists_next_exec c s
  refine ⟨t, h, ?_⟩
  rcases exec_outside h with hsame | ⟨x, hc, hreset⟩ | ⟨k, x, hc, hedge⟩
  · obtain ⟨hpins, hstraps, hpending⟩ := outside_eq_iff.1 hsame
    exact ⟨hpending, fun _ => hstraps, fun k _ => by simp only [State.pin, hpins]⟩
  · obtain ⟨hpins, -, hpending⟩ := outside_eq_iff (s := { s with straps := x }).1 hreset
    exact ⟨hpending, fun hno => absurd hc (hno x), fun k _ => by simp only [State.pin, hpins]⟩
  · obtain ⟨hpins, hstraps, hpending⟩ := outside_eq_iff.1 hedge
    refine ⟨hpending, fun _ => hstraps, fun j hj => ?_⟩
    have hjk : j ≠ k := fun e => hj (e ▸ hc)
    calc t.pin j = (s.setPin k x).pin j := by simp only [State.pin, hpins]
      _ = s.pin j := pin_setPin_ne hjk s x

end Sys2Proof.Machine
end

section
/-!
Index events outside LOWERING and RUNNING, and the MARKER frame: refused, passed, or inserted in order (R137, R149, R150).
-/

namespace Sys2Proof.Machine

/-! ### Index events outside the run -/

/-- Settles O48: RUN's handling by job state; only LOWERING and RUNNING have a case of their own. -/
theorem indexOutsideTheRunChangesNothing : Obligations.IndexOutsideTheRunChangesNothing := by
  intro s hj
  have hsame : s.indexEvent = s := by
    simp only [List.mem_cons, List.not_mem_nil, or_false] at hj
    unfold State.indexEvent
    rcases hj with hj | hj | hj | hj | hj <;> rw [hj]
  exact congrArg Host.Outcome.next hsame

/-! ### The place of an inserted marker -/

/-- R149, R150: in an ordered list an entry goes between those at or below its track and those above it. -/
theorem insertMarker_eq_of_pairwise {m : Marker} {ms : List Marker} (hs : ms.Pairwise fun x y => x.track ≤ y.track) :
    insertMarker m ms = (ms.filter fun x => decide (x.track ≤ m.track)) ++ [m] ++
      ms.filter fun x => decide (m.track < x.track) := by
  induction ms with
  | nil => rfl
  | cons a ms ih =>
    obtain ⟨hle, hs⟩ := List.pairwise_cons.1 hs
    by_cases ha : a.track ≤ m.track
    · have hnot : ¬ m.track < a.track := by omega
      simp [insertMarker, ha, hnot, ih hs]
    · have habove : ∀ x ∈ a :: ms, m.track < x.track := by
        intro x hx
        rcases List.mem_cons.1 hx with rfl | hx
        · omega
        · have := hle x hx
          omega
      have hbelow : ((a :: ms).filter fun x => decide (x.track ≤ m.track)) = [] :=
        List.filter_eq_nil_iff.2 fun x hx => by simpa using habove x hx
      have hall : ((a :: ms).filter fun x => decide (m.track < x.track)) = a :: ms :=
        List.filter_eq_self.2 fun x hx => by simpa using habove x hx
      rw [hbelow, hall]
      exact if_neg ha

/-! ### RUN's checks of a MARKER -/

section
variable {s : State} {w : Word}

theorem takeMarker_outOfRange (h : 4 ≤ bits w 31 24 ∨ s.run.header.tracksPerBand ≤ bits w 15 0) :
    s.takeMarker [w] = (.range, s) := by
  by_cases hb : bits w 31 24 < 4
  · exact (dif_pos hb).trans (if_pos (h.resolve_left (Nat.not_le.2 hb)))
  · exact dif_neg hb

/-- R150 checks 1 and 2 passed: the outcome by the carriage and by the room in the list. -/
theorem takeMarker_inRange {b : Fin 4} (hb : bits w 31 24 = b.val)
    (hband : bits w 15 0 < s.run.header.tracksPerBand) : s.takeMarker [w] =
      if bits w 15 0 < s.run.t then (.passed, s.raise (.mark b))
      else if 16 ≤ s.run.markers.length then (.room, s)
      else (.accepted, { s with run := { s.run with markers := insertMarker ⟨b, bits w 15 0⟩ s.run.markers } }) := by
  have hlt : bits w 31 24 < 4 := by omega
  obtain rfl : b = ⟨bits w 31 24, hlt⟩ := Fin.ext hb.symm
  exact (dif_pos hlt).trans (if_neg (Nat.not_le.2 hband))

end

/-! ### A MARKER that passes dispatch -/

/-- R150: the reply to a MARKER by its completion code and its count of entries. -/
def markerAnswer (tag : Byte) (cc : CC) (n : Nat) : Reply := ⟨.marker, tag, 0, cc, [put 31 0 n]⟩

theorem markerReply_eq (s : State) (tag : Byte) (p : List Word) (cc : CC) :
    s.markerReply ⟨.marker, tag, p⟩ cc = markerAnswer tag cc s.run.markers.length := rfl

/-- A change of RUN made while a frame is handled, and the frame answered. -/
theorem queueReply_taken_run (s : State) (l : Link) (rest : List InFrame) (r : Run) (x : Reply) :
    ({ s.taken l rest with run := r }).queueReply l x = ({ s with run := r }).answered l rest x := by
  cases l <;> rfl

section
variable {s : State} {l : Link} {tag : Byte} {w : Word} {rest : List InFrame}

/-- R160: a MARKER whose link holds Z-PLACE in an open job comes to RUN. -/
theorem exec_marker (ho : s.offers l ⟨.marker, tag, [w]⟩ rest) (hheld : s.holdsZone l .place = true)
    (hj : s.run.jobState.isOpen = true) :
    let r := (s.taken l rest).takeMarker [w]
    exec (.marker l) s = .next (r.2.queueReply l (markerAnswer tag r.1 r.2.run.markers.length)) := by
  have hd : s.dispatchFrame l ([w].length == 1) = none := by simp [State.dispatchFrame, hheld, hj]
  show execMarker l s = _
  simp only [execMarker, settleStep, takeFrame_of_offers s l (sort := InFrame.isMarker) ho rfl, taken_dispatchFrame, hd,
    Option.getD_some, markerReply_eq]

/-- R150: a MARKER that RUN refuses is answered and changes nothing. -/
theorem exec_marker_refused (ho : s.offers l ⟨.marker, tag, [w]⟩ rest) (hheld : s.holdsZone l .place = true)
    (hj : s.run.jobState.isOpen = true) {cc : CC} (h : (s.taken l rest).takeMarker [w] = (cc, s.taken l rest)) :
    exec (.marker l) s = .next (s.answered l rest (markerAnswer tag cc s.run.markers.length)) := by
  rw [exec_marker ho hheld hj, h, taken_run, queueReply_taken]

end

/-- Settles O52: RUN's checks in order, each outcome answered, and the place of an entry in an ordered list. -/
theorem markerIsInsertedOrPassed : Obligations.MarkerIsInsertedOrPassed := by
  intro s l tag w rest ho hheld hj bit track ms reply
  have hrun : (s.taken l rest).run = s.run := taken_run s l rest
  refine ⟨fun hout => exec_marker_refused ho hheld hj (takeMarker_outOfRange (by rwa [hrun])), fun b hb hband => ?_⟩
  have htake := takeMarker_inRange (s := s.taken l rest) hb (by rwa [hrun])
  rw [hrun] at htake
  refine ⟨fun hpassed => ?_, fun hahead hfull => ?_, fun hahead hroom hsorted => ?_⟩
  · rw [if_pos hpassed] at htake
    rw [exec_marker ho hheld hj, htake, raise_run, hrun]
    rfl
  · rw [if_neg (Nat.not_lt.2 hahead), if_pos hfull] at htake
    exact exec_marker_refused ho hheld hj htake
  · rw [if_neg (Nat.not_lt.2 hahead), if_neg (Nat.not_le.2 hroom)] at htake
    rw [exec_marker ho hheld hj, htake, queueReply_taken_run, length_insertMarker,
      insertMarker_eq_of_pairwise hsorted]
    rfl

end Sys2Proof.Machine
end

section
/-!
The words on the line: the fields of a word, the header of a frame, the check word bit by bit, and the reception of the
words of a frame (R153 to R156, R173).
-/

namespace Sys2Proof.Machine

/-! ### The fields of a word -/

/-- R173: a value put in bits hi..lo is its low bits, shifted; nothing of it is lost at the top of the word. -/
theorem toNat_put {hi lo : Nat} (hlo : lo ≤ hi) (hhi : hi < 32) (v : Nat) :
    (put hi lo v).toNat = v % 2 ^ (hi - lo + 1) * 2 ^ lo := by
  have hfield : v % 2 ^ (hi - lo + 1) < 2 ^ (hi - lo + 1) := Nat.mod_lt _ (Nat.two_pow_pos _)
  have hword : v % 2 ^ (hi - lo + 1) * 2 ^ lo < 2 ^ 32 := calc
    _ < 2 ^ (hi - lo + 1) * 2 ^ lo := Nat.mul_lt_mul_of_pos_right hfield (Nat.two_pow_pos lo)
    _ = 2 ^ (hi + 1) := by rw [← Nat.pow_add]; congr 1; omega
    _ ≤ 2 ^ 32 := Nat.pow_le_pow_right (by decide) hhi
  rw [put, BitVec.toNat_ofNat, Nat.mod_eq_of_lt hword]

/-- A field that fits, above a value that lies wholly below it, is their sum. -/
theorem put_or_ofNat {hi lo v b : Nat} (hv : v < 2 ^ (hi - lo + 1)) (hb : b < 2 ^ lo) :
    put hi lo v ||| BitVec.ofNat 32 b = BitVec.ofNat 32 (v * 2 ^ lo + b) := by
  rw [put, Nat.mod_eq_of_lt hv, ← BitVec.ofNat_or, Nat.mul_comm, Nat.two_pow_add_eq_or_of_lt hb]

/-- A field at the foot of a word that fits. -/
theorem put_zero {hi v : Nat} (hv : v < 2 ^ (hi + 1)) : put hi 0 v = BitVec.ofNat 32 v := by
  rw [put, Nat.sub_zero, Nat.mod_eq_of_lt hv, Nat.pow_zero, Nat.mul_one]

/-- R153: the header of a frame of kind k, tag g and length n. -/
theorem put_header {k g n : Nat} (hk : k < 256) (hg : g < 256) (hn : n < 65536) :
    put 31 24 k ||| put 23 16 g ||| put 15 0 n = BitVec.ofNat 32 (k * 2 ^ 24 + g * 2 ^ 16 + n) := by
  rw [BitVec.or_assoc, put_zero hn, put_or_ofNat hg hn, put_or_ofNat hk (by omega), Nat.add_assoc]

theorem bits_header {k g n : Nat} (hk : k < 256) (hg : g < 256) (hn : n < 65536) :
    let w : Word := BitVec.ofNat 32 (k * 2 ^ 24 + g * 2 ^ 16 + n)
    bits w 31 24 = k ∧ bits w 23 16 = g ∧ bits w 15 0 = n := by
  simp only [bits, BitVec.toNat_ofNat]
  omega

theorem frameKind_code_lt (k : FrameKind) : k.code < 256 := by cases k <;> decide

theorem cc_code_lt (c : CC) : c.code < 256 := by cases c <;> decide

theorem jobState_code_lt (j : JobState) : j.code < 256 := by cases j <;> decide

/-! ### The words of a frame -/

/-- R153: the words of an outbound frame, from its kind, tag and payload. -/
theorem words_of_parts {f : OutFrame} {k g : Nat} {p : List Word} (hf : f.parts = (k, g, p)) (hk : k < 256)
    (hg : g < 256) (hlen : p.length < 65536) :
    let body := BitVec.ofNat 32 (k * 2 ^ 24 + g * 2 ^ 16 + p.length) :: p
    f.words = body ++ [crc body] := by
  simp only [OutFrame.words, hf, put_header hk hg hlen]

/-- R155, R175: a reply's payload opens with the kind answered, the completion code and the code word. -/
theorem payload_reply (r : Reply) :
    r.payload = [BitVec.ofNat 32 (r.kind.code * 2 ^ 24 + r.cc.code), r.code] ++ r.returned := by
  have hcc := cc_code_lt r.cc
  rw [Reply.payload, put_zero hcc, put_or_ofNat (frameKind_code_lt r.kind) (by omega)]

/-- R171: a notice's payload has three words. -/
theorem payload_notice {n : Notice} (ht : n.t < 65536) : n.payload =
    [n.jobNumber, BitVec.ofNat 32 (n.jobState.code * 2 ^ 24 + n.t),
     BitVec.ofNat 32 (n.raw.toNat * 2 ^ 16 + n.masked.toNat)] := by
  rw [Notice.payload, put_zero ht, put_or_ofNat (jobState_code_lt n.jobState) (by omega), put_zero n.masked.isLt,
    put_or_ofNat n.raw.isLt n.masked.isLt]

theorem words_reply {r : Reply} (hlen : r.returned.length + 2 < 65536) :
    let body := [BitVec.ofNat 32 (0x81 * 2 ^ 24 + r.tag.toNat * 2 ^ 16 + (r.returned.length + 2)),
      BitVec.ofNat 32 (r.kind.code * 2 ^ 24 + r.cc.code), r.code] ++ r.returned
    (OutFrame.reply r).words = body ++ [crc body] := by
  have hlength : r.payload.length = r.returned.length + 2 := by rw [payload_reply]; simp
  have hwords := words_of_parts (f := .reply r) rfl (by decide) r.tag.isLt (hlength ▸ hlen)
  rwa [hlength, payload_reply] at hwords

theorem words_notice {n : Notice} (ht : n.t < 65536) :
    let body := [BitVec.ofNat 32 (0x82 * 2 ^ 24 + 3), n.jobNumber, BitVec.ofNat 32 (n.jobState.code * 2 ^ 24 + n.t),
      BitVec.ofNat 32 (n.raw.toNat * 2 ^ 16 + n.masked.toNat)]
    (OutFrame.notice n).words = body ++ [crc body] := by
  have hlength : n.payload.length = 3 := rfl
  have hwords := words_of_parts (f := .notice n) rfl (by decide) (by decide) (hlength ▸ (by decide : 3 < 65536))
  rwa [hlength, payload_notice ht] at hwords

/-- R153: the words a sender makes of an inbound frame. -/
theorem words_inFrame {f : InFrame} (hlen : f.payload.length < 65536) :
    let body := BitVec.ofNat 32 (f.kind.code * 2 ^ 24 + f.tag.toNat * 2 ^ 16 + f.payload.length) :: f.payload
    f.words = body ++ [crc body] := by
  simp only [InFrame.words, put_header (frameKind_code_lt f.kind) f.tag.isLt hlen]

/-! ### The check word -/

/-- R154: the low n bits of a word enter the register from bit n - 1 down. -/
theorem crcBits_eq_foldl (w : Word) (n : Nat) (reg : Word) :
    crcBits w n reg = ((List.range n).map fun i => w.getLsbD (n - 1 - i)).foldl crcBit reg := by
  induction n generalizing reg with
  | zero => rfl
  | succ n ih =>
    have hshift : ∀ i, n + 1 - 1 - (i + 1) = n - 1 - i := fun i => by omega
    simp only [crcBits, ih, List.range_succ_eq_map, List.map_cons, List.map_map, List.foldl_cons, Function.comp_def,
      Nat.succ_eq_add_one, hshift]
    rfl

/-- R154: the check word of several words is that of their bits in order, bit 31 of each first. -/
theorem crc_eq_foldl (ws : List Word) :
    crc ws = (ws.flatMap fun w => (List.range 32).map fun i => w.getLsbD (31 - i)).foldl crcBit 0xFFFFFFFF#32 := by
  rw [List.foldl_flatMap]
  exact congrArg (fun g => ws.foldl g _) (funext fun reg => funext fun w => crcBits_eq_foldl w 32 reg)

theorem crcBit_eq (reg : Word) (b : Bool) :
    crcBit reg b = if reg.getLsbD 31 ^^ b then (reg <<< 1) ^^^ 0x04C11DB7#32 else reg <<< 1 := by
  rw [crcBit, BitVec.msb_eq_getLsbD_last]

/-- Settles O60: the codes by their tables, the header and code words by their fields, the check word bit by bit. -/
theorem framesCarryTheirWords : Obligations.FramesCarryTheirWords := by
  refine ⟨rfl, rfl, rfl, fun hi lo v w hlo hhi => ⟨toNat_put hlo hhi v, rfl⟩, fun r => words_reply, fun n => words_notice,
    fun f => words_inFrame, fun ws => ?_⟩
  rw [crc_eq_foldl]
  exact congrArg (fun g => List.foldl g _ _) (funext fun reg => funext (crcBit_eq reg))

/-! ### The reception of a frame -/

theorem frameKind_ofCode_code (k : FrameKind) : FrameKind.ofCode k.code = some k := by cases k <;> rfl

/-- R155: a kind byte that is none of the three is unknown. -/
theorem frameKind_ofCode_eq_none {n : Nat} (h1 : n ≠ 1) (h2 : n ≠ 2) (h3 : n ≠ 3) : FrameKind.ofCode n = none := by
  unfold FrameKind.ofCode
  split
  · exact absurd rfl h1
  · exact absurd rfl h2
  · exact absurd rfl h3
  · rfl

/-- R156: a header that names its payload's length, that payload, and their check word. -/
theorem checkFrame_of_good {header : Word} {payload : List Word} (hlen : payload.length ≤ 4100)
    (hlength : bits header 15 0 = payload.length) :
    checkFrame ((header :: payload) ++ [crc (header :: payload)]) .byEnd =
      (FrameKind.ofCode (bits header 31 24)).map fun kind => ⟨kind, BitVec.ofNat 8 (bits header 23 16), payload⟩ := by
  have hshort : ¬ payload.length + 1 + 1 < 2 := by omega
  have hlong : ¬ 4102 < payload.length + 1 + 1 := by omega
  simp only [checkFrame, List.cons_append, List.length_cons, List.length_append, List.length_nil, Nat.zero_add,
    List.dropLast_concat, List.getLast?_concat, hlength, hshort, hlong, Nat.not_lt.2 hlen, reduceCtorEq, or_self,
    ne_eq, not_true_eq_false, if_false]

/-- R156: a frame as its sender makes it passes every condition on its words. -/
theorem checkFrame_words {f : InFrame} (hlen : f.payload.length ≤ 4100) : checkFrame f.words .byEnd = some f := by
  obtain ⟨hkind, htag, hlength⟩ := bits_header (frameKind_code_lt f.kind) f.tag.isLt (n := f.payload.length) (by omega)
  rw [words_inFrame (by omega)]
  refine (checkFrame_of_good hlen hlength).trans ?_
  rw [hkind, htag, frameKind_ofCode_code, Option.map_some, BitVec.ofNat_toNat, BitVec.setWidth_eq]

/-- R156: the conditions 1 to 5 under which the words of a frame are discarded. -/
theorem checkFrame_eq_none {ws : List Word} {fin : FrameEnd}
    (h : fin = .byStart ∨ ws.length < 2 ∨ 4102 < ws.length ∨ 4100 < bits (ws.headD 0) 15 0 ∨
      ws.length ≠ bits (ws.headD 0) 15 0 + 2 ∨ ws.getLast? ≠ some (crc ws.dropLast) ∨
      (bits (ws.headD 0) 31 24 ≠ 1 ∧ bits (ws.headD 0) 31 24 ≠ 2 ∧ bits (ws.headD 0) 31 24 ≠ 3)) :
    checkFrame ws fin = none := by
  cases ws with
  | nil => rfl
  | cons header rest =>
    simp only [checkFrame, List.headD_cons] at h ⊢
    split_ifs with hshape hlong hlength hcheck
    · rfl
    · rfl
    · rfl
    · rfl
    · have hrest : rest ≠ [] := by
        rintro rfl
        exact hshape (by simp)
      rw [List.getLast?_cons_of_ne_nil hrest, List.dropLast_cons_of_ne_nil hrest] at h
      obtain ⟨h1, h2, h3⟩ : bits header 31 24 ≠ 1 ∧ bits header 31 24 ≠ 2 ∧ bits header 31 24 ≠ 3 := by tauto
      rw [frameKind_ofCode_eq_none h1 h2 h3, Option.map_none]

@[simp] theorem endFrame_errors (x : Port) (fin : FrameEnd) : (x.endFrame fin).errors = x.errors := rfl

/-- R153, R156: a frame that passes joins a buffer with room. -/
theorem receiveFrame_of_room {s : State} {l : Link} {ws : List Word} {fin : FrameEnd} {f : InFrame}
    (hf : checkFrame ((s.port l).receiving.getD [] ++ ws) fin = some f) (hroom : (s.port l).input.length < 2) :
    s.receiveFrame l ws fin =
      s.setPort l { (s.port l).endFrame fin with input := (s.port l).input ++ [f] } := by
  have hroom : (s.port l).input.length < Config.inputDepth := hroom
  simp only [State.receiveFrame, hf, if_pos hroom, setPort_setPort, port_setPort]
  rfl

theorem exec_frameReceived (l : Link) (ws : List Word) (fin : FrameEnd) (s : State) :
    exec (.frameReceived l ws fin) s = .next (s.receiveFrame l ws fin) := rfl

/-- R156: a discarded frame is one error on its link, saturating, and a raise of LINKERR. -/
theorem discardFrame_endFrame (s : State) (l : Link) (fin : FrameEnd) :
    (s.setPort l ((s.port l).endFrame fin)).discardFrame l =
      (s.setPort l { (s.port l).endFrame fin with errors := min 65535 ((s.port l).errors + 1) }).raise .linkerr := by
  simp only [State.discardFrame, saturate, setPort_setPort, port_setPort, endFrame_errors]

/-- R156: a frame that fails, or finds no room, is discarded. -/
theorem receiveFrame_of_bad {s : State} {l : Link} {ws : List Word} {fin : FrameEnd}
    (h : checkFrame ((s.port l).receiving.getD [] ++ ws) fin = none ∨ 2 ≤ (s.port l).input.length) :
    s.receiveFrame l ws fin = (s.setPort l ((s.port l).endFrame fin)).discardFrame l := by
  simp only [State.receiveFrame]
  split
  · rfl
  · next hf =>
    have hfull : ¬ (s.port l).input.length < Config.inputDepth := by
      rcases h with h | h
      · exact absurd (hf.symm.trans h) nofun
      · exact Nat.not_lt.2 h
    rw [if_neg hfull]

/-- Settles O7: the words a sender makes pass the conditions, and give back kind, tag and payload. -/
theorem goodFrameJoinsTheBuffer : Obligations.GoodFrameJoinsTheBuffer := by
  intro s l f hlen hroom hempty
  have hf : checkFrame ((s.port l).receiving.getD [] ++ f.words) .byEnd = some f := by
    rw [hempty, List.nil_append, checkFrame_words hlen]
  rw [exec_frameReceived, receiveFrame_of_room hf hroom]
  rfl

/-- Settles O8: conditions 1 to 5 are those on the words, and condition 6 is a full buffer. -/
theorem badFrameIsDiscarded : Obligations.BadFrameIsDiscarded := by
  intro s l ws fin all header hbad
  have hend : (s.port l).endFrame fin = { s.port l with receiving := if fin = .byStart then some [] else none } := by
    cases fin <;> rfl
  have hfails : checkFrame all fin = none ∨ 2 ≤ (s.port l).input.length :=
    Or.imp_left checkFrame_eq_none (by simpa only [or_assoc] using hbad)
  have hdiscard := (receiveFrame_of_bad hfails).trans (discardFrame_endFrame s l fin)
  rw [exec_frameReceived, hdiscard, hend]

end Sys2Proof.Machine
end

section
/-!
The outbound queue of a link: what a raise makes of it, and what its transmitter sends of it (R159, R164, R165, R170).
-/

namespace Sys2Proof.Machine

/-! ### Raises and notices -/

theorem waiting_eq (x : Port) : x.waiting = if x.sending then x.out.tail else x.out := by
  rw [Port.waiting, List.drop_one]

/-- R170: a pending notice is one that stands in the queue and whose sending has not begun. -/
theorem hasNotice_iff (x : Port) : x.hasNotice = true ↔ ∃ n, OutFrame.notice n ∈ x.waiting := by
  rw [Port.hasNotice, List.any_eq_true]
  constructor
  · rintro ⟨f, hf, hnotice⟩
    cases f with
    | reply r => cases hnotice
    | notice n => exact ⟨n, hf⟩
  · rintro ⟨n, hn⟩
    exact ⟨_, hn, rfl⟩

/-- R159, R170: a notice taken anew leaves the frame whose sending has begun. -/
theorem begun_takeAnew (n : Notice) (x : Port) : (x.takeAnew n).begun = x.begun := by
  unfold Port.takeAnew Port.begun Port.waiting
  cases x.sending with
  | false => rfl
  | true => cases x.out <;> simp

theorem retake_eq (n : Notice) (f : OutFrame) : OutFrame.retake n f = if f.isNotice then .notice n else f := by
  cases f <;> rfl

/-- R165: a link that does not enable the bit hears no raise of it. -/
theorem hearRaise_of_masked {b : StatusBit} {m : StatusWord} (hm : m.getLsbD b.index = false) (was : Bool) (n : Notice)
    (x : Port) : x.hearRaise b was m n = x := by
  simp [Port.hearRaise, hm]

/-- R170: a raise that a link enables takes a pending notice anew, whether or not the bit was set. -/
theorem hearRaise_of_hasNotice {b : StatusBit} {m : StatusWord} (hm : m.getLsbD b.index = true) {x : Port}
    (hx : x.hasNotice = true) (was : Bool) (n : Notice) : x.hearRaise b was m n = x.takeAnew n := by
  simp [Port.hearRaise, Port.noticeDue, hm, hx]

/-- R165, R170: with no notice pending, a raise that a link enables makes one where the bit was clear. -/
theorem hearRaise_of_no_notice {b : StatusBit} {m : StatusWord} (hm : m.getLsbD b.index = true) {x : Port}
    (hx : x.hasNotice = false) (was : Bool) (n : Notice) :
    x.hearRaise b was m n = if was then x else { x with out := x.out ++ [.notice n] } := by
  simp [Port.hearRaise, Port.noticeDue, hm, hx]

/-- Settles O17: a raise by what each link hears of it, by its mask and its pending notice. -/
theorem raiseSetsItsBitAndMakesNoticesDue : Obligations.RaiseSetsItsBitAndMakesNoticesDue := by
  refine ⟨fun x => ⟨waiting_eq x, hasNotice_iff x⟩, rfl, fun _ => rfl, fun _ => rfl, fun s b => ⟨_, _, rfl⟩,
    fun s b l => ?_, fun n x => ⟨begun_takeAnew n x, ?_⟩⟩
  · intro x y n
    have hy : y = x.hearRaise b (s.event.status.getLsbD b.index) (s.event.mask l) n := raise_port s l b
    rw [hy]
    exact ⟨fun hm => hearRaise_of_masked hm _ _ _, fun hm hx => hearRaise_of_hasNotice hm hx _ _,
      fun hm hx => hearRaise_of_no_notice hm hx _ _⟩
  · rw [waiting_takeAnew]
    exact congrArg (List.map · x.waiting) (funext (retake_eq n))

/-! ### The transmitter -/

/-- R164: a CLOSING link whose queue holds no reply sends nothing. -/
theorem stopped_iff (x : Port) :
    x.stopped = true ↔ x.handling = .closing ∧ ∀ f ∈ x.out, f.isReply = false := by
  simp [Port.stopped]

theorem stopped_eq_decide (x : Port) :
    x.stopped = decide (x.handling = .closing ∧ ∀ f ∈ x.out, f.isReply = false) :=
  Bool.eq_iff_iff.2 ((stopped_iff x).trans decide_eq_true_iff.symm)

/-- R159: an idle transmitter with a frame queued begins it. -/
theorem beginSending_of_ne_nil {x : Port} (hx : x.stopped = false) (hout : x.out ≠ []) :
    x.beginSending = { x with sending := true } := by
  simp [Port.beginSending, hx, hout]

theorem beginSending_of_nil {x : Port} (hout : x.out = []) : x.beginSending = x := by
  rw [Port.beginSending, hout, List.isEmpty_nil, Bool.not_true, Bool.false_and, Bool.or_false, ← hout]

theorem beginSending_of_stopped {x : Port} (hx : x.stopped = true) : x.beginSending = x := by
  simp [Port.beginSending, hx]

/-- R159: the frame sent leaves, and the next begins unless the link has sent its DRESET reply with it. -/
theorem endSending_of_not_stopped {x : Port} (hx : x.stopped = false) :
    x.endSending = { x with
      out := x.out.tail
      sending := decide (x.out.tail ≠ []) && !({ x with out := x.out.tail } : Port).stopped } := by
  have hqueue : decide (x.out.tail ≠ []) = !x.out.tail.isEmpty := by cases x.out.tail <;> rfl
  rw [Port.endSending, if_neg (by simp [hx]), hqueue, List.drop_one]
  rfl

theorem endSending_of_stopped {x : Port} (hx : x.stopped = true) : x.endSending = x := if_pos hx

theorem exec_frameSent_begun (l : Link) (s : State) :
    exec (.frameSent l .begun) s = .next (s.setPort l (s.port l).beginSending) := rfl

theorem exec_frameSent_ended (l : Link) (s : State) :
    exec (.frameSent l .ended) s = .next (s.setPort l (s.port l).endSending) := rfl

/-- Settles O9: what a transmitter begins and ends, by whether the link has sent its DRESET reply. -/
theorem transmitterSendsInQueueOrder : Obligations.TransmitterSendsInQueueOrder := by
  intro s l x closed
  have hclosed : x.stopped = true ↔ closed := stopped_iff x
  have hopen : ¬ closed → x.stopped = false := fun h => Bool.eq_false_iff.2 (h ∘ hclosed.1)
  rw [exec_frameSent_begun, exec_frameSent_ended]
  refine ⟨fun h hout => ?_, fun hout => ?_, fun h => ?_, fun h => ⟨?_, ?_⟩⟩
  · rw [beginSending_of_ne_nil (hopen h) hout]
  · rw [beginSending_of_nil hout, setPort_port]
  · rw [endSending_of_not_stopped (hopen h), stopped_eq_decide]
  · rw [beginSending_of_stopped (hclosed.2 h), setPort_port]
  · rw [endSending_of_stopped (hclosed.2 h), setPort_port]

end Sys2Proof.Machine
end

section
/-!
Frames that a link does not take, requests of no known code and payloads of the wrong size (R158, R160, R174).
-/

namespace Sys2Proof.Machine

/-! ### A frame not taken -/

/-- R158, R160: the commands by which a link takes a frame: ROW, MARKER, UNKNOWN_REQUEST, and one for each code. -/
theorem command_of_takesOn {c : Instr} {l : Link} (h : c.takesOn = some l) :
    c = .row l ∨ c = .marker l ∨ c = .unknownRequest l ∨ ∃ r : ReqCode, c = r.command l := by
  have hrequest : ∀ r : ReqCode, r.command l = .row l ∨ r.command l = .marker l ∨ r.command l = .unknownRequest l ∨
      ∃ r' : ReqCode, r.command l = r'.command l := fun r => .inr (.inr (.inr ⟨r, rfl⟩))
  cases c <;> cases h
  exacts [hrequest .jopen, hrequest .jstart, hrequest .jhold, hrequest .jresume, hrequest .jabort, hrequest .jclose,
    hrequest .jquery, hrequest .sdef, hrequest .srel, hrequest .squery, hrequest .wset, hrequest .wread, hrequest .tload,
    hrequest .tread, hrequest .mload, hrequest .htrim, hrequest .hreset, hrequest .hquery, hrequest .evset,
    hrequest .evclr, hrequest .evack, hrequest .evread, hrequest .ident, hrequest .dreset, .inl rfl, .inr (.inl rfl),
    .inr (.inr (.inl rfl))]

/-- R158: a link takes no frame of a sort that none it offers is of. -/
theorem takeFrame_eq_none {s : State} {l : Link} {sort : InFrame → Bool}
    (h : ∀ f rest, s.offers l f rest → sort f = false) : s.takeFrame l sort = none := by
  refine Option.eq_none_iff_forall_ne_some.2 fun ⟨f, t⟩ ht => ?_
  obtain ⟨rest, ho, hf, -⟩ := (takeFrame_eq_some s l).1 ht
  exact absurd hf (Bool.eq_false_iff.1 (h f rest ho))

/-- R158: a link offers the one frame at the head of its buffer. -/
theorem offers_unique {s : State} {l : Link} {f g : InFrame} {rest rest' : List InFrame} (hf : s.offers l f rest)
    (hg : s.offers l g rest') : g = f := by
  obtain ⟨hf, -⟩ := hf
  obtain ⟨hg, -⟩ := hg
  exact (List.cons.inj (hg.symm.trans hf)).1

theorem takeFrame_of_other_sort {s : State} {l : Link} {f : InFrame} {rest : List InFrame} (ho : s.offers l f rest)
    {sort : InFrame → Bool} (hf : sort f = false) : s.takeFrame l sort = none :=
  takeFrame_eq_none fun _ _ hg => offers_unique ho hg ▸ hf

/-- R158: what keeps a link from offering any frame. -/
theorem not_offers {s : State} {l : Link} (h : (s.port l).handling ≠ .ready ∨ 2 ≤ (s.port l).unsentReplies ∨
    (s.port l).input = []) (f : InFrame) (rest : List InFrame) : ¬ s.offers l f rest := by
  rintro ⟨hinput, hready, hroom⟩
  rcases h with h | h | h
  · exact h hready
  · exact Nat.not_lt.2 h hroom
  · exact List.cons_ne_nil f rest (hinput.symm.trans h)

section
variable {s : State} {l : Link}

theorem exec_row_of_none (h : s.takeFrame l InFrame.isRow = none) : exec (.row l) s = .next s := by
  show execRow l s = _
  simp [execRow, settleStep, h]

theorem exec_marker_of_none (h : s.takeFrame l InFrame.isMarker = none) : exec (.marker l) s = .next s := by
  show execMarker l s = _
  simp [execMarker, settleStep, h]

theorem exec_unknownRequest_of_none (h : s.takeFrame l InFrame.isUnknown = none) :
    exec (.unknownRequest l) s = .next s := by
  show execUnknownRequest l s = _
  simp [execUnknownRequest, settleStep, h]

/-- R158, R160: a request's command that finds no frame of its code changes nothing. -/
theorem exec_command_of_none {c : ReqCode} (h : s.takeFrame l (InFrame.isRequest c) = none) :
    exec (c.command l) s = .next s := by
  have hserve : ∀ owner, serve c l owner s = .next s := fun owner => by simp [serve, settleStep, State.request, h]
  have hwrite : ∀ parse, serveWrite c l parse s = .next s := fun parse => by simp [serveWrite, settleStep, h]
  cases c with
  | tload | mload | htrim => exact hwrite _
  | dreset =>
    show execDreset l s = _
    simp [execDreset, settleStep, h]
  | _ => exact hserve _

/-- R158: a link that offers no frame takes none, whatever the command. -/
theorem exec_of_no_offer {c : Instr} (hc : c.takesOn = some l) (h : ∀ f rest, ¬ s.offers l f rest) :
    exec c s = .next s := by
  have hnone : ∀ sort, s.takeFrame l sort = none := fun _ => takeFrame_eq_none fun f rest ho => absurd ho (h f rest)
  rcases command_of_takesOn hc with rfl | rfl | rfl | ⟨r, rfl⟩
  · exact exec_row_of_none (hnone _)
  · exact exec_marker_of_none (hnone _)
  · exact exec_unknownRequest_of_none (hnone _)
  · exact exec_command_of_none (hnone _)

end

/-! ### The sorts of frames -/

theorem isRequest_eq_false {c : ReqCode} {f : InFrame} (h : f.kind ≠ .request ∨ f.payload.head? ≠ some c.word) :
    f.isRequest c = false := by
  rw [InFrame.isRequest, InFrame.codeWord, Bool.and_eq_false_iff]
  exact h.imp beq_eq_false_iff_ne.2 beq_eq_false_iff_ne.2

theorem ofWord_eq_none_iff (w : Word) : ReqCode.ofWord w = none ↔ ∀ c : ReqCode, c.word ≠ w := by
  have hall : ∀ c : ReqCode, c ∈ ReqCode.all := fun c => by cases c <;> decide
  simp [ReqCode.ofWord, List.find?_eq_none, hall]

/-- R160 step 1: a REQUEST frame is unknown where its payload opens with no known code, or is empty. -/
theorem isUnknown_iff (f : InFrame) :
    f.isUnknown = true ↔ f.kind = .request ∧ ∀ c : ReqCode, f.payload.head? ≠ some c.word := by
  rw [InFrame.isUnknown, InFrame.codeWord, Bool.and_eq_true, beq_iff_eq, Option.isNone_iff_eq_none]
  refine and_congr_right fun _ => ?_
  cases f.payload.head? with
  | none => simp
  | some w =>
    rw [Option.bind_some, ofWord_eq_none_iff]
    simp [eq_comm]

/-- Settles O10: a link that offers nothing takes nothing, and a command takes no frame of another sort. -/
theorem linkThatCannotTakeChangesNothing : Obligations.LinkThatCannotTakeChangesNothing := by
  refine ⟨fun x => ?_, fun s c l hc hblocked => exec_of_no_offer hc (not_offers hblocked),
    fun s l f rest ho => ⟨fun hkind => ?_, fun hkind => ?_, fun c hother => ?_, fun hother => ?_⟩⟩
  · rw [Port.unsentReplies, waiting_eq]
  · exact exec_row_of_none (takeFrame_of_other_sort ho (beq_eq_false_iff_ne.2 hkind))
  · exact exec_marker_of_none (takeFrame_of_other_sort ho (beq_eq_false_iff_ne.2 hkind))
  · exact exec_command_of_none (takeFrame_of_other_sort ho (isRequest_eq_false hother))
  · refine exec_unknownRequest_of_none (takeFrame_of_other_sort ho (Bool.eq_false_iff.2 fun hunknown => ?_))
    obtain ⟨hrequest, hcode⟩ := (isUnknown_iff f).1 hunknown
    rcases hother with hkind | ⟨c, hc⟩
    · exact hkind hrequest
    · exact hcode c hc

/-- Settles O11: the twenty-four values are the code words, so the frame is of the sort UNKNOWN_REQUEST takes. -/
theorem unknownCodeIsAnsweredUnknown : Obligations.UnknownCodeIsAnsweredUnknown := by
  intro s l tag payload rest ho hcode
  have hunknown : InFrame.isUnknown ⟨.request, tag, payload⟩ = true := by
    refine (isUnknown_iff _).2 ⟨rfl, fun c hc => hcode c.word hc ?_⟩
    cases c <;> decide
  have hreply : InFrame.answer ⟨.request, tag, payload⟩ .unknown [] =
      ⟨.request, tag, payload.headD 0, .unknown, []⟩ := by
    rw [List.headD_eq_head?_getD]
    rfl
  show execUnknownRequest l s = _
  simp only [execUnknownRequest, settleStep, takeFrame_of_offers s l ho hunknown, Option.getD_some, queueReply_taken,
    hreply]

/-! ### The size of a payload -/

/-- R174: the words of a request's fixed part, the code word counted. -/
def ReqCode.fixedWords : ReqCode → Nat
  | .jopen => 7
  | .wset | .htrim => 6
  | .mload | .sdef | .tread => 3
  | .tload | .srel | .wread | .hreset | .hquery | .evset | .evclr | .evack => 2
  | .jstart | .jhold | .jresume | .jabort | .jclose | .jquery | .squery | .evread | .ident | .dreset => 1

/-- R174: a payload holds the fixed part, and for a request without a list nothing more. -/
theorem fixedPart_iff (c : ReqCode) (k : Nat) : c.fixedPart k = true ↔
    c.fixedWords ≤ k ∧ (c ∉ [ReqCode.jopen, .tload, .mload] → k ≤ c.fixedWords) := by
  cases c with
  | jopen | tload | mload => simp [ReqCode.fixedPart, ReqCode.fixedWords]
  | _ => simp [ReqCode.fixedPart, ReqCode.fixedWords, Nat.le_antisymm_iff, and_comm]

theorem dispatch_of_not_fixedPart {s : State} {l : Link} {c : ReqCode} {p : List Word} (hz : s.zonePasses l c = true)
    (hl : s.lockPasses c = true) (ha : c.acceptedIn s.run.jobState = true) (h : c.fixedPart p.length = false) :
    s.dispatch l c p = some .range := by simp [State.dispatch, hz, hl, ha, h]

theorem dispatchFrame_of_not_fixedPart {s : State} {l : Link} (hheld : s.holdsZone l .place = true)
    (hj : s.run.jobState.isOpen = true) : s.dispatchFrame l false = some .range := by
  simp [State.dispatchFrame, hheld, hj]

/-- Settles O16: the size step stands last in each dispatch. -/
theorem wrongPayloadSizeIsRefused : Obligations.WrongPayloadSizeIsRefused := by
  intro s l tag rest
  refine ⟨fun c ops n ho hz hl ha hn hsize => ?_, fun p ho hheld hj hsize => ?_, fun p ho hheld hj hsize => ?_⟩
  · have hwords : n = c.fixedWords := by cases c <;> simpa [ReqCode.fixedWords] using hn
    refine exec_command_refused ho (dispatch_of_not_fixedPart hz hl ha (Bool.eq_false_iff.2 fun hfixed => ?_))
    obtain ⟨hleast, hmost⟩ := (fixedPart_iff c (ops.length + 1)).1 hfixed
    rcases hsize with hshort | ⟨hlist, hlong⟩
    · omega
    · have := hmost hlist
      omega
  · have hd : s.dispatchFrame l (2 ≤ p.length) = some .range := by
      rw [decide_eq_false (Nat.not_le.2 hsize)]
      exact dispatchFrame_of_not_fixedPart hheld hj
    exact execRow_of_refused ho rfl hd
  · have hd : s.dispatchFrame l (p.length == 1) = some .range := by
      rw [beq_eq_false_iff_ne.2 hsize]
      exact dispatchFrame_of_not_fixedPart hheld hj
    exact execMarker_of_refused ho rfl hd

end Sys2Proof.Machine
end

section
/-!
IDENT, and DRESET with its reset (R113, R134, R163, R164).
-/

namespace Sys2Proof.Machine

/-! ### IDENT -/

theorem taken_identWords (s : State) (l : Link) (rest : List InFrame) : (s.taken l rest).identWords = s.identWords := by
  simp only [State.identWords, State.fittedCount, taken_straps]

theorem exec_ident {s : State} {l : Link} {tag : Byte} {rest : List InFrame} (hs : s.headerSound)
    (ho : s.offers l (requestFrame tag .ident []) rest) :
    exec (.ident l) s = .next (s.answered l rest (requestReply tag .ident .accepted s.identWords)) := by
  refine (serve_of_no_zone hs ho rfl (by decide) (by decide) rfl rfl ownIdent).trans ?_
  simp only [ownIdent, taken_identWords]
  exact congrArg _ (queueReply_returns s l rest tag .ident _)

/-- R113: DRESET_TAKES_EFFECT keeps the straps, whether or not the reset is due. -/
theorem dresetTakesEffect_straps {s t : State} (h : exec .dresetTakesEffect s = .next t) : t.straps = s.straps := by
  refine settleStep_keeps (P := fun t => t.straps = s.straps) rfl (fun u hu => ?_) h
  split at hu
  · injection hu with hu
    obtain ⟨-, hstraps, -⟩ := outside_eq_iff.1 (deviceReset_outside s)
    exact hu ▸ hstraps
  · cases hu

/-- Settles O20: IDENT's words by their layout, and the straps that heads fitted is made of. -/
theorem identReturnsThePart : Obligations.IdentReturnsThePart :=
  ⟨fun _ _ _ _ hs ho => exec_ident hs ho, fun _ _ => dresetTakesEffect_straps⟩

/-! ### DRESET -/

theorem execDreset_of_offers {s : State} {l : Link} {f : InFrame} {rest : List InFrame} (ho : s.offers l f rest)
    (hf : f.isRequest .dreset = true) (hd : s.dispatch l .dreset f.payload = none) :
    execDreset l s = .next ((s.taken l rest).closeLink l (f.answer .accepted [])) := by
  simp [execDreset, settleStep, takeFrame_of_offers s l ho hf, hd]

/-- R158, R164: a link that has taken its frame, queued the reply to it and closed. -/
theorem closeLink_taken (s : State) (l : Link) (rest : List InFrame) (r : Reply) :
    (s.taken l rest).closeLink l r = s.setPort l { s.port l with
      input := rest, handling := .closing, out := (s.port l).out ++ [.reply r] } := by
  simp [State.closeLink, queueReply_taken, State.answered]

/-- R164: DRESET on the S-link passes dispatch in every job state. -/
theorem dispatch_dreset {s : State} (hs : s.headerSound) : s.dispatch .s .dreset [ReqCode.dreset.word] = none := by
  have hzone : s.zonePasses .s .dreset = true := rfl
  have hlock : s.lockPasses .dreset = true := lockPasses_of_headerSound hs (by decide)
  simp [State.dispatch, hzone, hlock, ReqCode.acceptedIn, ReqCode.fixedPart]

/-- R164: the part as the reset of DRESET sets it, before the heads that are present lift. -/
def State.deviceCold (s : State) : State :=
  { s.cold s.straps with tables := { s.tables with writeQueue := [] } }.mapChans
    fun h c => { c with cellsCut := (s.chan h).cellsCut }

theorem deviceReset_eq (s : State) : s.deviceReset = s.deviceCold.liftPresent := rfl

theorem chan_deviceCold (s : State) (h : Head) :
    s.deviceCold.chan h = { Channel.reset with cellsCut := (s.chan h).cellsCut } := by
  have hcold : ({ s.cold s.straps with tables := { s.tables with writeQueue := [] } } : State).chan h = Channel.reset :=
    chan_cold s s.straps h
  rw [State.deviceCold, chan_mapChans, hcold]

/-- R164: the reset is due once the S-link is CLOSING and holds no reply. -/
theorem dresetDue_iff (s : State) :
    s.dresetDue = true ↔ s.sLink.handling = .closing ∧ ∀ f ∈ s.sLink.out, f.isReply = false := stopped_iff s.sLink

theorem exec_dresetTakesEffect_of_due {s : State} (h : s.dresetDue = true) :
    exec .dresetTakesEffect s = .next s.deviceReset := by
  show settleStep s (if s.dresetDue then some s.deviceReset else none) = _
  rw [if_pos h]
  rfl

/-- Settles O6: DRESET passes dispatch and closes its link; the reset sets every block, and the lifts of the present
heads then reach the channels and HFAULT bits alone. -/
theorem dresetClosesAndThenResets : Obligations.DresetClosesAndThenResets := by
  refine ⟨fun s tag rest hs ho => ?_, fun s hclosing hsent => ?_⟩
  · refine (execDreset_of_offers ho (isRequest_requestFrame tag .dreset []) (dispatch_dreset hs)).trans ?_
    rw [closeLink_taken]
    rfl
  · obtain ⟨hstore, hplace, htables, hbuild, hpins, hstraps, hpulses, hpending, hpmask, hsmask⟩ :=
      liftPresent_keepsBlocks s.deviceCold
    refine ⟨s.deviceReset, exec_dresetTakesEffect_of_due ((dresetDue_iff s).2 ⟨hclosing, hsent⟩), hstraps,
      run_foldEnterLifting _ nofun nofun, hstore, hplace, htables, hbuild, fun h => ?_,
      onlyResetFaults_liftPresent (fun _ => rfl) rfl, hpmask, hsmask,
      fun l => (port_foldEnterLifting _ rfl rfl l).trans (by cases l <;> rfl), hpulses, hpins, hpending⟩
    rw [deviceReset_eq]
    exact chan_liftPresent_of_reset (s := s.deviceCold) rfl (chan_deviceCold s) h

end Sys2Proof.Machine
end

section
/-!
EVENT's requests: the mask requests EVSET, EVCLR and EVACK, and the read EVREAD (R166 to R169).
-/

namespace Sys2Proof.Machine

/-! ### The bits of an EVSET -/

theorem mask_setMask (e : EventUnit) (l : Link) (k : StatusWord) : (e.setMask l k).mask l = k := by cases l <;> rfl

theorem status_setMask (e : EventUnit) (l : Link) (k : StatusWord) : (e.setMask l k).status = e.status := by
  cases l <;> rfl

/-- R167: the bits of m that the mask lacks are all clear in the status word exactly where the masked status stays. -/
theorem gained_eq_zero_iff (status mask m : StatusWord) :
    status &&& m &&& ~~~mask = 0 ↔ status &&& (mask ||| m) = status &&& mask := by
  have hbit : ∀ st k b : Bool, (st && b && !k) = false ↔ (st && (k || b)) = (st && k) := by decide
  simp only [BitVec.eq_of_getLsbD_eq_iff]
  refine forall₂_congr fun i hi => ?_
  simp only [BitVec.getLsbD_and, BitVec.getLsbD_or, BitVec.getLsbD_not, BitVec.getLsbD_zero, hi, decide_true,
    Bool.true_and, BitVec.ofNat_eq_ofNat]
  exact hbit _ _ _

/-- R167, R170, R171: an EVSET by its link's new mask, and the notice it makes due where the masked status gains a bit. -/
theorem enable_eq (l : Link) (m : StatusWord) (s : State) :
    let mask := s.event.mask l
    let masked := s.event.status &&& (mask ||| m)
    let s1 : State := { s with event := s.event.setMask l (mask ||| m) }
    s.enable l m = if masked = s.event.status &&& mask then s1
      else s1.setPort l ((s.port l).noticeDue
        ⟨s.run.header.jobNumber, s.run.jobState, s.run.t, s.event.status, masked⟩) := by
  intro mask masked s1
  have hport : s1.port l = s.port l := by cases l <;> rfl
  have hcontent : s1.noticeContent l =
      ⟨s.run.header.jobNumber, s.run.jobState, s.run.t, s.event.status, masked⟩ := by
    simp only [State.noticeContent, EventUnit.masked, s1, masked, status_setMask, mask_setMask]
  have hgained : s.event.status &&& m &&& ~~~mask = 0 ↔ masked = s.event.status &&& mask :=
    gained_eq_zero_iff s.event.status mask m
  rw [← hcontent, ← hport]
  exact if_congr hgained rfl rfl

/-! ### Each request's answer -/

/-- A change of EVENT made while a frame is handled, and the frame answered. -/
theorem queueReply_taken_event (s : State) (l : Link) (rest : List InFrame) (e : EventUnit) (r : Reply) :
    ({ s.taken l rest with event := e }).queueReply l r = ({ s with event := e }).answered l rest r := by
  cases l <;> rfl

theorem maskOperand_pair (c m : Word) : maskOperand [c, m] = m.setWidth 16 := ofNat_bits_low m

section
variable {s : State} {l : Link} {tag : Byte} {m : Word} {rest : List InFrame}

/-- R160: a mask request passes dispatch in every job state, and EVENT accepts it with bits 15-0 of its operand. -/
theorem serve_mask {c : ReqCode} (hs : s.headerSound) (ho : s.offers l (requestFrame tag c [m]) rest)
    (hc : c ∈ [ReqCode.evset, .evclr, .evack]) (act : StatusWord → State → State) :
    serve c l (fun p u => (act (maskOperand p) u).accept) s =
      .next ((act (m.setWidth 16) (s.taken l rest)).queueReply l (requestReply tag c .accepted [])) := by
  have hmask : ∀ c ∈ [ReqCode.evset, .evclr, .evack],
      c.zone = none ∧ c ≠ .dreset ∧ c ∉ [ReqCode.tload, .mload, .htrim, .hreset] ∧ c.fixedPart 2 = true := by decide
  obtain ⟨hzone, hne, hlock, hfixed⟩ := hmask c hc
  have haccepted : c.acceptedIn s.run.jobState = true := by fin_cases hc <;> rfl
  refine (serve_of_no_zone hs ho hzone hne hlock haccepted hfixed _).trans ?_
  rw [maskOperand_pair]
  rfl

theorem exec_evset (hs : s.headerSound) (ho : s.offers l (requestFrame tag .evset [m]) rest) :
    exec (.evset l) s =
      .next (((s.taken l rest).enable l (m.setWidth 16)).queueReply l (requestReply tag .evset .accepted [])) :=
  serve_mask hs ho (by decide) (State.enable l)

theorem exec_evclr (hs : s.headerSound) (ho : s.offers l (requestFrame tag .evclr [m]) rest) :
    exec (.evclr l) s = .next ((s.disable l (m.setWidth 16)).answered l rest (requestReply tag .evclr .accepted [])) := by
  refine (serve_mask hs ho (by decide) (State.disable l)).trans ?_
  rw [State.disable, taken_event, queueReply_taken_event]
  rfl

theorem exec_evack (hs : s.headerSound) (ho : s.offers l (requestFrame tag .evack [m]) rest) :
    exec (.evack l) s = .next ((s.acknowledge (m.setWidth 16)).answered l rest (requestReply tag .evack .accepted [])) := by
  refine (serve_mask hs ho (by decide) State.acknowledge).trans ?_
  rw [State.acknowledge, taken_event, queueReply_taken_event]
  rfl

theorem taken_eventWords (s : State) (l : Link) (rest : List InFrame) :
    (s.taken l rest).eventWords l = s.eventWords l := by
  simp only [State.eventWords, taken_event, port_taken]

/-- R160, R169: EVREAD passes dispatch in every job state and comes to EVENT, which reads for the requesting link. -/
theorem exec_evread (hs : s.headerSound) (ho : s.offers l (requestFrame tag .evread []) rest) :
    exec (.evread l) s = .next (s.answered l rest (requestReply tag .evread .accepted (s.eventWords l))) := by
  refine (serve_of_no_zone hs ho rfl (by decide) (by decide) rfl rfl (ownEvread l)).trans ?_
  simp only [ownEvread, taken_eventWords]
  exact congrArg _ (queueReply_returns s l rest tag .evread _)

end

/-- Settles O18: EVENT accepts each of the three; EVSET by its new mask and the notice due, the others by the one word of
EVENT they change. -/
theorem maskRequestsActOnTheirBits : Obligations.MaskRequestsActOnTheirBits := by
  refine fun s l tag m rest hs => ⟨fun ho => ?_, fun ho => exec_evclr hs ho, fun ho => exec_evack hs ho⟩
  intro s1 s2 n
  rw [exec_evset hs ho, enable_eq]
  simp only [s1, s2, n, taken_event, taken_run]

/-- Settles O19: the read of EVENT, by the layout of its words. -/
theorem evreadReturnsTheLinksView : Obligations.EvreadReturnsTheLinksView :=
  fun _ _ _ _ hs ho => exec_evread hs ho

end Sys2Proof.Machine
end

section
/-!
The queue of commands: which command a step runs, and the commands out of place, which change nothing (logs 1, 2, 6, 11).
-/

namespace Sys2Proof.Machine

/-! ### The queue of commands -/

theorem step_of_pending_nil {s : State} (h : s.pending = []) : step s = .next s := by
  rw [step, h]

/-- Settles O1: the queue is not empty, so the step is the case of `step` that takes its front. -/
theorem stepRunsTheFrontCommand : Obligations.StepRunsTheFrontCommand := by
  intro s c rest h
  rw [step, h]

/-! ### When a command is in place -/

/-- R138: the Index event that completes the settle count. -/
theorem settleDue_iff (s : State) : s.settleDue = true ↔
    s.run.jobState = .lowering ∧ (∀ h, s.used h = true → (s.chan h).state = .down) ∧
      s.run.settleCounter + 1 = s.run.header.settleCount := by
  simp only [State.settleDue, Bool.and_eq_true, beq_iff_eq, allDown_iff, and_assoc]

theorem allReady_eq_false_iff (s : State) : s.allReady = false ↔ ∃ h, s.used h = true ∧ s.lineReady h = false := by
  simp only [← Bool.not_eq_true, State.allReady, all_usedHeads, not_forall, exists_prop]

/-- R144: the Index event that slips and reaches the hold limit. -/
theorem holdLimitDue_iff (s : State) : s.holdLimitDue = true ↔
    s.run.jobState = .running ∧ s.run.phase = .slip ∧ (∃ h, s.used h = true ∧ s.lineReady h = false) ∧
      s.run.header.holdLimit ≠ 0 ∧ min 65535 (s.run.holdCounter + 1) = s.run.header.holdLimit := by
  simp only [State.holdLimitDue, Bool.and_eq_true, beq_iff_eq, bne_iff_ne, Bool.not_eq_true', allReady_eq_false_iff,
    and_assoc, saturate]

/-- R100: BUILD may make a choice. -/
theorem mayChoose_iff (s : State) : s.mayChoose = true ↔
    s.build.inFlight = none ∧ s.tables.writeQueue = [] ∧ s.run.jobState.onCopper = true := by
  simp only [State.mayChoose, Bool.and_eq_true, Option.isNone_iff_eq_none, List.isEmpty_iff, and_assoc]

/-! ### Commands out of place -/

/-- Log 1: a command guarded by a condition changes nothing where the condition fails. -/
theorem settleStep_of_not_due {s t : State} {due : Bool} (h : ¬ due = true) :
    settleStep s (if due then some t else none) = .next s := by
  rw [if_neg h]
  rfl

/-- R26: no report of head h is under way. -/
theorem exec_faultReport_of_none {s : State} {h : Head} (hnone : ∀ r ∈ s.run.reports, r.head ≠ h) :
    exec (.faultReport h) s = .next s := by
  have hfind : s.run.reports.find? (fun r => r.head == h) = none :=
    List.find?_eq_none.2 fun r hr => by rw [beq_iff_eq]; exact hnone r hr
  show execFaultReport h s = _
  rw [execFaultReport, hfind]
  rfl

theorem exec_buildChoice_of_not_mayChoose {s : State} (h : ¬ s.mayChoose = true) : exec .buildChoice s = .next s := by
  show execBuildChoice s = _
  rw [execBuildChoice, State.choice, if_neg h]
  rfl

theorem exec_buildCompletion_of_idle {s : State} (h : s.build.inFlight = none) : exec .buildCompletion s = .next s := by
  show execBuildCompletion s = _
  rw [execBuildCompletion, h]
  rfl

/-- Settles O3: five commands are guarded by a condition read off above; the other three find nothing to act on. -/
theorem stepsOutOfPlaceChangeNothing : Obligations.StepsOutOfPlaceChangeNothing := by
  refine fun s => ⟨step_of_pending_nil, fun hno => ?_, fun hno => ?_, fun hno => ?_, fun h hno => ?_, fun h hno => ?_,
    fun _ => exec_faultReport_of_none, fun hno => ?_, exec_buildCompletion_of_idle⟩
  · exact settleStep_of_not_due (mt (dresetDue_iff s).1 hno)
  · exact settleStep_of_not_due (mt (settleDue_iff s).1 hno)
  · exact settleStep_of_not_due (mt (holdLimitDue_iff s).1 hno)
  · exact settleStep_of_not_due (mt (timeoutDue_iff s h .lowering).1 hno)
  · exact settleStep_of_not_due (mt (timeoutDue_iff s h .lifting).1 hno)
  · exact exec_buildChoice_of_not_mayChoose (mt (mayChoose_iff s).1 hno)

end Sys2Proof.Machine
end
